-- ==== Sys2Proof/Word.lean ====
section
/-! DEFINITION. Word.lean: the word types of the Dalthen 5120 and its unit of time. -/

namespace Sys2Proof

/-- One byte of the link, one channel value of a colour. -/
abbrev Byte := BitVec 8

/-- A two-byte field: a tag, a stream sequence, a CRC, a counter counted to 65535. -/
abbrev Half := BitVec 16

/-- A four-byte field: the frame counter, a target frame, the pixels-written count. -/
abbrev Word := BitVec 32

/-- A moment or a span of time, in 24ths of a microsecond. The fractions of the period P that
Chapter 8 names (P/2, 0.875P, P, 1.125P, 1.25P, with P a whole number of microseconds), the step
durations of R88 and the bit-time of each link rate (R167) are whole numbers of this unit. -/
abbrev Time := Nat

/-- One character on HRX as the line carries it (R140): bit 0 is the start bit, bits 1 to 8 the data
bits, least significant first, bit 9 the stop bit. -/
abbrev Character := BitVec 10

end Sys2Proof
end

