-- ==== Sys2Proof/Syntax.lean ====
section
/-! DEFINITION. Syntax.lean: the commands of the block, one constructor per row of
spec/opcode_table.json, in the table's order.

A request row carries no operand: "the executor takes" the oldest WAITING frame (R149), and the
frame, body included, stands in State, where RX_BYTE put it byte by byte. An event row carries what
the outside world supplies at that moment and State cannot know. -/

namespace Sys2Proof

/-- The direction of a transition of FIN, and the values of the canvas field FIN edge (Table 7-1). -/
inductive Edge where
  | rise
  | fall
deriving DecidableEq, Repr

inductive Instr where
  /-- IDENTIFY (R168) -/
  | identify
  /-- STATUS (R169) -/
  | status
  /-- RESET (R170) -/
  | reset
  /-- NOTIFY (R135) -/
  | notify
  /-- CANVAS (R109) -/
  | canvas
  /-- LOAD-CURVE (R104, R105) -/
  | loadCurve
  /-- LOAD-PALETTE (R101) -/
  | loadPalette
  /-- DEFINE (R5 to R7) -/
  | define
  /-- DESTROY (R15 to R18) -/
  | destroy
  /-- SET-ATTR (R10, R11) -/
  | setAttr
  /-- QUERY (R20) -/
  | query
  /-- OPEN (R62, R63) -/
  | openStream
  /-- WRITE (R65 to R73, R93) -/
  | write
  /-- The end of the hold of a WRITE (R93) -/
  | writeHoldEnd
  /-- CLOSE (R76) -/
  | closeStream
  /-- READ (R80, R81) -/
  | read
  /-- FILL (R85, R86) -/
  | fill
  /-- COMMIT (R37 to R43) -/
  | commit
  /-- CANCEL (R57) -/
  | cancel
  /-- A frame whose KIND is no request (R160) -/
  | badKind
  /-- The internal timer expires (R127, R129) -/
  | internalTimerExpiry
  /-- FSY returns low (R134) -/
  | fsyPulseEnd
  /-- A transition of FIN in the direction given (R128) -/
  | finEdge (direction : Edge)
  /-- 1.25P pass in LOCKED without an accepted edge (R132) -/
  | lossDeadline
  /-- A line slot begins (R112, R113) -/
  | lineSlotStart
  /-- A carry copy completes (R32, R88) -/
  | copyStepComplete
  /-- A fill step completes (R31, R88) -/
  | fillStepComplete
  /-- A character is received on HRX (R140) -/
  | rxByte (c : Character)
  /-- The gap in a partial frame exceeds 500 µs (R141) -/
  | timeoutDiscard
  /-- HRX has been low for 200 µs (R155, R156) -/
  | linkBreak
  /-- HRX returns high after a BREAK (R156) -/
  | linkBreakEnd
  /-- The idle transmitter begins the head frame (R152) -/
  | transmitStart
  /-- The last byte of a part frame has been sent (R152) -/
  | transmitEnd
  /-- RSTN goes low (R166) -/
  | pinReset
  /-- Supply power ceases to be good (R166) -/
  | powerFail
  /-- RSTN goes high (R166) -/
  | rstnRelease
  /-- Supply power becomes good (R166) -/
  | powerGood
  /-- The part offers HELLO in STARTING (R166) -/
  | hello
deriving DecidableEq, Repr

end Sys2Proof
end

