-- ==== Sys2Proof/Decode.lean ====
section
/-! DEFINITION. Decode.lean: the command that a table word spells. No row of spec/opcode_table.json
gives bits ("fields" is empty in all 38), so no word spells a command. -/

namespace Sys2Proof

/-- No row of the table has an encoding, so no word decodes. -/
def decodeTableWord (_nbits _w : Nat) : Option Instr := none

end Sys2Proof
end

