-- ==== Sys2Proof/Config.lean ====
section
/-! DEFINITION. Config.lean: the FREE VALUES of the model, constants with no body. Each stands for a
choice that the spec leaves to the part; no proof can see which choice is made. The moment and the
counters they are applied to make each use a fresh choice. -/

namespace Sys2Proof

/-- R136, R153: at one boundary the timing generator's notices may stand in either order with those
of the other blocks, the COMMIT-DONE notices and the FILL-DONE of a completion that starts the part.
Applied to the moment of the boundary, the frame it begins and the place being filled; true puts the
timing generator's next notice there. -/
opaque Config.timingNoticeFirst : Time → Word → Nat → Bool

/-- A step completion that starts the frame clock (R54) both frees the engine (R87) and may mark
tiles STALE; the spec does not say which the arbiter sees first. True: the arbiter chooses before
the commit is applied. -/
opaque Config.arbiterFirst : Time → Word → Bool

/-- Check 7 of COMMIT (R40) with CANVAS and CURVE both held by pending commits: the spec does not
say which holder the reply names. Applied to the moment and the frame's SEQ; true: the canvas. -/
opaque Config.canvasHolderNamed : Time → Byte → Bool

/-- The moments at which PCLK clocks the pixels of a line within its slot are not given (R120 leaves
them to the AC timing). Applied to the start of the line's slot and to x: the time from the clock of
pixel x − 1 to that of pixel x, from the start mark of the line to its first clock where x is 0, and
from the last clock to the rest of the bus where x is the width. -/
opaque Config.clockGap : Time → Nat → Time

/-- What a code lane, 0 to 2, carries at a moment of a line's slot at which no pixel is clocked. R120
gives the lanes at each clock and R121 at rest. Applied to the moment and the lane. -/
opaque Config.laneBetween : Time → Nat → BitVec 12

end Sys2Proof
end

