-- ==== Sys2Proof/Machine/Store.lean ====
section
/-! DEFINITION. Machine/Store.lean: addressed stores as plain data, in one canonical form.

A store lists (address, value) pairs, addresses strictly rising, and lists no address whose value is
the one an unlisted address reads as. The pixel store of Chapter 2 is such a store of bytes; the
content states of the tiles, the palettes and the output curves are kept in the same form. -/

namespace Sys2Proof.Machine

/-- A store of values of `α`, read through the default `d : Nat → α` of the operations below. -/
abbrev Store (α : Type) := List (Nat × α)

/-- The value at address `a`; an unlisted address reads as `d a`. -/
def storeRead {α : Type} (d : Nat → α) : Store α → Nat → α
  | [], a => d a
  | (b, v) :: m, a => if b = a then v else storeRead d m a

/-- The entries that give `vs` to the addresses from `a` on, defaults left out. -/
def storeListing {α : Type} [DecidableEq α] (d : Nat → α) : Nat → List α → Store α
  | _, [] => []
  | a, v :: vs =>
    if v = d a then storeListing d (a + 1) vs else (a, v) :: storeListing d (a + 1) vs

/-- `m` with `vs` written to the addresses from `a` on. -/
def storeWrite {α : Type} [DecidableEq α] (d : Nat → α) (m : Store α) (a : Nat) (vs : List α) :
    Store α :=
  m.filter (fun e => decide (e.1 < a)) ++ storeListing d a vs ++
    m.filter (fun e => decide (a + vs.length ≤ e.1))

/-- The `n` values from address `a` on. -/
def storeReadRun {α : Type} (d : Nat → α) (m : Store α) (a n : Nat) : List α :=
  (List.range n).map (fun i => storeRead d m (a + i))

/-- The canonical form: addresses strictly rising, no entry equal to the default. -/
abbrev StoreWf {α : Type} [DecidableEq α] (d : Nat → α) (m : Store α) : Prop :=
  (m.map Prod.fst).Pairwise (· < ·) ∧ ∀ e ∈ m, e.2 ≠ d e.1

/-- The bytes of the pixel store. -/
abbrev Memory := List Host.Cell

/-- What an unlisted byte of the pixel store reads as (DESIGN CHOICE, log entry 3: R21 gives the
cells no contents at power-up, and no rule ever reads them before they are written). -/
def memoryDefault (_a : Nat) : Byte := 0

/-- One byte of the pixel store. -/
def Memory.read (m : Memory) (a : Nat) : Byte := storeRead memoryDefault m a

/-- The pixel store with `bs` written from address `a` on. -/
def Memory.write (m : Memory) (a : Nat) (bs : List Byte) : Memory :=
  storeWrite memoryDefault m a bs

/-- The pixel store is in its canonical form. -/
abbrev Memory.wf (m : Memory) : Prop := StoreWf memoryDefault m

end Sys2Proof.Machine
end

