-- ==== Sys2Proof/Machine/Parts.lean ====
section
/-! DEFINITION. Machine/Parts.lean: the state that each functional block of Table 0-1 owns, and its
value after a power, pin or soft reset. -/

namespace Sys2Proof.Machine

/-! ### Colours and tiles -/

/-- A 24-bit colour, R8G8B8 (R107). -/
structure Rgb where
  red : Byte
  green : Byte
  blue : Byte
deriving DecidableEq, Repr

/-- Black, (0, 0, 0). -/
def black : Rgb := ⟨0, 0, 0⟩

/-- A tile of the pixel store, 0..4095 (R21). -/
abbrev Tile := Fin 4096

/-- The content state of a tile (R21, Table 2-3). -/
inductive Content where
  | blank
  | data
  | stale
deriving DecidableEq, Repr

/-- The tile pool (Chapter 2): the free list, head first (R23); the content states by tile number,
BLANK where unlisted (R21); the pixel cells, three bytes each (red, green, blue), the cell c of tile
t at address 192·t + 3·c. -/
structure Pool where
  free : List Tile
  content : Store Content
  pixels : Memory
deriving DecidableEq, Repr

/-- R21: a tile is BLANK after a reset. -/
def contentDefault (_t : Nat) : Content := .blank

/-- The free list after a reset: every tile, in ascending order (R23). -/
def freeListReset : List Tile := List.finRange 4096

/-! ### Surface records (Chapter 1) -/

inductive SurfaceState where
  | free
  | staged
  | live
  | retiring
deriving DecidableEq, Repr

/-- Live attributes (Table 1-4). -/
structure Attrs where
  x : Int
  y : Int
  z : Byte
  opacity : Byte
  visible : Bool
  vx : Nat
  vy : Nat
  vw : Nat
  vh : Nat
  key : Option Rgb
deriving DecidableEq, Repr

/-- A staged key colour that is present: "set to colour" or "clear" (R9). -/
inductive StagedKey where
  | setTo (colour : Rgb)
  | clear
deriving DecidableEq, Repr

/-- Staged attributes: each present or absent (R9). -/
structure StagedAttrs where
  x : Option Int
  y : Option Int
  z : Option Byte
  opacity : Option Byte
  visible : Option Bool
  vx : Option Nat
  vy : Option Nat
  vw : Option Nat
  vh : Option Nat
  key : Option StagedKey
deriving DecidableEq, Repr

/-- One surface record (Table 1-1). A field that the record of a FREE id does not hold (size, banks,
bank lists, live attributes) stands at 0, empty or absent. -/
structure Surface where
  state : SurfaceState
  width : Nat
  height : Nat
  banks : Nat
  front : List Tile
  back : List Tile
  dirty : Bool
  live : Attrs
  staged : StagedAttrs
  stream : Option Nat
  pendingTag : Option Half
  fills : Nat
  stale : Nat
deriving DecidableEq, Repr

/-- The attributes of a record that holds none; QUERY of a FREE id reports them (R20). -/
def attrsNone : Attrs := ⟨0, 0, 0, 0, false, 0, 0, 0, 0, none⟩

/-- The empty staged set. -/
def stagedNone : StagedAttrs :=
  ⟨none, none, none, none, none, none, none, none, none, none⟩

/-- A FREE record (R2). -/
def surfaceFree : Surface :=
  ⟨.free, 0, 0, 0, [], [], false, attrsNone, stagedNone, none, none, 0, 0⟩

/-! ### Streams (Chapter 4) -/

inductive Format where
  | r565
  | r666
  | r888
  | l8
  | i8
deriving DecidableEq, Repr

inductive StreamMode where
  | wrap
  | stop
deriving DecidableEq, Repr

inductive StreamOrder where
  | down
  | up
deriving DecidableEq, Repr

/-- A stream in its slot (Table 4-1). `full` is the state FULL. -/
structure Stream where
  surface : Nat
  wx : Nat
  wy : Nat
  ww : Nat
  wh : Nat
  format : Format
  palette : Option Nat
  mode : StreamMode
  order : StreamOrder
  cx : Nat
  cy : Nat
  expected : Half
  residue : List Byte
  full : Bool
  written : Word
deriving DecidableEq, Repr

/-! ### Tile engine (Chapter 5) -/

/-- A queued fill job (Table 5-1). The tile sequence lists each position with its cover, true for
full (R84). -/
structure FillJob where
  number : Byte
  surface : Nat
  x : Nat
  y : Nat
  width : Nat
  height : Nat
  colour : Rgb
  tiles : List (Nat × Bool)
  progress : Nat
deriving DecidableEq, Repr

/-- The current step (Table 5-2). -/
inductive EngineStep where
  | idle
  | copy (surface position : Nat)
  | fill (job : Byte) (position : Nat)
deriving DecidableEq, Repr

/-- The tile engine (R83); `since` is the moment at which the current step began. -/
structure Engine where
  jobs : List FillJob
  counter : Byte
  step : EngineStep
  since : Time
deriving DecidableEq, Repr

def engineReset : Engine := ⟨[], 0, .idle, 0⟩

/-! ### Commit unit (Chapter 3) -/

/-- A commit record (Table 3-1). Its queue position is its place in the queue. -/
structure Commit where
  tag : Half
  carry : Bool
  canvas : Bool
  curve : Bool
  target : Option Word
  surfaces : List Nat
deriving DecidableEq, Repr

/-- An entry of the applied-commit record (R36). -/
structure Applied where
  tag : Half
  frame : Word
deriving DecidableEq, Repr

/-- The commit queue, head first (R35), and the applied-commit record, oldest first (R36). -/
structure CommitUnit where
  queue : List Commit
  applied : List Applied
deriving DecidableEq, Repr

def commitsReset : CommitUnit := ⟨[], []⟩

/-! ### Colour tables (Chapter 6) -/

/-- The colour tables: palette entry i of palette p at 256·p + i (R100); curve entry i of channel c
at 256·c + i (R102). -/
structure Colours where
  palettes : Store Rgb
  liveCurve : Store (BitVec 12)
  stagedCurve : Store (BitVec 12)
  modified : Bool
deriving DecidableEq, Repr

/-- R100: every palette entry is black after a reset. -/
def paletteDefault (_a : Nat) : Rgb := black

/-- R102: entry i of every channel is (i × 4095 + 127) div 255 after a reset. -/
def curveDefault (a : Nat) : BitVec 12 := BitVec.ofNat 12 (((a % 256) * 4095 + 127) / 255)

def coloursReset : Colours := ⟨[], [], [], false⟩

/-! ### Timing generator (Chapter 8) -/

inductive TimingState where
  | stopped
  | freeRun
  | seeking
  | locked
deriving DecidableEq, Repr

/-- Table 8-1; `interval` is the frame-notice interval k, `fsy` the level of the FSY pin. -/
structure Timing where
  state : TimingState
  frame : Word
  lastBoundary : Option Time
  lastEdge : Option Time
  good : Nat
  glitches : Half
  interval : Byte
  fsy : Bool
deriving DecidableEq, Repr

def timingReset : Timing := ⟨.stopped, 0, none, none, 0, 0, 0, false⟩

/-! ### Scan engine (Chapter 7) -/

inductive SyncMode where
  | off
  | internal
  | external
deriving DecidableEq, Repr

/-- The live canvas, all six fields (Table 7-1). -/
structure Canvas where
  width : Nat
  height : Nat
  background : Rgb
  mode : SyncMode
  period : Nat
  edge : Edge
deriving DecidableEq, Repr

/-- The staged canvas: each field present or absent (R108). -/
structure StagedCanvas where
  width : Option Nat
  height : Option Nat
  background : Option Rgb
  mode : Option SyncMode
  period : Option Nat
  edge : Option Edge
deriving DecidableEq, Repr

def stagedCanvasNone : StagedCanvas := ⟨none, none, none, none, none, none⟩

/-- The line slot L, exactly: numerator / denominator microseconds, 7P / (8H) (R111). -/
structure LineSlot where
  numerator : Nat
  denominator : Nat
deriving DecidableEq, Repr

/-- The three output codes of one canvas pixel (R106). -/
structure Codes where
  red : BitVec 12
  green : BitVec 12
  blue : BitVec 12
deriving DecidableEq, Repr

/-- The line being driven on the pixel output bus in its slot (R120): its number, whether FSTART
marks its start with LSTART, the codes of its pixels in order, and the moment its slot began. -/
structure DrivenLine where
  line : Nat
  frameStart : Bool
  codes : List Codes
  since : Time
deriving DecidableEq, Repr

/-- The scan engine (R108, Table 7-3). -/
structure Scan where
  live : Option Canvas
  staged : StagedCanvas
  scanning : Bool
  nextLine : Option Nat
  slot : Option LineSlot
  driven : Option DrivenLine
deriving DecidableEq, Repr

def scanReset : Scan := ⟨none, stagedCanvasNone, false, none, none, none⟩

/-! ### Host link and message executor (Chapter 9) -/

/-- The status of a reply (Table 10-4). -/
inductive Status where
  | ok
  | accepted
  | badKind
  | badLength
  | badField
  | noSurface
  | idInUse
  | noSpace
  | frozen
  | inCommit
  | streamOpen
  | noStream
  | noSlot
  | outOfOrder
  | streamFull
  | tooLarge
  | queueFull
  | duplicateId
  | tagInUse
  | notRunning
  | noCanvas
  | tooFar
  | notFound
  | tooLate
  | retiring
  | engineFull
deriving DecidableEq, Repr

/-- A host frame that has arrived: SEQ, KIND, body and received CRC (R143). -/
structure Request where
  seq : Byte
  kind : Byte
  body : List Byte
  crc : Half
deriving DecidableEq, Repr

/-- A reply as it is built (R149, R158). -/
structure Reply where
  kind : Byte
  tag : Byte
  status : Status
  body : List Byte
deriving DecidableEq, Repr

/-- A frame of the outbound queue. A reply carries the frame whose inbound buffer it holds
(REPLY-QUEUED) and whether the DUPLICATE mark is set; a notice carries the notice sequence number it
received at admission as its TAG. -/
inductive OutFrame where
  | reply (request : Request) (built : Reply) (duplicate : Bool)
  | notice (kind : Byte) (tag : Byte) (body : List Byte)
deriving DecidableEq, Repr

/-- The frame under execution. `orphan`: it was EXECUTING at a BREAK, so its execution completes
with no reply (R156). -/
structure Executing where
  request : Request
  orphan : Bool
deriving DecidableEq, Repr

/-- An entry of the reply history (R150). -/
structure HistoryEntry where
  seq : Byte
  crc : Half
  built : Reply
deriving DecidableEq, Repr

/-- The frame on HTX: the queue entry it came from, its bytes as sent, and the start of its
transmission. -/
structure Sending where
  frame : OutFrame
  bytes : List Byte
  since : Time
deriving DecidableEq, Repr

/-- The receive framer's states (Table 9-2). -/
inductive FramerState where
  | hunt
  | length
  | header
  | body
  | check
deriving DecidableEq, Repr

/-- The receive framer: its state, the bytes of the partial frame after SYNC, and the moment of the
last byte taken. -/
structure Framer where
  state : FramerState
  bytes : List Byte
  lastByte : Time
deriving DecidableEq, Repr

/-- The five link counters (R157). -/
structure LinkCounters where
  crc : Half
  timeout : Half
  length : Half
  overrun : Half
  duplicate : Half
deriving DecidableEq, Repr

/-- The host link and the message executor (Table 9-1). The 8 inbound buffers are held by stage:
`inbound` lists the WAITING frames in arrival order, `executing` is the EXECUTING frame, and each
reply of `outbound` names the REPLY-QUEUED frame whose buffer it holds; the other buffers are free.
`history` and `outbound` are oldest first. `paused`: the transmitter is paused since a BREAK. -/
structure Link where
  framer : Framer
  inbound : List Request
  executing : Option Executing
  history : List HistoryEntry
  outbound : List OutFrame
  sending : Option Sending
  paused : Bool
  noticeSeq : Byte
  lost : Half
  counters : LinkCounters
deriving DecidableEq, Repr

def framerReset : Framer := ⟨.hunt, [], 0⟩
def countersZero : LinkCounters := ⟨0, 0, 0, 0, 0⟩
def linkReset : Link := ⟨framerReset, [], none, [], [], none, false, 0, 0, countersZero⟩

/-! ### Part control and pins (Chapter 11) -/

inductive ControlState where
  | held
  | starting
  | running
  | resetPending
deriving DecidableEq, Repr

/-- The link rate in Mbit/s (Table 11-2). -/
inductive LinkRate where
  | mbit1
  | mbit3
  | mbit6
  | mbit12
deriving DecidableEq, Repr

/-- Part control: the control state (Table 11-1); when STARTING was entered and whether by a soft
reset; whether power has become good since the last HELLO was sent (R166); when RUNNING began
(R155); the link rate in force (R167). -/
structure Control where
  state : ControlState
  startingSince : Time
  softStart : Bool
  freshPower : Bool
  runningSince : Time
  rate : LinkRate
deriving DecidableEq, Repr

/-- The levels of the input pins (Table 11-3). `hrxLow`: HRX is low in a period long enough for a
BREAK; `breakTaken`: a BREAK has been taken for that period (R155). -/
structure Pins where
  hrxLow : Bool
  breakTaken : Bool
  lr1 : Bool
  lr0 : Bool
  rstnHigh : Bool
  finHigh : Bool
  powerGood : Bool
deriving DecidableEq, Repr

/-- Part control at a power or pin reset while the part is HELD. -/
def controlReset : Control := ⟨.held, 0, false, false, 0, .mbit1⟩

/-- The pins before power is applied: RSTN held low, HRX resting high (log entry 5). -/
def pinsReset : Pins := ⟨false, false, false, false, false, false, false⟩

end Sys2Proof.Machine
end

