-- ==== Sys2Proof/Machine/Encoding.lean ====
section
/-! DEFINITION. Machine/Encoding.lean: the bytes of numbers, codes, notices and frames, and the link
CRC (Chapter 10). -/

namespace Sys2Proof.Machine

/-! ### Numbers: little-endian (R162) -/

/-- The number that `bs` spells, least significant byte first. -/
def numberOf : List Byte → Nat
  | [] => 0
  | b :: bs => b.toNat + 256 * numberOf bs

/-- `n` in `k` bytes, least significant byte first; higher bytes are dropped. -/
def bytesOf : Nat → Nat → List Byte
  | 0, _ => []
  | k + 1, n => BitVec.ofNat 8 n :: bytesOf k (n / 256)

/-- The signed value of a 16-bit two's-complement field. -/
def signedOf (bs : List Byte) : Int := (BitVec.ofNat 16 (numberOf bs)).toInt

/-- A signed value as a 16-bit two's-complement field. -/
def signedBytes (v : Int) : List Byte := bytesOf 2 (BitVec.ofInt 16 v).toNat

/-- A yes/no byte. -/
def flagByte (b : Bool) : Byte := if b then 1 else 0

/-- A colour: red, green, blue (R107). -/
def colourBytes (c : Rgb) : List Byte := [c.red, c.green, c.blue]

/-- The colour that three bytes spell. -/
def colourOf (bs : List Byte) : Rgb := ⟨bs.getD 0 0, bs.getD 1 0, bs.getD 2 0⟩

/-! ### The CRC (R159) -/

/-- One step of the register: shift left, and exclusive-or with 0x1021 when the top bit was 1. -/
def crcShift (r : Half) : Half := if r.getLsbD 15 then (r <<< 1) ^^^ 0x1021#16 else r <<< 1

/-- `n` steps of the register. -/
def crcShifts : Nat → Half → Half
  | 0, r => r
  | n + 1, r => crcShifts n (crcShift r)

/-- One byte covered: into the upper 8 bits, then eight steps. -/
def crcByte (r : Half) (b : Byte) : Half := crcShifts 8 (r ^^^ (b.setWidth 16 <<< 8))

/-- The CRC of the bytes, in the order sent. -/
def crcOf (bs : List Byte) : Half := bs.foldl crcByte 0xFFFF#16

/-! ### Codes (Tables 10-3, 10-4, 10-5) -/

def Status.code : Status → Byte
  | .ok => 0
  | .accepted => 1
  | .badKind => 2
  | .badLength => 3
  | .badField => 4
  | .noSurface => 5
  | .idInUse => 6
  | .noSpace => 7
  | .frozen => 8
  | .inCommit => 9
  | .streamOpen => 10
  | .noStream => 11
  | .noSlot => 12
  | .outOfOrder => 13
  | .streamFull => 14
  | .tooLarge => 15
  | .queueFull => 16
  | .duplicateId => 17
  | .tagInUse => 18
  | .notRunning => 19
  | .noCanvas => 20
  | .tooFar => 21
  | .notFound => 22
  | .tooLate => 23
  | .retiring => 24
  | .engineFull => 25

def SurfaceState.code : SurfaceState → Byte
  | .free => 0
  | .staged => 1
  | .live => 2
  | .retiring => 3

def TimingState.code : TimingState → Byte
  | .stopped => 0
  | .freeRun => 1
  | .seeking => 2
  | .locked => 3

/-- The state of a slot: free, OPEN or FULL. -/
def streamCode : Option Stream → Byte
  | none => 0
  | some st => if st.full then 2 else 1

def formatOf : Nat → Option Format
  | 0 => some .r565
  | 1 => some .r666
  | 2 => some .r888
  | 3 => some .l8
  | 4 => some .i8
  | _ => none

def modeOf : Nat → Option StreamMode
  | 0 => some .wrap
  | 1 => some .stop
  | _ => none

def orderOf : Nat → Option StreamOrder
  | 0 => some .down
  | 1 => some .up
  | _ => none

def syncModeOf : Nat → Option SyncMode
  | 0 => some .off
  | 1 => some .internal
  | 2 => some .external
  | _ => none

def edgeOf : Nat → Option Edge
  | 0 => some .rise
  | 1 => some .fall
  | _ => none

def yesNoOf : Nat → Option Bool
  | 0 => some false
  | 1 => some true
  | _ => none

/-- The request KINDs of Table 10-3. -/
def requestKinds : List Byte :=
  [0x01, 0x02, 0x03, 0x04, 0x10, 0x11, 0x12, 0x20, 0x21, 0x22, 0x23, 0x30, 0x31, 0x32, 0x33, 0x34,
    0x40, 0x41]

/-- A KIND listed as a request in Table 10-3. -/
def isRequestKind (k : Byte) : Bool := requestKinds.contains k

/-! ### Notices (Table 10-13): KIND and body -/

/-- A notice as its block offers it (R165). -/
structure Notice where
  kind : Byte
  body : List Byte
deriving DecidableEq, Repr

/-- The thirteen bytes of the IDENTIFY reply (R168): family, revision and capacities. -/
def capacities : List Byte :=
  bytesOf 2 0x5120 ++ [1, 32] ++ bytesOf 2 4096 ++ [8, 4, 4, 8, 32] ++ bytesOf 2 1024

inductive HelloReason where
  | power
  | pin
  | soft
  | link
deriving DecidableEq, Repr

def HelloReason.code : HelloReason → Byte
  | .power => 0
  | .pin => 1
  | .soft => 2
  | .link => 3

inductive DiscardReason where
  | crc
  | timeout
  | length
  | overrun
deriving DecidableEq, Repr

def DiscardReason.code : DiscardReason → Byte
  | .crc => 0
  | .timeout => 1
  | .length => 2
  | .overrun => 3

/-- KIND of HELLO. -/
def helloKind : Byte := 0x60

def noticeHello (r : HelloReason) : Notice := ⟨helloKind, r.code :: capacities⟩

def noticeCommitDone (tag : Half) (frame : Word) (swapped : Nat) (late : Bool) : Notice :=
  ⟨0x61, bytesOf 2 tag.toNat ++ bytesOf 4 frame.toNat ++ bytesOf 1 swapped ++ [flagByte late]⟩

def noticeFillDone (job : Byte) (surface : Nat) (abandoned : Bool) : Notice :=
  ⟨0x62, [job] ++ bytesOf 1 surface ++ [flagByte abandoned]⟩

def noticeFrame (frame : Word) (st : TimingState) : Notice :=
  ⟨0x63, bytesOf 4 frame.toNat ++ [st.code]⟩

def noticeSyncLocked (frame : Word) (boundary : Bool) : Notice :=
  ⟨0x64, bytesOf 4 frame.toNat ++ [flagByte boundary]⟩

def noticeSyncLost (frame : Word) (glitches : Half) : Notice :=
  ⟨0x65, bytesOf 4 frame.toNat ++ bytesOf 2 glitches.toNat⟩

def noticeDiscard (r : DiscardReason) (seq : Option Byte) : Notice :=
  ⟨0x66, [r.code, flagByte seq.isSome, seq.getD 0]⟩

def noticeLost (n : Half) : Notice := ⟨0x67, bytesOf 2 n.toNat⟩

/-! ### Frames (Tables 10-1, 10-2) -/

/-- The SYNC byte of a host frame. -/
def hostSync : Byte := 0xA5

/-- A host frame on the wire (Table 10-1). -/
def hostFrameBytes (seq kind : Byte) (body : List Byte) : List Byte :=
  let covered := bytesOf 2 body.length ++ [seq, kind] ++ body
  hostSync :: (covered ++ bytesOf 2 (crcOf covered).toNat)

/-- A part frame on the wire (Table 10-2). -/
def partFrameBytes (kind tag status credits : Byte) (body : List Byte) : List Byte :=
  let covered := bytesOf 2 body.length ++ [kind, tag, status, credits] ++ body
  (0x5A : Byte) :: (covered ++ bytesOf 2 (crcOf covered).toNat)

/-- R161: the STATUS byte of a reply is its code, plus 128 when the DUPLICATE mark is set. -/
def statusByte (st : Status) (duplicate : Bool) : Byte :=
  if duplicate then st.code + 128 else st.code

/-- The bytes of a queued frame, its CREDITS filled in (R158). -/
def OutFrame.wire (f : OutFrame) (credits : Byte) : List Byte :=
  match f with
  | .reply _ r dup => partFrameBytes r.kind r.tag (statusByte r.status dup) credits r.body
  | .notice kind tag body => partFrameBytes kind tag 0 credits body

/-- The data byte of a character: bits 1 to 8, least significant first (R140). -/
def characterByte (c : Character) : Byte := c.extractLsb' 1 8

/-- The character has its stop bit high, so it is a byte (R140). -/
def characterIsByte (c : Character) : Bool := !c.getLsbD 0 && c.getLsbD 9

/-- The character that carries a byte. -/
def characterOf (b : Byte) : Character := (b.setWidth 10 <<< 1) ||| 0x200#10

end Sys2Proof.Machine
end

