-- ==== Sys2Proof/Machine/State.lean ====
section
/-! DEFINITION. Machine/State.lean: the whole state of the part, and its value after a power reset. -/

namespace Sys2Proof.Machine

/-- Why the part would stop. No rule of the spec makes a command stop the part: every command of the
table has an effect, and a request the part refuses is answered. So there is no fault. -/
inductive Fault where
deriving DecidableEq, Repr

/-- Why the model has no meaning for a command. -/
inductive Refusal where
  /-- Raised by `exec` for a command not modelled yet (none is left). Safe: the model stops where the
  part goes on. -/
  | notModelled (mnemonic : String)
deriving DecidableEq, Repr

/-- The state of the part, block by block (Table 0-1), with the clock of the model (`now`) and the
commands that are waiting (`pending`, first in, first out). -/
structure State where
  now : Time
  pending : List Instr
  pins : Pins
  control : Control
  link : Link
  surfaces : Vector Surface 32
  pool : Pool
  streams : Vector (Option Stream) 8
  engine : Engine
  commits : CommitUnit
  colours : Colours
  timing : Timing
  scan : Scan
deriving DecidableEq, Repr

/-- The part right after a power reset, RSTN still low and power not yet good: every block at its
reset value, the control state HELD (R166). -/
def State.reset : State :=
  { now := 0
    pending := []
    pins := pinsReset
    control := controlReset
    link := linkReset
    surfaces := Vector.replicate 32 surfaceFree
    pool := ⟨freeListReset, [], []⟩
    streams := Vector.replicate 8 none
    engine := engineReset
    commits := commitsReset
    colours := coloursReset
    timing := timingReset
    scan := scanReset }

end Sys2Proof.Machine
end

