-- ==== Sys2Proof/Machine/Flags.lean ====
section
/-! DEFINITION. Machine/Flags.lean: saturating counts, marks and conditions computed from the state:
freezes, readiness, lateness, dirty. -/

namespace Sys2Proof.Machine

/-- One more, stopping at 65535 (the saturating counters of R154 and R157, the glitch count). -/
def saturate16 (n : Half) : Half := if n = 0xFFFF#16 then n else n + 1

/-- One more, stopping at 2^32 − 1 (R71). -/
def saturate32 (n : Word) : Word := if n = 0xFFFFFFFF#32 then n else n + 1

/-- Chapter 0: frame a is at or past frame b when a − b, modulo 2^32, is below 2^31. -/
def atOrPast (a b : Word) : Bool := decide ((a - b).toNat < 2 ^ 31)

/-- R52: past is at or past and not equal. -/
def isPast (a b : Word) : Bool := atOrPast a b && a != b

/-- R12: a surface is frozen while its pending-commit field holds a tag. -/
def Surface.frozen (f : Surface) : Bool := f.pendingTag.isSome

/-- R1: double-banked. -/
def Surface.double (f : Surface) : Bool := f.banks == 2

/-- R44: the staged canvas is frozen exactly while a pending commit carries CANVAS. -/
def CommitUnit.canvasFrozen (c : CommitUnit) : Bool := c.queue.any (·.canvas)

/-- R44: the staged curve is frozen exactly while a pending commit carries CURVE. -/
def CommitUnit.curveFrozen (c : CommitUnit) : Bool := c.queue.any (·.curve)

/-- R11, R164: how many of the ten staged attributes are present. -/
def StagedAttrs.count (a : StagedAttrs) : Nat :=
  a.x.isSome.toNat + a.y.isSome.toNat + a.z.isSome.toNat + a.opacity.isSome.toNat +
    a.visible.isSome.toNat + a.vx.isSome.toNat + a.vy.isSome.toNat + a.vw.isSome.toNat +
    a.vh.isSome.toNat + a.key.isSome.toNat

/-- R109: how many of the six staged canvas fields are present. -/
def StagedCanvas.count (c : StagedCanvas) : Nat :=
  c.width.isSome.toNat + c.height.isSome.toNat + c.background.isSome.toNat +
    c.mode.isSome.toNat + c.period.isSome.toNat + c.edge.isSome.toNat

/-- The staged mask of the QUERY reply, bits as Table 10-7. -/
def StagedAttrs.mask (a : StagedAttrs) : Nat :=
  a.x.isSome.toNat + 2 * a.y.isSome.toNat + 4 * a.z.isSome.toNat + 8 * a.opacity.isSome.toNat +
    16 * a.visible.isSome.toNat + 32 * a.vx.isSome.toNat + 64 * a.vy.isSome.toNat +
    128 * a.vw.isSome.toNat + 256 * a.vh.isSome.toNat +
    match a.key with
    | none => 0
    | some (.setTo _) => 512
    | some .clear => 1024

end Sys2Proof.Machine
end

