-- ==== Sys2Proof/Machine/Operands.lean ====
section
/-! DEFINITION. Machine/Operands.lean: the fields of request bodies and their lengths (Section 10.5). -/

namespace Sys2Proof.Machine

/-- The number in the `n` bytes at offset `off` of a body. -/
def fieldAt (body : List Byte) (off n : Nat) : Nat := numberOf ((body.drop off).take n)

/-- The byte at an offset of a body. -/
def byteAt (body : List Byte) (off : Nat) : Byte := body.getD off 0

/-- An optional field of a masked body: its bytes when `present`, and the bytes behind it (R162). -/
def takeField (present : Bool) (size : Nat) (bs : List Byte) : Option (List Byte) × List Byte :=
  if present then (some (bs.take size), bs.drop size) else (none, bs)

/-- Bit `i` of a mask field. -/
def maskBit (m i : Nat) : Bool := m.testBit i

/-- The bytes that bit `i` adds when set. -/
def bitSize (m i size : Nat) : Nat := if maskBit m i then size else 0

/-! ### SET-ATTR (Table 10-7) -/

/-- The size of the fields a SET-ATTR mask marks present; undefined bits and key-clear add none. -/
def attrFieldsSize (m : Nat) : Nat :=
  bitSize m 0 2 + bitSize m 1 2 + bitSize m 2 1 + bitSize m 3 1 + bitSize m 4 1 + bitSize m 5 2 +
    bitSize m 6 2 + bitSize m 7 2 + bitSize m 8 2 + bitSize m 9 3

/-- The fields of a SET-ATTR body as numbers, before any range check. `visible` is the raw byte. -/
structure AttrFields where
  x : Option Int
  y : Option Int
  z : Option Byte
  opacity : Option Byte
  visible : Option Nat
  vx : Option Nat
  vy : Option Nat
  vw : Option Nat
  vh : Option Nat
  keySet : Option Rgb
  keyClear : Bool
  undefinedBits : Bool
deriving DecidableEq, Repr

/-- The fields of a SET-ATTR body: id (1), mask (2), present fields in ascending bit order. -/
def attrFieldsOf (body : List Byte) : AttrFields :=
  let m := fieldAt body 1 2
  let (x, b1) := takeField (maskBit m 0) 2 (body.drop 3)
  let (y, b2) := takeField (maskBit m 1) 2 b1
  let (z, b3) := takeField (maskBit m 2) 1 b2
  let (op, b4) := takeField (maskBit m 3) 1 b3
  let (vis, b5) := takeField (maskBit m 4) 1 b4
  let (vx, b6) := takeField (maskBit m 5) 2 b5
  let (vy, b7) := takeField (maskBit m 6) 2 b6
  let (vw, b8) := takeField (maskBit m 7) 2 b7
  let (vh, b9) := takeField (maskBit m 8) 2 b8
  let (key, _) := takeField (maskBit m 9) 3 b9
  { x := x.map signedOf
    y := y.map signedOf
    z := z.map (byteAt · 0)
    opacity := op.map (byteAt · 0)
    visible := vis.map numberOf
    vx := vx.map numberOf
    vy := vy.map numberOf
    vw := vw.map numberOf
    vh := vh.map numberOf
    keySet := key.map colourOf
    keyClear := maskBit m 10
    undefinedBits := decide (2 ^ 11 ≤ m) }

/-- `o` is absent or within `lo..hi`. -/
def absentOrIn (o : Option Nat) (lo hi : Nat) : Bool := o.all (fun v => decide (lo ≤ v ∧ v ≤ hi))

/-- A position is absent or within −1024..1023. -/
def positionOk (o : Option Int) : Bool := o.all (fun v => decide (-1024 ≤ v ∧ v ≤ 1023))

/-- R10, check 3, with R163: every value carried is in the range of Table 1-4 for this surface. -/
def attrFieldsOk (a : AttrFields) (width height : Nat) : Bool :=
  !a.undefinedBits && !(a.keySet.isSome && a.keyClear) && positionOk a.x && positionOk a.y &&
    absentOrIn a.visible 0 1 && absentOrIn a.vx 0 (width - 1) && absentOrIn a.vy 0 (height - 1) &&
    absentOrIn a.vw 1 width && absentOrIn a.vh 1 height

/-- The staged key that a request carries, if any. -/
def stagedKeyOf (a : AttrFields) : Option StagedKey :=
  if a.keyClear then some .clear else a.keySet.map .setTo

/-- R11: each attribute carried replaces the staged one; the others stay. -/
def stageAttrs (old : StagedAttrs) (a : AttrFields) : StagedAttrs :=
  { x := a.x.or old.x
    y := a.y.or old.y
    z := a.z.or old.z
    opacity := a.opacity.or old.opacity
    visible := (a.visible.map (· == 1)).or old.visible
    vx := a.vx.or old.vx
    vy := a.vy.or old.vy
    vw := a.vw.or old.vw
    vh := a.vh.or old.vh
    key := (stagedKeyOf a).or old.key }

/-! ### CANVAS (Table 10-8) -/

/-- The size of the fields a CANVAS mask marks present. -/
def canvasFieldsSize (m : Nat) : Nat :=
  bitSize m 0 2 + bitSize m 1 2 + bitSize m 2 3 + bitSize m 3 1 + bitSize m 4 2 + bitSize m 5 1

/-- The fields of a CANVAS body as numbers, before any range check. -/
structure CanvasFields where
  width : Option Nat
  height : Option Nat
  background : Option Rgb
  mode : Option Nat
  period : Option Nat
  edge : Option Nat
  undefinedBits : Bool
deriving DecidableEq, Repr

/-- The fields of a CANVAS body: mask (1), present fields in ascending bit order. -/
def canvasFieldsOf (body : List Byte) : CanvasFields :=
  let m := fieldAt body 0 1
  let (w, b1) := takeField (maskBit m 0) 2 (body.drop 1)
  let (h, b2) := takeField (maskBit m 1) 2 b1
  let (bg, b3) := takeField (maskBit m 2) 3 b2
  let (mo, b4) := takeField (maskBit m 3) 1 b3
  let (p, b5) := takeField (maskBit m 4) 2 b4
  let (e, _) := takeField (maskBit m 5) 1 b5
  { width := w.map numberOf
    height := h.map numberOf
    background := bg.map colourOf
    mode := mo.map numberOf
    period := p.map numberOf
    edge := e.map numberOf
    undefinedBits := decide (2 ^ 6 ≤ m) }

/-- Table 7-2, order 3, with R163: every value carried is in its range of Table 7-1. -/
def canvasFieldsOk (c : CanvasFields) : Bool :=
  !c.undefinedBits && absentOrIn c.width 8 512 && absentOrIn c.height 8 256 &&
    absentOrIn c.mode 0 2 && absentOrIn c.period 4000 50000 && absentOrIn c.edge 0 1

/-- R109: each field carried replaces the staged one; the others stay. -/
def stageCanvas (old : StagedCanvas) (c : CanvasFields) : StagedCanvas :=
  { width := c.width.or old.width
    height := c.height.or old.height
    background := c.background.or old.background
    mode := (c.mode.bind syncModeOf).or old.mode
    period := c.period.or old.period
    edge := (c.edge.bind edgeOf).or old.edge }

/-! ### COMMIT (Table 10-8) -/

/-- The offset of the count byte: 3, or 7 when the TARGET flag is set (R163). -/
def commitCountOffset (body : List Byte) : Nat := if maskBit (fieldAt body 2 1) 3 then 7 else 3

/-- The fields of a COMMIT body as numbers. -/
structure CommitFields where
  tag : Half
  flags : Nat
  target : Option Word
  ids : List Nat
deriving DecidableEq, Repr

def commitFieldsOf (body : List Byte) : CommitFields :=
  { tag := BitVec.ofNat 16 (fieldAt body 0 2)
    flags := fieldAt body 2 1
    target := if maskBit (fieldAt body 2 1) 3 then some (BitVec.ofNat 32 (fieldAt body 3 4)) else none
    ids := (body.drop (commitCountOffset body + 1)).map (·.toNat) }

/-- The commit record of an accepted request (Table 3-1). -/
def CommitFields.record (c : CommitFields) : Commit :=
  { tag := c.tag
    carry := maskBit c.flags 0
    canvas := maskBit c.flags 1
    curve := maskBit c.flags 2
    target := c.target
    surfaces := c.ids }

/-! ### Lists -/

/-- A byte list in groups of `k` bytes, the first `n` groups. -/
def groupsOf (k : Nat) : Nat → List Byte → List (List Byte)
  | 0, _ => []
  | n + 1, bs => bs.take k :: groupsOf k n (bs.drop k)

/-- The colours of a LOAD-PALETTE body. -/
def paletteEntriesOf (body : List Byte) : List Rgb :=
  (groupsOf 3 ((body.length - 2) / 3) (body.drop 2)).map colourOf

/-- The codes of a LOAD-CURVE body. -/
def curveEntriesOf (body : List Byte) : List Nat :=
  (groupsOf 2 ((body.length - 2) / 2) (body.drop 2)).map numberOf

/-! ### Lengths (R160 step 2, R163, Table 10-6) -/

/-- The body length is the one Table 10-6 gives for the KIND; where the form depends on a byte of
the body, a body too short to hold it has no right length. -/
def lengthOk (kind : Byte) (body : List Byte) : Bool :=
  let n := body.length
  if kind = 0x01 ∨ kind = 0x03 then decide (n = 0)
  else if kind = 0x02 ∨ kind = 0x04 ∨ kind = 0x21 ∨ kind = 0x23 ∨ kind = 0x32 then decide (n = 1)
  else if kind = 0x10 then decide (1 ≤ n ∧ n = 1 + canvasFieldsSize (fieldAt body 0 1))
  else if kind = 0x11 then decide (n % 2 = 0 ∧ 4 ≤ n ∧ n ≤ 514)
  else if kind = 0x12 then decide ((n - 2) % 3 = 0 ∧ 5 ≤ n ∧ n ≤ 770)
  else if kind = 0x20 then decide (n = 6)
  else if kind = 0x22 then decide (3 ≤ n ∧ n = 3 + attrFieldsSize (fieldAt body 1 2))
  else if kind = 0x30 then decide (n = 13)
  else if kind = 0x31 then decide (4 ≤ n ∧ n ≤ 1024)
  else if kind = 0x33 then decide (n = 10)
  else if kind = 0x34 then decide (n = 12)
  else if kind = 0x40 then
    decide (commitCountOffset body < n ∧
      n = commitCountOffset body + 1 + fieldAt body (commitCountOffset body) 1)
  else if kind = 0x41 then decide (n = 2)
  else false

end Sys2Proof.Machine
end

