-- ==== Sys2Proof/Machine/Ops.lean ====
section
/-! DEFINITION. Machine/Ops.lean: the named operations that the meanings share: block updates, the
outbound queue, replies, executing a request, and the resets. -/

namespace Sys2Proof.Machine

/-! ### Updates of one block -/

def State.withLink (s : State) (l : Link) : State := { s with link := l }
def State.withPool (s : State) (p : Pool) : State := { s with pool := p }
def State.withEngine (s : State) (e : Engine) : State := { s with engine := e }
def State.withCommits (s : State) (c : CommitUnit) : State := { s with commits := c }
def State.withColours (s : State) (c : Colours) : State := { s with colours := c }
def State.withTiming (s : State) (t : Timing) : State := { s with timing := t }
def State.withScan (s : State) (c : Scan) : State := { s with scan := c }
def State.withControl (s : State) (c : Control) : State := { s with control := c }
def State.withPins (s : State) (p : Pins) : State := { s with pins := p }

/-- The record of an id; an id above 31 has none and reads as FREE. -/
def State.surf (s : State) (id : Nat) : Surface := s.surfaces[id]?.getD surfaceFree

/-- The record of one id replaced. -/
def State.setSurf (s : State) (id : Nat) (f : Surface) : State :=
  { s with surfaces := s.surfaces.setIfInBounds id f }

/-- What a stream slot holds; a number above 7 is no slot. -/
def State.slotAt (s : State) (i : Nat) : Option Stream := s.streams[i]?.getD none

/-- One stream slot replaced. -/
def State.setSlot (s : State) (i : Nat) (st : Option Stream) : State :=
  { s with streams := s.streams.setIfInBounds i st }

/-- The surface ids, ascending. -/
def surfaceIds : List Nat := List.range 32

/-- The slot numbers, ascending. -/
def slotNumbers : List Nat := List.range 8

/-! ### The outbound queue (R151 to R154) -/

def OutFrame.isNotice : OutFrame → Bool
  | .notice _ _ _ => true
  | .reply _ _ _ => false

/-- How many notices are queued. -/
def Link.notices (l : Link) : Nat := l.outbound.countP (·.isNotice)

/-- How many replies are queued; each holds an inbound buffer. -/
def Link.replies (l : Link) : Nat := l.outbound.countP (fun f => !f.isNotice)

/-- R147: the inbound buffers that are held. -/
def Link.held (l : Link) : Nat :=
  l.inbound.length + (if l.executing.isSome then 1 else 0) + l.replies

/-- The free inbound buffers, the CREDITS of a frame that begins now (R148). -/
def Link.credits (l : Link) : Nat := 8 - l.held

/-- A notice joins the tail with the next notice sequence number. -/
def Link.enqueue (l : Link) (n : Notice) : Link :=
  { l with
    outbound := l.outbound ++ [.notice n.kind l.noticeSeq n.body]
    noticeSeq := l.noticeSeq + 1 }

/-- R153, R154: a notice is offered, and admitted (behind a LOST notice when notices have been lost)
or lost in the same event. -/
def Link.offer (l : Link) (n : Notice) : Link :=
  if l.lost = 0 ∧ l.notices < 24 then l.enqueue n
  else if l.lost ≠ 0 ∧ l.notices < 23 then
    { (l.enqueue (noticeLost l.lost)).enqueue n with lost := 0 }
  else { l with lost := saturate16 l.lost }

/-- Notices offered one after another. -/
def Link.offerAll (l : Link) (ns : List Notice) : Link := ns.foldl Link.offer l

def State.offer (s : State) (n : Notice) : State := s.withLink (s.link.offer n)
def State.offerAll (s : State) (ns : List Notice) : State := s.withLink (s.link.offerAll ns)

/-- R136: two blocks' notices of one event in an order the spec leaves open; within each block the
order stands. `pick i` true puts the second list's next notice in place i. The first argument bounds
the number of places left to fill. -/
def interleave (pick : Nat → Bool) : Nat → Nat → List Notice → List Notice → List Notice
  | n + 1, i, x :: xs, y :: ys =>
    if pick i then y :: interleave pick n (i + 1) (x :: xs) ys
    else x :: interleave pick n (i + 1) xs (y :: ys)
  | _, _, xs, ys => xs ++ ys

/-! ### Replies and the reply history (R149, R150) -/

/-- R150: the entry becomes the newest; an entry of the same SEQ goes, else the oldest of eight. -/
def enterHistory (h : List HistoryEntry) (e : HistoryEntry) : List HistoryEntry :=
  if h.any (·.seq == e.seq) then h.filter (·.seq != e.seq) ++ [e]
  else (if h.length < 8 then h else h.drop (h.length - 7)) ++ [e]

/-- What the owning block decided: the status and the body of the reply (R161). -/
structure Answer where
  status : Status
  body : List Byte
deriving DecidableEq, Repr

/-- The reply to a request (R149). -/
def replyTo (f : Request) (a : Answer) : Reply := ⟨f.kind + 0x80, f.seq, a.status, a.body⟩

/-- R149, R150: the reply joins the tail of the outbound queue and the history in one event; the
frame's buffer is REPLY-QUEUED and the executor IDLE. -/
def Link.queueReply (l : Link) (f : Request) (r : Reply) : Link :=
  { l with
    executing := none
    outbound := l.outbound ++ [.reply f r false]
    history := enterHistory l.history ⟨f.seq, f.crc, r⟩ }

def State.queueReply (s : State) (f : Request) (r : Reply) : State :=
  s.withLink (s.link.queueReply f r)

/-- The frame that the executor takes next: the oldest WAITING frame, when the part is RUNNING and
the executor IDLE (R149, R170). -/
def State.nextRequest (s : State) : Option Request :=
  match s.control.state, s.link.executing, s.link.inbound with
  | .running, none, f :: _ => some f
  | _, _, _ => none

/-- The executor has taken the oldest WAITING frame. -/
def State.takeRequest (s : State) : State :=
  s.withLink { s.link with inbound := s.link.inbound.tail }

/-- R149, R160: the executor takes the next frame if its KIND is `kind`, refuses a body of the wrong
length, hands the rest to the owning block, and queues the reply. In any other state the command
does not occur and nothing changes (log entry 7). -/
def State.serve (s : State) (kind : Byte) (handle : List Byte → State → State × Answer) : State :=
  match s.nextRequest with
  | none => s
  | some f =>
    if f.kind = kind then
      if lengthOk kind f.body then
        let r := handle f.body s.takeRequest
        r.1.queueReply f (replyTo f r.2)
      else s.takeRequest.queueReply f (replyTo f ⟨.badLength, []⟩)
    else s

/-- A refusal: nothing changes but the reply (R161). -/
def refuse (s : State) (st : Status) (body : List Byte := []) : State × Answer := (s, ⟨st, body⟩)

/-- R4: the surface checks that come before a request's own; `none` when the id passes. -/
def surfaceCheck (s : State) (id : Nat) : Option Status :=
  if 31 < id then some .badField
  else match (s.surf id).state with
    | .free => some .noSurface
    | .retiring => some .retiring
    | .staged | .live => none

/-! ### Resets -/

/-- Every block but part control, the pins, the clock and the waiting commands takes its value after
a power, pin or soft reset. R21: the pixel cells keep their contents. -/
def State.resetBlocks (s : State) : State :=
  { s with
    link := linkReset
    surfaces := Vector.replicate 32 surfaceFree
    pool := ⟨freeListReset, [], s.pool.pixels⟩
    streams := Vector.replicate 8 none
    engine := engineReset
    commits := commitsReset
    colours := coloursReset
    timing := timingReset
    scan := scanReset }

/-- R166: the part is HELD with every block at its reset values. -/
def State.enterHeld (s : State) : State :=
  s.resetBlocks.withControl { s.control with state := .held, softStart := false }

/-- The link rate that the straps name (Table 11-2). -/
def strapRate (p : Pins) : LinkRate :=
  match p.lr1, p.lr0 with
  | false, false => .mbit1
  | false, true => .mbit3
  | true, false => .mbit6
  | true, true => .mbit12

/-- R166, R167: STARTING is entered, and the straps are read. -/
def State.enterStarting (s : State) (soft : Bool) : State :=
  s.withControl { s.control with
    state := .starting
    startingSince := s.now
    softStart := soft
    rate := strapRate s.pins }

/-- R170, R171: a soft reset takes effect. A transmitter that a BREAK left paused stays paused. -/
def State.softReset (s : State) : State :=
  let t := s.resetBlocks
  (t.withLink { t.link with paused := s.link.paused }).enterStarting true

end Sys2Proof.Machine
end

