-- ==== Sys2Proof/Machine/Tiles.lean ====
section
/-! DEFINITION. Machine/Tiles.lean: tiles, banks, content states, allocation, release, swap, carry
marking, pixel writes, fill steps and carry copies (Chapter 2). -/

namespace Sys2Proof.Machine

/-! ### Geometry (R26) -/

/-- ⌈w/8⌉. -/
def tilesAcross (w : Nat) : Nat := (w + 7) / 8

/-- The tile count of one bank, ⌈width/8⌉ × ⌈height/8⌉ (R1). -/
def tileCount (w h : Nat) : Nat := tilesAcross w * tilesAcross h

/-- The tile position of content pixel (x, y). -/
def positionOfPixel (w x y : Nat) : Nat := y / 8 * tilesAcross w + x / 8

/-- The cell of content pixel (x, y) within its tile. -/
def cellOfPixel (x y : Nat) : Nat := y % 8 * 8 + x % 8

/-! ### Pixel cells -/

/-- The bytes of one tile. -/
def tileBytes : Nat := 192

/-- The address of the first byte of a cell. -/
def cellAddress (t : Tile) (cell : Nat) : Nat := tileBytes * t.val + 3 * cell

/-- The colour that a cell holds. -/
def readCell (m : Memory) (t : Tile) (cell : Nat) : Rgb :=
  ⟨m.read (cellAddress t cell), m.read (cellAddress t cell + 1), m.read (cellAddress t cell + 2)⟩

/-- A cell set to a colour. -/
def writeCell (m : Memory) (t : Tile) (cell : Nat) (c : Rgb) : Memory :=
  m.write (cellAddress t cell) (colourBytes c)

/-- All 64 cells of a tile set to one colour. -/
def paintTile (m : Memory) (t : Tile) (c : Rgb) : Memory :=
  m.write (cellAddress t 0) ((List.replicate 64 (colourBytes c)).flatten)

/-- All 64 cells of tile `dst` copied from tile `src`. -/
def copyTile (m : Memory) (src dst : Tile) : Memory :=
  m.write (cellAddress dst 0) (storeReadRun memoryDefault m (cellAddress src 0) tileBytes)

/-! ### Content states -/

/-- The content state of a tile. -/
def Pool.contentOf (p : Pool) (t : Tile) : Content := storeRead contentDefault p.content t.val

/-- One tile's content state replaced. -/
def Pool.setContent (p : Pool) (t : Tile) (c : Content) : Pool :=
  { p with content := storeWrite contentDefault p.content t.val [c] }

/-- Every tile of a list set to one content state. -/
def Pool.setContents (p : Pool) (ts : List Tile) (c : Content) : Pool :=
  ts.foldl (fun q t => q.setContent t c) p

/-- Of the tiles of a list, those that are STALE. -/
def Pool.staleIn (p : Pool) (ts : List Tile) : List Tile :=
  ts.filter (fun t => p.contentOf t == .stale)

/-! ### Allocation and release (R24, R25) -/

/-- The first `n` tiles of the free list, BLANK, and the pool without them. -/
def Pool.allocate (p : Pool) (n : Nat) : List Tile × Pool :=
  let q : Pool := { p with free := p.free.drop n }
  (p.free.take n, q.setContents (p.free.take n) .blank)

/-- R25: the tiles of a surface join the tail of the free list, front bank then back bank in position
order, BLANK, and the record becomes FREE (R2). -/
def State.releaseSurface (s : State) (id : Nat) : State :=
  let f := s.surf id
  let ts := f.front ++ f.back
  let p : Pool := { s.pool with free := s.pool.free ++ ts }
  (s.withPool (p.setContents ts .blank)).setSurf id surfaceFree

/-- R19: every RETIRING surface becomes FREE, in ascending order of id. -/
def State.retireAll (s : State) : State :=
  surfaceIds.foldl
    (fun t id => if (t.surf id).state = .retiring then t.releaseSurface id else t) s

/-! ### Swap and carry marking (R33, R29) -/

/-- R33: the two bank lists change places; tiles keep number, cells and content state. -/
def Surface.swapBanks (f : Surface) : Surface := { f with front := f.back, back := f.front }

/-- R29: every tile of the back bank becomes STALE and the stale count becomes the tile count. -/
def State.markCarry (s : State) (id : Nat) : State :=
  let f := s.surf id
  (s.withPool (s.pool.setContents f.back .stale)).setSurf id
    { f with stale := tileCount f.width f.height }

/-! ### Reading (R27) -/

/-- A cell of a tile position of a bank, read through the content state. A STALE tile reads as the
front tile at its position. -/
def State.readTileCell (s : State) (f : Surface) (bank : List Tile) (pos cell : Nat) : Rgb :=
  match bank[pos]? with
  | none => black
  | some t =>
    match s.pool.contentOf t with
    | .blank => black
    | .data => readCell s.pool.pixels t cell
    | .stale =>
      match f.front[pos]? with
      | none => black
      | some u =>
        match s.pool.contentOf u with
        | .data => readCell s.pool.pixels u cell
        | .blank | .stale => black

/-- Content pixel (x, y) of a bank of a surface (R26, R27). -/
def State.readPixel (s : State) (f : Surface) (bank : List Tile) (x y : Nat) : Rgb :=
  s.readTileCell f bank (positionOfPixel f.width x y) (cellOfPixel x y)

/-! ### Writing (R30 to R32) -/

/-- The bank that streams and fills write: the back bank of a double-banked surface, else the one
bank (R73, R86). -/
def Surface.drawBank (f : Surface) : List Tile := if f.double then f.back else f.front

/-- The surface's stale count falls by 1. -/
def State.lowerStale (s : State) (id : Nat) : State :=
  s.setSurf id { s.surf id with stale := (s.surf id).stale - 1 }

/-- The cells that a STALE tile at a position takes: those of the front tile, or black. -/
def State.carryCells (s : State) (f : Surface) (pos : Nat) (t : Tile) : Memory :=
  match f.front[pos]? with
  | some u =>
    match s.pool.contentOf u with
    | .data => copyTile s.pool.pixels u t
    | .blank | .stale => paintTile s.pool.pixels t black
  | none => paintTile s.pool.pixels t black

/-- A tile has cells of its own, `m` being the pixel store that holds them; a STALE tile's surface
loses one from its stale count (R28). -/
def State.makeData (s : State) (id : Nat) (t : Tile) (m : Memory) : State :=
  let p : Pool := { s.pool with pixels := m }
  let u := s.withPool (p.setContent t .data)
  if s.pool.contentOf t = .stale then u.lowerStale id else u

/-- R30: a BLANK or STALE tile is given cells of its own that read as it read before. -/
def State.resolveTile (s : State) (id : Nat) (pos : Nat) (t : Tile) : State :=
  match s.pool.contentOf t with
  | .data => s
  | .blank => s.makeData id t (paintTile s.pool.pixels t black)
  | .stale => s.makeData id t (s.carryCells (s.surf id) pos t)

/-- R30, R73: one pixel is written into the bank that streams draw in, through the tile pool. -/
def State.writePixel (s : State) (id x y : Nat) (c : Rgb) : State :=
  let f := s.surf id
  let pos := positionOfPixel f.width x y
  match f.drawBank[pos]? with
  | none => s
  | some t =>
    let u := s.resolveTile id pos t
    u.withPool { u.pool with pixels := writeCell u.pool.pixels t (cellOfPixel x y) c }

/-- A rectangle of content pixels. -/
structure Rect where
  x : Nat
  y : Nat
  width : Nat
  height : Nat
deriving DecidableEq, Repr

/-- The rectangle covers content pixel (px, py). -/
def Rect.covers (r : Rect) (px py : Nat) : Bool :=
  decide (r.x ≤ px ∧ px < r.x + r.width ∧ r.y ≤ py ∧ py < r.y + r.height)

/-- R31: the rectangle includes every content pixel of the tile in column `col`, row `row`. -/
def Rect.coversTile (r : Rect) (w h col row : Nat) : Bool :=
  decide (r.x ≤ 8 * col ∧ min (8 * col + 8) w ≤ r.x + r.width ∧
    r.y ≤ 8 * row ∧ min (8 * row + 8) h ≤ r.y + r.height)

/-- The cells of the tile at a position that the rectangle covers. -/
def Rect.cellsIn (r : Rect) (w pos : Nat) : List Nat :=
  (List.range 64).filter (fun cell =>
    r.covers (8 * (pos % tilesAcross w) + cell % 8) (8 * (pos / tilesAcross w) + cell / 8))

/-- R84: the tile sequence of a rectangle, each position with its cover (true for full). -/
def tileSequence (w h : Nat) (r : Rect) : List (Nat × Bool) :=
  (List.range ((r.y + r.height - 1) / 8 + 1 - r.y / 8)).flatMap fun dr =>
    (List.range ((r.x + r.width - 1) / 8 + 1 - r.x / 8)).map fun dc =>
      ((r.y / 8 + dr) * tilesAcross w + (r.x / 8 + dc),
        r.coversTile w h (r.x / 8 + dc) (r.y / 8 + dr))

/-- R31: one fill step on one tile, taken whole. -/
def State.fillTile (s : State) (id pos : Nat) (full : Bool) (r : Rect) (c : Rgb) : State :=
  let f := s.surf id
  match f.drawBank[pos]? with
  | none => s
  | some t =>
    if full then s.makeData id t (paintTile s.pool.pixels t c)
    else
      let u := s.resolveTile id pos t
      u.withPool { u.pool with
        pixels := (r.cellsIn f.width pos).foldl (fun m cell => writeCell m t cell c) u.pool.pixels }

/-- R32: a carry copy of one tile completes. A tile that is no longer STALE is left unchanged; one
over a BLANK front tile becomes BLANK, its cells not written. The tile is the one that stands at the
step's position at the completion, which a swap under the step may have changed (DEDUCED, log entry
22). -/
def State.completeCopy (s : State) (id pos : Nat) : State :=
  let f := s.surf id
  match f.back[pos]? with
  | none => s
  | some t =>
    if s.pool.contentOf t = .stale then
      match f.front[pos]? with
      | none => s
      | some u =>
        if s.pool.contentOf u = .data then s.makeData id t (copyTile s.pool.pixels u t)
        else (s.withPool (s.pool.setContent t .blank)).lowerStale id
    else s

end Sys2Proof.Machine
end

