-- ==== Sys2Proof/Machine/Pixels.lean ====
section
/-! DEFINITION. Machine/Pixels.lean: conversion of ingest formats to 24-bit colours, the colour
tables, blending and the composition of a canvas pixel (Chapters 6 and 7). -/

namespace Sys2Proof.Machine

/-! ### Ingest formats (Table 6-1) -/

def Format.bytesPerPixel : Format → Nat
  | .r565 => 2
  | .r666 => 3
  | .r888 => 3
  | .l8 => 1
  | .i8 => 1

/-- R97: a 5-bit level, expanded. -/
def expand5 (r : Nat) : Byte := BitVec.ofNat 8 (r * 8 + r / 4)

/-- R97, R98: a 6-bit level, expanded. -/
def expand6 (g : Nat) : Byte := BitVec.ofNat 8 (g * 4 + g / 16)

/-- R97: an R565 pixel, low byte first. -/
def convert565 (low high : Byte) : Rgb :=
  let v := low.toNat + 256 * high.toNat
  ⟨expand5 (v / 2048), expand6 (v / 32 % 64), expand5 (v % 32)⟩

/-- R98: one byte of an R666 pixel. -/
def convert666 (b : Byte) : Byte := expand6 (b.toNat / 4)

/-- The colour of palette entry `i` of palette `p` (R100). -/
def Colours.paletteEntry (c : Colours) (p i : Nat) : Rgb :=
  storeRead paletteDefault c.palettes (256 * p + i)

/-- The code of entry `i` of a channel of the live curve (R106). -/
def Colours.liveCode (c : Colours) (channel i : Nat) : BitVec 12 :=
  storeRead curveDefault c.liveCurve (256 * channel + i)

/-- R96 to R99: the 24-bit colour of one complete pixel. -/
def convertPixel (colours : Colours) (fmt : Format) (palette : Option Nat) (bs : List Byte) : Rgb :=
  match fmt with
  | .r565 => convert565 (byteAt bs 0) (byteAt bs 1)
  | .r666 => ⟨convert666 (byteAt bs 0), convert666 (byteAt bs 1), convert666 (byteAt bs 2)⟩
  | .r888 => colourOf bs
  | .l8 => ⟨byteAt bs 0, byteAt bs 0, byteAt bs 0⟩
  | .i8 => colours.paletteEntry (palette.getD 0) (byteAt bs 0).toNat

/-! ### Composition (Section 7.3) -/

/-- R119: the blend of one channel, source `s` over `b` at opacity `a`. -/
def blendChannel (a s b : Byte) : Byte :=
  BitVec.ofNat 8 ((a.toNat * s.toNat + (255 - a.toNat) * b.toNat + 127) / 255)

/-- R119: the blend of a source colour over the colour below. -/
def blend (a : Byte) (s b : Rgb) : Rgb :=
  ⟨blendChannel a s.red b.red, blendChannel a s.green b.green, blendChannel a s.blue b.blue⟩

/-- R115, Table 7-5: LIVE or RETIRING, and visible. -/
def Surface.composed (f : Surface) : Bool :=
  (f.state == .live || f.state == .retiring) && f.live.visible

/-- An id takes its place in a list ascending in (z, id), ids being offered in ascending order. -/
def insertByZ (z : Nat → Nat) (id : Nat) : List Nat → List Nat
  | [] => [id]
  | j :: js => if z id < z j then id :: j :: js else j :: insertByZ z id js

/-- R115: the composed surfaces in ascending order of (z, id). -/
def State.stackingOrder (s : State) : List Nat :=
  (surfaceIds.filter (fun id => (s.surf id).composed)).foldl
    (fun acc id => insertByZ (fun i => (s.surf i).live.z.toNat) id acc) []

/-- R116: the surface covers canvas pixel (x, y). -/
def Surface.coversPixel (f : Surface) (x y : Nat) : Bool :=
  decide (f.live.x ≤ (x : Int) ∧ (x : Int) < f.live.x + f.live.vw ∧
    f.live.y ≤ (y : Int) ∧ (y : Int) < f.live.y + f.live.vh)

/-- R117: the source coordinate along one axis: (p − position + view) mod size. -/
def sourceCoordinate (p : Nat) (position : Int) (view size : Nat) : Nat :=
  (((p : Int) - position + view) % (size : Int)).toNat

/-- R117: the source pixel of a surface at canvas pixel (x, y), from the front bank. -/
def State.sourcePixel (s : State) (f : Surface) (x y : Nat) : Rgb :=
  s.readPixel f f.front (sourceCoordinate x f.live.x f.live.vx f.width)
    (sourceCoordinate y f.live.y f.live.vy f.height)

/-- R118: a composed surface modifies the colour below at canvas pixel (x, y). -/
def State.composeOver (s : State) (f : Surface) (x y : Nat) (below : Rgb) : Rgb :=
  if f.coversPixel x y then
    let src := s.sourcePixel f x y
    if f.live.key = some src then below else blend f.live.opacity src below
  else below

/-- The composed colour of canvas pixel (x, y), from the background upward (R118). -/
def State.composePixel (s : State) (background : Rgb) (x y : Nat) : Rgb :=
  s.stackingOrder.foldl (fun below id => s.composeOver (s.surf id) x y below) background

/-- R106, R120: the three codes of a colour through the live curve. -/
def Colours.codes (c : Colours) (p : Rgb) : Codes :=
  ⟨c.liveCode 0 p.red.toNat, c.liveCode 1 p.green.toNat, c.liveCode 2 p.blue.toNat⟩

/-- R113: the codes of line `k`, columns 0 to W − 1. -/
def State.composeLine (s : State) (c : Canvas) (k : Nat) : List Codes :=
  (List.range c.width).map (fun x => s.colours.codes (s.composePixel c.background x k))

end Sys2Proof.Machine
end

