-- ==== Sys2Proof/Machine/ColourTables.lean ====
section
/-! DEFINITION. Machine/ColourTables.lean: LOAD_PALETTE and LOAD_CURVE (Chapter 6). -/

namespace Sys2Proof.Machine

/-- R101: entries `first` to `first + n − 1` of a palette replaced. -/
def Colours.loadPalette (c : Colours) (palette first : Nat) (entries : List Rgb) : Colours :=
  { c with palettes := storeWrite paletteDefault c.palettes (256 * palette + first) entries }

/-- R105: entries of a channel of the staged curve replaced, and the modified mark set. -/
def Colours.loadCurve (c : Colours) (channel first : Nat) (codes : List Nat) : Colours :=
  { c with
    stagedCurve := storeWrite curveDefault c.stagedCurve (256 * channel + first)
      (codes.map (BitVec.ofNat 12))
    modified := true }

/-- LOAD-PALETTE, checked in the order of Table 6-3. -/
def handleLoadPalette (body : List Byte) (s : State) : State × Answer :=
  let palette := fieldAt body 0 1
  let first := fieldAt body 1 1
  let entries := paletteEntriesOf body
  if 3 < palette then refuse s .badField
  else if 256 < first + entries.length then refuse s .badField
  else
    (s.withColours (s.colours.loadPalette palette first entries),
      ⟨.ok, bytesOf 1 palette ++ bytesOf 1 first ++ bytesOf 2 entries.length⟩)

/-- LOAD-PALETTE (R101). -/
def execLoadPalette (s : State) : Host.Outcome State Fault Refusal :=
  .next (s.serve 0x12 handleLoadPalette)

/-- LOAD-CURVE, checked in the order of Table 6-6. -/
def handleLoadCurve (body : List Byte) (s : State) : State × Answer :=
  let channel := fieldAt body 0 1
  let first := fieldAt body 1 1
  let codes := curveEntriesOf body
  if s.commits.curveFrozen then refuse s .frozen
  else if 2 < channel then refuse s .badField
  else if 256 < first + codes.length then refuse s .badField
  else if codes.any (fun v => decide (4095 < v)) then refuse s .badField
  else
    (s.withColours (s.colours.loadCurve channel first codes),
      ⟨.ok, bytesOf 1 channel ++ bytesOf 1 first ++ bytesOf 2 codes.length⟩)

/-- LOAD-CURVE (R104, R105). -/
def execLoadCurve (s : State) : Host.Outcome State Fault Refusal :=
  .next (s.serve 0x11 handleLoadCurve)

end Sys2Proof.Machine
end

