-- ==== Sys2Proof/Machine/Arbiter.lean ====
section
/-! DEFINITION. Machine/Arbiter.lean: the tile engine's choice of its next step (R87). -/

namespace Sys2Proof.Machine

/-- The lowest-numbered surface with a stale count above 0. -/
def State.sweepSurface (s : State) : Option Nat :=
  surfaceIds.find? (fun id => decide (0 < (s.surf id).stale))

/-- The lowest position of a bank whose tile is STALE. -/
def Pool.lowestStale (p : Pool) (bank : List Tile) : Option Nat :=
  bank.findIdx? (fun t => p.contentOf t == .stale)

/-- R87, case 1: the carry copy that is due, if any surface is owed one. -/
def State.dueCopy (s : State) : Option EngineStep :=
  match s.sweepSurface with
  | none => none
  | some id => (s.pool.lowestStale (s.surf id).back).map (fun pos => .copy id pos)

/-- R87, case 2: the head job's next tile. -/
def State.dueFill (s : State) : Option EngineStep :=
  match s.engine.jobs with
  | [] => none
  | j :: _ => j.tiles[j.progress]?.map (fun e => .fill j.number e.1)

/-- R87: what the arbiter gives an idle engine. -/
def State.choice (s : State) : EngineStep := (s.dueCopy.or s.dueFill).getD .idle

/-- R87: the arbiter chooses when the current step is IDLE with work outstanding; a step under way is
not preempted. -/
def State.arbitrate (s : State) : State :=
  if s.engine.step = .idle ∧ s.choice ≠ .idle then
    s.withEngine { s.engine with step := s.choice, since := s.now }
  else s

/-- The step is over and the engine IDLE. -/
def State.endStep (s : State) : State := s.withEngine { s.engine with step := .idle }

end Sys2Proof.Machine
end

