-- ==== Sys2Proof/Machine/Boundary.lean ====
section
/-! DEFINITION. Machine/Boundary.lean: readiness, the application of commits, the frame boundary, and
starting and stopping the frame clock (Chapter 3, Chapter 8). -/

namespace Sys2Proof.Machine

/-! ### Readiness (R46) -/

/-- R46, conditions 1 and 2: the engine owes the surface nothing. -/
def Surface.settled (f : Surface) : Bool := f.stale == 0 && f.fills == 0

/-- R46: the commit is ready, `n` being the number compared (R48). -/
def State.ready (s : State) (n : Word) (c : Commit) : Bool :=
  c.surfaces.all (fun id => (s.surf id).settled) && c.target.all (fun t => atOrPast n t)

/-! ### Application (R50 to R52) -/

/-- R8: each staged attribute that is present replaces the live one. One equal to the live value does so
too, and nothing else records it as the change of R9 (DEDUCED, log entry 26). -/
def Attrs.apply (a : Attrs) (g : StagedAttrs) : Attrs :=
  { x := g.x.getD a.x
    y := g.y.getD a.y
    z := g.z.getD a.z
    opacity := g.opacity.getD a.opacity
    visible := g.visible.getD a.visible
    vx := g.vx.getD a.vx
    vy := g.vy.getD a.vy
    vw := g.vw.getD a.vw
    vh := g.vh.getD a.vh
    key := match g.key with
      | none => a.key
      | some (.setTo c) => some c
      | some .clear => none }

/-- R50, step 4: the surface is double-banked and dirty. -/
def Surface.swaps (f : Surface) : Bool := f.double && f.dirty

/-- R50, steps 1 to 4 and 6, on the record. -/
def Surface.applied (f : Surface) : Surface :=
  let g := { f with
    live := f.live.apply f.staged
    staged := stagedNone
    state := if f.state = .staged then .live else f.state
    pendingTag := none }
  if f.swaps then { g.swapBanks with dirty := false } else g

/-- R50: the application of a commit to one surface of its list. -/
def State.applySurface (s : State) (carry : Bool) (id : Nat) : State :=
  let t := s.setSurf id (s.surf id).applied
  if carry && (s.surf id).swaps then t.markCarry id else t

/-- The surfaces of a list that a commit swaps. -/
def State.swapCount (s : State) (ids : List Nat) : Nat := ids.countP (fun id => (s.surf id).swaps)

/-- R51: the live canvas after the staged fields replace it. -/
def applyCanvasFields (live : Option Canvas) (g : StagedCanvas) : Canvas :=
  { width := (g.width.or (live.map (·.width))).getD 0
    height := (g.height.or (live.map (·.height))).getD 0
    background := (g.background.or (live.map (·.background))).getD black
    mode := (g.mode.or (live.map (·.mode))).getD .off
    period := (g.period.or (live.map (·.period))).getD 0
    edge := (g.edge.or (live.map (·.edge))).getD .rise }

/-- R125: one of the three clock fields changes; all do when the live canvas was absent. -/
def clockChanges (before : Option Canvas) (after : Canvas) : Bool :=
  match before with
  | none => true
  | some b => b.mode != after.mode || b.period != after.period || b.edge != after.edge

/-- R125: the timing state of a sync mode. -/
def SyncMode.timing : SyncMode → TimingState
  | .off => .stopped
  | .internal => .freeRun
  | .external => .seeking

/-- R51, R125: the staged canvas is made live, and the timing generator follows a clock change. -/
def State.applyCanvas (s : State) : State :=
  let after := applyCanvasFields s.scan.live s.scan.staged
  let t := s.withScan { s.scan with live := some after, staged := stagedCanvasNone }
  if clockChanges s.scan.live after then
    t.withTiming { t.timing with state := after.mode.timing, good := 0, lastEdge := none }
  else t

/-- R51, R103: the staged curve is made live when it is marked modified. -/
def State.applyCurve (s : State) : State :=
  if s.colours.modified then
    s.withColours { s.colours with liveCurve := s.colours.stagedCurve, modified := false }
  else s

/-- R36: an entry joins the applied-commit record as the newest; the oldest of four goes. -/
def recordApplied (r : List Applied) (e : Applied) : List Applied :=
  (if r.length < 4 then r else r.drop (r.length - 3)) ++ [e]

/-- The COMMIT-DONE notice of a commit applied in frame `n` (R52). -/
def commitDone (s : State) (c : Commit) (n : Word) : Notice :=
  noticeCommitDone c.tag n (s.swapCount c.surfaces) (c.target.any (fun t => isPast n t))

/-- R50, R51: the head commit `c` is applied whole; `n` is its frame number. Its COMMIT-DONE
(`commitDone`) is offered by the event that applies it. -/
def State.applyCommit (s : State) (c : Commit) (n : Word) : State :=
  let t := c.surfaces.foldl (fun u id => u.applySurface c.carry id) s
  let t := if c.canvas then t.applyCanvas else t
  let t := if c.curve then t.applyCurve else t
  t.withCommits { queue := t.commits.queue.tail, applied := recordApplied t.commits.applied ⟨c.tag, n⟩ }

/-- R49: the head is applied if ready, then each new head, until one is not ready or the timing
generator is STOPPED. The second result lists the COMMIT-DONE notices in application order. -/
def State.applyReady (n : Word) : List Commit → State → State × List Notice
  | [], s => (s, [])
  | c :: cs, s =>
    if s.ready n c then
      let t := s.applyCommit c n
      if t.timing.state = .stopped then (t, [commitDone s c n])
      else
        let r := State.applyReady n cs t
        (r.1, commitDone s c n :: r.2)
    else (s, [])

/-! ### The frame boundary (R124) -/

/-- R124, R134: the counter rises, the moment is kept, FSY goes high. -/
def State.countBoundary (s : State) : State :=
  s.withTiming { s.timing with
    frame := s.timing.frame + 1
    lastBoundary := some s.now
    fsy := true }

/-- R111: the slot of the frame that a boundary begins, 7P / (8H). -/
def Canvas.lineSlot (c : Canvas) : LineSlot := ⟨7 * c.period, 8 * c.height⟩

/-- R111, R112: the frame being scanned ends, a line being driven is broken off, and a new frame
begins; or the scan engine becomes IDLE when the timing generator is STOPPED, next line and line slot
being absent then as after a reset (DESIGN CHOICE, log entry 23). -/
def State.beginFrame (s : State) : State :=
  match s.timing.state, s.scan.live with
  | .stopped, _ | _, none =>
    s.withScan { s.scan with scanning := false, nextLine := none, slot := none, driven := none }
  | _, some c =>
    s.withScan { s.scan with
      scanning := true, nextLine := some 0, slot := some c.lineSlot, driven := none }

/-- R136: the FRAME notice of a boundary, when one is due. -/
def State.frameNotice (s : State) : List Notice :=
  if s.timing.interval.toNat ≠ 0 ∧ s.timing.frame.toNat % s.timing.interval.toNat = 0 then
    [noticeFrame s.timing.frame s.timing.state]
  else []

/-- R124: one frame boundary, taken whole. `sync` is the SYNC-LOCKED or SYNC-LOST notice of the
event that makes it, which stands before the FRAME notice (R130, R132); `lead` is the FILL-DONE notice
of a completion that starts the part, which stands before the COMMIT-DONE notices (R54). Between the
two lists the order is free (R136, R153). -/
def State.boundary (s : State) (lead sync : List Notice) : State :=
  let s1 := s.countBoundary
  let r := State.applyReady s1.timing.frame s1.commits.queue s1
  let t := r.1.retireAll.beginFrame
  let clock := sync ++ t.frameNotice
  let order := interleave (Config.timingNoticeFirst s.now s1.timing.frame)
    ((lead ++ r.2).length + clock.length) 0 (lead ++ r.2) clock
  (t.offerAll order).arbitrate

/-! ### While STOPPED (R47, R48, R54, R55) -/

/-- The live sync mode after the staged canvas is made live. -/
def State.modeAfter (s : State) : SyncMode := (applyCanvasFields s.scan.live s.scan.staged).mode

/-- The number that the target of a CANVAS head is compared with while STOPPED (R48). -/
def State.stoppedNumber (s : State) : Word :=
  if s.modeAfter = .off then s.timing.frame else s.timing.frame + 1

/-- The head that a STOPPED part applies now: it carries CANVAS and is ready (R47). -/
def State.stoppedHead (s : State) : Option Commit :=
  match s.timing.state, s.commits.queue with
  | .stopped, c :: _ => if c.canvas && s.ready s.stoppedNumber c then some c else none
  | _, _ => none

/-- R54, R55: the readiness of a CANVAS head is decided while STOPPED. A ready head is applied: as
the first boundary when the mode becomes INTERNAL or EXTERNAL, else without a boundary. `lead` is the
FILL-DONE notice of a completion that is the moment for it. -/
def State.decideStopped (s : State) (lead : List Notice) : State :=
  match s.stoppedHead with
  | none => s.offerAll lead
  | some c =>
    if s.modeAfter = .off then
      ((s.applyCommit c s.timing.frame).offerAll
        (lead ++ [commitDone s c s.timing.frame])).arbitrate
    else s.boundary lead []

/-- What follows the completion of an engine step: its FILL-DONE notice, if it has one, readiness
while STOPPED, when this completion is a moment for it (R47), and the arbiter's next choice (R87), the
last two in the order of `Config.arbiterFirst` where both have work. -/
def State.afterStep (s : State) (decide : Bool) (done : List Notice) : State :=
  if decide then
    if s.stoppedHead.isSome && Config.arbiterFirst s.now s.timing.frame then
      s.arbitrate.decideStopped done
    else (s.decideStopped done).arbitrate
  else (s.offerAll done).arbitrate

end Sys2Proof.Machine
end

