-- ==== Sys2Proof/Machine/CommitRequests.lean ====
section
/-! DEFINITION. Machine/CommitRequests.lean: COMMIT and CANCEL (Chapter 3). -/

namespace Sys2Proof.Machine

/-! ### COMMIT (R37 to R43) -/

/-- The place of the first commit of a queue that satisfies `p`, and the commit. -/
def firstCommit (p : Commit → Bool) (q : List Commit) : Option (Nat × Commit) :=
  (q.findIdx? p).bind (fun i => q[i]?.map (fun c => (i, c)))

/-- Check 6 (R40): a required canvas field is in neither canvas. -/
def Scan.lacksField (sc : Scan) : Bool :=
  sc.live.isNone && (sc.staged.width.isNone || sc.staged.height.isNone ||
    sc.staged.mode.isNone || sc.staged.period.isNone)

/-- Check 7 (R40): the holder byte and the tag of the commit that holds CANVAS or CURVE against this
one. Where each is held, the spec leaves open which is named (`Config.canvasHolderNamed`). -/
def State.flagHolder (s : State) (c : Commit) (seq : Byte) : Option (Byte × Half) :=
  let canvas := if c.canvas then firstCommit (·.canvas) s.commits.queue else none
  let curve := if c.curve then firstCommit (·.curve) s.commits.queue else none
  match canvas, curve with
  | none, none => none
  | some h, none => some (0, h.2.tag)
  | none, some h => some (1, h.2.tag)
  | some h, some g => if Config.canvasHolderNamed s.now seq then some (0, h.2.tag) else some (1, g.2.tag)

/-- Check 8: the first id that stands earlier in the list too. -/
def firstRepeat : List Nat → List Nat → Option Nat
  | _, [] => none
  | seen, id :: ids => if seen.contains id then some id else firstRepeat (id :: seen) ids

/-- Checks 3 to 12 in the order of Table 3-2: the status and details of the first that fails. -/
def State.commitRefusal (s : State) (c : Commit) (seq : Byte) : Option Answer :=
  let q := s.commits.queue
  if 4 ≤ q.length then some ⟨.queueFull, []⟩
  else match firstCommit (fun d => d.tag == c.tag) q with
  | some (i, _) => some ⟨.tagInUse, bytesOf 1 i⟩
  | none =>
  if s.timing.state = .stopped ∧ ¬ c.canvas then some ⟨.notRunning, []⟩
  else if c.canvas && s.scan.lacksField then some ⟨.noCanvas, []⟩
  else match s.flagHolder c seq with
  | some (holder, tag) => some ⟨.inCommit, [holder, 0xFF] ++ bytesOf 2 tag.toNat⟩
  | none =>
  match firstRepeat [] c.surfaces with
  | some id => some ⟨.duplicateId, bytesOf 1 id⟩
  | none =>
  match c.surfaces.find? (fun id =>
      (s.surf id).state == .free || (s.surf id).state == .retiring) with
  | some id =>
    some ⟨if (s.surf id).state = .free then .noSurface else .retiring, bytesOf 1 id⟩
  | none =>
  match c.surfaces.find? (fun id => (s.surf id).frozen) with
  | some id =>
    some ⟨.inCommit, [2] ++ bytesOf 1 id ++ bytesOf 2 ((s.surf id).pendingTag.getD 0).toNat⟩
  | none =>
  match c.surfaces.find? (fun id => (s.surf id).double && (s.surf id).stream.isSome) with
  | some id => some ⟨.streamOpen, bytesOf 1 id ++ bytesOf 1 ((s.surf id).stream.getD 0)⟩
  | none =>
  match c.target with
  | some t =>
    if 65535 < (t - s.timing.frame).toNat then some ⟨.tooFar, bytesOf 4 s.timing.frame.toNat⟩
    else none
  | none => none

/-- R43: the tag is written into the pending-commit field of every surface in a list. -/
def State.freeze (s : State) (ids : List Nat) (tag : Half) : State :=
  ids.foldl (fun t id => t.setSurf id { t.surf id with pendingTag := some tag }) s

/-- R43: the commit joins the tail of the queue and freezes what it names. -/
def State.acceptCommit (s : State) (c : Commit) : State :=
  (s.withCommits { s.commits with queue := s.commits.queue ++ [c] }).freeze c.surfaces c.tag

/-- COMMIT, checked in the order of Table 3-2 (its length has been checked). -/
def handleCommit (seq : Byte) (body : List Byte) (s : State) : State × Answer :=
  let a := commitFieldsOf body
  let c := a.record
  if 16 ≤ a.flags ∨ 32 < a.ids.length ∨ a.ids.any (fun id => decide (31 < id)) then refuse s .badField
  else if a.ids.isEmpty && !c.canvas && !c.curve then refuse s .badField
  else match s.commitRefusal c seq with
    | some r => refuse s r.status r.body
    | none =>
      (s.acceptCommit c,
        ⟨.ok, bytesOf 2 c.tag.toNat ++ bytesOf 1 s.commits.queue.length ++
          bytesOf 1 (s.commits.queue.length + 1)⟩)

/-- R47: the head of the queue changed, which is a moment for readiness while STOPPED. -/
def State.decideIfHeadChanged (before after : State) : State :=
  if after.commits.queue.head? = before.commits.queue.head? then after else after.decideStopped []

/-- The SEQ of the frame the executor takes next. -/
def State.nextSeq (s : State) : Byte := (s.nextRequest.map (·.seq)).getD 0

/-- COMMIT (R37 to R43). While STOPPED a ready CANVAS head is applied once the reply is queued
(R54, R55). -/
def execCommit (s : State) : Host.Outcome State Fault Refusal :=
  .next (s.decideIfHeadChanged (s.serve 0x40 (handleCommit s.nextSeq)))

/-! ### CANCEL (R57) -/

/-- R57: the freezes of a list of surfaces end. -/
def State.thaw (s : State) (ids : List Nat) : State :=
  ids.foldl (fun t id => t.setSurf id { t.surf id with pendingTag := none }) s

/-- R57, case 1: the commit in place `i` leaves the queue. -/
def State.removeCommit (s : State) (i : Nat) (c : Commit) : State :=
  (s.withCommits { s.commits with queue := s.commits.queue.eraseIdx i }).thaw c.surfaces

/-- CANCEL: the first case of R57 that matches decides. -/
def handleCancel (body : List Byte) (s : State) : State × Answer :=
  let tag : Half := BitVec.ofNat 16 (fieldAt body 0 2)
  match firstCommit (fun c => c.tag == tag) s.commits.queue with
  | some (i, c) =>
    (s.removeCommit i c, ⟨.ok, bytesOf 1 i ++ bytesOf 1 (s.commits.queue.length - 1)⟩)
  | none =>
    match s.commits.applied.reverse.find? (fun e => e.tag == tag) with
    | some e => refuse s .tooLate (bytesOf 4 e.frame.toNat)
    | none => refuse s .notFound

/-- CANCEL (R57). While STOPPED a new ready CANVAS head is applied once the reply is queued (R58). -/
def execCancel (s : State) : Host.Outcome State Fault Refusal :=
  .next (s.decideIfHeadChanged (s.serve 0x41 handleCancel))

end Sys2Proof.Machine
end

