-- ==== Sys2Proof/Machine/Surfaces.lean ====
section
/-! DEFINITION. Machine/Surfaces.lean: DEFINE, DESTROY, SET_ATTR and QUERY (Chapter 1). -/

namespace Sys2Proof.Machine

/-! ### DEFINE (R5 to R7) -/

/-- R7, Table 1-4: the live attributes at DEFINE. -/
def attrsDefault (width height : Nat) : Attrs :=
  ⟨0, 0, 0, 255, true, 0, 0, width, height, none⟩

/-- R7: the record of an accepted DEFINE. -/
def definedSurface (width height banks : Nat) (front back : List Tile) : Surface :=
  { surfaceFree with
    state := .staged
    width := width
    height := height
    banks := banks
    front := front
    back := back
    live := attrsDefault width height }

/-- R6, R7: the banks are allocated, front bank first, and the id becomes STAGED. -/
def State.defineSurface (s : State) (id width height banks : Nat) : State :=
  let n := tileCount width height
  let a := s.pool.allocate n
  let b := if banks = 2 then a.2.allocate n else ([], a.2)
  (s.withPool b.2).setSurf id (definedSurface width height banks a.1 b.1)

/-- DEFINE, checked in the order of Table 1-3. -/
def handleDefine (body : List Byte) (s : State) : State × Answer :=
  let id := fieldAt body 0 1
  let width := fieldAt body 1 2
  let height := fieldAt body 3 2
  let banks := fieldAt body 5 1
  let need := banks * tileCount width height
  if 31 < id ∨ width < 1 ∨ 512 < width ∨ height < 1 ∨ 256 < height ∨ (banks ≠ 1 ∧ banks ≠ 2) then
    refuse s .badField
  else if (s.surf id).state = .staged ∨ (s.surf id).state = .live then refuse s .idInUse
  else if (s.surf id).state = .retiring then refuse s .retiring
  else if s.pool.free.length < need then refuse s .noSpace (bytesOf 2 s.pool.free.length)
  else
    let t := s.defineSurface id width height banks
    (t, ⟨.ok, bytesOf 2 (tileCount width height) ++ bytesOf 2 t.pool.free.length⟩)

/-- DEFINE (R5 to R7). -/
def execDefine (s : State) : Host.Outcome State Fault Refusal := .next (s.serve 0x20 handleDefine)

/-! ### DESTROY (R15 to R18) -/

/-- R18, step 1: the surface's stream is closed. -/
def State.closeStreamOf (s : State) (id : Nat) : State :=
  match (s.surf id).stream with
  | none => s
  | some i => (s.setSlot i none).setSurf id { s.surf id with stream := none }

/-- The surface whose tile the current step works on. -/
def Engine.stepSurface (e : Engine) : Option Nat :=
  match e.step with
  | .idle => none
  | .copy id _ => some id
  | .fill job _ => (e.jobs.find? (·.number == job)).map (·.surface)

/-- The tile that DESTROY blanks for a COPY in progress: the one that stands at the step's position of
the back bank when DESTROY is taken. A swap under the step may have put it there (DEDUCED, log entry
24). -/
def State.copyTarget (s : State) (id : Nat) : List Tile :=
  match s.engine.step with
  | .copy i pos => if i = id then ((s.surf id).back[pos]?).toList else []
  | .idle | .fill _ _ => []

/-- R18, steps 2 and 3, R92: the carry sweep and the fill jobs of the surface are abandoned. The tile
of a COPY in progress becomes BLANK too, one that a WRITE has resolved to DATA included (DEDUCED, log
entry 21). Returns the jobs removed, in queue order. -/
def State.abandonWork (s : State) (id : Nat) : State × List FillJob :=
  let f := s.surf id
  let t := s.withPool (s.pool.setContents (s.pool.staleIn f.back ++ s.copyTarget id) .blank)
  let e := s.engine
  let step := if e.stepSurface = some id then .idle else e.step
  ((t.setSurf id { f with stale := 0, fills := 0 }).withEngine
      { e with jobs := e.jobs.filter (·.surface != id), step := step },
    e.jobs.filter (·.surface == id))

/-- R18: the work aimed at the surface is abandoned, each removed job giving a FILL-DONE notice with
outcome ABANDONED. -/
def State.abandonAll (s : State) (id : Nat) : State × List FillJob :=
  let r := (s.closeStreamOf id).abandonWork id
  (r.1.offerAll (r.2.map (fun j => noticeFillDone j.number id true)), r.2)

/-- DESTROY, checked in the order of Table 1-6. -/
def handleDestroy (body : List Byte) (s : State) : State × Answer :=
  let id := fieldAt body 0 1
  match surfaceCheck s id with
  | some st => refuse s st
  | none =>
    if (s.surf id).frozen then refuse s .inCommit
    else
      let r := s.abandonAll id
      if (s.surf id).state = .staged then
        ((r.1.releaseSurface id).arbitrate,
          ⟨.ok, [SurfaceState.free.code] ++ bytesOf 1 r.2.length⟩)
      else
        ((r.1.setSurf id { r.1.surf id with state := .retiring, staged := stagedNone }).arbitrate,
          ⟨.ok, [SurfaceState.retiring.code] ++ bytesOf 1 r.2.length⟩)

/-- DESTROY (R15 to R18). -/
def execDestroy (s : State) : Host.Outcome State Fault Refusal := .next (s.serve 0x21 handleDestroy)

/-! ### SET-ATTR (R10, R11) -/

/-- SET-ATTR, checked in the order of R10. -/
def handleSetAttr (body : List Byte) (s : State) : State × Answer :=
  let id := fieldAt body 0 1
  match surfaceCheck s id with
  | some st => refuse s st
  | none =>
    let f := s.surf id
    let a := attrFieldsOf body
    if f.frozen then refuse s .frozen
    else if !attrFieldsOk a f.width f.height then refuse s .badField
    else
      let g := stageAttrs f.staged a
      (s.setSurf id { f with staged := g }, ⟨.ok, bytesOf 1 g.count⟩)

/-- SET-ATTR (R10, R11). -/
def execSetAttr (s : State) : Host.Outcome State Fault Refusal := .next (s.serve 0x22 handleSetAttr)

/-! ### QUERY (R20) -/

/-- The three bytes of an optional colour; absent is sent as zeros. -/
def optionalColour (c : Option Rgb) : List Byte := colourBytes (c.getD black)

/-- The QUERY reply of a record (Table 10-11). -/
def queryBody (f : Surface) : List Byte :=
  [f.state.code] ++ bytesOf 2 f.width ++ bytesOf 2 f.height ++ bytesOf 1 f.banks ++
    signedBytes f.live.x ++ signedBytes f.live.y ++
    [f.live.z, f.live.opacity, flagByte f.live.visible] ++
    bytesOf 2 f.live.vx ++ bytesOf 2 f.live.vy ++ bytesOf 2 f.live.vw ++ bytesOf 2 f.live.vh ++
    [flagByte f.live.key.isSome] ++ optionalColour f.live.key ++
    bytesOf 2 f.staged.mask ++
    signedBytes (f.staged.x.getD 0) ++ signedBytes (f.staged.y.getD 0) ++
    [f.staged.z.getD 0, f.staged.opacity.getD 0, flagByte (f.staged.visible.getD false)] ++
    bytesOf 2 (f.staged.vx.getD 0) ++ bytesOf 2 (f.staged.vy.getD 0) ++
    bytesOf 2 (f.staged.vw.getD 0) ++ bytesOf 2 (f.staged.vh.getD 0) ++
    optionalColour (match f.staged.key with
      | some (.setTo c) => some c
      | some .clear | none => none) ++
    (match f.stream with
      | some i => bytesOf 1 i
      | none => [0xFF]) ++
    [flagByte f.pendingTag.isSome] ++ bytesOf 2 (f.pendingTag.getD 0).toNat ++
    bytesOf 2 f.stale ++ bytesOf 1 f.fills ++ [flagByte f.dirty]

/-- QUERY: every id 0..31 is answered. -/
def handleQuery (body : List Byte) (s : State) : State × Answer :=
  let id := fieldAt body 0 1
  if 31 < id then refuse s .badField else (s, ⟨.ok, queryBody (s.surf id)⟩)

/-- QUERY (R20). -/
def execQuery (s : State) : Host.Outcome State Fault Refusal := .next (s.serve 0x23 handleQuery)

end Sys2Proof.Machine
end

