-- ==== Sys2Proof/Machine/Fills.lean ====
section
/-! DEFINITION. Machine/Fills.lean: FILL, COPY_STEP_COMPLETE and FILL_STEP_COMPLETE (Chapter 5). -/

namespace Sys2Proof.Machine

/-! ### FILL (R85, R86) -/

/-- R86, steps 1 to 4, and the arbiter's choice when the engine is IDLE. -/
def State.queueFill (s : State) (id : Nat) (r : Rect) (c : Rgb) : State :=
  let f := s.surf id
  let job : FillJob :=
    { number := s.engine.counter
      surface := id
      x := r.x
      y := r.y
      width := r.width
      height := r.height
      colour := c
      tiles := tileSequence f.width f.height r
      progress := 0 }
  let t := s.withEngine { s.engine with jobs := s.engine.jobs ++ [job], counter := s.engine.counter + 1 }
  (t.setSurf id { f with fills := f.fills + 1, dirty := f.dirty || f.double }).arbitrate

/-- FILL, checked in the order of Table 5-3. -/
def handleFill (body : List Byte) (s : State) : State × Answer :=
  let id := fieldAt body 0 1
  let r : Rect := ⟨fieldAt body 1 2, fieldAt body 3 2, fieldAt body 5 2, fieldAt body 7 2⟩
  match surfaceCheck s id with
  | some st => refuse s st
  | none =>
    let f := s.surf id
    if r.width = 0 ∨ r.height = 0 ∨ f.width < r.x + r.width ∨ f.height < r.y + r.height then
      refuse s .badField
    else if f.double && f.frozen then refuse s .frozen
    else if 4 ≤ s.engine.jobs.length then refuse s .engineFull
    else
      (s.queueFill id r (colourOf (body.drop 9)),
        ⟨.accepted, [s.engine.counter] ++ bytesOf 1 s.engine.jobs.length ++
          bytesOf 2 (tileSequence f.width f.height r).length ++ bytesOf 1 (f.fills + 1)⟩)

/-- FILL (R85, R86). -/
def execFill (s : State) : Host.Outcome State Fault Refusal := .next (s.serve 0x34 handleFill)

/-! ### Step completions (R88) -/

/-- 1.0 µs, the length of a COPY step. -/
def copyTime : Time := 24

/-- 0.5 µs, the length of a FILL step. -/
def fillTime : Time := 12

/-- The head of the commit queue names the surface. -/
def State.headNames (s : State) (id : Nat) : Bool :=
  match s.commits.queue with
  | [] => false
  | c :: _ => c.surfaces.contains id

/-- R32, R88, R89: a carry copy completes. While STOPPED, the fall of a named surface's stale count
to 0 is a moment for readiness (R47). -/
def State.copyCompletes (s : State) (id pos : Nat) : State :=
  let t := (s.completeCopy id pos).endStep
  t.afterStep (decide (0 < (s.surf id).stale) && (t.surf id).stale == 0 && t.headNames id) []

/-- The current step is a COPY that began 1.0 µs ago. -/
def State.copyDue (s : State) : Option (Nat × Nat) :=
  match s.engine.step with
  | .copy id pos => if s.engine.since + copyTime ≤ s.now then some (id, pos) else none
  | .idle | .fill _ _ => none

/-- COPY_STEP_COMPLETE (R32, R88). -/
def execCopyStepComplete (s : State) : Host.Outcome State Fault Refusal :=
  .next (match s.copyDue with
    | none => s
    | some (id, pos) => s.copyCompletes id pos)

/-- The rectangle of a job. -/
def FillJob.rect (j : FillJob) : Rect := ⟨j.x, j.y, j.width, j.height⟩

/-- R91: the head job leaves the queue, and the surface's outstanding fills fall by 1. -/
def State.finishJob (s : State) (j : FillJob) : State :=
  (s.withEngine { s.engine with jobs := s.engine.jobs.tail }).setSurf j.surface
    { s.surf j.surface with fills := (s.surf j.surface).fills - 1 }

/-- R88, R91: a fill step of the head job `j` on the tile at `pos` completes. The last one ends the
job, with a FILL-DONE notice of outcome DONE. -/
def State.fillCompletes (s : State) (j : FillJob) (pos : Nat) (full : Bool) : State :=
  let t := (s.fillTile j.surface pos full j.rect j.colour).endStep
  if j.progress + 1 < j.tiles.length then
    (t.withEngine { t.engine with
      jobs := { j with progress := j.progress + 1 } :: t.engine.jobs.tail }).arbitrate
  else (t.finishJob j).afterStep (t.headNames j.surface) [noticeFillDone j.number j.surface false]

/-- The current step is a FILL of the head job that began 0.5 µs ago: the job, the tile position and
its cover. -/
def State.fillDue (s : State) : Option (FillJob × Nat × Bool) :=
  match s.engine.step, s.engine.jobs with
  | .fill n _, j :: _ =>
    if n = j.number ∧ s.engine.since + fillTime ≤ s.now then
      j.tiles[j.progress]?.map (fun e => (j, e.1, e.2))
    else none
  | _, _ => none

/-- FILL_STEP_COMPLETE (R31, R88, R91). -/
def execFillStepComplete (s : State) : Host.Outcome State Fault Refusal :=
  .next (match s.fillDue with
    | none => s
    | some (j, pos, full) => s.fillCompletes j pos full)

end Sys2Proof.Machine
end

