-- ==== Sys2Proof/Machine/FrameClock.lean ====
section
/-! DEFINITION. Machine/FrameClock.lean: NOTIFY, INTERNAL_TIMER_EXPIRY, FSY_PULSE_END, FIN_EDGE and
LOSS_DEADLINE (Chapter 8). P is in microseconds, moments in 24ths of a microsecond. -/

namespace Sys2Proof.Machine

/-! ### NOTIFY (R135) -/

def handleNotify (body : List Byte) (s : State) : State × Answer :=
  (s.withTiming { s.timing with interval := byteAt body 0 },
    ⟨.ok, [byteAt body 0, s.timing.interval] ++ bytesOf 4 s.timing.frame.toNat ++
      [s.timing.state.code]⟩)

/-- NOTIFY (R135). -/
def execNotify (s : State) : Host.Outcome State Fault Refusal := .next (s.serve 0x04 handleNotify)

/-! ### The internal timer and the loss deadline -/

/-- The live period, in microseconds. -/
def State.period (s : State) : Nat := (s.scan.live.map (·.period)).getD 0

/-- A span has passed since the last boundary. -/
def State.sinceBoundary (s : State) (span : Time) : Bool :=
  s.timing.lastBoundary.any (fun b => decide (b + span ≤ s.now))

/-- R127, R129: the internal timer expires, P after the last boundary, in FREE_RUN and SEEKING. -/
def State.timerDue (s : State) : Bool :=
  (s.timing.state == .freeRun || s.timing.state == .seeking) && s.sinceBoundary (24 * s.period)

/-- INTERNAL_TIMER_EXPIRY (R127, R129): the expiry is a boundary. -/
def execInternalTimerExpiry (s : State) : Host.Outcome State Fault Refusal :=
  .next (if s.timerDue then s.boundary [] [] else s)

/-- R132: 1.25P have passed in LOCKED since the last boundary. -/
def State.lossDue (s : State) : Bool :=
  s.timing.state == .locked && s.sinceBoundary (30 * s.period)

/-- R132: the lock is lost, with a boundary in the same event. -/
def State.loseLock (s : State) : State :=
  (s.withTiming { s.timing with state := .seeking, good := 0 }).boundary []
    [noticeSyncLost (s.timing.frame + 1) s.timing.glitches]

/-- LOSS_DEADLINE (R132). -/
def execLossDeadline (s : State) : Host.Outcome State Fault Refusal :=
  .next (if s.lossDue then s.loseLock else s)

/-! ### FSY (R134) -/

/-- 4 µs, the length of an FSY pulse. -/
def fsyTime : Time := 96

/-- FSY is high and 4 µs have passed since the last boundary. -/
def State.fsyEndDue (s : State) : Bool := s.timing.fsy && s.sinceBoundary fsyTime

/-- FSY_PULSE_END (R134). -/
def execFsyPulseEnd (s : State) : Host.Outcome State Fault Refusal :=
  .next (if s.fsyEndDue then s.withTiming { s.timing with fsy := false } else s)

/-! ### FIN edges (R128 to R131) -/

/-- The transition is in the direction of the live FIN edge field. -/
def State.isFinEdge (s : State) (e : Edge) : Bool := s.scan.live.any (fun c => c.edge == e)

/-- R129: the edge has an interval within 0.875P..1.125P. -/
def State.goodInterval (s : State) : Bool :=
  s.timing.lastEdge.any (fun t =>
    decide (t + 21 * s.period ≤ s.now ∧ s.now ≤ t + 27 * s.period))

/-- R130: the edge that brings the good count to 2 locks, with a boundary when the last one was P/2
or more before it. -/
def State.lock (s : State) : State :=
  let t := s.withTiming { s.timing with state := .locked, good := 0, lastEdge := some s.now }
  if s.sinceBoundary (12 * s.period) then
    t.boundary [] [noticeSyncLocked (s.timing.frame + 1) true]
  else t.offer (noticeSyncLocked s.timing.frame false)

/-- R129: a FIN edge assessed in SEEKING. -/
def State.seekEdge (s : State) : State :=
  if s.goodInterval then
    if 1 ≤ s.timing.good then s.lock
    else s.withTiming { s.timing with good := s.timing.good + 1, lastEdge := some s.now }
  else s.withTiming { s.timing with good := 0, lastEdge := some s.now }

/-- R131: a FIN edge in LOCKED: accepted from 0.875P after the last boundary on, else a glitch. -/
def State.lockedEdge (s : State) : State :=
  if s.sinceBoundary (21 * s.period) then
    (s.withTiming { s.timing with lastEdge := some s.now }).boundary [] []
  else s.withTiming { s.timing with
    lastEdge := some s.now, glitches := saturate16 s.timing.glitches }

/-- R128: a transition of FIN sets the pin's level; a FIN edge is taken in SEEKING and LOCKED. -/
def execFinEdge (direction : Edge) (s : State) : Host.Outcome State Fault Refusal :=
  .next (
    let t := s.withPins { s.pins with finHigh := direction == .rise }
    if t.isFinEdge direction then
      match t.timing.state with
      | .seeking => t.seekEdge
      | .locked => t.lockedEdge
      | .stopped | .freeRun => t
    else t)

end Sys2Proof.Machine
end

