-- ==== Sys2Proof/Machine/LinkEvents.lean ====
section
/-! DEFINITION. Machine/LinkEvents.lean: BAD_KIND, RX_BYTE, TIMEOUT_DISCARD, BREAK, BREAK_END,
TRANSMIT_START and TRANSMIT_END (Chapter 9). -/

namespace Sys2Proof.Machine

/-! ### BAD_KIND (R160, step 1) -/

/-- BAD_KIND: the next frame's KIND is no request; the reply has KIND 0x80 and carries the KIND. -/
def execBadKind (s : State) : Host.Outcome State Fault Refusal :=
  .next (match s.nextRequest with
    | none => s
    | some f =>
      if isRequestKind f.kind then s
      else s.takeRequest.queueReply f ⟨0x80, f.seq, .badKind, [f.kind]⟩)

/-! ### Discards (R141) -/

/-- R141: the partial frame is dropped and the framer is in HUNT. -/
def Link.dropPartial (l : Link) : Link :=
  { l with framer := { l.framer with state := .hunt, bytes := [] } }

/-- R157: the counter of a discard rises by 1. -/
def LinkCounters.discard (c : LinkCounters) : DiscardReason → LinkCounters
  | .crc => { c with crc := saturate16 c.crc }
  | .timeout => { c with timeout := saturate16 c.timeout }
  | .length => { c with length := saturate16 c.length }
  | .overrun => { c with overrun := saturate16 c.overrun }

/-- A discard counted, and its DISCARD notice offered (R141, R144). -/
def Link.discard (l : Link) (r : DiscardReason) (seq : Option Byte) : Link :=
  Link.offer { l with counters := l.counters.discard r } (noticeDiscard r seq)

/-! ### Arrival (R143 to R145) -/

/-- The frames match: the same SEQ and the same received CRC. -/
def Request.matches (a b : Request) : Bool := a.seq == b.seq && a.crc == b.crc

/-- R144, step 1: a buffer holds a frame that matches, in any stage; an orphan is not in hand. -/
def Link.inHand (l : Link) (f : Request) : Bool :=
  l.inbound.any (·.matches f) ||
    l.executing.any (fun e => !e.orphan && e.request.matches f) ||
    l.outbound.any (fun o => match o with
      | .reply g _ _ => g.matches f
      | .notice _ _ _ => false)

/-- R144, step 2: the reply history entry that the frame matches. -/
def Link.recall (l : Link) (f : Request) : Option HistoryEntry :=
  l.history.find? (fun e => e.seq == f.seq && e.crc == f.crc)

/-- R157: the duplicate counter rises. -/
def Link.countDuplicate (l : Link) : Link :=
  { l with counters := { l.counters with duplicate := saturate16 l.counters.duplicate } }

/-- R144, R145: arrival handling (Table 9-3). -/
def Link.arrive (l : Link) (f : Request) : Link :=
  if l.inHand f then l.countDuplicate
  else if l.held < 8 then
    match l.recall f with
    | some e => { l.countDuplicate with outbound := l.outbound ++ [.reply f e.built true] }
    | none => { l with inbound := l.inbound ++ [f] }
  else l.discard .overrun (some f.seq)

/-! ### RX_BYTE (R140, R141, R143) -/

/-- The LEN of a partial frame, once its two bytes have been taken. -/
def partialLength (bs : List Byte) : Nat := fieldAt bs 0 2

/-- The SEQ of a partial frame, if it has been taken. -/
def partialSeq (bs : List Byte) : Option Byte := bs[2]?

/-- The frame that a complete partial frame holds. -/
def partialRequest (bs : List Byte) : Request :=
  let n := partialLength bs
  ⟨byteAt bs 2, byteAt bs 3, (bs.drop 4).take n, BitVec.ofNat 16 (fieldAt bs (4 + n) 2)⟩

/-- R141: the CRC over LEN to the last body byte equals the received CRC. -/
def partialCrcOk (bs : List Byte) : Bool :=
  crcOf (bs.take (4 + partialLength bs)) == (partialRequest bs).crc

/-- The framer goes on with the bytes taken so far. -/
def Link.partialTo (l : Link) (st : FramerState) (bs : List Byte) (now : Time) : Link :=
  { l with framer := ⟨st, bs, now⟩ }

/-- R140, Table 9-2: the framer takes one byte. -/
def Link.takeByte (l : Link) (b : Byte) (now : Time) : Link :=
  let bs := l.framer.bytes ++ [b]
  match l.framer.state with
  | .hunt => if b = hostSync then l.partialTo .length [] now else l
  | .length =>
    if bs.length < 2 then l.partialTo .length bs now
    else if 1024 < partialLength bs then l.dropPartial.discard .length none
    else l.partialTo .header bs now
  | .header =>
    if bs.length < 4 then l.partialTo .header bs now
    else l.partialTo (if partialLength bs = 0 then .check else .body) bs now
  | .body =>
    l.partialTo (if bs.length < 4 + partialLength bs then .body else .check) bs now
  | .check =>
    if bs.length < 6 + partialLength bs then l.partialTo .check bs now
    else if partialCrcOk bs then l.dropPartial.arrive (partialRequest bs)
    else l.dropPartial.discard .crc (partialSeq bs)

/-- The link takes bytes: the part is RUNNING and HRX is not low in a BREAK (R155, Table 11-1). -/
def State.receives (s : State) : Bool := s.control.state == .running && !s.pins.hrxLow

/-- RX_BYTE (R140). A character with a low stop bit is no byte and has no effect. -/
def execRxByte (c : Character) (s : State) : Host.Outcome State Fault Refusal :=
  .next (if s.receives && characterIsByte c then
      s.withLink (s.link.takeByte (characterByte c) s.now)
    else s)

/-! ### TIMEOUT_DISCARD (R141) -/

/-- 500 µs. -/
def gapTime : Time := 12000

/-- More than 500 µs have passed since the last byte of a partial frame. -/
def State.timeoutDue (s : State) : Bool :=
  s.control.state == .running && s.link.framer.state != .hunt &&
    decide (s.link.framer.lastByte + gapTime < s.now)

/-- TIMEOUT_DISCARD (R141). -/
def execTimeoutDiscard (s : State) : Host.Outcome State Fault Refusal :=
  .next (if s.timeoutDue then
      s.withLink (s.link.dropPartial.discard .timeout (partialSeq s.link.framer.bytes))
    else s)

/-! ### Transmission (R148, R152) -/

/-- The head frame that the transmitter begins: it is IDLE and not paused, and the part not HELD. -/
def State.nextToSend (s : State) : Option OutFrame :=
  match s.link.sending, s.link.paused, s.control.state, s.link.outbound with
  | _, _, .held, _ => none
  | none, false, _, f :: _ => some f
  | _, _, _, _ => none

/-- R152: the head leaves the queue, which frees a reply's buffer, and CREDITS is fixed. The reply's own
buffer counts as free, as R147 and R148 say, also behind an overrun taken first, where R146 says taken
(DEDUCED, log entry 27). -/
def Link.begin (l : Link) (f : OutFrame) (now : Time) : Link :=
  let m := { l with outbound := l.outbound.tail }
  { m with sending := some ⟨f, f.wire (BitVec.ofNat 8 m.credits), now⟩ }

/-- The frame is a HELLO notice. -/
def OutFrame.isHello : OutFrame → Bool
  | .notice kind _ _ => kind == helloKind
  | .reply _ _ _ => false

/-- R166: what the start of a transmission does to part control. The start of HELLO's transmission in
STARTING makes it RUNNING; a HELLO has then been sent. -/
def Control.onSend (c : Control) (f : OutFrame) (now : Time) : Control :=
  if f.isHello then
    if c.state = .starting then
      { c with state := .running, runningSince := now, freshPower := false }
    else { c with freshPower := false }
  else c

/-- The transmission of the head frame begins. A low period of HRX is counted anew from the moment
the part becomes RUNNING (R155), one that had its BREAK before a pin or power reset included (DEDUCED,
log entry 28). -/
def State.startSend (s : State) (f : OutFrame) : State :=
  let t := (s.withLink (s.link.begin f s.now)).withControl (s.control.onSend f s.now)
  if s.control.state = .starting ∧ f.isHello then
    t.withPins { s.pins with breakTaken := false }
  else t

/-- TRANSMIT_START (R152). -/
def execTransmitStart (s : State) : Host.Outcome State Fault Refusal :=
  .next (match s.nextToSend with
    | none => s
    | some f => s.startSend f)

/-- Mbit/s. -/
def LinkRate.mbit : LinkRate → Nat
  | .mbit1 => 1
  | .mbit3 => 3
  | .mbit6 => 6
  | .mbit12 => 12

/-- The last byte of the frame on HTX has been sent: 10 bit-times a byte at the link rate (R152), a
bit-time being 24 24ths of a microsecond over the rate, a whole number of them. -/
def sendOver (rate : LinkRate) (x : Sending) (now : Time) : Bool :=
  decide (240 * x.bytes.length + rate.mbit * x.since ≤ rate.mbit * now)

/-- The bits of a frame on HTX, in order: for each byte a low start bit, its eight bits, least
significant first, and a high stop bit (R152). -/
def Sending.bits (x : Sending) : List Bool :=
  x.bytes.flatMap (fun b => (List.range 10).map (characterOf b).getLsbD)

/-- HTX is high: the level of the bit that the transmission has reached at the link rate, and idle high
with no frame being sent, so while HELD and while paused too (R139, R152, R156, R166). -/
def State.htxHigh (s : State) : Bool :=
  match s.link.sending with
  | none => true
  | some x => x.bits.getD ((s.now - x.since) * s.control.rate.mbit / 24) true

/-- The frame whose last byte has been sent. -/
def State.sentFrame (s : State) : Option OutFrame :=
  match s.link.sending with
  | none => none
  | some x => if sendOver s.control.rate x s.now then some x.frame else none

/-- The OK reply of RESET. -/
def OutFrame.isResetReply : OutFrame → Bool
  | .reply _ r _ => r.kind == 0x83 && r.status == .ok
  | .notice _ _ _ => false

/-- R152, R170: the transmitter becomes IDLE; after the RESET reply the soft reset takes effect. -/
def State.endSend (s : State) (f : OutFrame) : State :=
  let t := s.withLink { s.link with sending := none }
  if s.control.state = .resetPending ∧ f.isResetReply then t.softReset else t

/-- TRANSMIT_END (R152, R170). -/
def execTransmitEnd (s : State) : Host.Outcome State Fault Refusal :=
  .next (match s.sentFrame with
    | none => s
    | some f => s.endSend f)

/-! ### BREAK (R155, R156, R171) -/

/-- 200 µs. -/
def breakTime : Time := 4800

/-- A BREAK is taken: RUNNING or RESET-PENDING, once for each low period, a period that began before
the part became RUNNING being counted from then (R155). -/
def State.takesBreak (s : State) : Bool :=
  (s.control.state == .running || s.control.state == .resetPending) && !s.pins.breakTaken &&
    decide (s.control.runningSince + breakTime ≤ s.now)

/-- R156: what a BREAK does to the link. The lost-notice count is kept, and the LOST notice that goes
ahead of HELLO then returns it to 0 (R154; DEDUCED, log entry 25). -/
def Link.breakOff (l : Link) : Link :=
  Link.offer
    { l.dropPartial with
      inbound := []
      executing := l.executing.map (fun e => { e with orphan := true })
      history := []
      outbound := []
      sending := none
      paused := true
      noticeSeq := 0 }
    (noticeHello .link)

/-- R156, R171: a BREAK is taken; in RESET-PENDING the soft reset takes effect in the same event. -/
def State.doBreak (s : State) : State :=
  let t := (s.withLink s.link.breakOff).withPins { s.pins with hrxLow := true, breakTaken := true }
  if s.control.state = .resetPending then t.softReset else t

/-- BREAK (R155, R156, R171). -/
def execLinkBreak (s : State) : Host.Outcome State Fault Refusal :=
  .next (if s.takesBreak then s.doBreak else s)

/-- BREAK_END (R156): HRX returns high and the transmitter is no longer paused. -/
def execLinkBreakEnd (s : State) : Host.Outcome State Fault Refusal :=
  .next ((s.withLink { s.link with paused := false }).withPins
    { s.pins with hrxLow := false, breakTaken := false })

end Sys2Proof.Machine
end

