-- ==== Sys2Proof/Machine/PartControl.lean ====
section
/-! DEFINITION. Machine/PartControl.lean: IDENTIFY, STATUS, RESET, PIN_RESET, POWER_FAIL,
RSTN_RELEASE, POWER_GOOD and HELLO (Chapter 11). -/

namespace Sys2Proof.Machine

/-! ### IDENTIFY (R168) -/

def handleIdentify (_body : List Byte) (s : State) : State × Answer := (s, ⟨.ok, capacities⟩)

/-- IDENTIFY (R168). -/
def execIdentify (s : State) : Host.Outcome State Fault Refusal := .next (s.serve 0x01 handleIdentify)

/-! ### STATUS (R169) -/

/-- The bytes of one queued job (Table 10-12). -/
def jobStatus (j : FillJob) : List Byte := [j.number] ++ bytesOf 1 j.surface ++ bytesOf 2 j.progress

/-- The two bytes of one slot (Table 10-12). -/
def slotStatus (st : Option Stream) : List Byte :=
  [streamCode st] ++ bytesOf 1 ((st.map (·.surface)).getD 0)

/-- The STATUS reply (Table 10-12). -/
def statusBody (s : State) : List Byte :=
  bytesOf 4 s.timing.frame.toNat ++ [s.timing.state.code] ++ bytesOf 2 s.timing.glitches.toNat ++
    bytesOf 2 s.pool.free.length ++
    bytesOf 1 s.commits.queue.length ++ s.commits.queue.flatMap (fun c => bytesOf 2 c.tag.toNat) ++
    bytesOf 1 s.engine.jobs.length ++ s.engine.jobs.flatMap jobStatus ++
    slotNumbers.flatMap (fun i => slotStatus (s.slotAt i)) ++
    bytesOf 2 s.link.counters.crc.toNat ++ bytesOf 2 s.link.counters.timeout.toNat ++
    bytesOf 2 s.link.counters.length.toNat ++ bytesOf 2 s.link.counters.overrun.toNat ++
    bytesOf 2 s.link.counters.duplicate.toNat ++ bytesOf 2 s.link.lost.toNat

/-- R169: the five link counters and the glitch count are set to 0. -/
def State.clearCounters (s : State) : State :=
  (s.withLink { s.link with counters := countersZero }).withTiming { s.timing with glitches := 0 }

/-- STATUS: a clear flag other than 0 or 1 is refused, nothing being read or cleared. -/
def handleStatus (body : List Byte) (s : State) : State × Answer :=
  if byteAt body 0 = 0 then (s, ⟨.ok, statusBody s⟩)
  else if byteAt body 0 = 1 then (s.clearCounters, ⟨.ok, statusBody s⟩)
  else refuse s .badField

/-- STATUS (R169). -/
def execStatus (s : State) : Host.Outcome State Fault Refusal := .next (s.serve 0x02 handleStatus)

/-! ### RESET (R170) -/

/-- RESET: RESET-PENDING is entered and a partial frame dropped without a notice. -/
def handleReset (_body : List Byte) (s : State) : State × Answer :=
  ((s.withLink s.link.dropPartial).withControl { s.control with state := .resetPending }, ⟨.ok, []⟩)

/-- RESET (R170). -/
def execReset (s : State) : Host.Outcome State Fault Refusal := .next (s.serve 0x03 handleReset)

/-! ### RSTN and power (R166) -/

/-- PIN_RESET (R166): RSTN goes low. -/
def execPinReset (s : State) : Host.Outcome State Fault Refusal :=
  .next (s.enterHeld.withPins { s.pins with rstnHigh := false })

/-- POWER_FAIL (R166): supply power ceases to be good. -/
def execPowerFail (s : State) : Host.Outcome State Fault Refusal :=
  .next (s.enterHeld.withPins { s.pins with powerGood := false })

/-- R166: HELD ends when RSTN is high and power is good. -/
def State.leaveHeld (s : State) : State :=
  if s.control.state = .held ∧ s.pins.rstnHigh ∧ s.pins.powerGood then s.enterStarting false else s

/-- RSTN_RELEASE (R166): RSTN goes high. -/
def execRstnRelease (s : State) : Host.Outcome State Fault Refusal :=
  .next (s.withPins { s.pins with rstnHigh := true }).leaveHeld

/-- POWER_GOOD (R166): supply power becomes good; the next HELLO's reason is POWER. -/
def execPowerGood (s : State) : Host.Outcome State Fault Refusal :=
  .next (if s.pins.powerGood then s
    else ((s.withPins { s.pins with powerGood := true }).withControl
      { s.control with freshPower := true }).leaveHeld)

/-! ### HELLO (R166) -/

/-- 2 ms. -/
def startTime : Time := 48000

/-- R166: the reason that HELLO carries. -/
def Control.helloReason (c : Control) : HelloReason :=
  if c.softStart then .soft else if c.freshPower then .power else .pin

/-- HELLO may be offered: STARTING, within 2 ms of its start, and not offered yet. -/
def State.mayHello (s : State) : Bool :=
  s.control.state == .starting && s.link.outbound.isEmpty &&
    decide (s.now ≤ s.control.startingSince + startTime)

/-- HELLO (R166). -/
def execHello (s : State) : Host.Outcome State Fault Refusal :=
  .next (if s.mayHello then s.offer (noticeHello s.control.helloReason) else s)

end Sys2Proof.Machine
end

