-- ==== Sys2Proof/Machine/ScanOut.lean ====
section
/-! DEFINITION. Machine/ScanOut.lean: CANVAS, LINE_SLOT_START and the pixel output bus (Chapter 7). -/

namespace Sys2Proof.Machine

/-- CANVAS, checked in the order of Table 7-2. -/
def handleCanvas (body : List Byte) (s : State) : State × Answer :=
  let c := canvasFieldsOf body
  if s.commits.canvasFrozen then refuse s .frozen
  else if !canvasFieldsOk c then refuse s .badField
  else
    let g := stageCanvas s.scan.staged c
    (s.withScan { s.scan with staged := g }, ⟨.ok, bytesOf 1 g.count⟩)

/-- CANVAS (R109). -/
def execCanvas (s : State) : Host.Outcome State Fault Refusal := .next (s.serve 0x10 handleCanvas)

/-- Moment `now` is at or past the start of slot `k` of the frame that began at `t0` (R112):
k × L microseconds after it. Compared exactly, with L as a fraction. -/
def slotBegun (l : LineSlot) (t0 now k : Nat) : Bool :=
  decide (24 * k * l.numerator + l.denominator * t0 ≤ l.denominator * now)

/-- The line whose slot begins now: the scan engine is SCANNING, the line is one of the canvas, and
its slot has begun. -/
def State.dueLine (s : State) : Option (Nat × Canvas) :=
  match s.scan.scanning, s.scan.nextLine, s.scan.live, s.scan.slot, s.timing.lastBoundary with
  | true, some k, some c, some l, some t0 =>
    if k < c.height ∧ slotBegun l t0 s.now k then some (k, c) else none
  | _, _, _, _, _ => none

/-- R112, R113, R120: line `k` is composed from the live state and driven in its slot. -/
def State.driveLine (s : State) (k : Nat) (c : Canvas) : State :=
  s.withScan { s.scan with
    nextLine := some (k + 1)
    driven := some ⟨k, k == 0, s.composeLine c k, s.now⟩ }

/-- LINE_SLOT_START (R112, R113, R120). -/
def execLineSlotStart (s : State) : Host.Outcome State Fault Refusal :=
  .next (match s.dueLine with
    | none => s
    | some (k, c) => s.driveLine k c)

/-! ### The pixel output bus (R120, R121) -/

/-- How many of the clock gaps `gap i`, `gap (i + 1)`, … , `n` of them, have run out in a time. -/
def gapsOver (gap : Nat → Time) : Nat → Nat → Time → Nat
  | 0, _, _ => 0
  | n + 1, i, e => if gap i ≤ e then gapsOver gap n (i + 1) (e - gap i) + 1 else 0

/-- What the bus gives of a line, one after another: the mark of its start by LSTART, with FSTART for
line 0; one clock of PCLK for each pixel, with its codes on the lanes; then its rest. -/
inductive BusEvent where
  | lineStart (frameStart : Bool)
  | pixel (codes : Codes)
  | rest
deriving DecidableEq, Repr

/-- R120, R121: all that the bus gives of a line in its slot. -/
def DrivenLine.events (d : DrivenLine) : List BusEvent :=
  .lineStart d.frameStart :: (d.codes.map .pixel ++ [.rest])

/-- The time from event `i` of a line to the next: free, but for one unit of time behind the mark and
behind the last pixel, so that each shows for a moment (log entry 15). -/
def DrivenLine.gap (d : DrivenLine) (i : Nat) : Time :=
  Config.clockGap d.since i + (if i = 0 ∨ i = d.codes.length then 1 else 0)

/-- How many events of a line the bus has given at a moment behind the mark of its start, which it
gives with the start of the slot. The pixels are clocked at moments that the spec leaves open, all W of
them inside the slot (R120), and the bus is at rest before the slot ends: the last two units of time of
the slot close the line (log entry 15). `ends` says of a moment whether the slot has ended then. -/
def DrivenLine.given (d : DrivenLine) (ends : Time → Bool) (now : Time) : Nat :=
  let n := gapsOver d.gap (d.codes.length + 1) 0 (now - d.since)
  if ends (now + 1) then d.codes.length + 1
  else if ends (now + 2) then max n d.codes.length
  else n

/-- The slot of the line being driven has ended at a moment (R112). -/
def State.slotEnds (s : State) (d : DrivenLine) (m : Time) : Bool :=
  match s.scan.slot, s.timing.lastBoundary with
  | some l, some t0 => slotBegun l t0 m (d.line + 1)
  | _, _ => true

/-- R120, R121: what the bus has given since the start of the slot now running, in order. A boundary
and a reset break off the line being driven, by leaving none (R112, R122): it stops at the pixel
reached. With no line being driven the bus gives nothing. -/
def State.busEvents (s : State) : List BusEvent :=
  match s.scan.driven with
  | none => []
  | some d => d.events.take (d.given (s.slotEnds d) s.now + 1)

/-- The levels of the bus (Table 11-3). `clocked`: PCLK gives the clock of a pixel at this moment. -/
structure BusLevels where
  clocked : Bool
  fstart : Bool
  lstart : Bool
  lanes : Codes
deriving DecidableEq, Repr

/-- R121: at rest PCLK is still, FSTART and LSTART are low, and the lanes carry code 0. -/
def busAtRest : BusLevels := ⟨false, false, false, ⟨0, 0, 0⟩⟩

/-- The lanes at a moment that is no clock, while a line is being driven. -/
def lanesBetween (now : Time) : Codes :=
  ⟨Config.laneBetween now 0, Config.laneBetween now 1, Config.laneBetween now 2⟩

/-- The levels of the bus at a moment of a line of which it has given `n` events behind the mark,
`before` of them a unit of time ago. The marks are high until the first clock (log entry 15); the lanes
carry a pixel's codes at its clock. -/
def DrivenLine.levels (d : DrivenLine) (now : Time) (before n : Nat) : BusLevels :=
  if n = 0 then ⟨false, d.frameStart, true, lanesBetween now⟩
  else if d.codes.length < n then busAtRest
  else if before < n then ⟨true, false, false, d.codes.getD (n - 1) ⟨0, 0, 0⟩⟩
  else ⟨false, false, false, lanesBetween now⟩

/-- The levels of the bus at this moment (R120, R121). -/
def State.busLevels (s : State) : BusLevels :=
  match s.scan.driven with
  | none => busAtRest
  | some d =>
    d.levels s.now
      (if s.now ≤ d.since then 0 else d.given (s.slotEnds d) (s.now - 1))
      (d.given (s.slotEnds d) s.now)

end Sys2Proof.Machine
end

