-- ==== Sys2Proof/Machine/Streams.lean ====
section
/-! DEFINITION. Machine/Streams.lean: OPEN, WRITE, WRITE_HOLD_END, CLOSE and READ (Chapter 4). -/

namespace Sys2Proof.Machine

/-! ### OPEN (R62, R63) -/

/-- The free slots, ascending. -/
def State.freeSlots (s : State) : List Nat := slotNumbers.filter (fun i => (s.slotAt i).isNone)

/-- R63, step 3: the stream of an accepted OPEN. -/
def openedStream (id wx wy ww wh : Nat) (fmt : Format) (palette : Nat) (mode : StreamMode)
    (order : StreamOrder) : Stream :=
  { surface := id
    wx := wx
    wy := wy
    ww := ww
    wh := wh
    format := fmt
    palette := if fmt = .i8 then some palette else none
    mode := mode
    order := order
    cx := 0
    cy := if order = .up then wh - 1 else 0
    expected := 0
    residue := []
    full := false
    written := 0 }

/-- The reply to an accepted OPEN: the slot, the slot closed or 0xFF, the residue discarded. -/
def openBody (slot : Nat) (closed : Option (Nat × Stream)) : List Byte :=
  bytesOf 1 slot ++ match closed with
    | none => [0xFF, 0]
    | some (i, st) => bytesOf 1 i ++ bytesOf 1 st.residue.length

/-- The slot and stream that the record's open-stream field names. -/
def State.openStreamOf (s : State) (id : Nat) : Option (Nat × Stream) :=
  (s.surf id).stream.bind (fun i => (s.slotAt i).map (fun st => (i, st)))

/-- OPEN, checked in the order of Table 4-3; an accepted OPEN closes the surface's earlier stream and
takes the lowest free slot. -/
def handleOpen (body : List Byte) (s : State) : State × Answer :=
  let id := fieldAt body 0 1
  let wx := fieldAt body 1 2
  let wy := fieldAt body 3 2
  let ww := fieldAt body 5 2
  let wh := fieldAt body 7 2
  let palette := fieldAt body 10 1
  match surfaceCheck s id with
  | some st => refuse s st
  | none =>
    let f := s.surf id
    if ww = 0 ∨ wh = 0 ∨ f.width < wx + ww ∨ f.height < wy + wh then refuse s .badField
    else match formatOf (fieldAt body 9 1), modeOf (fieldAt body 11 1), orderOf (fieldAt body 12 1) with
      | some fmt, some mode, some order =>
        if fmt = .i8 ∧ 3 < palette then refuse s .badField
        else if f.double && f.frozen then refuse s .frozen
        else
          let t := s.closeStreamOf id
          match t.freeSlots with
          | [] => refuse s .noSlot
          | slot :: _ =>
            ((t.setSlot slot (some (openedStream id wx wy ww wh fmt palette mode order))).setSurf id
                { t.surf id with stream := some slot },
              ⟨.ok, openBody slot (s.openStreamOf id)⟩)
      | _, _, _ => refuse s .badField

/-- OPEN (R62, R63). -/
def execOpenStream (s : State) : Host.Outcome State Fault Refusal := .next (s.serve 0x30 handleOpen)

/-! ### WRITE (R65 to R73) -/

/-- The bytes in groups of one pixel, and the bytes left over. -/
def splitPixels (k : Nat) (bs : List Byte) : List (List Byte) × List Byte :=
  (groupsOf k (bs.length / k) bs, bs.drop (bs.length / k * k))

/-- The cursor stands on the last pixel of the window (R68). -/
def Stream.atLast (st : Stream) : Bool :=
  st.cx + 1 == st.ww && match st.order with
    | .down => st.cy + 1 == st.wh
    | .up => st.cy == 0

/-- R68, R69: the cursor moves one place; from the last pixel it goes back to the window start. -/
def Stream.advance (st : Stream) : Stream :=
  if st.cx + 1 < st.ww then { st with cx := st.cx + 1 }
  else if st.atLast then
    { st with cx := 0, cy := match st.order with
        | .down => 0
        | .up => st.wh - 1 }
  else
    { st with cx := 0, cy := match st.order with
        | .down => st.cy + 1
        | .up => st.cy - 1 }

/-- R68 to R71: the stream after the pixel at its cursor has been written. A STOP stream becomes FULL
with its cursor on the window's last pixel. -/
def Stream.wrotePixel (st : Stream) : Stream :=
  let st := { st with written := saturate32 st.written }
  if st.mode = .stop ∧ st.atLast then { st with full := true } else st.advance

/-- R73: one pixel is written at the stream's cursor, and the surface marked dirty when its bank is a
back bank (R13). -/
def State.ingestPixel (s : State) (st : Stream) (bs : List Byte) : State :=
  let c := convertPixel s.colours st.format st.palette bs
  let t := s.writePixel st.surface (st.wx + st.cx) (st.wy + st.cy) c
  let f := t.surf st.surface
  if f.double then t.setSurf st.surface { f with dirty := true } else t

/-- The pixels of one WRITE in order, until the stream is FULL. The last results are the number of
pixels written and the groups left over. -/
def State.ingest : List (List Byte) → State → Stream → Nat → State × Stream × Nat × List (List Byte)
  | [], s, st, n => (s, st, n, [])
  | p :: ps, s, st, n =>
    if st.full then (s, st, n, p :: ps)
    else State.ingest ps (s.ingestPixel st p) st.wrotePixel (n + 1)

/-- R67 to R71: an accepted WRITE of a payload to the stream in a slot. -/
def State.takeWrite (s : State) (slot : Nat) (st : Stream) (payload : List Byte) : State × Answer :=
  let split := splitPixels st.format.bytesPerPixel (st.residue ++ payload)
  let (t, st1, n, rest) := s.ingest split.1 st 0
  let truncated := if st1.full then (rest.map List.length).sum + split.2.length else 0
  let st2 := { st1 with
    residue := if st1.full then [] else split.2
    expected := st1.expected + 1 }
  (t.setSlot slot (some st2),
    ⟨.ok, bytesOf 2 n ++ bytesOf 2 truncated ++ bytesOf 2 st2.cx ++ bytesOf 2 st2.cy ++
      [streamCode (some st2)] ++ bytesOf 1 st2.residue.length ++ bytesOf 2 st2.expected.toNat⟩)

/-- WRITE, checked in the order of Table 4-4. -/
def handleWrite (body : List Byte) (s : State) : State × Answer :=
  let slot := fieldAt body 0 1
  let seq : Half := BitVec.ofNat 16 (fieldAt body 1 2)
  if 7 < slot then refuse s .badField
  else match s.slotAt slot with
    | none => refuse s .noStream
    | some st =>
      if st.full then refuse s .streamFull (bytesOf 2 st.expected.toNat)
      else if seq ≠ st.expected then
        refuse s .outOfOrder (bytesOf 2 st.expected.toNat ++ bytesOf 2 st.cx ++ bytesOf 2 st.cy)
      else s.takeWrite slot st (body.drop 3)

/-- R66, R93: the WRITE with this body is held: its slot holds a stream whose surface has outstanding
fills. -/
def State.holdsWrite (s : State) (body : List Byte) : Bool :=
  match s.slotAt (fieldAt body 0 1) with
  | none => false
  | some st => decide (0 < (s.surf st.surface).fills)

/-- R93: the frame that the executor takes is a WRITE of the right length to be held; it becomes the
frame under execution. -/
def State.holdRequest (s : State) (f : Request) : State :=
  let t := s.takeRequest
  t.withLink { t.link with executing := some ⟨f, false⟩ }

/-- WRITE (R65 to R73), held behind the surface's fills when it has any (R93). -/
def execWrite (s : State) : Host.Outcome State Fault Refusal :=
  .next (match s.nextRequest with
    | none => s
    | some f =>
      if f.kind = 0x31 ∧ lengthOk f.kind f.body ∧ s.holdsWrite f.body then s.holdRequest f
      else s.serve 0x31 handleWrite)

/-- The execution of the held frame ends: its reply is queued, or, for a frame that was EXECUTING at
a BREAK, dropped (R156). -/
def State.endHeld (s : State) (e : Executing) (a : Answer) : State :=
  if e.orphan then s.withLink { s.link with executing := none }
  else s.queueReply e.request (replyTo e.request a)

/-- WRITE_HOLD_END (R93): the surface's outstanding fills have reached 0, and the held WRITE is
checked and taken. -/
def execWriteHoldEnd (s : State) : Host.Outcome State Fault Refusal :=
  .next (match s.link.executing with
    | none => s
    | some e =>
      if s.holdsWrite e.request.body then s
      else
        let r := handleWrite e.request.body s
        r.1.endHeld e r.2)

/-! ### CLOSE (R76) -/

/-- CLOSE: the residue is discarded, the slot freed, and the record's open-stream field removed. -/
def handleClose (body : List Byte) (s : State) : State × Answer :=
  let slot := fieldAt body 0 1
  if 7 < slot then refuse s .badField
  else match s.slotAt slot with
    | none => refuse s .noStream
    | some st =>
      ((s.setSlot slot none).setSurf st.surface { s.surf st.surface with stream := none },
        ⟨.ok, bytesOf 1 st.residue.length ++ bytesOf 4 st.written.toNat⟩)

/-- CLOSE (R76). -/
def execCloseStream (s : State) : Host.Outcome State Fault Refusal := .next (s.serve 0x32 handleClose)

/-! ### READ (R80, R81) -/

/-- The pixels of a rectangle of a bank, row by row. -/
def State.readRect (s : State) (f : Surface) (bank : List Tile) (r : Rect) : List Rgb :=
  (List.range r.height).flatMap fun dy =>
    (List.range r.width).map fun dx => s.readPixel f bank (r.x + dx) (r.y + dy)

/-- READ, checked in the order of Table 4-6. -/
def handleRead (body : List Byte) (s : State) : State × Answer :=
  let id := fieldAt body 0 1
  let bank := fieldAt body 1 1
  let r : Rect := ⟨fieldAt body 2 2, fieldAt body 4 2, fieldAt body 6 2, fieldAt body 8 2⟩
  match surfaceCheck s id with
  | some st => refuse s st
  | none =>
    let f := s.surf id
    if 1 < bank ∨ (bank = 1 ∧ ¬ f.double) then refuse s .badField
    else if r.width = 0 ∨ r.height = 0 ∨ f.width < r.x + r.width ∨ f.height < r.y + r.height then
      refuse s .badField
    else if 340 < r.width * r.height then refuse s .tooLarge
    else
      let pixels := s.readRect f (if bank = 1 then f.back else f.front) r
      (s, ⟨.ok, bytesOf 2 pixels.length ++ pixels.flatMap colourBytes⟩)

/-- READ (R80, R81). -/
def execRead (s : State) : Host.Outcome State Fault Refusal := .next (s.serve 0x33 handleRead)

end Sys2Proof.Machine
end

