-- ==== Sys2Proof/Machine/Dispatch.lean ====
section
/-! DEFINITION. Machine/Dispatch.lean: each command's meaning. -/

namespace Sys2Proof.Machine

def exec (i : Instr) (s : State) : Host.Outcome State Fault Refusal :=
  match i with
  | .identify => Sys2Proof.Machine.execIdentify s
  | .status => Sys2Proof.Machine.execStatus s
  | .reset => Sys2Proof.Machine.execReset s
  | .notify => Sys2Proof.Machine.execNotify s
  | .canvas => Sys2Proof.Machine.execCanvas s
  | .loadCurve => Sys2Proof.Machine.execLoadCurve s
  | .loadPalette => Sys2Proof.Machine.execLoadPalette s
  | .define => Sys2Proof.Machine.execDefine s
  | .destroy => Sys2Proof.Machine.execDestroy s
  | .setAttr => Sys2Proof.Machine.execSetAttr s
  | .query => Sys2Proof.Machine.execQuery s
  | .openStream => Sys2Proof.Machine.execOpenStream s
  | .write => Sys2Proof.Machine.execWrite s
  | .writeHoldEnd => Sys2Proof.Machine.execWriteHoldEnd s
  | .closeStream => Sys2Proof.Machine.execCloseStream s
  | .read => Sys2Proof.Machine.execRead s
  | .fill => Sys2Proof.Machine.execFill s
  | .commit => Sys2Proof.Machine.execCommit s
  | .cancel => Sys2Proof.Machine.execCancel s
  | .badKind => Sys2Proof.Machine.execBadKind s
  | .internalTimerExpiry => Sys2Proof.Machine.execInternalTimerExpiry s
  | .fsyPulseEnd => Sys2Proof.Machine.execFsyPulseEnd s
  | .finEdge direction => Sys2Proof.Machine.execFinEdge direction s
  | .lossDeadline => Sys2Proof.Machine.execLossDeadline s
  | .lineSlotStart => Sys2Proof.Machine.execLineSlotStart s
  | .copyStepComplete => Sys2Proof.Machine.execCopyStepComplete s
  | .fillStepComplete => Sys2Proof.Machine.execFillStepComplete s
  | .rxByte c => Sys2Proof.Machine.execRxByte c s
  | .timeoutDiscard => Sys2Proof.Machine.execTimeoutDiscard s
  | .linkBreak => Sys2Proof.Machine.execLinkBreak s
  | .linkBreakEnd => Sys2Proof.Machine.execLinkBreakEnd s
  | .transmitStart => Sys2Proof.Machine.execTransmitStart s
  | .transmitEnd => Sys2Proof.Machine.execTransmitEnd s
  | .pinReset => Sys2Proof.Machine.execPinReset s
  | .powerFail => Sys2Proof.Machine.execPowerFail s
  | .rstnRelease => Sys2Proof.Machine.execRstnRelease s
  | .powerGood => Sys2Proof.Machine.execPowerGood s
  | .hello => Sys2Proof.Machine.execHello s

end Sys2Proof.Machine
end

