-- ==== Sys2Proof/Machine/Passing.lean ====
section
/-! DEFINITION. Machine/Passing.lean: the part's own events as time passes with no command waiting
(DESIGN CHOICE, log entry 1). -/

namespace Sys2Proof.Machine

/-- The row that takes a frame of this KIND. -/
def rowOfKind (k : Byte) : Instr :=
  if k = 0x01 then .identify
  else if k = 0x02 then .status
  else if k = 0x03 then .reset
  else if k = 0x04 then .notify
  else if k = 0x10 then .canvas
  else if k = 0x11 then .loadCurve
  else if k = 0x12 then .loadPalette
  else if k = 0x20 then .define
  else if k = 0x21 then .destroy
  else if k = 0x22 then .setAttr
  else if k = 0x23 then .query
  else if k = 0x30 then .openStream
  else if k = 0x31 then .write
  else if k = 0x32 then .closeStream
  else if k = 0x33 then .read
  else if k = 0x34 then .fill
  else if k = 0x40 then .commit
  else if k = 0x41 then .cancel
  else .badKind

/-- The held WRITE may go on (R93). -/
def State.holdOver (s : State) : Bool :=
  s.link.executing.any (fun e => !s.holdsWrite e.request.body)

/-- The last moment for HELLO has come (R166). -/
def State.helloDue (s : State) : Bool :=
  s.mayHello && decide (s.control.startingSince + startTime ≤ s.now)

/-- Each of the part's own events with whether it is due now, in the order in which an idle step
takes them. -/
def State.ownEvents (s : State) : List (Bool × Instr) :=
  [(s.lossDue, .lossDeadline),
    (s.timerDue, .internalTimerExpiry),
    (s.fsyEndDue, .fsyPulseEnd),
    (s.dueLine.isSome, .lineSlotStart),
    (s.copyDue.isSome, .copyStepComplete),
    (s.fillDue.isSome, .fillStepComplete),
    (s.timeoutDue, .timeoutDiscard),
    (s.helloDue, .hello),
    (s.sentFrame.isSome, .transmitEnd),
    (s.nextToSend.isSome, .transmitStart),
    (s.holdOver, .writeHoldEnd),
    (s.nextRequest.isSome, rowOfKind ((s.nextRequest.map (·.kind)).getD 0))]

/-- The first of the part's own events that is due. -/
def State.dueEvent (s : State) : Option Instr := (s.ownEvents.find? (·.1)).map (·.2)

/-- One 24th of a microsecond passes. -/
def State.tick (s : State) : State := { s with now := s.now + 1 }

end Sys2Proof.Machine
end

