-- ==== Sys2Proof/Safety.lean ====
section
/-! DEFINITION. Safety.lean: the terms in which the statements speak: a request in its turn and its
answer, the host's side of the message formats, and the laws of the device as predicates of a state. -/

namespace Sys2Proof.Machine

/-! ### A request in its turn (R149) -/

/-- The part is RUNNING, the executor IDLE, and the oldest WAITING frame is `f`, of this KIND and
body. -/
abbrev Asks (s : State) (f : Request) (kind : Byte) (body : List Byte) : Prop :=
  s.control.state = .running ∧ s.link.executing = none ∧ s.link.inbound.head? = some f ∧
    f.kind = kind ∧ f.body = body

/-- The frame taken and answered: it has left the WAITING frames, and its reply, of KIND the
request's plus 0x80 and TAG its SEQ, stands at the tail of the outbound queue and in the history. -/
def Link.answered (l : Link) (f : Request) (st : Status) (body : List Byte) : Link :=
  { l with
    inbound := l.inbound.tail
    executing := none
    outbound := l.outbound ++ [.reply f ⟨f.kind + 0x80, f.seq, st, body⟩ false]
    history := enterHistory l.history ⟨f.seq, f.crc, ⟨f.kind + 0x80, f.seq, st, body⟩⟩ }

/-- The frame taken and answered, all else unchanged. -/
def State.answer (s : State) (f : Request) (st : Status) (body : List Byte) : State :=
  { s with link := s.link.answered f st body }

/-! ### The host's side of the formats (Section 10.5) -/

def Format.code : Format → Byte
  | .r565 => 0
  | .r666 => 1
  | .r888 => 2
  | .l8 => 3
  | .i8 => 4

def StreamMode.code : StreamMode → Byte
  | .wrap => 0
  | .stop => 1

def StreamOrder.code : StreamOrder → Byte
  | .down => 0
  | .up => 1

def SyncMode.code : SyncMode → Byte
  | .off => 0
  | .internal => 1
  | .external => 2

def edgeCode : Edge → Byte
  | .rise => 0
  | .fall => 1

/-- The bytes of an optional field of a request: none when absent (R162). -/
def presentBytes {α : Type} (o : Option α) (bytes : α → List Byte) : List Byte :=
  (o.map bytes).getD []

/-- The body of a CANVAS request that carries the fields present in `g` (Table 10-8). -/
def canvasBody (g : StagedCanvas) : List Byte :=
  bytesOf 1 (g.width.isSome.toNat + 2 * g.height.isSome.toNat + 4 * g.background.isSome.toNat +
      8 * g.mode.isSome.toNat + 16 * g.period.isSome.toNat + 32 * g.edge.isSome.toNat) ++
    presentBytes g.width (bytesOf 2) ++ presentBytes g.height (bytesOf 2) ++
    presentBytes g.background colourBytes ++ presentBytes g.mode (fun m => [m.code]) ++
    presentBytes g.period (bytesOf 2) ++ presentBytes g.edge (fun e => [edgeCode e])

/-- Table 7-1: every field present is in its range. -/
abbrev StagedCanvas.inRange (g : StagedCanvas) : Prop :=
  (∀ w ∈ g.width, 8 ≤ w ∧ w ≤ 512) ∧ (∀ h ∈ g.height, 8 ≤ h ∧ h ≤ 256) ∧
    (∀ p ∈ g.period, 4000 ≤ p ∧ p ≤ 50000)

/-- R109: each field that `g` carries replaces the one of `old`. -/
def StagedCanvas.over (g old : StagedCanvas) : StagedCanvas :=
  { width := g.width.or old.width
    height := g.height.or old.height
    background := g.background.or old.background
    mode := g.mode.or old.mode
    period := g.period.or old.period
    edge := g.edge.or old.edge }

/-- The body of a SET-ATTR request that carries the attributes present in `g` (Table 10-7). -/
def setAttrBody (id : Nat) (g : StagedAttrs) : List Byte :=
  bytesOf 1 id ++ bytesOf 2 g.mask ++
    presentBytes g.x signedBytes ++ presentBytes g.y signedBytes ++
    presentBytes g.z (fun v => [v]) ++ presentBytes g.opacity (fun v => [v]) ++
    presentBytes g.visible (fun v => [flagByte v]) ++
    presentBytes g.vx (bytesOf 2) ++ presentBytes g.vy (bytesOf 2) ++
    presentBytes g.vw (bytesOf 2) ++ presentBytes g.vh (bytesOf 2) ++
    presentBytes g.key (fun k => match k with
      | .setTo c => colourBytes c
      | .clear => [])

/-- Table 1-4: every attribute present is in its range for a surface of this size. -/
abbrev StagedAttrs.inRange (g : StagedAttrs) (width height : Nat) : Prop :=
  (∀ v ∈ g.x, -1024 ≤ v ∧ v ≤ 1023) ∧ (∀ v ∈ g.y, -1024 ≤ v ∧ v ≤ 1023) ∧
    (∀ v ∈ g.vx, v < width) ∧ (∀ v ∈ g.vy, v < height) ∧
    (∀ v ∈ g.vw, 1 ≤ v ∧ v ≤ width) ∧ (∀ v ∈ g.vh, 1 ≤ v ∧ v ≤ height)

/-- R11: each attribute that `g` carries replaces the one of `old`. -/
def StagedAttrs.over (g old : StagedAttrs) : StagedAttrs :=
  { x := g.x.or old.x
    y := g.y.or old.y
    z := g.z.or old.z
    opacity := g.opacity.or old.opacity
    visible := g.visible.or old.visible
    vx := g.vx.or old.vx
    vy := g.vy.or old.vy
    vw := g.vw.or old.vw
    vh := g.vh.or old.vh
    key := g.key.or old.key }

/-- The body of a CANVAS request that carries these numbers, in their range or not (Table 10-8). -/
def canvasBodyRaw (g : CanvasFields) : List Byte :=
  bytesOf 1 (g.width.isSome.toNat + 2 * g.height.isSome.toNat + 4 * g.background.isSome.toNat +
      8 * g.mode.isSome.toNat + 16 * g.period.isSome.toNat + 32 * g.edge.isSome.toNat) ++
    presentBytes g.width (bytesOf 2) ++ presentBytes g.height (bytesOf 2) ++
    presentBytes g.background colourBytes ++ presentBytes g.mode (bytesOf 1) ++
    presentBytes g.period (bytesOf 2) ++ presentBytes g.edge (bytesOf 1)

/-- Each number fits its bytes, and one is out of the range of Table 7-1. -/
abbrev CanvasFields.outOfRange (g : CanvasFields) : Prop :=
  ((∀ v ∈ g.width, v < 65536) ∧ (∀ v ∈ g.height, v < 65536) ∧ (∀ v ∈ g.mode, v < 256) ∧
    (∀ v ∈ g.period, v < 65536) ∧ (∀ v ∈ g.edge, v < 256)) ∧
  ((∃ v ∈ g.width, v < 8 ∨ 512 < v) ∨ (∃ v ∈ g.height, v < 8 ∨ 256 < v) ∨ (∃ v ∈ g.mode, 2 < v) ∨
    (∃ v ∈ g.period, v < 4000 ∨ 50000 < v) ∨ ∃ v ∈ g.edge, 1 < v)

/-- The body of a SET-ATTR request that carries these numbers, in their range or not (Table 10-7). -/
def setAttrBodyRaw (id : Nat) (g : AttrFields) : List Byte :=
  bytesOf 1 id ++ bytesOf 2 (g.x.isSome.toNat + 2 * g.y.isSome.toNat + 4 * g.z.isSome.toNat +
      8 * g.opacity.isSome.toNat + 16 * g.visible.isSome.toNat + 32 * g.vx.isSome.toNat +
      64 * g.vy.isSome.toNat + 128 * g.vw.isSome.toNat + 256 * g.vh.isSome.toNat +
      512 * g.keySet.isSome.toNat + 1024 * g.keyClear.toNat) ++
    presentBytes g.x signedBytes ++ presentBytes g.y signedBytes ++
    presentBytes g.z (fun v => [v]) ++ presentBytes g.opacity (fun v => [v]) ++
    presentBytes g.visible (bytesOf 1) ++
    presentBytes g.vx (bytesOf 2) ++ presentBytes g.vy (bytesOf 2) ++
    presentBytes g.vw (bytesOf 2) ++ presentBytes g.vh (bytesOf 2) ++
    presentBytes g.keySet colourBytes

/-- Each number fits its bytes, and one is out of the range of Table 1-4 for a surface of this size,
or the key is both set and cleared. -/
abbrev AttrFields.outOfRange (g : AttrFields) (width height : Nat) : Prop :=
  ((∀ v ∈ g.x, -32768 ≤ v ∧ v < 32768) ∧ (∀ v ∈ g.y, -32768 ≤ v ∧ v < 32768) ∧
    (∀ v ∈ g.visible, v < 256) ∧ (∀ v ∈ g.vx, v < 65536) ∧ (∀ v ∈ g.vy, v < 65536) ∧
    (∀ v ∈ g.vw, v < 65536) ∧ (∀ v ∈ g.vh, v < 65536)) ∧
  ((∃ v ∈ g.x, v < -1024 ∨ 1023 < v) ∨ (∃ v ∈ g.y, v < -1024 ∨ 1023 < v) ∨
    (∃ v ∈ g.visible, 1 < v) ∨ (∃ v ∈ g.vx, width ≤ v) ∨ (∃ v ∈ g.vy, height ≤ v) ∨
    (∃ v ∈ g.vw, v < 1 ∨ width < v) ∨ (∃ v ∈ g.vh, v < 1 ∨ height < v) ∨
    (g.keySet ≠ none ∧ g.keyClear = true))

/-- The body of the COMMIT request that carries this record (Table 10-6, Table 10-8). -/
def commitBody (c : Commit) : List Byte :=
  bytesOf 2 c.tag.toNat ++
    bytesOf 1 (c.carry.toNat + 2 * c.canvas.toNat + 4 * c.curve.toNat + 8 * c.target.isSome.toNat) ++
    presentBytes c.target (fun t => bytesOf 4 t.toNat) ++
    bytesOf 1 c.surfaces.length ++ c.surfaces.map (BitVec.ofNat 8)

/-- Characters received one after another, the stop bit of each high. -/
def receive : List Byte → State → Host.Outcome State Fault Refusal
  | [], s => .next s
  | b :: bs, s =>
    match exec (.rxByte (characterOf b)) s with
    | .next t => receive bs t
    | .fault r => .fault r
    | .refused r => .refused r

/-- The frame that `hostFrameBytes` spells. -/
def frameOf (seq kind : Byte) (body : List Byte) : Request :=
  ⟨seq, kind, body, crcOf (bytesOf 2 body.length ++ [seq, kind] ++ body)⟩

/-- The place of a stream's cursor in the order in which the window's pixels are written (R68). -/
def Stream.place (st : Stream) : Nat :=
  (match st.order with
    | .down => st.cy
    | .up => st.wh - 1 - st.cy) * st.ww + st.cx

/-- STAGED or LIVE. -/
abbrev Surface.defined (f : Surface) : Prop := f.state = .staged ∨ f.state = .live

/-- No surface is RETIRING. -/
abbrev State.noneRetiring (s : State) : Prop := ∀ id < 32, (s.surf id).state ≠ .retiring

/-- The engine is not IDLE with work outstanding (R87: such a moment is one of the arbiter's). -/
abbrev State.engineBusy (s : State) : Prop := s.engine.step ≠ .idle ∨ s.choice = .idle

/-- The timing generator runs. -/
abbrev State.clockRuns (s : State) : Prop := s.timing.state ≠ .stopped

/-! ### Commits applied (Sections 3.4 to 3.6) -/

/-- R46: no carry sweep and no fill is outstanding on any surface that the commit names. -/
abbrev State.owesNothing (s : State) (c : Commit) : Prop :=
  ∀ id ∈ c.surfaces, (s.surf id).stale = 0 ∧ (s.surf id).fills = 0

/-- R46, R48: the commit is ready, `n` being the number compared with its target. -/
abbrev State.isReady (s : State) (n : Word) (c : Commit) : Prop :=
  s.owesNothing c ∧ ∀ t ∈ c.target, (n - t).toNat < 2 ^ 31

/-- R8, R12, R50: a record once a commit that names it has been applied. -/
def Surface.afterCommit (f : Surface) (carry : Bool) : Surface :=
  let swap := decide (f.banks = 2) && f.dirty
  { f with
    state := .live
    live :=
      { x := f.staged.x.getD f.live.x
        y := f.staged.y.getD f.live.y
        z := f.staged.z.getD f.live.z
        opacity := f.staged.opacity.getD f.live.opacity
        visible := f.staged.visible.getD f.live.visible
        vx := f.staged.vx.getD f.live.vx
        vy := f.staged.vy.getD f.live.vy
        vw := f.staged.vw.getD f.live.vw
        vh := f.staged.vh.getD f.live.vh
        key := match f.staged.key with
          | none => f.live.key
          | some (.setTo colour) => some colour
          | some .clear => none }
    staged := stagedNone
    pendingTag := none
    front := if swap then f.back else f.front
    back := if swap then f.front else f.back
    dirty := if swap then false else f.dirty
    stale := if swap && carry then tileCount f.width f.height else f.stale }

/-- R51: the live canvas once the staged one has been made live. Background and FIN edge may be
missing from both; the other fields stand at 0 or OFF only where check 6 of COMMIT has not held. -/
def Scan.canvasAfter (c : Scan) : Canvas :=
  { width := (c.staged.width.or (c.live.map (·.width))).getD 0
    height := (c.staged.height.or (c.live.map (·.height))).getD 0
    background := (c.staged.background.or (c.live.map (·.background))).getD ⟨0, 0, 0⟩
    mode := (c.staged.mode.or (c.live.map (·.mode))).getD .off
    period := (c.staged.period.or (c.live.map (·.period))).getD 0
    edge := (c.staged.edge.or (c.live.map (·.edge))).getD .rise }

/-- R125: the application of the commits `cs` changes a clock field; with no live canvas before, all
three count as changed. -/
abbrev State.clockMoves (s : State) (cs : List Commit) : Prop :=
  (∃ c ∈ cs, c.canvas = true) ∧ ∀ g ∈ s.scan.live,
    (g.mode, g.period, g.edge) ≠
      (s.scan.canvasAfter.mode, s.scan.canvasAfter.period, s.scan.canvasAfter.edge)

/-- R125: the timing generator once the commits `cs` have been applied. -/
def State.timingAfter (s : State) (cs : List Commit) : Timing :=
  if s.clockMoves cs then
    { s.timing with
      state := match s.scan.canvasAfter.mode with
        | .off => .stopped
        | .internal => .freeRun
        | .external => .seeking
      good := 0
      lastEdge := none }
  else s.timing

/-- R52: the COMMIT-DONE notice of a commit that is applied in frame `n`: tag, frame number, how many
surfaces it swaps, and whether `n` is past its target. -/
def State.doneNotice (s : State) (n : Word) (c : Commit) : Notice :=
  ⟨0x61, bytesOf 2 c.tag.toNat ++ bytesOf 4 n.toNat ++
    bytesOf 1 (c.surfaces.countP (fun id => decide ((s.surf id).banks = 2) && (s.surf id).dirty)) ++
    [if ∃ x ∈ c.target, x ≠ n then 1 else 0]⟩

/-- R136: the FRAME notice of the boundary that begins frame `n` and leaves the timing generator in
state `st`, when one is due. -/
def State.frameNoticeDue (s : State) (n : Word) (st : TimingState) : List Notice :=
  if s.timing.interval.toNat ≠ 0 ∧ n.toNat % s.timing.interval.toNat = 0 then
    [⟨0x63, bytesOf 4 n.toNat ++ [st.code]⟩]
  else []

/-- R36, R50, R51, R103: `t` is `s` with the commits `cs`, the first of its queue, applied one after
another in frame `n`: nothing of the link, of the engine or of the frame being scanned has changed yet. -/
def Applies (s t : State) (cs : List Commit) (n : Word) : Prop :=
  (∀ id < 32, t.surf id =
    match cs.find? (fun c => c.surfaces.contains id) with
    | some c => (s.surf id).afterCommit c.carry
    | none => s.surf id) ∧
  (∀ x : Tile, t.pool.contentOf x =
    if ∃ c ∈ cs, c.carry = true ∧ ∃ id ∈ c.surfaces, (s.surf id).banks = 2 ∧
        (s.surf id).dirty = true ∧ x ∈ (s.surf id).front then .stale
    else s.pool.contentOf x) ∧
  t.pool.free = s.pool.free ∧ t.pool.pixels = s.pool.pixels ∧
  t.commits.queue = s.commits.queue.drop cs.length ∧
  (let record := s.commits.applied ++ cs.map (fun c => ⟨c.tag, n⟩)
   t.commits.applied = if cs = [] then s.commits.applied else record.drop (record.length - 4)) ∧
  t.scan =
    (if ∃ c ∈ cs, c.canvas = true then
      { s.scan with live := some s.scan.canvasAfter, staged := stagedCanvasNone }
     else s.scan) ∧
  t.colours =
    (if (∃ c ∈ cs, c.curve = true) ∧ s.colours.modified = true then
      { s.colours with liveCurve := s.colours.stagedCurve, modified := false }
     else s.colours) ∧
  t.timing = s.timingAfter cs ∧ t.streams = s.streams ∧ t.engine = s.engine ∧ t.link = s.link ∧
  t.control = s.control ∧ t.pins = s.pins ∧ t.now = s.now ∧ t.pending = s.pending

/-- R19, R111, R124, R134: `t` is `s`, all due commits applied, past the boundary that begins its next
frame: its RETIRING surfaces are FREE, their tiles BLANK at the tail of the free list; the boundary is
counted; a frame is scanned, or none when the timing generator is STOPPED, next line and line slot
being absent then (log entry 23). Says nothing of the link and of the engine. -/
def Begins (s t : State) : Prop :=
  (∀ id < 32, t.surf id = if (s.surf id).state = .retiring then surfaceFree else s.surf id) ∧
  t.pool.free = s.pool.free ++
    ((List.range 32).filter (fun id => (s.surf id).state == .retiring)).flatMap
      (fun id => (s.surf id).front ++ (s.surf id).back) ∧
  (∀ x : Tile, t.pool.contentOf x =
    if ∃ id < 32, (s.surf id).state = .retiring ∧ x ∈ (s.surf id).front ++ (s.surf id).back
    then .blank else s.pool.contentOf x) ∧
  t.pool.pixels = s.pool.pixels ∧
  t.timing = { s.timing with
    frame := s.timing.frame + 1, lastBoundary := some s.now, fsy := true } ∧
  (s.timing.state = .stopped ∨ s.scan.live = none →
    t.scan = { s.scan with scanning := false, nextLine := none, slot := none, driven := none }) ∧
  (s.timing.state ≠ .stopped → ∀ g ∈ s.scan.live,
    t.scan = { s.scan with
      scanning := true, nextLine := some 0, slot := some ⟨7 * g.period, 8 * g.height⟩
      driven := none }) ∧
  t.commits = s.commits ∧ t.colours = s.colours ∧ t.streams = s.streams ∧
  t.control = s.control ∧ t.pins = s.pins ∧ t.now = s.now ∧ t.pending = s.pending

/-- R46, R49: `cs` are the commits of the queue that are applied in one event in frame `n`: ready one
and all, up to the first that is not, or to the one that leaves the timing generator STOPPED. -/
def DueCommits (s : State) (n : Word) (cs rest : List Commit) : Prop :=
  s.commits.queue = cs ++ rest ∧ (∀ c ∈ cs, s.isReady n c) ∧
  (∀ k, 0 < k → k < cs.length → (s.timingAfter (cs.take k)).state ≠ .stopped) ∧
  (rest = [] ∨ cs ≠ [] ∧ (s.timingAfter cs).state = .stopped ∨ ∃ c ∈ rest.head?, ¬ s.isReady n c)

/-- R49, R54, R124, R136, R153: `t` is `s` past a frame boundary: the commits due are applied, and the
next frame begins. `lead` is the FILL-DONE notice of a completion that starts the part, `sync` the
SYNC-LOCKED or SYNC-LOST of the event. The COMMIT-DONE notices stand behind `lead`, in the order of
application, FRAME behind `sync`; between these two lists the order is free (log entry 2). Says
nothing of the engine. -/
def PassesBoundary (s t : State) (lead sync : List Notice) : Prop :=
  ∃ cs rest u order, DueCommits s (s.timing.frame + 1) cs rest ∧
    Applies s u cs (s.timing.frame + 1) ∧ Begins u t ∧
    (let own := lead ++ cs.map (s.doneNotice (s.timing.frame + 1))
     let clock := sync ++ s.frameNoticeDue (s.timing.frame + 1) t.timing.state
     order.Perm (own ++ clock) ∧ own.Sublist order ∧ clock.Sublist order ∧
       t.link = s.link.offerAll order)

/-- R87: the engine goes on with the step under way, or takes the arbiter's choice. -/
def EngineGoesOn (s t : State) : Prop :=
  t.engine.jobs = s.engine.jobs ∧ t.engine.counter = s.engine.counter ∧
  (s.engine.step ≠ .idle → t.engine = s.engine) ∧
  (s.engine.step = .idle → t.engine.step = t.choice ∧
    t.engine.since = if t.choice = .idle then s.engine.since else s.now)

/-- The engine goes on, or has taken the arbiter's choice before the commits were applied: the spec
leaves open which comes first at a completion that is a moment for both (log entry 4). -/
def EngineGoesOnEither (s t : State) : Prop :=
  EngineGoesOn s t ∨
    (s.engine.step = .idle ∧ s.choice ≠ .idle ∧
      t.engine = { s.engine with step := s.choice, since := s.now })

/-- R48: the number that the target of a CANVAS head is compared with while STOPPED: the number of the
next frame, or the current one when its application leaves the mode OFF. -/
def State.stoppedFrame (s : State) : Word :=
  if s.scan.canvasAfter.mode = .off then s.timing.frame else s.timing.frame + 1

/-- R47: the part is STOPPED, and the head of its queue is a commit that it applies now. -/
abbrev State.headIsDue (s : State) : Prop :=
  s.timing.state = .stopped ∧
    ∃ c ∈ s.commits.queue.head?, c.canvas = true ∧ s.isReady s.stoppedFrame c

/-- R54, R55: `t` is `s`, STOPPED, with its head applied: with no boundary when the mode is OFF then,
else as the first boundary. `lead` is a FILL-DONE notice that comes first. Says nothing of the
engine. -/
def AppliesStopped (s t : State) (lead : List Notice) : Prop :=
  (s.scan.canvasAfter.mode = .off → ∃ c ∈ s.commits.queue.head?, ∃ u,
    Applies s u [c] s.timing.frame ∧ t = { u with
      link := s.link.offerAll (lead ++ [s.doneNotice s.timing.frame c]), engine := t.engine }) ∧
  (s.scan.canvasAfter.mode ≠ .off → PassesBoundary s t lead [])

/-! ### COMMIT requests (Table 3-2) -/

/-- Check 6: a CANVAS commit would lack one of the four required fields. -/
abbrev Scan.lacksRequired (c : Scan) : Prop :=
  c.live = none ∧ (c.staged.width = none ∨ c.staged.height = none ∨ c.staged.mode = none ∨
    c.staged.period = none)

/-- Table 3-2: the COMMIT passes every check. -/
abbrev State.acceptsCommit (s : State) (c : Commit) : Prop :=
  s.commits.queue.length < 4 ∧ (∀ d ∈ s.commits.queue, d.tag ≠ c.tag) ∧
  (c.surfaces ≠ [] ∨ c.canvas = true ∨ c.curve = true) ∧
  (s.timing.state = .stopped → c.canvas = true) ∧
  (c.canvas = true → ¬ s.scan.lacksRequired) ∧
  (c.canvas = true → ∀ d ∈ s.commits.queue, d.canvas = false) ∧
  (c.curve = true → ∀ d ∈ s.commits.queue, d.curve = false) ∧
  c.surfaces.Nodup ∧
  (∀ id ∈ c.surfaces, id < 32 ∧ (s.surf id).defined ∧ (s.surf id).pendingTag = none ∧
    ¬ ((s.surf id).banks = 2 ∧ (s.surf id).stream ≠ none)) ∧
  (∀ t ∈ c.target, (t - s.timing.frame).toNat ≤ 65535)

/-- R43: `t` is `s` with the accepted COMMIT answered, at the tail of the queue, and its surfaces
frozen. -/
def Accepts (s t : State) (f : Request) (c : Commit) : Prop :=
  t = { s.answer f .ok (bytesOf 2 c.tag.toNat ++
      bytesOf 1 s.commits.queue.length ++ bytesOf 1 (s.commits.queue.length + 1)) with
    commits := { s.commits with queue := s.commits.queue ++ [c] }, surfaces := t.surfaces } ∧
  ∀ id < 32, t.surf id =
    if id ∈ c.surfaces then { s.surf id with pendingTag := some c.tag } else s.surf id

/-- R57: `t` is `s` with the CANCEL of the commit `c`, in place `i`, answered: it has left the queue,
and its surfaces are frozen no longer. -/
def Removes (s t : State) (f : Request) (i : Nat) (c : Commit) : Prop :=
  t = { s.answer f .ok (bytesOf 1 i ++ bytesOf 1 (s.commits.queue.length - 1)) with
    commits := { s.commits with queue := s.commits.queue.eraseIdx i }, surfaces := t.surfaces } ∧
  ∀ id < 32, t.surf id =
    if id ∈ c.surfaces then { s.surf id with pendingTag := none } else s.surf id

/-! ### Pixels of a WRITE (R67 to R69) -/

/-- The content pixel at a place of the stream's window, counted in the stream's order. -/
def Stream.pixelAt (st : Stream) (place : Nat) : Nat × Nat :=
  (st.wx + place % st.ww,
    st.wy + match st.order with
      | .down => place / st.ww
      | .up => st.wh - 1 - place / st.ww)

/-- How many pixels an accepted WRITE of `payload` bytes writes: all that it completes, but in STOP
mode no more than the window still takes. -/
def Stream.pixelsOf (st : Stream) (payload : Nat) : Nat :=
  let complete := (st.residue.length + payload) / st.format.bytesPerPixel
  match st.mode with
  | .wrap => complete
  | .stop => min complete (st.ww * st.wh - st.place)

/-! ### The laws of the device -/

/-- R147, R150, R151: at most 8 inbound buffers are held, at most 24 notices are queued, and the
history has at most 8 entries, one for each SEQ. -/
def LinkLaw (s : State) : Prop :=
  s.link.held ≤ 8 ∧ s.link.notices ≤ 24 ∧ s.link.history.length ≤ 8 ∧
    (s.link.history.map (·.seq)).Nodup

/-- R14, R35, R36, R83: at most 4 pending commits, 4 entries of the applied-commit record and 4 fill
jobs; the outstanding fills of a surface count its jobs, and a job names a STAGED or LIVE surface. -/
def QueueLaw (s : State) : Prop :=
  s.commits.queue.length ≤ 4 ∧ s.commits.applied.length ≤ 4 ∧ s.engine.jobs.length ≤ 4 ∧
    (∀ id < 32, (s.surf id).fills = s.engine.jobs.countP (fun j => j.surface == id)) ∧
    ∀ j ∈ s.engine.jobs, j.surface < 32 ∧ (s.surf j.surface).defined

/-- The tiles of the banks of ids 0..31. -/
def State.bankTiles (s : State) : List Tile :=
  surfaceIds.flatMap (fun id => (s.surf id).front ++ (s.surf id).back)

/-- R1, R22: each of the 4096 tiles is in exactly one place, the free list or a bank position; a FREE
record has no bank lists, and every bank of another record has one tile per position. -/
def TileLaw (s : State) : Prop :=
  (s.pool.free ++ s.bankTiles).Perm (List.finRange 4096) ∧
    ∀ id < 32,
      ((s.surf id).state = .free → (s.surf id).front = [] ∧ (s.surf id).back = []) ∧
      ((s.surf id).state ≠ .free →
        (s.surf id).front.length = tileCount (s.surf id).width (s.surf id).height ∧
        (s.surf id).back.length =
          if (s.surf id).banks = 2 then tileCount (s.surf id).width (s.surf id).height else 0)

/-- R28: STALE tiles stand only in back banks of double-banked surfaces, and a surface's stale count
is the number of STALE tiles in its back bank. -/
def StaleLaw (s : State) : Prop :=
  (∀ id < 32, (s.surf id).stale = (s.surf id).back.countP (fun t => s.pool.contentOf t == .stale)) ∧
    ∀ t : Tile, s.pool.contentOf t = .stale → ∃ id < 32, (s.surf id).banks = 2 ∧ t ∈ (s.surf id).back

/-- R61: the slot and the record name each other; a stream belongs to a STAGED or LIVE surface; its
cursor lies in its window and its residue is shorter than a pixel; a FULL stream's cursor stands on
the window's last pixel and its residue is empty. -/
def StreamLaw (s : State) : Prop :=
  (∀ i < 8, ∀ st, s.slotAt i = some st →
    st.surface < 32 ∧ (s.surf st.surface).stream = some i ∧ (s.surf st.surface).defined ∧
    st.cx < st.ww ∧ st.cy < st.wh ∧ st.residue.length < st.format.bytesPerPixel ∧
    (st.full = true → st.place + 1 = st.ww * st.wh ∧ st.residue = [])) ∧
  ∀ id < 32, ∀ i, (s.surf id).stream = some i →
    i < 8 ∧ ∃ st, s.slotAt i = some st ∧ st.surface = id

/-- R34, R35, R44: pending commits hold distinct tags and name distinct surfaces; at most one carries
CANVAS and at most one CURVE; a surface's pending-commit field holds exactly the tag of the pending
commit that names it, and only a STAGED or LIVE surface is named. -/
def FreezeLaw (s : State) : Prop :=
  (s.commits.queue.map (·.tag)).Nodup ∧
  (s.commits.queue.flatMap (·.surfaces)).Nodup ∧
  s.commits.queue.countP (·.canvas) ≤ 1 ∧ s.commits.queue.countP (·.curve) ≤ 1 ∧
  (∀ c ∈ s.commits.queue, ∀ id ∈ c.surfaces,
    id < 32 ∧ (s.surf id).pendingTag = some c.tag ∧ (s.surf id).defined) ∧
  ∀ id < 32, ∀ tag, (s.surf id).pendingTag = some tag →
    ∃ c ∈ s.commits.queue, c.tag = tag ∧ id ∈ c.surfaces

/-- R103: whenever the modified mark is no, the staged curve equals the live curve. -/
def CurveLaw (s : State) : Prop :=
  s.colours.modified = false → s.colours.stagedCurve = s.colours.liveCurve

/-- The stores keep their canonical form. -/
def StoreLaw (s : State) : Prop :=
  s.pool.pixels.wf ∧ StoreWf contentDefault s.pool.content ∧
    StoreWf paletteDefault s.colours.palettes ∧ StoreWf curveDefault s.colours.liveCurve ∧
    StoreWf curveDefault s.colours.stagedCurve

/-- R166: the part is HELD exactly while RSTN is low or power is not good, and every block is then at
its reset values. -/
def HeldLaw (s : State) : Prop :=
  (s.control.state = .held ↔ ¬ (s.pins.rstnHigh = true ∧ s.pins.powerGood = true)) ∧
  (s.control.state = .held →
    s.link = linkReset ∧ s.surfaces = Vector.replicate 32 surfaceFree ∧
    s.pool.free = freeListReset ∧ s.pool.content = [] ∧ s.streams = Vector.replicate 8 none ∧
    s.engine = engineReset ∧ s.commits = commitsReset ∧ s.colours = coloursReset ∧
    s.timing = timingReset ∧ s.scan = scanReset)

end Sys2Proof.Machine
end

