-- ==== Sys2Proof/Certificates/Slice0/Obligations.lean ====
section
/-! DEFINITION. Certificates/Slice0/Obligations.lean: the statements for the provers. Numbers of log
entries are those of notes/assumptions. -/

open Sys2Proof Sys2Proof.Machine

/-! ### Steps -/

/-- A step takes the command at the front of the queue and is its `exec` with the queue's rest. -/
def Obligations.StepRunsFrontCommand : Prop :=
  ∀ (c : Instr) (rest : List Instr) (s : State), s.pending = c :: rest →
    step s = exec c { s with pending := rest }

/-! ### Resets and starting (Chapter 11) -/

/-- The values that the reset tables give, block by block (Sections 1.1, 2.1, 2.2, 6.3, Tables 6-4,
7-3, 8-1, 9-1, 11-1). -/
def Obligations.ResetValuesByBlock : Prop :=
  State.reset.control.state = .held ∧
  (∀ id < 32, State.reset.surf id = surfaceFree) ∧
  State.reset.pool.free = List.finRange 4096 ∧
  (∀ t : Tile, State.reset.pool.contentOf t = .blank) ∧
  (∀ i < 8, State.reset.slotAt i = none) ∧
  (State.reset.engine.jobs = [] ∧ State.reset.engine.counter = 0 ∧ State.reset.engine.step = .idle) ∧
  (State.reset.commits.queue = [] ∧ State.reset.commits.applied = []) ∧
  (∀ p < 4, ∀ i < 256, State.reset.colours.paletteEntry p i = black) ∧
  (∀ c < 3, ∀ i < 256, (State.reset.colours.liveCode c i).toNat = (i * 4095 + 127) / 255) ∧
  State.reset.colours.stagedCurve = State.reset.colours.liveCurve ∧
  State.reset.colours.modified = false ∧
  (State.reset.scan.live = none ∧ State.reset.scan.staged = stagedCanvasNone ∧
    State.reset.scan.scanning = false ∧ State.reset.scan.nextLine = none ∧
    State.reset.scan.slot = none) ∧
  (State.reset.timing.state = .stopped ∧ State.reset.timing.frame = 0 ∧
    State.reset.timing.lastBoundary = none ∧ State.reset.timing.lastEdge = none ∧
    State.reset.timing.good = 0 ∧ State.reset.timing.glitches = 0 ∧
    State.reset.timing.interval = 0 ∧ State.reset.timing.fsy = false) ∧
  (State.reset.link.framer.state = .hunt ∧ State.reset.link.framer.bytes = [] ∧
    State.reset.link.inbound = [] ∧ State.reset.link.executing = none ∧
    State.reset.link.history = [] ∧ State.reset.link.outbound = [] ∧
    State.reset.link.sending = none ∧ State.reset.link.noticeSeq = 0 ∧ State.reset.link.lost = 0 ∧
    State.reset.link.counters = ⟨0, 0, 0, 0, 0⟩) ∧
  State.reset.pending = []

/-- RSTN falling and power failing put the part into HELD with every block at its reset values; the
pixel cells, the clock of the model and the waiting commands stay. -/
def Obligations.PinResetAndPowerFailHoldThePart : Prop :=
  ∀ s : State,
    exec .pinReset s = .next
      { now := s.now, pending := s.pending, pins := { s.pins with rstnHigh := false }
        control := { s.control with state := .held, softStart := false }
        link := linkReset, surfaces := Vector.replicate 32 surfaceFree
        pool := ⟨List.finRange 4096, [], s.pool.pixels⟩, streams := Vector.replicate 8 none
        engine := engineReset, commits := commitsReset, colours := coloursReset
        timing := timingReset, scan := scanReset } ∧
    exec .powerFail s = .next
      { now := s.now, pending := s.pending, pins := { s.pins with powerGood := false }
        control := { s.control with state := .held, softStart := false }
        link := linkReset, surfaces := Vector.replicate 32 surfaceFree
        pool := ⟨List.finRange 4096, [], s.pool.pixels⟩, streams := Vector.replicate 8 none
        engine := engineReset, commits := commitsReset, colours := coloursReset
        timing := timingReset, scan := scanReset }

/-- A HELD part starts when the second of the two conditions, RSTN high and power good, comes true,
and reads the straps then; while the other condition fails, the pin alone changes. -/
def Obligations.ReleaseAndPowerStartThePart : Prop :=
  ∀ s : State, s.control.state = .held →
    (s.pins.powerGood = true →
      exec .rstnRelease s = .next { s with
        pins := { s.pins with rstnHigh := true }
        control := { s.control with
          state := .starting, startingSince := s.now, softStart := false
          rate := match s.pins.lr1, s.pins.lr0 with
            | false, false => .mbit1
            | false, true => .mbit3
            | true, false => .mbit6
            | true, true => .mbit12 } }) ∧
    (s.pins.powerGood = false →
      exec .rstnRelease s = .next { s with pins := { s.pins with rstnHigh := true } } ∧
      (s.pins.rstnHigh = true →
        exec .powerGood s = .next { s with
          pins := { s.pins with powerGood := true }
          control := { s.control with
            state := .starting, startingSince := s.now, softStart := false, freshPower := true
            rate := match s.pins.lr1, s.pins.lr0 with
              | false, false => .mbit1
              | false, true => .mbit3
              | true, false => .mbit6
              | true, true => .mbit12 } }) ∧
      (s.pins.rstnHigh = false →
        exec .powerGood s = .next { s with
          pins := { s.pins with powerGood := true }
          control := { s.control with freshPower := true } }))

/-- In STARTING, within 2 ms, HELLO is offered: it takes the notice sequence as its TAG and carries
the reason and the thirteen bytes of IDENTIFY. -/
def Obligations.HelloIsOfferedInStarting : Prop :=
  ∀ s : State, s.control.state = .starting → s.link.outbound = [] → s.link.lost = 0 →
    s.now ≤ s.control.startingSince + 24 * 2000 →
    exec .hello s = .next { s with link := { s.link with
      outbound := [.notice 0x60 s.link.noticeSeq
        ((if s.control.softStart then 2 else if s.control.freshPower then 0 else 1) ::
          [0x20, 0x51, 1, 32, 0x00, 0x10, 8, 4, 4, 8, 32, 0x00, 0x04])]
      noticeSeq := s.link.noticeSeq + 1 } }

/-! ### The host link (Chapter 9) -/

/-- The idle transmitter takes the head of the queue and fixes its CREDITS, 8 less the frames
waiting, the frame executing and the replies still queued; the start of HELLO's transmission in
STARTING makes the part RUNNING. The clauses on `freshPower` are the model's choice and no rule of the
spec (log entry 10): for R166's reason a HELLO counts as sent at the start of its transmission, and a
HELLO of reason LINK counts too. So are, as readings of the spec against itself, a reply's own buffer
counted as free in its CREDITS in every order of R146 (log entry 27), and a low period of HRX that had
its BREAK counted anew at RUNNING (log entry 28). -/
def Obligations.TransmissionStartsAtTheHead : Prop :=
  ∀ (s : State) (f : OutFrame) (rest : List OutFrame),
    s.link.sending = none → s.link.paused = false → s.link.outbound = f :: rest →
    ((s.control.state = .running ∨ s.control.state = .resetPending) →
      exec .transmitStart s = .next { s with
        link := { s.link with
          outbound := rest
          sending := some ⟨f, f.wire (BitVec.ofNat 8 (8 - (s.link.inbound.length +
            (if s.link.executing.isSome then 1 else 0) +
            rest.countP (fun g => !g.isNotice)))), s.now⟩ }
        control := { s.control with
          freshPower := if f.isHello then false else s.control.freshPower } }) ∧
    (s.control.state = .starting → f.isHello = true →
      exec .transmitStart s = .next { s with
        link := { s.link with
          outbound := rest
          sending := some ⟨f, f.wire (BitVec.ofNat 8 (8 - (s.link.inbound.length +
            (if s.link.executing.isSome then 1 else 0) +
            rest.countP (fun g => !g.isNotice)))), s.now⟩ }
        control := { s.control with state := .running, runningSince := s.now, freshPower := false }
        pins := { s.pins with breakTaken := false } })

/-- While a frame is being sent HTX carries, for each byte, a low start bit, its eight bits, least
significant first, and a high stop bit, each for one bit-time; else it is high. When the last byte of a
frame has been sent, ten bit-times a byte at the link rate, the
transmitter is IDLE; when the frame is the RESET reply, the soft reset takes effect in that event. The
soft reset keeps the transmitter's pause here too, where the spec keeps it at a BREAK alone: the
model's choice (log entry 9). -/
def Obligations.TransmissionEndsAndSoftResets : Prop :=
  (∀ s : State,
    (s.link.sending = none → s.htxHigh = true) ∧
    ∀ x n k b, s.link.sending = some x → x.bytes[n]? = some b → k < 10 →
      24 * (10 * n + k) + s.control.rate.mbit * x.since ≤ s.control.rate.mbit * s.now →
      s.control.rate.mbit * s.now < 24 * (10 * n + k + 1) + s.control.rate.mbit * x.since →
      s.htxHigh = if k = 0 then false else if k = 9 then true else b.getLsbD (k - 1)) ∧
  ∀ (s : State) (x : Sending), s.link.sending = some x →
    240 * x.bytes.length + s.control.rate.mbit * x.since ≤ s.control.rate.mbit * s.now →
    (¬ (s.control.state = .resetPending ∧ x.frame.isResetReply = true) →
      exec .transmitEnd s = .next { s with link := { s.link with sending := none } }) ∧
    (s.control.state = .resetPending → x.frame.isResetReply = true →
      exec .transmitEnd s = .next
        { now := s.now, pending := s.pending, pins := s.pins
          control := { s.control with
            state := .starting, startingSince := s.now, softStart := true
            rate := strapRate s.pins }
          link := { linkReset with paused := s.link.paused }
          surfaces := Vector.replicate 32 surfaceFree
          pool := ⟨List.finRange 4096, [], s.pool.pixels⟩, streams := Vector.replicate 8 none
          engine := engineReset, commits := commitsReset, colours := coloursReset
          timing := timingReset, scan := scanReset })

/-- The bytes of a host frame, received in HUNT one after another, put that frame, and nothing else,
at the tail of the WAITING frames, when it is no duplicate and a buffer is free. -/
def Obligations.HostFrameArrivesAsEncoded : Prop :=
  ∀ (s : State) (seq kind : Byte) (body : List Byte),
    body.length ≤ 1024 → s.control.state = .running → s.pins.hrxLow = false →
    s.link.framer.state = .hunt → s.link.framer.bytes = [] →
    s.link.inHand (frameOf seq kind body) = false → s.link.recall (frameOf seq kind body) = none →
    s.link.held < 8 →
    receive (hostFrameBytes seq kind body) s = .next { s with link := { s.link with
      framer := ⟨.hunt, [], s.now⟩
      inbound := s.link.inbound ++ [frameOf seq kind body] } }

/-- A copy of a frame in hand only raises the duplicate counter; a copy of a frame in the reply
history has the stored reply queued again with the DUPLICATE mark; any other frame that finds the 8
buffers held raises the overrun counter and gives a DISCARD notice with its SEQ. An entry of the reply
history becomes the newest: an entry of the same SEQ goes, else the oldest of eight. -/
def Obligations.DuplicateAndOverrunArrivals : Prop :=
  (∀ (s : State) (seq kind : Byte) (body : List Byte),
    body.length ≤ 1024 → s.control.state = .running → s.pins.hrxLow = false →
    s.link.framer.state = .hunt → s.link.framer.bytes = [] →
    (s.link.inHand (frameOf seq kind body) = true →
      receive (hostFrameBytes seq kind body) s = .next { s with link := { s.link with
        framer := ⟨.hunt, [], s.now⟩
        counters := { s.link.counters with duplicate := saturate16 s.link.counters.duplicate } } }) ∧
    (∀ e ∈ s.link.recall (frameOf seq kind body),
      s.link.inHand (frameOf seq kind body) = false → s.link.held < 8 →
      receive (hostFrameBytes seq kind body) s = .next { s with link := { s.link with
        framer := ⟨.hunt, [], s.now⟩
        counters := { s.link.counters with duplicate := saturate16 s.link.counters.duplicate }
        outbound := s.link.outbound ++ [.reply (frameOf seq kind body) e.built true] } }) ∧
    (s.link.inHand (frameOf seq kind body) = false → 8 ≤ s.link.held →
      receive (hostFrameBytes seq kind body) s = .next { s with
        link := Link.offer
          { s.link with
            framer := ⟨.hunt, [], s.now⟩
            counters := { s.link.counters with overrun := saturate16 s.link.counters.overrun } }
          ⟨0x66, [3, 1, seq]⟩ })) ∧
  ∀ (h : List HistoryEntry) (e : HistoryEntry),
    (∀ older newer d, h = older ++ d :: newer → d.seq = e.seq →
      (∀ x ∈ older ++ newer, x.seq ≠ e.seq) → enterHistory h e = older ++ newer ++ [e]) ∧
    ((∀ x ∈ h, x.seq ≠ e.seq) →
      (h.length < 8 → enterHistory h e = h ++ [e]) ∧
      (h.length = 8 → enterHistory h e = h.tail ++ [e]))

/-- The three discards of the framer: each drops the partial frame, raises its own counter and
offers a DISCARD notice with the reason and, where it was taken, the SEQ. A notice that is offered
joins the tail of the queue with the next notice sequence number while fewer than 24 notices are
queued; after a loss it needs room for two, and LOST with the count goes ahead of it; else it is lost
and counted. -/
def Obligations.FramerDiscardsPartialFrames : Prop :=
  (∀ s : State, s.control.state = .running →
    let drop : LinkCounters → DiscardReason → List Byte → State := fun counters reason mark =>
      { s with
        link := Link.offer
          { s.link with framer := ⟨.hunt, [], s.link.framer.lastByte⟩, counters := counters }
          ⟨0x66, reason.code :: mark⟩ }
    (∀ b : Byte, s.pins.hrxLow = false → s.link.framer.state = .length →
      s.link.framer.bytes.length = 1 → 1024 < fieldAt (s.link.framer.bytes ++ [b]) 0 2 →
      exec (.rxByte (characterOf b)) s = .next (drop
        { s.link.counters with length := saturate16 s.link.counters.length } .length [0, 0])) ∧
    (∀ b : Byte, s.pins.hrxLow = false → s.link.framer.state = .check →
      s.link.framer.bytes.length = 5 + fieldAt s.link.framer.bytes 0 2 →
      crcOf (s.link.framer.bytes.take (4 + fieldAt s.link.framer.bytes 0 2)) ≠
        BitVec.ofNat 16 (fieldAt (s.link.framer.bytes ++ [b])
          (4 + fieldAt s.link.framer.bytes 0 2) 2) →
      exec (.rxByte (characterOf b)) s = .next (drop
        { s.link.counters with crc := saturate16 s.link.counters.crc } .crc
        [1, byteAt s.link.framer.bytes 2])) ∧
    (s.link.framer.state ≠ .hunt → s.link.framer.lastByte + 24 * 500 < s.now →
      exec .timeoutDiscard s = .next (drop
        { s.link.counters with timeout := saturate16 s.link.counters.timeout } .timeout
        [if 2 < s.link.framer.bytes.length then 1 else 0, byteAt s.link.framer.bytes 2]))) ∧
  ∀ (l : Link) (n : Notice) (ns : List Notice),
    let queued := l.outbound.countP (fun f => match f with
      | .notice _ _ _ => true
      | .reply _ _ _ => false)
    (l.lost = 0 → queued < 24 → l.offer n = { l with
      outbound := l.outbound ++ [.notice n.kind l.noticeSeq n.body]
      noticeSeq := l.noticeSeq + 1 }) ∧
    (l.lost ≠ 0 → queued < 23 → l.offer n = { l with
      outbound := l.outbound ++ [.notice 0x67 l.noticeSeq (bytesOf 2 l.lost.toNat),
        .notice n.kind (l.noticeSeq + 1) n.body]
      noticeSeq := l.noticeSeq + 2, lost := 0 }) ∧
    (l.lost = 0 ∧ 24 ≤ queued ∨ l.lost ≠ 0 ∧ 23 ≤ queued →
      l.offer n = { l with lost := if l.lost = 65535 then 65535 else l.lost + 1 }) ∧
    l.offerAll [] = l ∧ l.offerAll (n :: ns) = (l.offer n).offerAll ns

/-- Characters on HRX. A RUNNING part takes one with a high stop bit as a byte: in HUNT 0xA5 begins a
frame and any other byte is ignored; behind it the first LEN byte, SEQ and every body byte but the
last join the partial frame, and the last byte of a stage moves the framer on. A character with a low
stop bit, one in any other control state, and one while a BREAK holds HRX low change nothing. -/
def Obligations.CharactersReachTheFramer : Prop :=
  ∀ (s : State) (c : Character) (b : Byte),
    ((c.getLsbD 9 = false ∨ s.control.state ≠ .running ∨ s.pins.hrxLow = true) →
      exec (.rxByte c) s = .next s) ∧
    (s.control.state = .running → s.pins.hrxLow = false →
      let goes : FramerState → Host.Outcome State Fault Refusal := fun st => .next { s with
        link := { s.link with framer := ⟨st, s.link.framer.bytes ++ [b], s.now⟩ } }
      (s.link.framer.state = .hunt → b ≠ 0xA5 → exec (.rxByte (characterOf b)) s = .next s) ∧
      (s.link.framer.state = .hunt → exec (.rxByte (characterOf 0xA5)) s = .next { s with
        link := { s.link with framer := ⟨.length, [], s.now⟩ } }) ∧
      (s.link.framer.state = .length → s.link.framer.bytes.length = 0 →
        exec (.rxByte (characterOf b)) s = goes .length) ∧
      (s.link.framer.state = .length → s.link.framer.bytes.length = 1 →
        fieldAt (s.link.framer.bytes ++ [b]) 0 2 ≤ 1024 →
        exec (.rxByte (characterOf b)) s = goes .header) ∧
      (s.link.framer.state = .header → s.link.framer.bytes.length = 2 →
        exec (.rxByte (characterOf b)) s = goes .header) ∧
      (s.link.framer.state = .header → s.link.framer.bytes.length = 3 →
        exec (.rxByte (characterOf b)) s =
          goes (if fieldAt s.link.framer.bytes 0 2 = 0 then .check else .body)) ∧
      (s.link.framer.state = .body →
        4 ≤ s.link.framer.bytes.length →
        s.link.framer.bytes.length < 4 + fieldAt s.link.framer.bytes 0 2 →
        exec (.rxByte (characterOf b)) s =
          goes (if s.link.framer.bytes.length + 1 = 4 + fieldAt s.link.framer.bytes 0 2
            then .check else .body)) ∧
      (s.link.framer.state = .check →
        s.link.framer.bytes.length = 4 + fieldAt s.link.framer.bytes 0 2 →
        exec (.rxByte (characterOf b)) s = goes .check))

/-- A BREAK clears what the link holds for the host, keeps the counters, and offers HELLO with reason
LINK, ahead of which LOST returns a lost-notice count above 0 to 0 (DEDUCED, log entry 25); no other
block changes. In RESET-PENDING the soft reset follows in the same event and leaves
the transmitter paused. HRX returning high ends the pause. -/
def Obligations.BreakClearsTheLink : Prop :=
  ∀ s : State,
    (s.pins.breakTaken = false → s.control.runningSince + 24 * 200 ≤ s.now →
      (s.control.state = .running →
        exec .linkBreak s = .next { s with
          pins := { s.pins with hrxLow := true, breakTaken := true }
          link := Link.offer
            { framer := ⟨.hunt, [], s.link.framer.lastByte⟩, inbound := []
              executing := s.link.executing.map (fun e => ⟨e.request, true⟩), history := []
              outbound := [], sending := none, paused := true, noticeSeq := 0
              lost := s.link.lost, counters := s.link.counters }
            (noticeHello .link) }) ∧
      (s.control.state = .resetPending →
        exec .linkBreak s = .next
          { now := s.now, pending := s.pending
            pins := { s.pins with hrxLow := true, breakTaken := true }
            control := { s.control with
              state := .starting, startingSince := s.now, softStart := true
              rate := strapRate s.pins }
            link := { linkReset with paused := true }
            surfaces := Vector.replicate 32 surfaceFree
            pool := ⟨List.finRange 4096, [], s.pool.pixels⟩, streams := Vector.replicate 8 none
            engine := engineReset, commits := commitsReset, colours := coloursReset
            timing := timingReset, scan := scanReset })) ∧
    exec .linkBreakEnd s = .next { s with
      pins := { s.pins with hrxLow := false, breakTaken := false }
      link := { s.link with paused := false } }

/-- An unknown KIND is answered with reply KIND 0x80, BAD-KIND and the KIND; a body of the wrong
length for its KIND is answered BAD-LENGTH with an empty body; nothing else changes. -/
def Obligations.UndecodableFramesAreRefused : Prop :=
  ∀ (s : State) (f : Request), Asks s f f.kind f.body →
    (isRequestKind f.kind = false →
      exec .badKind s = .next { s with link := { s.link with
        inbound := s.link.inbound.tail
        outbound := s.link.outbound ++ [.reply f ⟨0x80, f.seq, .badKind, [f.kind]⟩ false]
        history := enterHistory s.link.history
          ⟨f.seq, f.crc, ⟨0x80, f.seq, .badKind, [f.kind]⟩⟩ } }) ∧
    (isRequestKind f.kind = true → lengthOk f.kind f.body = false →
      exec (rowOfKind f.kind) s = .next (s.answer f .badLength []))

/-- A refused request changes nothing: the reply is its only effect. -/
def Obligations.RefusedRequestChangesNothing : Prop :=
  ∀ (s t : State) (f : Request) (r : Reply), Asks s f f.kind f.body → isRequestKind f.kind = true →
    exec (rowOfKind f.kind) s = .next t → t.link.executing = none →
    t.link.outbound.getLast? = some (.reply f r false) → r.status ≠ .ok → r.status ≠ .accepted →
    t = s.answer f r.status r.body

/-! ### Part control requests (Chapter 11) and NOTIFY (Chapter 8) -/

/-- IDENTIFY is answered OK with the thirteen fixed bytes and changes nothing else; HELLO carries the
same bytes after its reason byte. -/
def Obligations.IdentifyReportsTheCapacities : Prop :=
  (∀ (s : State) (f : Request), Asks s f 0x01 [] →
    exec .identify s = .next
      (s.answer f .ok [0x20, 0x51, 1, 32, 0x00, 0x10, 8, 4, 4, 8, 32, 0x00, 0x04])) ∧
  ∀ r : HelloReason, (noticeHello r).body =
    r.code :: [0x20, 0x51, 1, 32, 0x00, 0x10, 8, 4, 4, 8, 32, 0x00, 0x04]

/-- STATUS reports the items of Table 10-12 in order; with clear flag 1 the five link counters and
the glitch count become 0 after the reply is built; any other flag is refused. -/
def Obligations.StatusReportsAndClears : Prop :=
  ∀ (s : State) (f : Request) (clear : Byte), Asks s f 0x02 [clear] →
    let body : List Byte := bytesOf 4 s.timing.frame.toNat ++ [s.timing.state.code] ++
      bytesOf 2 s.timing.glitches.toNat ++ bytesOf 2 s.pool.free.length ++
      bytesOf 1 s.commits.queue.length ++
      s.commits.queue.flatMap (fun c => bytesOf 2 c.tag.toNat) ++
      bytesOf 1 s.engine.jobs.length ++
      s.engine.jobs.flatMap (fun j => [j.number] ++ bytesOf 1 j.surface ++ bytesOf 2 j.progress) ++
      (List.range 8).flatMap (fun i => match s.slotAt i with
        | none => [0, 0]
        | some st => [if st.full then 2 else 1, BitVec.ofNat 8 st.surface]) ++
      bytesOf 2 s.link.counters.crc.toNat ++ bytesOf 2 s.link.counters.timeout.toNat ++
      bytesOf 2 s.link.counters.length.toNat ++ bytesOf 2 s.link.counters.overrun.toNat ++
      bytesOf 2 s.link.counters.duplicate.toNat ++ bytesOf 2 s.link.lost.toNat
    body.length = 39 + 2 * s.commits.queue.length + 4 * s.engine.jobs.length ∧
    (clear = 0 → exec .status s = .next (s.answer f .ok body)) ∧
    (clear = 1 → exec .status s = .next { s with
      link := { s.link.answered f .ok body with counters := ⟨0, 0, 0, 0, 0⟩ }
      timing := { s.timing with glitches := 0 } }) ∧
    (clear ≠ 0 → clear ≠ 1 → exec .status s = .next (s.answer f .badField []))

/-- RESET is accepted: its OK reply is queued, RESET-PENDING is entered and a partial frame is
dropped with no notice. -/
def Obligations.ResetRequestIsPending : Prop :=
  ∀ (s : State) (f : Request), Asks s f 0x03 [] →
    exec .reset s = .next { s with
      link := { s.link.answered f .ok [] with
        framer := ⟨.hunt, [], s.link.framer.lastByte⟩ }
      control := { s.control with state := .resetPending } }

/-- NOTIFY sets k and reports the new k, the k it replaced, the frame counter and the timing state. -/
def Obligations.NotifySetsTheInterval : Prop :=
  ∀ (s : State) (f : Request) (k : Byte), Asks s f 0x04 [k] →
    exec .notify s = .next { s.answer f .ok ([k, s.timing.interval] ++
        bytesOf 4 s.timing.frame.toNat ++ [s.timing.state.code]) with
      timing := { s.timing with interval := k } }

/-! ### Canvas and colour tables (Chapters 6 and 7) -/

/-- CANVAS makes each field it carries present in the staged canvas; while a pending commit carries
CANVAS it is refused with FROZEN, whatever it carries; else with BAD-FIELD when its mask has an
undefined bit or a field it carries is out of range. -/
def Obligations.CanvasStagesItsFields : Prop :=
  ∀ (s : State) (f : Request),
    (∀ body, lengthOk 0x10 body = true → Asks s f 0x10 body →
      (∃ c ∈ s.commits.queue, c.canvas = true) → exec .canvas s = .next (s.answer f .frozen [])) ∧
    ((∀ c ∈ s.commits.queue, c.canvas = false) →
      (∀ g : StagedCanvas, g.inRange → Asks s f 0x10 (canvasBody g) →
        exec .canvas s = .next { s.answer f .ok (bytesOf 1 (g.over s.scan.staged).count) with
          scan := { s.scan with staged := g.over s.scan.staged } }) ∧
      (∀ body, lengthOk 0x10 body = true → Asks s f 0x10 body → 64 ≤ (byteAt body 0).toNat →
        exec .canvas s = .next (s.answer f .badField [])) ∧
      (∀ g : CanvasFields, g.outOfRange → Asks s f 0x10 (canvasBodyRaw g) →
        exec .canvas s = .next (s.answer f .badField [])))

/-- LOAD-CURVE writes its codes into one run of entries of one channel of the staged curve and sets
the modified mark; LOAD-PALETTE writes its colours into one run of entries of one palette, whatever
commits are pending. Every other entry, and the live curve, stay. LOAD-CURVE is refused with FROZEN
while a pending commit carries CURVE, whatever it carries; else, and LOAD-PALETTE at once, with
BAD-FIELD for a channel above 2 or palette above 3, a run past index 255, or a code above 4095. -/
def Obligations.ColourTableLoadsWriteTheirRuns : Prop :=
  (∀ (s : State) (f : Request),
    (∀ body, lengthOk 0x11 body = true → Asks s f 0x11 body →
      ((∃ c ∈ s.commits.queue, c.curve = true) →
        exec .loadCurve s = .next (s.answer f .frozen [])) ∧
      ((∀ c ∈ s.commits.queue, c.curve = false) →
        2 < (byteAt body 0).toNat ∨ 256 < (byteAt body 1).toNat + (body.length - 2) / 2 ∨
          (∃ i < (body.length - 2) / 2, 4095 < fieldAt body (2 + 2 * i) 2) →
        exec .loadCurve s = .next (s.answer f .badField []))) ∧
    ∀ (channel first : Nat) (codes : List (BitVec 12)),
      channel < 3 → 1 ≤ codes.length → first + codes.length ≤ 256 →
      (∀ c ∈ s.commits.queue, c.curve = false) →
      Asks s f 0x11
        (bytesOf 1 channel ++ bytesOf 1 first ++ codes.flatMap (fun v => bytesOf 2 v.toNat)) →
      ∃ m, exec .loadCurve s = .next { s.answer f .ok
            (bytesOf 1 channel ++ bytesOf 1 first ++ bytesOf 2 codes.length) with
          colours := { s.colours with stagedCurve := m, modified := true } } ∧
        ∀ c i, i < 256 → storeRead curveDefault m (256 * c + i) =
          if c = channel ∧ first ≤ i ∧ i < first + codes.length then codes.getD (i - first) 0
          else storeRead curveDefault s.colours.stagedCurve (256 * c + i)) ∧
  ∀ (s : State) (f : Request),
    (∀ body, lengthOk 0x12 body = true → Asks s f 0x12 body →
      3 < (byteAt body 0).toNat ∨ 256 < (byteAt body 1).toNat + (body.length - 2) / 3 →
      exec .loadPalette s = .next (s.answer f .badField [])) ∧
    ∀ (palette first : Nat) (entries : List Rgb),
      palette < 4 → 1 ≤ entries.length → first + entries.length ≤ 256 →
      Asks s f 0x12 (bytesOf 1 palette ++ bytesOf 1 first ++ entries.flatMap colourBytes) →
      ∃ m, exec .loadPalette s = .next { s.answer f .ok
            (bytesOf 1 palette ++ bytesOf 1 first ++ bytesOf 2 entries.length) with
          colours := { s.colours with palettes := m } } ∧
        ∀ p i, i < 256 → storeRead paletteDefault m (256 * p + i) =
          if p = palette ∧ first ≤ i ∧ i < first + entries.length then
            entries.getD (i - first) black
          else s.colours.paletteEntry p i

/-- The conversions of R565 (low byte first), R666, R888, L8 and I8 pixels to 24-bit colours; an I8
pixel takes the entry of its stream's palette as it stands. -/
def Obligations.PixelConversions : Prop :=
  ∀ (colours : Colours) (palette : Option Nat) (p : Nat) (a b c : Byte),
    (let v := a.toNat + 256 * b.toNat
     convertPixel colours .r565 palette [a, b] =
      ⟨BitVec.ofNat 8 (v / 2048 * 8 + v / 2048 / 4),
        BitVec.ofNat 8 (v / 32 % 64 * 4 + v / 32 % 64 / 16),
        BitVec.ofNat 8 (v % 32 * 8 + v % 32 / 4)⟩ ∧
      v / 2048 < 32 ∧
      v / 2048 * 8 + v / 2048 / 4 < 256 ∧ v / 32 % 64 * 4 + v / 32 % 64 / 16 < 256 ∧
      v % 32 * 8 + v % 32 / 4 < 256) ∧
    convertPixel colours .r666 palette [a, b, c] =
      ⟨BitVec.ofNat 8 (a.toNat / 4 * 4 + a.toNat / 4 / 16),
        BitVec.ofNat 8 (b.toNat / 4 * 4 + b.toNat / 4 / 16),
        BitVec.ofNat 8 (c.toNat / 4 * 4 + c.toNat / 4 / 16)⟩ ∧
    convertPixel colours .r888 palette [a, b, c] = ⟨a, b, c⟩ ∧
    convertPixel colours .l8 palette [a] = ⟨a, a, a⟩ ∧
    convertPixel colours .i8 (some p) [a] =
      storeRead paletteDefault colours.palettes (256 * p + a.toNat)

/-! ### Surfaces (Chapter 1) -/

/-- The surface checks come first: an id above 31 gives BAD-FIELD, a FREE id NO-SURFACE and a
RETIRING id RETIRING, for DESTROY, SET-ATTR, OPEN, READ and FILL; nothing else changes. -/
def Obligations.SurfaceChecksComeFirst : Prop :=
  ∀ (s : State) (f : Request) (i : Instr), Asks s f f.kind f.body → lengthOk f.kind f.body = true →
    (f.kind = 0x21 ∧ i = .destroy ∨ f.kind = 0x22 ∧ i = .setAttr ∨ f.kind = 0x30 ∧ i = .openStream ∨
      f.kind = 0x33 ∧ i = .read ∨ f.kind = 0x34 ∧ i = .fill) →
    (31 < (byteAt f.body 0).toNat → exec i s = .next (s.answer f .badField [])) ∧
    ((byteAt f.body 0).toNat ≤ 31 → (s.surf (byteAt f.body 0).toNat).state = .free →
      exec i s = .next (s.answer f .noSurface [])) ∧
    ((byteAt f.body 0).toNat ≤ 31 → (s.surf (byteAt f.body 0).toNat).state = .retiring →
      exec i s = .next (s.answer f .retiring []))

/-- DEFINE by the checks of Table 1-3 in order: BAD-FIELD, ID-IN-USE, RETIRING, NO-SPACE with the
free-list length. An accepted DEFINE takes the banks from the head of the free list, front bank first,
makes their tiles BLANK, and initialises the record as STAGED with the default attributes. -/
def Obligations.DefineAllocatesFromTheFreeList : Prop :=
  ∀ (s : State) (f : Request) (id w h banks n : Nat),
    id < 256 → w < 65536 → h < 65536 → banks < 256 → n = (w + 7) / 8 * ((h + 7) / 8) →
    Asks s f 0x20 (bytesOf 1 id ++ bytesOf 2 w ++ bytesOf 2 h ++ bytesOf 1 banks) →
    (31 < id ∨ w < 1 ∨ 512 < w ∨ h < 1 ∨ 256 < h ∨ banks ≠ 1 ∧ banks ≠ 2 →
      exec .define s = .next (s.answer f .badField [])) ∧
    (id < 32 → 1 ≤ w → w ≤ 512 → 1 ≤ h → h ≤ 256 → banks = 1 ∨ banks = 2 →
      ((s.surf id).defined → exec .define s = .next (s.answer f .idInUse [])) ∧
      ((s.surf id).state = .retiring → exec .define s = .next (s.answer f .retiring [])) ∧
      ((s.surf id).state = .free → s.pool.free.length < banks * n →
        exec .define s = .next (s.answer f .noSpace (bytesOf 2 s.pool.free.length))) ∧
      ((s.surf id).state = .free → banks * n ≤ s.pool.free.length →
        ∃ content, exec .define s = .next { s.answer f .ok
              (bytesOf 2 n ++ bytesOf 2 (s.pool.free.length - banks * n)) with
            surfaces := s.surfaces.setIfInBounds id
              { state := .staged, width := w, height := h, banks := banks
                front := s.pool.free.take n
                back := if banks = 2 then (s.pool.free.drop n).take n else []
                dirty := false, live := ⟨0, 0, 0, 255, true, 0, 0, w, h, none⟩
                staged := stagedNone
                stream := none, pendingTag := none, fills := 0, stale := 0 }
            pool := ⟨s.pool.free.drop (banks * n), content, s.pool.pixels⟩ } ∧
          ∀ t : Tile, storeRead contentDefault content t.val =
            if t ∈ s.pool.free.take (banks * n) then .blank else s.pool.contentOf t))

/-- DESTROY of a LIVE surface that is not frozen: its stream is closed, its STALE tiles become BLANK,
its fill jobs are removed with a FILL-DONE ABANDONED each, ahead of the reply, a step on one of its
tiles is abandoned, and it becomes RETIRING with its banks and live attributes kept. The tile of a COPY
in progress becomes BLANK as well, one that a WRITE has made DATA included, which is the model's
reading of R18 (log entry 21); the tile is the one at the step's position now (log entry 24). A frozen surface is refused with IN-COMMIT. -/
def Obligations.DestroyRetiresALiveSurface : Prop :=
  (∀ (s : State) (f : Request) (id : Nat), id < 32 → (s.surf id).defined →
    (s.surf id).pendingTag ≠ none → Asks s f 0x21 (bytesOf 1 id) →
    exec .destroy s = .next (s.answer f .inCommit [])) ∧
  ∀ (s : State) (f : Request) (id : Nat), id < 32 → (s.surf id).state = .live →
    (s.surf id).pendingTag = none → Asks s f 0x21 (bytesOf 1 id) →
    ∃ t, exec .destroy s = .next t ∧
      t.surfaces = s.surfaces.setIfInBounds id { s.surf id with
        state := .retiring, staged := stagedNone, stream := none, stale := 0, fills := 0 } ∧
      t.link = (s.link.offerAll ((s.engine.jobs.filter (fun j => j.surface == id)).map
          (fun j => ⟨0x62, [j.number] ++ bytesOf 1 id ++ [1]⟩))).answered f .ok
        ([3] ++ bytesOf 1 (s.engine.jobs.filter (fun j => j.surface == id)).length) ∧
      (∀ i < 8, t.slotAt i = if (s.surf id).stream = some i then none else s.slotAt i) ∧
      t.pool.free = s.pool.free ∧ t.pool.pixels = s.pool.pixels ∧
      (∀ x : Tile, t.pool.contentOf x =
        if x ∈ (s.surf id).back ∧ s.pool.contentOf x = .stale ∨
            (∃ pos < (s.surf id).back.length,
              s.engine.step = .copy id pos ∧ (s.surf id).back[pos]? = some x)
          then .blank else s.pool.contentOf x) ∧
      t.engine.jobs = s.engine.jobs.filter (fun j => j.surface != id) ∧
      t.engine.counter = s.engine.counter ∧
      (s.engine.step ≠ .idle → s.engine.stepSurface ≠ some id →
        t.engine.step = s.engine.step ∧ t.engine.since = s.engine.since) ∧
      (s.engine.step = .idle ∨ s.engine.stepSurface = some id → t.engine.step = t.choice) ∧
      t.commits = s.commits ∧ t.colours = s.colours ∧ t.timing = s.timing ∧ t.scan = s.scan ∧
      t.control = s.control ∧ t.pins = s.pins ∧ t.now = s.now ∧ t.pending = s.pending

/-- DESTROY of a STAGED surface that is not frozen does the same, and then releases its tiles, BLANK,
to the tail of the free list, front bank then back bank, and the record becomes FREE. -/
def Obligations.DestroyFreesAStagedSurface : Prop :=
  ∀ (s : State) (f : Request) (id : Nat), id < 32 → (s.surf id).state = .staged →
    (s.surf id).pendingTag = none → Asks s f 0x21 (bytesOf 1 id) →
    ∃ t, exec .destroy s = .next t ∧
      t.surfaces = s.surfaces.setIfInBounds id surfaceFree ∧
      t.link = (s.link.offerAll ((s.engine.jobs.filter (fun j => j.surface == id)).map
          (fun j => ⟨0x62, [j.number] ++ bytesOf 1 id ++ [1]⟩))).answered f .ok
        ([0] ++ bytesOf 1 (s.engine.jobs.filter (fun j => j.surface == id)).length) ∧
      (∀ i < 8, t.slotAt i = if (s.surf id).stream = some i then none else s.slotAt i) ∧
      t.pool.free = s.pool.free ++ (s.surf id).front ++ (s.surf id).back ∧
      t.pool.pixels = s.pool.pixels ∧
      (∀ x : Tile, t.pool.contentOf x =
        if x ∈ (s.surf id).front ++ (s.surf id).back then .blank else s.pool.contentOf x) ∧
      t.engine.jobs = s.engine.jobs.filter (fun j => j.surface != id) ∧
      t.engine.counter = s.engine.counter ∧
      (s.engine.step ≠ .idle → s.engine.stepSurface ≠ some id →
        t.engine.step = s.engine.step ∧ t.engine.since = s.engine.since) ∧
      (s.engine.step = .idle ∨ s.engine.stepSurface = some id → t.engine.step = t.choice) ∧
      t.commits = s.commits ∧ t.colours = s.colours ∧ t.timing = s.timing ∧ t.scan = s.scan ∧
      t.control = s.control ∧ t.pins = s.pins ∧ t.now = s.now ∧ t.pending = s.pending

/-- SET-ATTR makes each attribute it carries present in the staged set and changes no live attribute;
on a frozen surface it is refused with FROZEN, whatever it carries; else with BAD-FIELD when its mask
has an undefined bit, a value it carries is out of range, or it both sets and clears the key. -/
def Obligations.SetAttrStagesAttributes : Prop :=
  ∀ (s : State) (f : Request) (id : Nat), id < 32 → (s.surf id).defined →
    (s.surf id).width ≤ 512 → (s.surf id).height ≤ 256 →
    (∀ body, lengthOk 0x22 body = true → (byteAt body 0).toNat = id → Asks s f 0x22 body →
      (s.surf id).pendingTag ≠ none → exec .setAttr s = .next (s.answer f .frozen [])) ∧
    ((s.surf id).pendingTag = none →
      (∀ g : StagedAttrs, g.inRange (s.surf id).width (s.surf id).height →
        Asks s f 0x22 (setAttrBody id g) →
        exec .setAttr s = .next { s.answer f .ok
            (bytesOf 1 (g.over (s.surf id).staged).count) with
          surfaces := s.surfaces.setIfInBounds id
            { s.surf id with staged := g.over (s.surf id).staged } }) ∧
      (∀ body, lengthOk 0x22 body = true → (byteAt body 0).toNat = id → Asks s f 0x22 body →
        2048 ≤ fieldAt body 1 2 → exec .setAttr s = .next (s.answer f .badField [])) ∧
      (1 ≤ (s.surf id).width → 1 ≤ (s.surf id).height → ∀ g : AttrFields,
        g.outOfRange (s.surf id).width (s.surf id).height →
        Asks s f 0x22 (setAttrBodyRaw id g) →
        exec .setAttr s = .next (s.answer f .badField [])))

/-- QUERY reports the record in the layout of Table 10-11, read back field by field at its offsets,
and changes nothing; an id above 31 is refused. -/
def Obligations.QueryReportsTheRecord : Prop :=
  ∀ (s : State) (f : Request) (id : Byte), Asks s f 0x23 [id] →
    (31 < id.toNat → exec .query s = .next (s.answer f .badField [])) ∧
    ∀ r, r = s.surf id.toNat → id.toNat ≤ 31 →
      ∃ body, exec .query s = .next (s.answer f .ok body) ∧ body.length = 53 ∧
        byteAt body 0 = r.state.code ∧
        (r.width ≤ 512 → fieldAt body 1 2 = r.width) ∧
        (r.height ≤ 256 → fieldAt body 3 2 = r.height) ∧
        (r.banks ≤ 2 → fieldAt body 5 1 = r.banks) ∧
        (-1024 ≤ r.live.x ∧ r.live.x ≤ 1023 → signedOf ((body.drop 6).take 2) = r.live.x) ∧
        (-1024 ≤ r.live.y ∧ r.live.y ≤ 1023 → signedOf ((body.drop 8).take 2) = r.live.y) ∧
        byteAt body 10 = r.live.z ∧ byteAt body 11 = r.live.opacity ∧
        byteAt body 12 = flagByte r.live.visible ∧
        (r.live.vx ≤ 512 → fieldAt body 13 2 = r.live.vx) ∧
        (r.live.vy ≤ 256 → fieldAt body 15 2 = r.live.vy) ∧
        (r.live.vw ≤ 512 → fieldAt body 17 2 = r.live.vw) ∧
        (r.live.vh ≤ 256 → fieldAt body 19 2 = r.live.vh) ∧
        byteAt body 21 = flagByte r.live.key.isSome ∧
        colourOf ((body.drop 22).take 3) = r.live.key.getD black ∧
        fieldAt body 25 2 = r.staged.mask ∧
        (∀ v ∈ r.staged.x, -1024 ≤ v ∧ v ≤ 1023 → signedOf ((body.drop 27).take 2) = v) ∧
        (∀ v ∈ r.staged.y, -1024 ≤ v ∧ v ≤ 1023 → signedOf ((body.drop 29).take 2) = v) ∧
        byteAt body 31 = r.staged.z.getD 0 ∧ byteAt body 32 = r.staged.opacity.getD 0 ∧
        byteAt body 33 = flagByte (r.staged.visible.getD false) ∧
        (r.staged.vx.getD 0 ≤ 512 → fieldAt body 34 2 = r.staged.vx.getD 0) ∧
        (r.staged.vy.getD 0 ≤ 256 → fieldAt body 36 2 = r.staged.vy.getD 0) ∧
        (r.staged.vw.getD 0 ≤ 512 → fieldAt body 38 2 = r.staged.vw.getD 0) ∧
        (r.staged.vh.getD 0 ≤ 256 → fieldAt body 40 2 = r.staged.vh.getD 0) ∧
        (∀ c, r.staged.key = some (.setTo c) → colourOf ((body.drop 42).take 3) = c) ∧
        (∀ i, r.stream = some i → i < 8 → fieldAt body 45 1 = i) ∧
        (r.stream = none → fieldAt body 45 1 = 0xFF) ∧
        byteAt body 46 = flagByte r.pendingTag.isSome ∧
        fieldAt body 47 2 = (r.pendingTag.getD 0).toNat ∧
        (r.stale ≤ 2048 → fieldAt body 49 2 = r.stale) ∧
        (r.fills ≤ 4 → fieldAt body 51 1 = r.fills) ∧ byteAt body 52 = flagByte r.dirty

/-! ### Streams (Chapter 4) -/

/-- OPEN by the checks of Table 4-3 in order: BAD-FIELD for the window, the codes and the palette,
FROZEN, NO-SLOT. An accepted OPEN closes the surface's earlier stream, takes the lowest slot then free,
and sets the stream up with its cursor at the window start. -/
def Obligations.OpenTakesTheLowestFreeSlot : Prop :=
  ∀ (s : State) (f : Request) (id wx wy ww wh : Nat), id < 32 → (s.surf id).defined →
    wx < 65536 → wy < 65536 → ww < 65536 → wh < 65536 →
    (∀ fmt palette mode order : Byte,
      Asks s f 0x30 (bytesOf 1 id ++ bytesOf 2 wx ++ bytesOf 2 wy ++ bytesOf 2 ww ++
        bytesOf 2 wh ++ [fmt, palette, mode, order]) →
      let bad := ww = 0 ∨ wh = 0 ∨ (s.surf id).width < wx + ww ∨ (s.surf id).height < wy + wh ∨
        4 < fmt.toNat ∨ 1 < mode.toNat ∨ 1 < order.toNat ∨ (fmt = 4 ∧ 3 < palette.toNat)
      (bad → exec .openStream s = .next (s.answer f .badField [])) ∧
      (¬ bad → (s.surf id).banks = 2 → (s.surf id).pendingTag ≠ none →
        exec .openStream s = .next (s.answer f .frozen [])) ∧
      (¬ bad → ¬ ((s.surf id).banks = 2 ∧ (s.surf id).pendingTag ≠ none) →
        (s.surf id).stream = none → (∀ i < 8, s.slotAt i ≠ none) →
        exec .openStream s = .next (s.answer f .noSlot []))) ∧
    ∀ (slot : Nat) (fmt : Format) (palette : Byte) (mode : StreamMode) (order : StreamOrder),
      1 ≤ ww → 1 ≤ wh → wx + ww ≤ (s.surf id).width → wy + wh ≤ (s.surf id).height →
      (fmt = Format.i8 → palette.toNat ≤ 3) →
      ¬ ((s.surf id).banks = 2 ∧ (s.surf id).pendingTag ≠ none) →
      slot < 8 → (s.slotAt slot = none ∨ (s.surf id).stream = some slot) →
      (∀ i < slot, s.slotAt i ≠ none ∧ (s.surf id).stream ≠ some i) →
      Asks s f 0x30 (bytesOf 1 id ++ bytesOf 2 wx ++ bytesOf 2 wy ++ bytesOf 2 ww ++
        bytesOf 2 wh ++ [fmt.code, palette, mode.code, order.code]) →
      exec .openStream s = .next { s.answer f .ok (bytesOf 1 slot ++
          match s.openStreamOf id with
          | none => [0xFF, 0]
          | some (i, st) => bytesOf 1 i ++ bytesOf 1 st.residue.length) with
        surfaces := s.surfaces.setIfInBounds id { s.surf id with stream := some slot }
        streams := (match (s.surf id).stream with
            | none => s.streams
            | some i => s.streams.setIfInBounds i none).setIfInBounds slot (some
          { surface := id, wx := wx, wy := wy, ww := ww, wh := wh, format := fmt
            palette := if fmt = Format.i8 then some palette.toNat else none
            mode := mode, order := order, cx := 0
            cy := match order with
              | .down => 0
              | .up => wh - 1
            expected := 0, residue := [], full := false, written := 0 }) }

/-- WRITE by the checks of Table 4-4 in order: BAD-FIELD, NO-STREAM, STREAM-FULL with the expected
sequence, OUT-OF-ORDER with the expected sequence and the cursor. An accepted WRITE takes the residue
and the payload as pixels in order. In WRAP mode the cursor
moves on by as many places as pixels were written, round the window. In STOP mode the pixel that is
the window's last makes the stream FULL, its cursor staying there, and the bytes behind it are
truncated. The expected sequence rises by 1, and the reply reports all of this. -/
def Obligations.WriteMovesTheCursor : Prop :=
  (∀ (s : State) (f : Request) (slot : Nat) (seq : Half) (payload : List Byte),
    slot < 256 → 1 ≤ payload.length → payload.length ≤ 1021 →
    Asks s f 0x31 (bytesOf 1 slot ++ bytesOf 2 seq.toNat ++ payload) →
    (7 < slot → exec .write s = .next (s.answer f .badField [])) ∧
    (slot ≤ 7 → s.slotAt slot = none → exec .write s = .next (s.answer f .noStream [])) ∧
    ∀ st, slot ≤ 7 → s.slotAt slot = some st → (s.surf st.surface).fills = 0 →
      (st.full = true →
        exec .write s = .next (s.answer f .streamFull (bytesOf 2 st.expected.toNat))) ∧
      (st.full = false → seq ≠ st.expected →
        exec .write s = .next (s.answer f .outOfOrder
          (bytesOf 2 st.expected.toNat ++ bytesOf 2 st.cx ++ bytesOf 2 st.cy)))) ∧
  ∀ (s : State) (f : Request) (slot : Nat) (st : Stream) (payload : List Byte),
    slot < 8 → s.slotAt slot = some st → st.full = false → st.cx < st.ww → st.cy < st.wh →
    st.ww ≤ 512 → st.wh ≤ 256 → st.residue.length < st.format.bytesPerPixel →
    (s.surf st.surface).fills = 0 → 1 ≤ payload.length → payload.length ≤ 1021 →
    Asks s f 0x31 (bytesOf 1 slot ++ bytesOf 2 st.expected.toNat ++ payload) →
    ∃ t, exec .write s = .next t ∧
      let k := st.format.bytesPerPixel
      let total := st.residue.length + payload.length
      let left := st.ww * st.wh - st.place
      let n := if st.mode = .stop ∧ left ≤ total / k then left else total / k
      (∃ u, t.slotAt slot = some u ∧
        (u.surface, u.wx, u.wy, u.ww, u.wh, u.format, u.palette, u.mode, u.order) =
          (st.surface, st.wx, st.wy, st.ww, st.wh, st.format, st.palette, st.mode, st.order) ∧
        u.expected = st.expected + 1 ∧
        u.written.toNat = min (st.written.toNat + n) (2 ^ 32 - 1) ∧
        u.cx < st.ww ∧ u.cy < st.wh ∧
        (st.mode = .stop ∧ left ≤ total / k →
          u.full = true ∧ u.place = st.ww * st.wh - 1 ∧ u.residue = []) ∧
        (¬ (st.mode = .stop ∧ left ≤ total / k) →
          u.full = false ∧ u.place = (st.place + n) % (st.ww * st.wh) ∧
          u.residue = (st.residue ++ payload).drop (n * k)) ∧
        t.link = s.link.answered f .ok (bytesOf 2 n ++
          bytesOf 2 (if st.mode = .stop ∧ left ≤ total / k then total - n * k else 0) ++
          bytesOf 2 u.cx ++ bytesOf 2 u.cy ++ [if u.full then 2 else 1] ++
          bytesOf 1 u.residue.length ++ bytesOf 2 u.expected.toNat)) ∧
      (∀ i, i ≠ slot → t.slotAt i = s.slotAt i) ∧
      (∀ id, id ≠ st.surface → t.surf id = s.surf id) ∧
      (∃ stale ≤ (s.surf st.surface).stale, t.surf st.surface = { s.surf st.surface with
        stale := stale
        dirty := (s.surf st.surface).dirty ||
          decide ((s.surf st.surface).banks = 2 ∧ 0 < n) }) ∧
      t.pool.free = s.pool.free ∧ t.engine = s.engine ∧ t.commits = s.commits ∧
      t.colours = s.colours ∧ t.timing = s.timing ∧ t.scan = s.scan ∧ t.control = s.control ∧
      t.pins = s.pins ∧ t.now = s.now ∧ t.pending = s.pending

/-- The pixels of an accepted WRITE, each at its place of the window in the stream's order: every
content pixel that it writes reads as the colour of the last one written there, and every other
content pixel of that bank as before; on a double-banked surface the front bank reads as before. No
tile outside the bank changes its state or a cell. -/
def Obligations.WrittenPixelReadsBack : Prop :=
  ∀ (s : State) (f : Request) (slot : Nat) (st : Stream) (payload : List Byte) (r : Surface),
    slot < 8 → s.slotAt slot = some st → st.full = false → st.surface < 32 →
    r = s.surf st.surface → st.cx < st.ww → st.cy < st.wh →
    st.wx + st.ww ≤ r.width → st.wy + st.wh ≤ r.height →
    r.front.length = tileCount r.width r.height →
    (r.banks = 2 → r.back.length = tileCount r.width r.height) → (r.front ++ r.back).Nodup →
    r.fills = 0 → st.residue.length < st.format.bytesPerPixel →
    1 ≤ payload.length → payload.length ≤ 1021 →
    Asks s f 0x31 (bytesOf 1 slot ++ bytesOf 2 st.expected.toNat ++ payload) →
    ∃ t, exec .write s = .next t ∧
      let n := st.pixelsOf payload.length
      let spot : Nat → Nat × Nat := fun i => st.pixelAt ((st.place + i) % (st.ww * st.wh))
      let bytes : Nat → List Byte := fun i =>
        ((st.residue ++ payload).drop (i * st.format.bytesPerPixel)).take st.format.bytesPerPixel
      (∀ i < n, (∀ j, i < j → j < n → spot j ≠ spot i) →
        t.readPixel (t.surf st.surface) (t.surf st.surface).drawBank (spot i).1 (spot i).2 =
          convertPixel s.colours st.format st.palette (bytes i)) ∧
      (∀ x y, x < r.width → y < r.height → (∀ i < n, spot i ≠ (x, y)) →
        t.readPixel (t.surf st.surface) (t.surf st.surface).drawBank x y =
          s.readPixel r r.drawBank x y) ∧
      (r.banks = 2 → ∀ x y, x < r.width → y < r.height →
        t.readPixel (t.surf st.surface) (t.surf st.surface).front x y =
          s.readPixel r r.front x y) ∧
      (∀ x : Tile, x ∉ r.drawBank → t.pool.contentOf x = s.pool.contentOf x ∧
        ∀ cell < 64, readCell t.pool.pixels x cell = readCell s.pool.pixels x cell)

/-- A WRITE whose slot holds a stream of a surface with outstanding fills becomes the frame under
execution and waits; nothing else changes. -/
def Obligations.WriteIsHeldBehindFills : Prop :=
  ∀ (s : State) (f : Request) (st : Stream), 4 ≤ f.body.length → f.body.length ≤ 1024 →
    s.slotAt (byteAt f.body 0).toNat = some st → 0 < (s.surf st.surface).fills →
    Asks s f 0x31 f.body →
    exec .write s = .next { s with link := { s.link with
      inbound := s.link.inbound.tail, executing := some ⟨f, false⟩ } }

/-- When the surface's outstanding fills are 0 the held WRITE is taken as it would be if it were
taken from the WAITING frames now; if a BREAK has come in between, with the same effects on every
block but the link, where its buffer is freed and no reply is queued. -/
def Obligations.HeldWriteIsExecuted : Prop :=
  ∀ (s : State) (e : Executing), s.control.state = .running → s.link.executing = some e →
    e.request.kind = 0x31 → lengthOk 0x31 e.request.body = true →
    (∀ st, s.slotAt (byteAt e.request.body 0).toNat = some st → (s.surf st.surface).fills = 0) →
    ∃ t, exec .write { s with link := { s.link with
          executing := none, inbound := e.request :: s.link.inbound } } = .next t ∧
      (e.orphan = false → exec .writeHoldEnd s = .next t) ∧
      (e.orphan = true → exec .writeHoldEnd s = .next { t with
        link := { s.link with executing := none } })

/-- CLOSE discards the residue, frees the slot, removes the record's open-stream field and reports
the residue length, at most 2 where it is shorter than a pixel, and the pixels-written count; all else
stays. A slot above 7 and a free slot are refused. -/
def Obligations.CloseFreesTheSlot : Prop :=
  ∀ (s : State) (f : Request) (slot : Byte), Asks s f 0x32 [slot] →
    (7 < slot.toNat → exec .closeStream s = .next (s.answer f .badField [])) ∧
    (slot.toNat ≤ 7 → s.slotAt slot.toNat = none →
      exec .closeStream s = .next (s.answer f .noStream [])) ∧
    (slot.toNat ≤ 7 → ∀ st, s.slotAt slot.toNat = some st →
      exec .closeStream s = .next { s.answer f .ok
          (bytesOf 1 st.residue.length ++ bytesOf 4 st.written.toNat) with
        streams := s.streams.setIfInBounds slot.toNat none
        surfaces := s.surfaces.setIfInBounds st.surface
          { s.surf st.surface with stream := none } } ∧
      (st.residue.length < st.format.bytesPerPixel → st.residue.length ≤ 2))

/-- READ by the checks of Table 4-6: BAD-FIELD for a bank that the surface lacks and for a rectangle
that is empty or leaves the content, TOO-LARGE above 340 pixels. An accepted READ returns the pixel
count and the pixels in row-major order, and changes nothing. A pixel is read from its cell of its
tile: black when the tile is BLANK, its own cell when DATA, what the front tile at its position reads
when STALE. -/
def Obligations.ReadReturnsTheRectangle : Prop :=
  (∀ (s : State) (f : Request) (id bank x y w h : Nat) (r : Surface),
    id < 32 → r = s.surf id → r.defined → bank < 256 → x < 65536 → y < 65536 → w < 65536 →
    h < 65536 →
    Asks s f 0x33 (bytesOf 1 id ++ bytesOf 1 bank ++ bytesOf 2 x ++ bytesOf 2 y ++ bytesOf 2 w ++
      bytesOf 2 h) →
    (1 < bank ∨ bank = 1 ∧ r.banks ≠ 2 ∨ w = 0 ∨ h = 0 ∨ r.width < x + w ∨ r.height < y + h →
      exec .read s = .next (s.answer f .badField [])) ∧
    (bank = 0 ∨ bank = 1 ∧ r.banks = 2 → 1 ≤ w → 1 ≤ h → x + w ≤ r.width → y + h ≤ r.height →
      (340 < w * h → exec .read s = .next (s.answer f .tooLarge [])) ∧
      (w * h ≤ 340 → ∃ body, exec .read s = .next (s.answer f .ok body) ∧
        body.length = 2 + 3 * (w * h) ∧ fieldAt body 0 2 = w * h ∧
        ∀ i < w * h, colourOf ((body.drop (2 + 3 * i)).take 3) =
          s.readPixel r (if bank = 1 then r.back else r.front) (x + i % w) (y + i / w)))) ∧
  ∀ (s : State) (r : Surface) (bank : List Tile) (x y : Nat) (t : Tile),
    let pos := y / 8 * ((r.width + 7) / 8) + x / 8
    let address := 192 * t.val + 3 * (y % 8 * 8 + x % 8)
    bank[pos]? = some t →
    (s.pool.contentOf t = .blank → s.readPixel r bank x y = ⟨0, 0, 0⟩) ∧
    (s.pool.contentOf t = .data → s.readPixel r bank x y =
      ⟨s.pool.pixels.read address, s.pool.pixels.read (address + 1),
        s.pool.pixels.read (address + 2)⟩) ∧
    (s.pool.contentOf t = .stale → ∀ u, r.front[pos]? = some u → s.pool.contentOf u ≠ .stale →
      s.readPixel r bank x y = s.readPixel r r.front x y)

/-! ### Tile engine (Chapter 5) -/

/-- The tile sequence of a rectangle inside the content: the positions of the touched rows and
columns in ascending order, rows × columns of them, each full exactly when the rectangle includes
every content pixel of its tile. -/
def Obligations.TileSequenceOfARectangle : Prop :=
  ∀ (w h : Nat) (r : Rect), 1 ≤ r.width → 1 ≤ r.height → r.x + r.width ≤ w → r.y + r.height ≤ h →
    ((tileSequence w h r).map Prod.fst).Pairwise (· < ·) ∧
    (tileSequence w h r).length =
      ((r.x + r.width - 1) / 8 - r.x / 8 + 1) * ((r.y + r.height - 1) / 8 - r.y / 8 + 1) ∧
    (∀ pos full, (pos, full) ∈ tileSequence w h r ↔
      ∃ row col, r.y / 8 ≤ row ∧ row ≤ (r.y + r.height - 1) / 8 ∧
        r.x / 8 ≤ col ∧ col ≤ (r.x + r.width - 1) / 8 ∧
        pos = row * ((w + 7) / 8) + col ∧
        (full = true ↔ ∀ px py, px < w → py < h → px / 8 = col → py / 8 = row →
          r.covers px py = true))

/-- FILL by the checks of Table 5-3 in order: BAD-FIELD for the rectangle, FROZEN, ENGINE-FULL. An
accepted FILL takes the job counter's value as its number, joins the tail of the queue, raises the
outstanding fills and, on a double-banked surface, sets dirty; an IDLE engine chooses at once. The
arbiter's choice is the COPY of the lowest STALE position of the lowest-numbered surface with a stale
count; with no such surface, the FILL of the head job's tile at its progress; else IDLE. -/
def Obligations.FillQueuesAJob : Prop :=
  (∀ (s : State) (f : Request) (id x y w h : Nat) (c : Rgb),
    id < 32 → (s.surf id).defined → x < 65536 → y < 65536 → w < 65536 → h < 65536 →
    Asks s f 0x34 (bytesOf 1 id ++ bytesOf 2 x ++ bytesOf 2 y ++ bytesOf 2 w ++ bytesOf 2 h ++
      colourBytes c) →
    (w = 0 ∨ h = 0 ∨ (s.surf id).width < x + w ∨ (s.surf id).height < y + h →
      exec .fill s = .next (s.answer f .badField [])) ∧
    (1 ≤ w → 1 ≤ h → x + w ≤ (s.surf id).width → y + h ≤ (s.surf id).height →
      ((s.surf id).banks = 2 ∧ (s.surf id).pendingTag ≠ none →
        exec .fill s = .next (s.answer f .frozen [])) ∧
      (¬ ((s.surf id).banks = 2 ∧ (s.surf id).pendingTag ≠ none) → 4 ≤ s.engine.jobs.length →
        exec .fill s = .next (s.answer f .engineFull [])) ∧
      (¬ ((s.surf id).banks = 2 ∧ (s.surf id).pendingTag ≠ none) → s.engine.jobs.length < 4 →
        ∃ t, exec .fill s = .next t ∧
          t.engine.jobs = s.engine.jobs ++
            [{ number := s.engine.counter, surface := id, x := x, y := y, width := w, height := h
               colour := c
               tiles := tileSequence (s.surf id).width (s.surf id).height ⟨x, y, w, h⟩
               progress := 0 }] ∧
          t.engine.counter = s.engine.counter + 1 ∧
          (s.engine.step ≠ .idle →
            t.engine.step = s.engine.step ∧ t.engine.since = s.engine.since) ∧
          (s.engine.step = .idle → t.engine.step = t.choice) ∧
          (s.engine.step = .idle → s.engine.jobs = [] →
            t.engine.step ≠ .idle ∧ t.engine.since = s.now) ∧
          t.surfaces = s.surfaces.setIfInBounds id { s.surf id with
            fills := (s.surf id).fills + 1
            dirty := (s.surf id).dirty || decide ((s.surf id).banks = 2) } ∧
          t.link = s.link.answered f .accepted ([s.engine.counter] ++
            bytesOf 1 s.engine.jobs.length ++
            bytesOf 2 (tileSequence (s.surf id).width (s.surf id).height ⟨x, y, w, h⟩).length ++
            bytesOf 1 ((s.surf id).fills + 1)) ∧
          t.pool = s.pool ∧ t.streams = s.streams ∧ t.commits = s.commits ∧
          t.colours = s.colours ∧ t.timing = s.timing ∧ t.scan = s.scan ∧
          t.control = s.control ∧ t.pins = s.pins ∧ t.now = s.now ∧ t.pending = s.pending))) ∧
  ∀ u : State,
    (∀ id pos x, id < 32 → 0 < (u.surf id).stale → (∀ i < id, (u.surf i).stale = 0) →
      (u.surf id).back[pos]? = some x → u.pool.contentOf x = .stale →
      (∀ p < pos, ∀ z, (u.surf id).back[p]? = some z → u.pool.contentOf z ≠ .stale) →
      u.choice = .copy id pos) ∧
    ((∀ id < 32, (u.surf id).stale = 0) →
      (∀ j rest pos full, u.engine.jobs = j :: rest → j.tiles[j.progress]? = some (pos, full) →
        u.choice = .fill j.number pos) ∧
      (u.engine.jobs = [] → u.choice = .idle))

/-- A carry copy completes 1.0 µs after it began: a tile that is still STALE takes the state of its
front tile and, over a DATA tile, its 64 cells, and the stale count falls by 1; every other tile, and
one no longer STALE, stays. Then the arbiter chooses. When the last STALE tile of a surface that the
head names makes the head due on a STOPPED part, the head is applied in the same event. The tile is
the one at the step's position at the completion (log entry 22), and where that event applies several
commits the arbiter chooses once, at its end (log entry 12): both are the model's choices. -/
def Obligations.CarryCopyCompletes : Prop :=
  ∀ (s : State) (id pos : Nat) (x y : Tile),
    s.engine.step = .copy id pos → s.engine.since + 24 ≤ s.now → id < 32 → FreezeLaw s →
    (s.surf id).back[pos]? = some x → (s.surf id).front[pos]? = some y → x ≠ y →
    s.pool.contentOf y ≠ .stale →
    ∃ u v, exec .copyStepComplete s = .next v ∧
      u = { s with
        engine := { s.engine with step := .idle }
        surfaces := if s.pool.contentOf x = .stale then
            s.surfaces.setIfInBounds id { s.surf id with stale := (s.surf id).stale - 1 }
          else s.surfaces
        pool := ⟨s.pool.free, u.pool.content, u.pool.pixels⟩ } ∧
      (∀ z : Tile, u.pool.contentOf z =
        if z = x ∧ s.pool.contentOf x = .stale then s.pool.contentOf y else s.pool.contentOf z) ∧
      (s.pool.contentOf x = .stale → s.pool.contentOf y = .data → ∀ cell < 64,
        readCell u.pool.pixels x cell = readCell s.pool.pixels y cell) ∧
      (∀ z : Tile, z ≠ x ∨ s.pool.contentOf x ≠ .stale → ∀ cell < 64,
        readCell u.pool.pixels z cell = readCell s.pool.pixels z cell) ∧
      (¬ (s.pool.contentOf x = .stale ∧ (s.surf id).stale = 1 ∧
          (∃ c ∈ s.commits.queue.head?, id ∈ c.surfaces) ∧ u.headIsDue) →
        v = { u with engine := v.engine } ∧ EngineGoesOn u v) ∧
      (s.pool.contentOf x = .stale → (s.surf id).stale = 1 →
        (∃ c ∈ s.commits.queue.head?, id ∈ c.surfaces) → u.headIsDue →
        AppliesStopped u v [] ∧ EngineGoesOnEither u v)

/-- A fill step completes 0.5 µs after it began: the covered cells of its tile, all 64 on full cover,
take the colour, the others read as before, and the tile is DATA. A step on an earlier entry raises
the progress; the last one ends the job, lowers the outstanding fills and offers FILL-DONE DONE. When
the head names the surface and is due then on a STOPPED part, it is applied in the same event, the
FILL-DONE ahead of its COMMIT-DONE. That the arbiter chooses once where that event applies several
commits is the model's choice (log entry 12). -/
def Obligations.FillStepCompletes : Prop :=
  ∀ (s : State) (j : FillJob) (rest : List FillJob) (pos : Nat) (full : Bool) (x : Tile),
    s.engine.step = .fill j.number pos → s.engine.since + 12 ≤ s.now → FreezeLaw s →
    s.engine.jobs = j :: rest → j.tiles[j.progress]? = some (pos, full) → j.surface < 32 →
    (s.surf j.surface).drawBank[pos]? = some x → s.pool.contentOf x ≠ .stale →
    let done : Notice := ⟨0x62, [j.number] ++ bytesOf 1 j.surface ++ [0]⟩
    let last := j.progress + 1 = j.tiles.length
    ∃ u v, exec .fillStepComplete s = .next v ∧
      u = { s with
        engine := { s.engine with
          step := .idle
          jobs := if last then rest else { j with progress := j.progress + 1 } :: rest }
        surfaces := if last then
            s.surfaces.setIfInBounds j.surface { s.surf j.surface with
              fills := (s.surf j.surface).fills - 1 }
          else s.surfaces
        pool := ⟨s.pool.free, u.pool.content, u.pool.pixels⟩ } ∧
      (∀ z : Tile, u.pool.contentOf z = if z = x then .data else s.pool.contentOf z) ∧
      (∀ cell < 64, readCell u.pool.pixels x cell =
        if full = true ∨ cell ∈ j.rect.cellsIn (s.surf j.surface).width pos then j.colour
        else if s.pool.contentOf x = .blank then black else readCell s.pool.pixels x cell) ∧
      (∀ z : Tile, z ≠ x → ∀ cell < 64,
        readCell u.pool.pixels z cell = readCell s.pool.pixels z cell) ∧
      (¬ last → v = { u with engine := v.engine } ∧ EngineGoesOn u v) ∧
      (last →
        ¬ ((∃ c ∈ s.commits.queue.head?, j.surface ∈ c.surfaces) ∧ u.headIsDue) →
        v = { u with engine := v.engine, link := s.link.offer done } ∧ EngineGoesOn u v) ∧
      (last → (∃ c ∈ s.commits.queue.head?, j.surface ∈ c.surfaces) → u.headIsDue →
        AppliesStopped u v [done] ∧ EngineGoesOnEither u v)

/-! ### Commits (Chapter 3) -/

/-- COMMIT by the checks of Table 3-2 in order, each refusal with its details; which holder check 7
names when canvas and curve are both held is a free value (log entry 6). An accepted COMMIT joins the
tail of the queue, writes its tag into the pending-commit field of every surface it names, and changes
nothing else, unless a STOPPED part finds it at the head and ready. -/
def Obligations.CommitJoinsTheQueue : Prop :=
  (∀ (s : State) (f : Request) (body : List Byte), lengthOk 0x40 body = true →
    Asks s f 0x40 body → 16 ≤ fieldAt body 2 1 →
    exec .commit s = .next (s.answer f .badField [])) ∧
  ∀ (s : State) (f : Request) (c : Commit), Asks s f 0x40 (commitBody c) →
    c.surfaces.length < 256 → (∀ id ∈ c.surfaces, id < 256) →
    let refused : Status → List Byte → Prop := fun st body =>
      exec .commit s = .next (s.answer f st body)
    ((∃ id ∈ c.surfaces, 31 < id) ∨ 32 < c.surfaces.length ∨
        c.surfaces = [] ∧ c.canvas = false ∧ c.curve = false → refused .badField []) ∧
    ((∀ id ∈ c.surfaces, id < 32) → c.surfaces.length ≤ 32 →
        (c.surfaces ≠ [] ∨ c.canvas = true ∨ c.curve = true) →
      (4 ≤ s.commits.queue.length → refused .queueFull []) ∧
      (s.commits.queue.length < 4 →
        (∀ i d, s.commits.queue[i]? = some d → d.tag = c.tag →
          (∀ k < i, ∀ e, s.commits.queue[k]? = some e → e.tag ≠ c.tag) →
          refused .tagInUse (bytesOf 1 i)) ∧
        ((∀ d ∈ s.commits.queue, d.tag ≠ c.tag) →
          (s.timing.state = .stopped → c.canvas = false → refused .notRunning []) ∧
          (c.canvas = true → s.scan.lacksRequired → refused .noCanvas []) ∧
          ((s.timing.state = .stopped → c.canvas = true) →
              (c.canvas = true → ¬ s.scan.lacksRequired) →
            (FreezeLaw s → ∀ d ∈ s.commits.queue, c.canvas = true → d.canvas = true →
              ((c.curve = true → ∀ e ∈ s.commits.queue, e.curve = false) →
                refused .inCommit ([0, 0xFF] ++ bytesOf 2 d.tag.toNat)) ∧
              (∀ e ∈ s.commits.queue, c.curve = true → e.curve = true →
                refused .inCommit ([0, 0xFF] ++ bytesOf 2 d.tag.toNat) ∨
                refused .inCommit ([1, 0xFF] ++ bytesOf 2 e.tag.toNat))) ∧
            (FreezeLaw s → (c.canvas = true → ∀ d ∈ s.commits.queue, d.canvas = false) →
              ∀ e ∈ s.commits.queue, c.curve = true → e.curve = true →
                refused .inCommit ([1, 0xFF] ++ bytesOf 2 e.tag.toNat)) ∧
            ((c.canvas = true → ∀ d ∈ s.commits.queue, d.canvas = false) →
                (c.curve = true → ∀ d ∈ s.commits.queue, d.curve = false) →
              (∀ pre id post, c.surfaces = pre ++ id :: post → pre.Nodup → id ∈ pre →
                refused .duplicateId (bytesOf 1 id)) ∧
              (c.surfaces.Nodup →
                (∀ pre id post, c.surfaces = pre ++ id :: post →
                  (∀ i ∈ pre, (s.surf i).defined) →
                  ((s.surf id).state = .free → refused .noSurface (bytesOf 1 id)) ∧
                  ((s.surf id).state = .retiring → refused .retiring (bytesOf 1 id))) ∧
                ((∀ id ∈ c.surfaces, (s.surf id).defined) →
                  (∀ pre id post tag, c.surfaces = pre ++ id :: post →
                    (∀ i ∈ pre, (s.surf i).pendingTag = none) →
                    (s.surf id).pendingTag = some tag →
                    refused .inCommit ([2] ++ bytesOf 1 id ++ bytesOf 2 tag.toNat)) ∧
                  ((∀ id ∈ c.surfaces, (s.surf id).pendingTag = none) →
                    (∀ pre id post slot, c.surfaces = pre ++ id :: post →
                      (∀ i ∈ pre, ¬ ((s.surf i).banks = 2 ∧ (s.surf i).stream ≠ none)) →
                      (s.surf id).banks = 2 → (s.surf id).stream = some slot →
                      refused .streamOpen (bytesOf 1 id ++ bytesOf 1 slot)) ∧
                    ((∀ id ∈ c.surfaces, ¬ ((s.surf id).banks = 2 ∧ (s.surf id).stream ≠ none)) →
                      ∀ t ∈ c.target, 65535 < (t - s.timing.frame).toNat →
                      refused .tooFar (bytesOf 4 s.timing.frame.toNat)))))))))) ∧
    (s.acceptsCommit c →
      s.clockRuns ∨ s.commits.queue ≠ [] ∨ ¬ s.isReady s.stoppedFrame c →
      ∃ t, exec .commit s = .next t ∧ Accepts s t f c)

/-- While STOPPED, an accepted CANVAS commit that is the head and ready is applied in the same event,
its reply being queued first. When the mode it makes live is INTERNAL or EXTERNAL, the application is
the first boundary and starts the frame clock; when it is OFF, there is no boundary and the frame
counter stays. -/
def Obligations.CommitStartsTheFrameClock : Prop :=
  ∀ (s : State) (f : Request) (c : Commit),
    s.timing.state = .stopped → s.commits.queue = [] → s.acceptsCommit c →
    s.isReady s.stoppedFrame c → Asks s f 0x40 (commitBody c) →
    ∃ u t, exec .commit s = .next t ∧ Accepts s u f c ∧
      (s.scan.canvasAfter.mode ≠ .off →
        PassesBoundary u t [] [] ∧ t.timing.frame = s.timing.frame + 1 ∧
        (s.scan.live = none ∨ (∃ g ∈ s.scan.live, g.mode = .off) →
          t.timing.state =
            if s.scan.canvasAfter.mode = .internal then .freeRun else .seeking)) ∧
      (s.scan.canvasAfter.mode = .off →
        ∃ v, Applies u v [c] s.timing.frame ∧ t = { v with
          link := u.link.offer (u.doneNotice s.timing.frame c), engine := t.engine } ∧
        t.timing.frame = s.timing.frame ∧ t.timing.state = .stopped) ∧
      EngineGoesOn u t

/-- CANCEL of a pending commit removes it and ends the freezes of its surfaces; when it was the head
of a STOPPED part and the new head is due, that head is applied in the same event, behind the reply;
that the arbiter chooses once, at the end of that event, is the model's choice (log entry 12).
CANCEL of an applied commit is answered TOO-LATE with the frame of the newest entry; of any other tag,
NOT-FOUND. -/
def Obligations.CancelAnswersByTheTag : Prop :=
  ∀ (s : State) (f : Request) (tag : Half), Asks s f 0x41 (bytesOf 2 tag.toNat) →
    (∀ i c, s.commits.queue[i]? = some c → c.tag = tag →
      (∀ k < i, ∀ d, s.commits.queue[k]? = some d → d.tag ≠ tag) →
      ∃ u t, exec .cancel s = .next t ∧ Removes s u f i c ∧
        (0 < i ∨ ¬ u.headIsDue → t = u) ∧
        (i = 0 → FreezeLaw s → u.headIsDue → AppliesStopped u t [] ∧ EngineGoesOn u t)) ∧
    ((∀ d ∈ s.commits.queue, d.tag ≠ tag) →
      (∀ older newer e, s.commits.applied = older ++ e :: newer → e.tag = tag →
        (∀ d ∈ newer, d.tag ≠ tag) →
        exec .cancel s = .next (s.answer f .tooLate (bytesOf 4 e.frame.toNat))) ∧
      ((∀ e ∈ s.commits.applied, e.tag ≠ tag) →
        exec .cancel s = .next (s.answer f .notFound [])))

/-! ### Frame boundaries (Chapters 3 and 8) -/

/-- In every timing state FSY returns low 4 µs after the last boundary, and not before. The internal
timer expires P after the last boundary in FREE_RUN and SEEKING. With no commit pending and no surface
RETIRING, the boundary counts the frame, raises FSY, begins a new scan, offers FRAME when k divides the
counter, and changes nothing else. -/
def Obligations.TimerExpiryIsABoundary : Prop :=
  (∀ (s : State) (b : Time), s.timing.lastBoundary = some b → s.timing.fsy = true →
    (b + 24 * 4 ≤ s.now →
      exec .fsyPulseEnd s = .next { s with timing := { s.timing with fsy := false } }) ∧
    (s.now < b + 24 * 4 → exec .fsyPulseEnd s = .next s)) ∧
  ∀ (s : State) (c : Canvas) (b : Time),
    (s.timing.state = .freeRun ∨ s.timing.state = .seeking) → s.scan.live = some c →
    s.timing.lastBoundary = some b → b + 24 * c.period ≤ s.now → s.commits.queue = [] →
    s.noneRetiring → s.engineBusy →
    exec .internalTimerExpiry s = .next { s with
      timing := { s.timing with
        frame := s.timing.frame + 1, lastBoundary := some s.now, fsy := true }
      scan := { s.scan with
        scanning := true, nextLine := some 0, slot := some ⟨7 * c.period, 8 * c.height⟩
        driven := none }
      link := if s.timing.interval.toNat ≠ 0 ∧
          (s.timing.frame + 1).toNat % s.timing.interval.toNat = 0 then
        s.link.offer ⟨0x63, bytesOf 4 (s.timing.frame + 1).toNat ++ [s.timing.state.code]⟩
      else s.link }

/-- Every boundary of a running clock, made by the internal timer, the loss deadline, an accepted FIN
edge or a locking one, applies the commits at the head of the queue that are ready, in order, each
whole, up to the first that is not ready or to one that leaves the clock STOPPED; CANVAS makes the
staged canvas live and moves the clock when a clock field changes, CURVE copies a modified staged
curve. Then the RETIRING surfaces become FREE, the frame is counted and begun, and the notices are
offered. The model's choices: the arbiter chooses once, at the end of the event (log entry 12), and next
line and line slot are absent behind a boundary that stops the part (log entry 23). -/
def Obligations.BoundaryAppliesTheReadyCommit : Prop :=
  ∀ (s : State) (c : Canvas) (b : Time), FreezeLaw s → s.scan.live = some c →
    s.timing.lastBoundary = some b →
    let n : Word := s.timing.frame + 1
    (s.timing.state = .freeRun ∨ s.timing.state = .seeking → b + 24 * c.period ≤ s.now →
      ∃ t, exec .internalTimerExpiry s = .next t ∧
        PassesBoundary s t [] [] ∧ EngineGoesOn s t) ∧
    (s.timing.state = .locked → b + 30 * c.period ≤ s.now →
      ∃ u t, exec .lossDeadline s = .next t ∧
        u = { s with timing := { s.timing with state := .seeking, good := 0 } } ∧
        PassesBoundary u t [] [⟨0x65, bytesOf 4 n.toNat ++ bytesOf 2 s.timing.glitches.toNat⟩] ∧
        EngineGoesOn u t) ∧
    (s.timing.state = .locked → b + 21 * c.period ≤ s.now →
      ∃ u t, exec (.finEdge c.edge) s = .next t ∧
        u = { s with
          pins := { s.pins with finHigh := c.edge == .rise }
          timing := { s.timing with lastEdge := some s.now } } ∧
        PassesBoundary u t [] [] ∧ EngineGoesOn u t) ∧
    (∀ e, s.timing.state = .seeking → s.timing.good = 1 → s.timing.lastEdge = some e →
      e + 21 * c.period ≤ s.now → s.now ≤ e + 27 * c.period → b + 12 * c.period ≤ s.now →
      ∃ u t, exec (.finEdge c.edge) s = .next t ∧
        u = { s with
          pins := { s.pins with finHigh := c.edge == .rise }
          timing := { s.timing with state := .locked, good := 0, lastEdge := some s.now } } ∧
        PassesBoundary u t [] [⟨0x64, bytesOf 4 n.toNat ++ [1]⟩] ∧ EngineGoesOn u t)

/-- A boundary makes every RETIRING surface FREE: their tiles, BLANK, join the tail of the free list
surface after surface in ascending order of id, front bank then back bank. -/
def Obligations.BoundaryRetiresSurfaces : Prop :=
  ∀ (s : State) (c : Canvas) (b : Time),
    (s.timing.state = .freeRun ∨ s.timing.state = .seeking) → s.scan.live = some c →
    s.timing.lastBoundary = some b → b + 24 * c.period ≤ s.now → s.commits.queue = [] →
    ∃ t, exec .internalTimerExpiry s = .next t ∧
      (∀ id < 32, t.surf id =
        if (s.surf id).state = .retiring then surfaceFree else s.surf id) ∧
      t.pool.free = s.pool.free ++
        ((List.range 32).filter (fun id => (s.surf id).state == .retiring)).flatMap
          (fun id => (s.surf id).front ++ (s.surf id).back) ∧
      t.pool.pixels = s.pool.pixels ∧
      (∀ x : Tile, t.pool.contentOf x =
        if ∃ id < 32, (s.surf id).state = .retiring ∧ x ∈ (s.surf id).front ++ (s.surf id).back
        then .blank else s.pool.contentOf x)

/-- Transitions of FIN. One in the other direction, or in STOPPED or FREE_RUN, changes only the level
of the pin. In SEEKING an edge with no good interval sets the good count to 0, a first good one sets
it to 1, and a second locks: without a boundary when the last was less than P/2 before it. In LOCKED an
edge less than 0.875P after the last boundary counts a glitch. -/
def Obligations.FinEdgesWithoutABoundary : Prop :=
  ∀ (s : State) (c : Canvas) (d : Edge) (b : Time), s.scan.live = some c →
    s.timing.lastBoundary = some b → b ≤ s.now →
    (d ≠ c.edge ∨ s.timing.state = .stopped ∨ s.timing.state = .freeRun →
      exec (.finEdge d) s = .next { s with pins := { s.pins with finHigh := d == .rise } }) ∧
    (d = c.edge → s.timing.state = .seeking →
      (∀ e ∈ s.timing.lastEdge, s.now < e + 21 * c.period ∨ e + 27 * c.period < s.now) →
      exec (.finEdge d) s = .next { s with
        pins := { s.pins with finHigh := d == .rise }
        timing := { s.timing with good := 0, lastEdge := some s.now } }) ∧
    (∀ e, d = c.edge → s.timing.state = .seeking → s.timing.lastEdge = some e →
      e + 21 * c.period ≤ s.now → s.now ≤ e + 27 * c.period →
      (s.timing.good = 0 →
        exec (.finEdge d) s = .next { s with
          pins := { s.pins with finHigh := d == .rise }
          timing := { s.timing with good := 1, lastEdge := some s.now } }) ∧
      (s.timing.good = 1 → s.now < b + 12 * c.period →
        exec (.finEdge d) s = .next { s with
          pins := { s.pins with finHigh := d == .rise }
          timing := { s.timing with state := .locked, good := 0, lastEdge := some s.now }
          link := s.link.offer ⟨0x64, bytesOf 4 s.timing.frame.toNat ++ [0]⟩ })) ∧
    (d = c.edge → s.timing.state = .locked → s.now < b + 21 * c.period →
      exec (.finEdge d) s = .next { s with
        pins := { s.pins with finHigh := d == .rise }
        timing := { s.timing with
          lastEdge := some s.now
          glitches := if s.timing.glitches = 65535 then 65535 else s.timing.glitches + 1 } })

/-- The boundaries that FIN and its absence make, with no commit pending and no surface RETIRING: a
locking edge P/2 or more after the last boundary, an accepted edge in LOCKED, and the loss of the lock
at 1.25P, each with its sync notice ahead of the FRAME notice. -/
def Obligations.LockingLossAndAcceptedEdgeBoundaries : Prop :=
  ∀ (s : State) (c : Canvas) (b : Time), s.scan.live = some c → s.timing.lastBoundary = some b →
    s.commits.queue = [] → s.noneRetiring → s.engineBusy →
    let n : Word := s.timing.frame + 1
    let scan : Scan := { s.scan with
      scanning := true, nextLine := some 0, slot := some ⟨7 * c.period, 8 * c.height⟩
      driven := none }
    let frameNotice : TimingState → List Notice := fun st =>
      if s.timing.interval.toNat ≠ 0 ∧ n.toNat % s.timing.interval.toNat = 0 then
        [⟨0x63, bytesOf 4 n.toNat ++ [st.code]⟩] else []
    (∀ e, s.timing.state = .seeking → s.timing.good = 1 → s.timing.lastEdge = some e →
      e + 21 * c.period ≤ s.now → s.now ≤ e + 27 * c.period → b + 12 * c.period ≤ s.now →
      exec (.finEdge c.edge) s = .next { s with
        pins := { s.pins with finHigh := c.edge == .rise }
        timing := { s.timing with
          state := .locked, good := 0, lastEdge := some s.now, frame := n
          lastBoundary := some s.now, fsy := true }
        scan := scan
        link := s.link.offerAll (⟨0x64, bytesOf 4 n.toNat ++ [1]⟩ :: frameNotice .locked) }) ∧
    (s.timing.state = .locked → b + 21 * c.period ≤ s.now →
      exec (.finEdge c.edge) s = .next { s with
        pins := { s.pins with finHigh := c.edge == .rise }
        timing := { s.timing with
          lastEdge := some s.now, frame := n, lastBoundary := some s.now, fsy := true }
        scan := scan
        link := s.link.offerAll (frameNotice .locked) }) ∧
    (s.timing.state = .locked → b + 30 * c.period ≤ s.now →
      exec .lossDeadline s = .next { s with
        timing := { s.timing with
          state := .seeking, good := 0, frame := n, lastBoundary := some s.now, fsy := true }
        scan := scan
        link := s.link.offerAll
          (⟨0x65, bytesOf 4 n.toNat ++ bytesOf 2 s.timing.glitches.toNat⟩ ::
            frameNotice .seeking) })

/-! ### Composition and scan-out (Chapter 7) -/

/-- At the start of the slot of line k, k × L after the boundary with L = 7P/(8H), the line is composed
from the live state and driven, each channel through the live curve, and the next line is k + 1. In the
slot the bus gives the mark of the line's start, with FSTART too for line 0, one clock for each pixel in
order with its codes on the lanes, and its rest. The moments of the clocks are free values, all of them
behind the mark and inside the slot, the rest too; with no line being driven the bus rests. That the
marks are high until the first clock, and that the last two units of time of the slot close a line that
is not over then, is the model's choice (log entry 15). -/
def Obligations.LineSlotDrivesItsLine : Prop :=
  (∀ (s : State) (c : Canvas) (b k : Nat),
    s.scan.scanning = true → s.scan.nextLine = some k → s.scan.live = some c → k < c.height →
    s.scan.slot = some ⟨7 * c.period, 8 * c.height⟩ → s.timing.lastBoundary = some b →
    24 * k * (7 * c.period) + 8 * c.height * b ≤ 8 * c.height * s.now →
    ∃ codes, exec .lineSlotStart s = .next { s with scan := { s.scan with
        nextLine := some (k + 1), driven := some ⟨k, decide (k = 0), codes, s.now⟩ } } ∧
      codes.length = c.width ∧
      ∀ x < c.width, codes[x]? = some
        ⟨s.colours.liveCode 0 (s.composePixel c.background x k).red.toNat,
          s.colours.liveCode 1 (s.composePixel c.background x k).green.toNat,
          s.colours.liveCode 2 (s.composePixel c.background x k).blue.toNat⟩) ∧
  ∀ s : State,
    let rest : BusLevels := ⟨false, false, false, ⟨0, 0, 0⟩⟩
    (s.scan.driven = none → s.busEvents = [] ∧ s.busLevels = rest) ∧
    ∀ d l b, s.scan.driven = some d → s.scan.slot = some l → s.timing.lastBoundary = some b →
      let width := d.codes.length
      let clock : Nat → Time := fun n =>
        d.since + ((List.range n).map (fun i =>
          Config.clockGap d.since i + (if i = 0 ∨ i = width then 1 else 0))).sum
      let ends : Time → Prop := fun m =>
        24 * (d.line + 1) * l.numerator + l.denominator * b ≤ l.denominator * m
      ∃ n ≤ width + 1,
        s.busEvents =
          (BusEvent.lineStart d.frameStart :: (d.codes.map .pixel ++ [.rest])).take (n + 1) ∧
        (ends (s.now + 1) → n = width + 1) ∧ (ends (s.now + 2) → width ≤ n) ∧
        (¬ ends (s.now + 2) → d.since ≤ s.now →
          clock n ≤ s.now ∧ (n ≤ width → s.now < clock (n + 1)) ∧ (s.now = d.since → n = 0)) ∧
        (n = 0 → s.busLevels.clocked = false ∧ s.busLevels.fstart = d.frameStart ∧
          s.busLevels.lstart = true) ∧
        (∀ x codes, n = x + 1 → d.codes[x]? = some codes →
          s.busLevels.fstart = false ∧ s.busLevels.lstart = false ∧
          (s.busLevels.clocked = true → s.busLevels.lanes = codes) ∧
          (¬ ends (s.now + 2) → d.since < s.now → clock n = s.now → s.busLevels.clocked = true)) ∧
        (n = width + 1 → s.busLevels = rest)

/-- A canvas pixel is composed from the background upward, surface after surface of the stack: the
visible LIVE and RETIRING surfaces, each once, in ascending order of (z, id). A surface covers the
canvas pixels of its view rectangle; its source pixel is read from its front bank at the view offset,
wrapped at its size. A source pixel of the key colour, and a pixel that is not covered, leave the
colour below; any other is blended over it. -/
def Obligations.StackingOrderIsByZThenId : Prop :=
  ∀ s : State,
    (∀ id, id ∈ s.stackingOrder ↔ id < 32 ∧ (s.surf id).live.visible = true ∧
      ((s.surf id).state = .live ∨ (s.surf id).state = .retiring)) ∧
    s.stackingOrder.Pairwise (fun i j =>
      (s.surf i).live.z.toNat < (s.surf j).live.z.toNat ∨
        (s.surf i).live.z = (s.surf j).live.z ∧ i < j) ∧
    (∀ background x y, s.composePixel background x y =
      s.stackingOrder.foldl (fun below id => s.composeOver (s.surf id) x y below) background) ∧
    ∀ (f : Surface) (x y : Nat) (below : Rgb),
      let covered := f.live.x ≤ (x : Int) ∧ (x : Int) < f.live.x + f.live.vw ∧
        f.live.y ≤ (y : Int) ∧ (y : Int) < f.live.y + f.live.vh
      (¬ covered → s.composeOver f x y below = below) ∧
      (covered → 1 ≤ f.width → 1 ≤ f.height → ∃ cx cy,
        cx < f.width ∧ cy < f.height ∧
        (cx : Int) = ((x : Int) - f.live.x + f.live.vx) % f.width ∧
        (cy : Int) = ((y : Int) - f.live.y + f.live.vy) % f.height ∧
        (f.live.key = some (s.readPixel f f.front cx cy) → s.composeOver f x y below = below) ∧
        (f.live.key ≠ some (s.readPixel f f.front cx cy) →
          s.composeOver f x y below =
            ⟨blendChannel f.live.opacity (s.readPixel f f.front cx cy).red below.red,
              blendChannel f.live.opacity (s.readPixel f f.front cx cy).green below.green,
              blendChannel f.live.opacity (s.readPixel f f.front cx cy).blue below.blue⟩))

/-- The blend of a channel: the rounded weighted mean; the source at opacity 255, the colour below at
opacity 0, always between the two, and their common value where they are equal. A covering surface of
opacity 0 leaves the pixel as it was, and of two covering surfaces the lower one's blend is rounded
before the upper one is taken. -/
def Obligations.BlendIsTheRoundedMean : Prop :=
  let mean : Byte → Byte → Nat → Nat := fun a s b => (a.toNat * s.toNat + (255 - a.toNat) * b + 127) / 255
  (∀ a s b : Byte,
    (blendChannel a s b).toNat = mean a s b.toNat ∧
    blendChannel 255 s b = s ∧ blendChannel 0 s b = b ∧ blendChannel a s s = s ∧
    min s.toNat b.toNat ≤ (blendChannel a s b).toNat ∧
    (blendChannel a s b).toNat ≤ max s.toNat b.toNat) ∧
  ∀ (s : State) (f g : Surface) (x y : Nat) (below : Rgb),
    (f.live.opacity = 0 → s.composeOver f x y below = below) ∧
    (f.coversPixel x y = true → g.coversPixel x y = true → f.live.key = none → g.live.key = none →
      let c := s.composeOver g x y (s.composeOver f x y below)
      let u := s.sourcePixel f x y
      let v := s.sourcePixel g x y
      c.red.toNat = mean g.live.opacity v.red (mean f.live.opacity u.red below.red.toNat) ∧
      c.green.toNat = mean g.live.opacity v.green (mean f.live.opacity u.green below.green.toNat) ∧
      c.blue.toNat = mean g.live.opacity v.blue (mean f.live.opacity u.blue below.blue.toNat))

/-! ### The laws of the device, kept by every step -/

/-- Each law holds of the reset state. -/
def Obligations.ResetMeetsTheLaws : Prop :=
  LinkLaw State.reset ∧ QueueLaw State.reset ∧ TileLaw State.reset ∧ StaleLaw State.reset ∧
    StreamLaw State.reset ∧ FreezeLaw State.reset ∧ CurveLaw State.reset ∧ StoreLaw State.reset ∧
    HeldLaw State.reset

/-- No step lets the link hold more than 8 frames, queue more than 24 notices, or keep more than 8
history entries or two for one SEQ. -/
def Obligations.StepsKeepTheLinkLaw : Prop :=
  ∀ s t : State, LinkLaw s → step s = .next t → LinkLaw t

/-- Every step keeps the bounds of the commit queue, the applied-commit record and the fill queue, and
the outstanding fills of each surface equal to its queued jobs. -/
def Obligations.StepsKeepTheQueueLaw : Prop :=
  ∀ s t : State, QueueLaw s → step s = .next t → QueueLaw t

/-- Every step keeps each of the 4096 tiles in exactly one place. -/
def Obligations.StepsKeepEveryTileInOnePlace : Prop :=
  ∀ s t : State, TileLaw s → step s = .next t → TileLaw t

/-- Every step keeps STALE tiles in back banks alone and the stale counts equal to their numbers. -/
def Obligations.StepsKeepTheStaleLaw : Prop :=
  ∀ s t : State, TileLaw s → FreezeLaw s → StaleLaw s → step s = .next t → StaleLaw t

/-- Every step keeps at most one stream to a surface, cursors inside windows and residues shorter than
a pixel. -/
def Obligations.StepsKeepTheStreamLaw : Prop :=
  ∀ s t : State, StreamLaw s → step s = .next t → StreamLaw t

/-- Every step keeps each surface frozen exactly while one pending commit names it. -/
def Obligations.StepsKeepTheFreezeLaw : Prop :=
  ∀ s t : State, FreezeLaw s → step s = .next t → FreezeLaw t

/-- Every step keeps an unmodified staged curve equal to the live curve, and the stores in canonical
form. -/
def Obligations.StepsKeepCurvesAndStores : Prop :=
  ∀ s t : State, step s = .next t → (CurveLaw s → CurveLaw t) ∧ (StoreLaw s → StoreLaw t)

/-- The part is HELD, with every block at its reset values, exactly while RSTN is low or power is not
good: whatever commands come, a HELD part does nothing else. -/
def Obligations.StepsKeepAHeldPartReset : Prop :=
  ∀ s t : State, HeldLaw s → step s = .next t → HeldLaw t

/-- The frame counter changes by one at a frame boundary, which sets the last boundary time and raises
FSY, or returns to 0 at a reset, and changes in no other step. -/
def Obligations.FrameCounterCountsBoundaries : Prop :=
  ∀ s t : State, step s = .next t →
    t.timing.frame = s.timing.frame ∨
    (t.timing.frame = s.timing.frame + 1 ∧ t.timing.lastBoundary = some s.now ∧
      t.timing.fsy = true) ∨
    (t.timing = timingReset ∧ (t.control.state = .held ∨ t.control.state = .starting))

/-- What a double-banked surface shows changes at frame boundaries and at no other moment: while the
clock runs, a step that counts no frame and leaves the surface defined keeps its front bank list and
every pixel of it. -/
def Obligations.DoubleBankedFrontsChangeOnlyAtBoundaries : Prop :=
  ∀ (s t : State) (id : Nat), TileLaw s → s.clockRuns → step s = .next t →
    t.timing.frame = s.timing.frame → id < 32 → (s.surf id).banks = 2 →
    (s.surf id).state ≠ .free → (t.surf id).state ≠ .free →
    (t.surf id).front = (s.surf id).front ∧
    ∀ x y, t.readPixel (t.surf id) (t.surf id).front x y =
      s.readPixel (s.surf id) (s.surf id).front x y
end

