-- ==== Sys2Proof/Laws/Link.lean ====
section
/-! SUPPORT. Laws/Link.lean: what offering a notice, queueing a reply and entering the history can
do, and that they keep the bounds of the link. -/

namespace Sys2Proof.Machine

/-! ### Offering a notice (R153, R154) -/

/-- An offered notice is admitted, admitted behind a LOST notice, or lost. -/
theorem Link.offer_cases (l : Link) (n : Notice) :
    (l.lost = 0 ∧ l.notices < 24 ∧ l.offer n =
      { l with outbound := l.outbound ++ [.notice n.kind l.noticeSeq n.body]
               noticeSeq := l.noticeSeq + 1 }) ∨
    (l.lost ≠ 0 ∧ l.notices < 23 ∧ l.offer n =
      { l with outbound := l.outbound ++ [.notice 0x67 l.noticeSeq (bytesOf 2 l.lost.toNat),
                 .notice n.kind (l.noticeSeq + 1) n.body]
               noticeSeq := l.noticeSeq + 1 + 1
               lost := 0 }) ∨
    l.offer n = { l with lost := saturate16 l.lost } := by
  unfold Link.offer
  split
  · rename_i h; exact .inl ⟨h.1, h.2, rfl⟩
  · split
    · rename_i h; exact .inr (.inl ⟨h.1, h.2, by simp [Link.enqueue, noticeLost]⟩)
    · exact .inr (.inr rfl)

/-- The one notice that an empty queue admits. -/
theorem Link.offer_of_room {l : Link} (n : Notice) (h : l.lost = 0) (hn : l.notices < 24) :
    l.offer n = { l with outbound := l.outbound ++ [.notice n.kind l.noticeSeq n.body]
                         noticeSeq := l.noticeSeq + 1 } := by
  simp [Link.offer, h, hn, Link.enqueue]

@[simp] theorem Link.offer_framer (l : Link) (n : Notice) : (l.offer n).framer = l.framer := by
  rcases l.offer_cases n with ⟨-, -, h⟩ | ⟨-, -, h⟩ | h <;> rw [h]
@[simp] theorem Link.offer_inbound (l : Link) (n : Notice) : (l.offer n).inbound = l.inbound := by
  rcases l.offer_cases n with ⟨-, -, h⟩ | ⟨-, -, h⟩ | h <;> rw [h]
@[simp] theorem Link.offer_executing (l : Link) (n : Notice) :
    (l.offer n).executing = l.executing := by
  rcases l.offer_cases n with ⟨-, -, h⟩ | ⟨-, -, h⟩ | h <;> rw [h]
@[simp] theorem Link.offer_history (l : Link) (n : Notice) : (l.offer n).history = l.history := by
  rcases l.offer_cases n with ⟨-, -, h⟩ | ⟨-, -, h⟩ | h <;> rw [h]
@[simp] theorem Link.offer_sending (l : Link) (n : Notice) : (l.offer n).sending = l.sending := by
  rcases l.offer_cases n with ⟨-, -, h⟩ | ⟨-, -, h⟩ | h <;> rw [h]
@[simp] theorem Link.offer_paused (l : Link) (n : Notice) : (l.offer n).paused = l.paused := by
  rcases l.offer_cases n with ⟨-, -, h⟩ | ⟨-, -, h⟩ | h <;> rw [h]
@[simp] theorem Link.offer_counters (l : Link) (n : Notice) : (l.offer n).counters = l.counters := by
  rcases l.offer_cases n with ⟨-, -, h⟩ | ⟨-, -, h⟩ | h <;> rw [h]

/-- Replies stay queued: a notice takes no inbound buffer. -/
@[simp] theorem Link.offer_replies (l : Link) (n : Notice) : (l.offer n).replies = l.replies := by
  rcases l.offer_cases n with ⟨-, -, h⟩ | ⟨-, -, h⟩ | h <;>
    simp [h, Link.replies, List.countP_append, OutFrame.isNotice]

@[simp] theorem Link.offer_held (l : Link) (n : Notice) : (l.offer n).held = l.held := by
  simp [Link.held]

/-- R151: no offer makes the queue hold more than 24 notices. -/
theorem Link.offer_notices_le {l : Link} (n : Notice) (h : l.notices ≤ 24) :
    (l.offer n).notices ≤ 24 := by
  rcases l.offer_cases n with ⟨-, h1, e⟩ | ⟨-, h1, e⟩ | e
  · rw [e]; simp [Link.notices, List.countP_append, OutFrame.isNotice] at *; omega
  · rw [e]; simp [Link.notices, List.countP_append, OutFrame.isNotice] at *; omega
  · rw [e]; exact h

@[simp] theorem Link.offerAll_nil (l : Link) : l.offerAll [] = l := rfl
@[simp] theorem Link.offerAll_cons (l : Link) (n : Notice) (ns : List Notice) :
    l.offerAll (n :: ns) = (l.offer n).offerAll ns := rfl

@[simp] theorem Link.offerAll_framer (l : Link) (ns : List Notice) :
    (l.offerAll ns).framer = l.framer := by
  induction ns generalizing l <;> simp_all
@[simp] theorem Link.offerAll_inbound (l : Link) (ns : List Notice) :
    (l.offerAll ns).inbound = l.inbound := by
  induction ns generalizing l <;> simp_all
@[simp] theorem Link.offerAll_executing (l : Link) (ns : List Notice) :
    (l.offerAll ns).executing = l.executing := by
  induction ns generalizing l <;> simp_all
@[simp] theorem Link.offerAll_history (l : Link) (ns : List Notice) :
    (l.offerAll ns).history = l.history := by
  induction ns generalizing l <;> simp_all
@[simp] theorem Link.offerAll_sending (l : Link) (ns : List Notice) :
    (l.offerAll ns).sending = l.sending := by
  induction ns generalizing l <;> simp_all
@[simp] theorem Link.offerAll_paused (l : Link) (ns : List Notice) :
    (l.offerAll ns).paused = l.paused := by
  induction ns generalizing l <;> simp_all
@[simp] theorem Link.offerAll_counters (l : Link) (ns : List Notice) :
    (l.offerAll ns).counters = l.counters := by
  induction ns generalizing l <;> simp_all
@[simp] theorem Link.offerAll_held (l : Link) (ns : List Notice) : (l.offerAll ns).held = l.held := by
  induction ns generalizing l <;> simp_all

theorem Link.offerAll_notices_le {l : Link} (ns : List Notice) (h : l.notices ≤ 24) :
    (l.offerAll ns).notices ≤ 24 := by
  induction ns generalizing l with
  | nil => exact h
  | cons n ns ih => exact ih (Link.offer_notices_le n h)

/-! ### The reply history (R150) -/

/-- The history never holds more than eight entries. -/
theorem enterHistory_length_le {h : List HistoryEntry} (e : HistoryEntry) (hl : h.length ≤ 8) :
    (enterHistory h e).length ≤ 8 := by
  unfold enterHistory
  split
  · rename_i ha
    obtain ⟨x, hx, hs⟩ := List.any_eq_true.1 ha
    have : (h.filter (fun y => y.seq != e.seq)).length < h.length :=
      List.length_filter_lt_length_iff_exists.2 ⟨x, hx, by simpa using hs⟩
    simp only [List.length_append, List.length_singleton]; omega
  · split <;> simp <;> omega

/-- The entry just made is in the history. -/
theorem mem_enterHistory (h : List HistoryEntry) (e : HistoryEntry) : e ∈ enterHistory h e := by
  unfold enterHistory; split <;> simp

/-- No two entries have one SEQ. -/
theorem enterHistory_nodup {h : List HistoryEntry} (e : HistoryEntry)
    (hn : (h.map (·.seq)).Nodup) : ((enterHistory h e).map (·.seq)).Nodup := by
  have key : ∀ l : List HistoryEntry, l.Sublist h → (∀ x ∈ l, x.seq ≠ e.seq) →
      ((l ++ [e]).map (·.seq)).Nodup := by
    intro l hl hx
    rw [List.map_append, List.nodup_append]
    refine ⟨hn.sublist (hl.map _), by simp, ?_⟩
    intro a ha b hb
    obtain ⟨x, hx', rfl⟩ := List.mem_map.1 ha
    simp at hb; subst hb; exact hx x hx'
  unfold enterHistory
  split
  · exact key _ List.filter_sublist (fun x hx => by simpa using (List.mem_filter.1 hx).2)
  · rename_i ha
    have hne : ∀ x ∈ h, x.seq ≠ e.seq := by
      intro x hx hs; exact ha (List.any_eq_true.2 ⟨x, hx, by simpa using hs⟩)
    split
    · exact key _ (List.Sublist.refl _) hne
    · exact key _ (List.drop_sublist _ _) (fun x hx => hne x (List.mem_of_mem_drop hx))

/-! ### Interleaving (R136) -/

@[simp] theorem interleave_nil_left (pick : Nat → Bool) (n i : Nat) (ys : List Notice) :
    interleave pick n i [] ys = ys := by
  cases n <;> simp [interleave]

@[simp] theorem interleave_nil_right (pick : Nat → Bool) (n i : Nat) (xs : List Notice) :
    interleave pick n i xs [] = xs := by
  cases n <;> cases xs <;> simp [interleave]

/-- An interleaving has the notices of both lists. -/
theorem interleave_perm (pick : Nat → Bool) (n i : Nat) (xs ys : List Notice) :
    (interleave pick n i xs ys).Perm (xs ++ ys) := by
  induction n generalizing i xs ys with
  | zero => simp [interleave]
  | succ n ih =>
    cases xs with
    | nil => simp
    | cons x xs =>
      cases ys with
      | nil => simp
      | cons y ys =>
        simp only [interleave]
        split
        · exact ((ih (i + 1) (x :: xs) ys).cons y).trans List.perm_middle.symm
        · exact (ih (i + 1) xs (y :: ys)).cons x

end Sys2Proof.Machine
end

