-- ==== Sys2Proof/Laws/State.lean ====
section
/-! SUPPORT. Laws/State.lean: one lemma per field per update of State, each true by rfl, and the reads
of a surface record and of a stream slot after each update. -/

namespace Sys2Proof.Machine

variable (s : State)

/-! ### withLink -/

@[simp] theorem State.withLink_now (l : Link) : (s.withLink l).now = s.now := rfl
@[simp] theorem State.withLink_pending (l : Link) : (s.withLink l).pending = s.pending := rfl
@[simp] theorem State.withLink_pins (l : Link) : (s.withLink l).pins = s.pins := rfl
@[simp] theorem State.withLink_control (l : Link) : (s.withLink l).control = s.control := rfl
@[simp] theorem State.withLink_link (l : Link) : (s.withLink l).link = l := rfl
@[simp] theorem State.withLink_surfaces (l : Link) : (s.withLink l).surfaces = s.surfaces := rfl
@[simp] theorem State.withLink_pool (l : Link) : (s.withLink l).pool = s.pool := rfl
@[simp] theorem State.withLink_streams (l : Link) : (s.withLink l).streams = s.streams := rfl
@[simp] theorem State.withLink_engine (l : Link) : (s.withLink l).engine = s.engine := rfl
@[simp] theorem State.withLink_commits (l : Link) : (s.withLink l).commits = s.commits := rfl
@[simp] theorem State.withLink_colours (l : Link) : (s.withLink l).colours = s.colours := rfl
@[simp] theorem State.withLink_timing (l : Link) : (s.withLink l).timing = s.timing := rfl
@[simp] theorem State.withLink_scan (l : Link) : (s.withLink l).scan = s.scan := rfl
@[simp] theorem State.withLink_surf (l : Link) (id : Nat) : (s.withLink l).surf id = s.surf id := rfl
@[simp] theorem State.withLink_slotAt (l : Link) (i : Nat) : (s.withLink l).slotAt i = s.slotAt i := rfl

/-! ### withPool -/

@[simp] theorem State.withPool_now (p : Pool) : (s.withPool p).now = s.now := rfl
@[simp] theorem State.withPool_pending (p : Pool) : (s.withPool p).pending = s.pending := rfl
@[simp] theorem State.withPool_pins (p : Pool) : (s.withPool p).pins = s.pins := rfl
@[simp] theorem State.withPool_control (p : Pool) : (s.withPool p).control = s.control := rfl
@[simp] theorem State.withPool_link (p : Pool) : (s.withPool p).link = s.link := rfl
@[simp] theorem State.withPool_surfaces (p : Pool) : (s.withPool p).surfaces = s.surfaces := rfl
@[simp] theorem State.withPool_pool (p : Pool) : (s.withPool p).pool = p := rfl
@[simp] theorem State.withPool_streams (p : Pool) : (s.withPool p).streams = s.streams := rfl
@[simp] theorem State.withPool_engine (p : Pool) : (s.withPool p).engine = s.engine := rfl
@[simp] theorem State.withPool_commits (p : Pool) : (s.withPool p).commits = s.commits := rfl
@[simp] theorem State.withPool_colours (p : Pool) : (s.withPool p).colours = s.colours := rfl
@[simp] theorem State.withPool_timing (p : Pool) : (s.withPool p).timing = s.timing := rfl
@[simp] theorem State.withPool_scan (p : Pool) : (s.withPool p).scan = s.scan := rfl
@[simp] theorem State.withPool_surf (p : Pool) (id : Nat) : (s.withPool p).surf id = s.surf id := rfl
@[simp] theorem State.withPool_slotAt (p : Pool) (i : Nat) : (s.withPool p).slotAt i = s.slotAt i := rfl

/-! ### withEngine -/

@[simp] theorem State.withEngine_now (e : Engine) : (s.withEngine e).now = s.now := rfl
@[simp] theorem State.withEngine_pending (e : Engine) : (s.withEngine e).pending = s.pending := rfl
@[simp] theorem State.withEngine_pins (e : Engine) : (s.withEngine e).pins = s.pins := rfl
@[simp] theorem State.withEngine_control (e : Engine) : (s.withEngine e).control = s.control := rfl
@[simp] theorem State.withEngine_link (e : Engine) : (s.withEngine e).link = s.link := rfl
@[simp] theorem State.withEngine_surfaces (e : Engine) : (s.withEngine e).surfaces = s.surfaces := rfl
@[simp] theorem State.withEngine_pool (e : Engine) : (s.withEngine e).pool = s.pool := rfl
@[simp] theorem State.withEngine_streams (e : Engine) : (s.withEngine e).streams = s.streams := rfl
@[simp] theorem State.withEngine_engine (e : Engine) : (s.withEngine e).engine = e := rfl
@[simp] theorem State.withEngine_commits (e : Engine) : (s.withEngine e).commits = s.commits := rfl
@[simp] theorem State.withEngine_colours (e : Engine) : (s.withEngine e).colours = s.colours := rfl
@[simp] theorem State.withEngine_timing (e : Engine) : (s.withEngine e).timing = s.timing := rfl
@[simp] theorem State.withEngine_scan (e : Engine) : (s.withEngine e).scan = s.scan := rfl
@[simp] theorem State.withEngine_surf (e : Engine) (id : Nat) : (s.withEngine e).surf id = s.surf id := rfl
@[simp] theorem State.withEngine_slotAt (e : Engine) (i : Nat) : (s.withEngine e).slotAt i = s.slotAt i := rfl

/-! ### withCommits -/

@[simp] theorem State.withCommits_now (c : CommitUnit) : (s.withCommits c).now = s.now := rfl
@[simp] theorem State.withCommits_pending (c : CommitUnit) : (s.withCommits c).pending = s.pending := rfl
@[simp] theorem State.withCommits_pins (c : CommitUnit) : (s.withCommits c).pins = s.pins := rfl
@[simp] theorem State.withCommits_control (c : CommitUnit) : (s.withCommits c).control = s.control := rfl
@[simp] theorem State.withCommits_link (c : CommitUnit) : (s.withCommits c).link = s.link := rfl
@[simp] theorem State.withCommits_surfaces (c : CommitUnit) : (s.withCommits c).surfaces = s.surfaces := rfl
@[simp] theorem State.withCommits_pool (c : CommitUnit) : (s.withCommits c).pool = s.pool := rfl
@[simp] theorem State.withCommits_streams (c : CommitUnit) : (s.withCommits c).streams = s.streams := rfl
@[simp] theorem State.withCommits_engine (c : CommitUnit) : (s.withCommits c).engine = s.engine := rfl
@[simp] theorem State.withCommits_commits (c : CommitUnit) : (s.withCommits c).commits = c := rfl
@[simp] theorem State.withCommits_colours (c : CommitUnit) : (s.withCommits c).colours = s.colours := rfl
@[simp] theorem State.withCommits_timing (c : CommitUnit) : (s.withCommits c).timing = s.timing := rfl
@[simp] theorem State.withCommits_scan (c : CommitUnit) : (s.withCommits c).scan = s.scan := rfl
@[simp] theorem State.withCommits_surf (c : CommitUnit) (id : Nat) : (s.withCommits c).surf id = s.surf id := rfl
@[simp] theorem State.withCommits_slotAt (c : CommitUnit) (i : Nat) : (s.withCommits c).slotAt i = s.slotAt i := rfl

/-! ### withColours -/

@[simp] theorem State.withColours_now (c : Colours) : (s.withColours c).now = s.now := rfl
@[simp] theorem State.withColours_pending (c : Colours) : (s.withColours c).pending = s.pending := rfl
@[simp] theorem State.withColours_pins (c : Colours) : (s.withColours c).pins = s.pins := rfl
@[simp] theorem State.withColours_control (c : Colours) : (s.withColours c).control = s.control := rfl
@[simp] theorem State.withColours_link (c : Colours) : (s.withColours c).link = s.link := rfl
@[simp] theorem State.withColours_surfaces (c : Colours) : (s.withColours c).surfaces = s.surfaces := rfl
@[simp] theorem State.withColours_pool (c : Colours) : (s.withColours c).pool = s.pool := rfl
@[simp] theorem State.withColours_streams (c : Colours) : (s.withColours c).streams = s.streams := rfl
@[simp] theorem State.withColours_engine (c : Colours) : (s.withColours c).engine = s.engine := rfl
@[simp] theorem State.withColours_commits (c : Colours) : (s.withColours c).commits = s.commits := rfl
@[simp] theorem State.withColours_colours (c : Colours) : (s.withColours c).colours = c := rfl
@[simp] theorem State.withColours_timing (c : Colours) : (s.withColours c).timing = s.timing := rfl
@[simp] theorem State.withColours_scan (c : Colours) : (s.withColours c).scan = s.scan := rfl
@[simp] theorem State.withColours_surf (c : Colours) (id : Nat) : (s.withColours c).surf id = s.surf id := rfl
@[simp] theorem State.withColours_slotAt (c : Colours) (i : Nat) : (s.withColours c).slotAt i = s.slotAt i := rfl

/-! ### withTiming -/

@[simp] theorem State.withTiming_now (t : Timing) : (s.withTiming t).now = s.now := rfl
@[simp] theorem State.withTiming_pending (t : Timing) : (s.withTiming t).pending = s.pending := rfl
@[simp] theorem State.withTiming_pins (t : Timing) : (s.withTiming t).pins = s.pins := rfl
@[simp] theorem State.withTiming_control (t : Timing) : (s.withTiming t).control = s.control := rfl
@[simp] theorem State.withTiming_link (t : Timing) : (s.withTiming t).link = s.link := rfl
@[simp] theorem State.withTiming_surfaces (t : Timing) : (s.withTiming t).surfaces = s.surfaces := rfl
@[simp] theorem State.withTiming_pool (t : Timing) : (s.withTiming t).pool = s.pool := rfl
@[simp] theorem State.withTiming_streams (t : Timing) : (s.withTiming t).streams = s.streams := rfl
@[simp] theorem State.withTiming_engine (t : Timing) : (s.withTiming t).engine = s.engine := rfl
@[simp] theorem State.withTiming_commits (t : Timing) : (s.withTiming t).commits = s.commits := rfl
@[simp] theorem State.withTiming_colours (t : Timing) : (s.withTiming t).colours = s.colours := rfl
@[simp] theorem State.withTiming_timing (t : Timing) : (s.withTiming t).timing = t := rfl
@[simp] theorem State.withTiming_scan (t : Timing) : (s.withTiming t).scan = s.scan := rfl
@[simp] theorem State.withTiming_surf (t : Timing) (id : Nat) : (s.withTiming t).surf id = s.surf id := rfl
@[simp] theorem State.withTiming_slotAt (t : Timing) (i : Nat) : (s.withTiming t).slotAt i = s.slotAt i := rfl

/-! ### withScan -/

@[simp] theorem State.withScan_now (c : Scan) : (s.withScan c).now = s.now := rfl
@[simp] theorem State.withScan_pending (c : Scan) : (s.withScan c).pending = s.pending := rfl
@[simp] theorem State.withScan_pins (c : Scan) : (s.withScan c).pins = s.pins := rfl
@[simp] theorem State.withScan_control (c : Scan) : (s.withScan c).control = s.control := rfl
@[simp] theorem State.withScan_link (c : Scan) : (s.withScan c).link = s.link := rfl
@[simp] theorem State.withScan_surfaces (c : Scan) : (s.withScan c).surfaces = s.surfaces := rfl
@[simp] theorem State.withScan_pool (c : Scan) : (s.withScan c).pool = s.pool := rfl
@[simp] theorem State.withScan_streams (c : Scan) : (s.withScan c).streams = s.streams := rfl
@[simp] theorem State.withScan_engine (c : Scan) : (s.withScan c).engine = s.engine := rfl
@[simp] theorem State.withScan_commits (c : Scan) : (s.withScan c).commits = s.commits := rfl
@[simp] theorem State.withScan_colours (c : Scan) : (s.withScan c).colours = s.colours := rfl
@[simp] theorem State.withScan_timing (c : Scan) : (s.withScan c).timing = s.timing := rfl
@[simp] theorem State.withScan_scan (c : Scan) : (s.withScan c).scan = c := rfl
@[simp] theorem State.withScan_surf (c : Scan) (id : Nat) : (s.withScan c).surf id = s.surf id := rfl
@[simp] theorem State.withScan_slotAt (c : Scan) (i : Nat) : (s.withScan c).slotAt i = s.slotAt i := rfl

/-! ### withControl -/

@[simp] theorem State.withControl_now (c : Control) : (s.withControl c).now = s.now := rfl
@[simp] theorem State.withControl_pending (c : Control) : (s.withControl c).pending = s.pending := rfl
@[simp] theorem State.withControl_pins (c : Control) : (s.withControl c).pins = s.pins := rfl
@[simp] theorem State.withControl_control (c : Control) : (s.withControl c).control = c := rfl
@[simp] theorem State.withControl_link (c : Control) : (s.withControl c).link = s.link := rfl
@[simp] theorem State.withControl_surfaces (c : Control) : (s.withControl c).surfaces = s.surfaces := rfl
@[simp] theorem State.withControl_pool (c : Control) : (s.withControl c).pool = s.pool := rfl
@[simp] theorem State.withControl_streams (c : Control) : (s.withControl c).streams = s.streams := rfl
@[simp] theorem State.withControl_engine (c : Control) : (s.withControl c).engine = s.engine := rfl
@[simp] theorem State.withControl_commits (c : Control) : (s.withControl c).commits = s.commits := rfl
@[simp] theorem State.withControl_colours (c : Control) : (s.withControl c).colours = s.colours := rfl
@[simp] theorem State.withControl_timing (c : Control) : (s.withControl c).timing = s.timing := rfl
@[simp] theorem State.withControl_scan (c : Control) : (s.withControl c).scan = s.scan := rfl
@[simp] theorem State.withControl_surf (c : Control) (id : Nat) : (s.withControl c).surf id = s.surf id := rfl
@[simp] theorem State.withControl_slotAt (c : Control) (i : Nat) : (s.withControl c).slotAt i = s.slotAt i := rfl

/-! ### withPins -/

@[simp] theorem State.withPins_now (p : Pins) : (s.withPins p).now = s.now := rfl
@[simp] theorem State.withPins_pending (p : Pins) : (s.withPins p).pending = s.pending := rfl
@[simp] theorem State.withPins_pins (p : Pins) : (s.withPins p).pins = p := rfl
@[simp] theorem State.withPins_control (p : Pins) : (s.withPins p).control = s.control := rfl
@[simp] theorem State.withPins_link (p : Pins) : (s.withPins p).link = s.link := rfl
@[simp] theorem State.withPins_surfaces (p : Pins) : (s.withPins p).surfaces = s.surfaces := rfl
@[simp] theorem State.withPins_pool (p : Pins) : (s.withPins p).pool = s.pool := rfl
@[simp] theorem State.withPins_streams (p : Pins) : (s.withPins p).streams = s.streams := rfl
@[simp] theorem State.withPins_engine (p : Pins) : (s.withPins p).engine = s.engine := rfl
@[simp] theorem State.withPins_commits (p : Pins) : (s.withPins p).commits = s.commits := rfl
@[simp] theorem State.withPins_colours (p : Pins) : (s.withPins p).colours = s.colours := rfl
@[simp] theorem State.withPins_timing (p : Pins) : (s.withPins p).timing = s.timing := rfl
@[simp] theorem State.withPins_scan (p : Pins) : (s.withPins p).scan = s.scan := rfl
@[simp] theorem State.withPins_surf (p : Pins) (id : Nat) : (s.withPins p).surf id = s.surf id := rfl
@[simp] theorem State.withPins_slotAt (p : Pins) (i : Nat) : (s.withPins p).slotAt i = s.slotAt i := rfl

/-! ### setSurf, setSlot and tick -/

@[simp] theorem State.setSurf_now (id : Nat) (f : Surface) : (s.setSurf id f).now = s.now := rfl
@[simp] theorem State.setSurf_pending (id : Nat) (f : Surface) : (s.setSurf id f).pending = s.pending := rfl
@[simp] theorem State.setSurf_pins (id : Nat) (f : Surface) : (s.setSurf id f).pins = s.pins := rfl
@[simp] theorem State.setSurf_control (id : Nat) (f : Surface) : (s.setSurf id f).control = s.control := rfl
@[simp] theorem State.setSurf_link (id : Nat) (f : Surface) : (s.setSurf id f).link = s.link := rfl
@[simp] theorem State.setSurf_pool (id : Nat) (f : Surface) : (s.setSurf id f).pool = s.pool := rfl
@[simp] theorem State.setSurf_streams (id : Nat) (f : Surface) : (s.setSurf id f).streams = s.streams := rfl
@[simp] theorem State.setSurf_engine (id : Nat) (f : Surface) : (s.setSurf id f).engine = s.engine := rfl
@[simp] theorem State.setSurf_commits (id : Nat) (f : Surface) : (s.setSurf id f).commits = s.commits := rfl
@[simp] theorem State.setSurf_colours (id : Nat) (f : Surface) : (s.setSurf id f).colours = s.colours := rfl
@[simp] theorem State.setSurf_timing (id : Nat) (f : Surface) : (s.setSurf id f).timing = s.timing := rfl
@[simp] theorem State.setSurf_scan (id : Nat) (f : Surface) : (s.setSurf id f).scan = s.scan := rfl
@[simp] theorem State.setSurf_surfaces (id : Nat) (f : Surface) :
    (s.setSurf id f).surfaces = s.surfaces.setIfInBounds id f := rfl
@[simp] theorem State.setSurf_slotAt (id : Nat) (f : Surface) (i : Nat) :
    (s.setSurf id f).slotAt i = s.slotAt i := rfl

@[simp] theorem State.setSlot_now (i : Nat) (x : Option Stream) : (s.setSlot i x).now = s.now := rfl
@[simp] theorem State.setSlot_pending (i : Nat) (x : Option Stream) : (s.setSlot i x).pending = s.pending := rfl
@[simp] theorem State.setSlot_pins (i : Nat) (x : Option Stream) : (s.setSlot i x).pins = s.pins := rfl
@[simp] theorem State.setSlot_control (i : Nat) (x : Option Stream) : (s.setSlot i x).control = s.control := rfl
@[simp] theorem State.setSlot_link (i : Nat) (x : Option Stream) : (s.setSlot i x).link = s.link := rfl
@[simp] theorem State.setSlot_surfaces (i : Nat) (x : Option Stream) : (s.setSlot i x).surfaces = s.surfaces := rfl
@[simp] theorem State.setSlot_pool (i : Nat) (x : Option Stream) : (s.setSlot i x).pool = s.pool := rfl
@[simp] theorem State.setSlot_engine (i : Nat) (x : Option Stream) : (s.setSlot i x).engine = s.engine := rfl
@[simp] theorem State.setSlot_commits (i : Nat) (x : Option Stream) : (s.setSlot i x).commits = s.commits := rfl
@[simp] theorem State.setSlot_colours (i : Nat) (x : Option Stream) : (s.setSlot i x).colours = s.colours := rfl
@[simp] theorem State.setSlot_timing (i : Nat) (x : Option Stream) : (s.setSlot i x).timing = s.timing := rfl
@[simp] theorem State.setSlot_scan (i : Nat) (x : Option Stream) : (s.setSlot i x).scan = s.scan := rfl
@[simp] theorem State.setSlot_streams (i : Nat) (x : Option Stream) :
    (s.setSlot i x).streams = s.streams.setIfInBounds i x := rfl
@[simp] theorem State.setSlot_surf (i : Nat) (x : Option Stream) (id : Nat) :
    (s.setSlot i x).surf id = s.surf id := rfl

@[simp] theorem State.tick_now : s.tick.now = s.now + 1 := rfl
@[simp] theorem State.tick_pending : s.tick.pending = s.pending := rfl
@[simp] theorem State.tick_pins : s.tick.pins = s.pins := rfl
@[simp] theorem State.tick_control : s.tick.control = s.control := rfl
@[simp] theorem State.tick_link : s.tick.link = s.link := rfl
@[simp] theorem State.tick_surfaces : s.tick.surfaces = s.surfaces := rfl
@[simp] theorem State.tick_pool : s.tick.pool = s.pool := rfl
@[simp] theorem State.tick_streams : s.tick.streams = s.streams := rfl
@[simp] theorem State.tick_engine : s.tick.engine = s.engine := rfl
@[simp] theorem State.tick_commits : s.tick.commits = s.commits := rfl
@[simp] theorem State.tick_colours : s.tick.colours = s.colours := rfl
@[simp] theorem State.tick_timing : s.tick.timing = s.timing := rfl
@[simp] theorem State.tick_scan : s.tick.scan = s.scan := rfl
@[simp] theorem State.tick_surf (id : Nat) : s.tick.surf id = s.surf id := rfl
@[simp] theorem State.tick_slotAt (i : Nat) : s.tick.slotAt i = s.slotAt i := rfl

/-! ### Reading back a record and a slot -/

/-- The record just set reads back; an id above 31 has none. -/
theorem State.surf_setSurf (id j : Nat) (f : Surface) :
    (s.setSurf id f).surf j = if id = j ∧ j < 32 then f else s.surf j := by
  simp only [State.surf, State.setSurf]
  by_cases hj : j < 32
  · by_cases h : id = j
    · subst h; simp [hj]
    · simp [h, hj]
  · simp [hj]

@[simp] theorem State.surf_setSurf_self {id : Nat} (h : id < 32) (f : Surface) :
    (s.setSurf id f).surf id = f := by simp [State.surf_setSurf, h]

@[simp] theorem State.surf_setSurf_ne {id j : Nat} (h : id ≠ j) (f : Surface) :
    (s.setSurf id f).surf j = s.surf j := by simp [State.surf_setSurf, h]

/-- The slot just set reads back; a number above 7 is no slot. -/
theorem State.slotAt_setSlot (i j : Nat) (x : Option Stream) :
    (s.setSlot i x).slotAt j = if i = j ∧ j < 8 then x else s.slotAt j := by
  simp only [State.slotAt, State.setSlot]
  by_cases hj : j < 8
  · by_cases h : i = j
    · subst h; simp [hj]
    · simp [h, hj]
  · simp [hj]

/-- An id above 31 reads as FREE. -/
theorem State.surf_of_le {id : Nat} (h : 32 ≤ id) : s.surf id = surfaceFree := by
  simp [State.surf, h]

/-- A number above 7 is no slot. -/
theorem State.slotAt_of_le {i : Nat} (h : 8 ≤ i) : s.slotAt i = none := by
  simp [State.slotAt, h]

end Sys2Proof.Machine
end

