-- ==== Sys2Proof/Laws/Encoding.lean ====
section
/-! SUPPORT. Laws/Encoding.lean: numbers and their bytes, the fields of a body, and characters. -/

namespace Sys2Proof.Machine

@[simp] theorem length_bytesOf (k n : Nat) : (bytesOf k n).length = k := by
  induction k generalizing n with
  | zero => rfl
  | succ k ih => simp [bytesOf, ih]

@[simp] theorem length_colourBytes (c : Rgb) : (colourBytes c).length = 3 := rfl

@[simp] theorem length_signedBytes (v : Int) : (signedBytes v).length = 2 := length_bytesOf 2 _

/-- The bytes of a number spell it, modulo the width of the field. -/
theorem numberOf_bytesOf (k n : Nat) : numberOf (bytesOf k n) = n % 256 ^ k := by
  induction k generalizing n with
  | zero => simp [bytesOf, numberOf, Nat.mod_one]
  | succ k ih =>
    simp only [bytesOf, numberOf, BitVec.toNat_ofNat, ih]
    have e : n % (256 * 256 ^ k) = n % 256 + 256 * (n / 256 % 256 ^ k) := Nat.mod_mul
    have e2 : (256 : Nat) ^ (k + 1) = 256 * 256 ^ k := Nat.pow_succ'
    rw [e2, e]

/-- A number that fits its field is spelled by its bytes. -/
theorem numberOf_bytesOf_of_lt {k n : Nat} (h : n < 256 ^ k) : numberOf (bytesOf k n) = n := by
  rw [numberOf_bytesOf, Nat.mod_eq_of_lt h]

/-- The bytes of a field are a function of its number. -/
theorem bytesOf_numberOf (bs : List Byte) : bytesOf bs.length (numberOf bs) = bs := by
  induction bs with
  | nil => rfl
  | cons b bs ih =>
    have h1 : (b.toNat + 256 * numberOf bs) / 256 = numberOf bs := by
      have := b.isLt; omega
    have h2 : BitVec.ofNat 8 (b.toNat + 256 * numberOf bs) = b := by
      apply BitVec.eq_of_toNat_eq; have := b.isLt; simp; omega
    simp only [List.length_cons, bytesOf, numberOf, h1, h2, ih]

/-- Fields behind a first part of a body stand at offsets counted from its end. -/
theorem fieldAt_append {xs ys : List Byte} {off n : Nat} (h : xs.length ≤ off) :
    fieldAt (xs ++ ys) off n = fieldAt ys (off - xs.length) n := by
  simp only [fieldAt]
  rw [List.drop_append, List.drop_eq_nil_of_le h, List.nil_append]

/-- The field at the start of a body. -/
theorem fieldAt_bytesOf (n v : Nat) (ys : List Byte) : fieldAt (bytesOf n v ++ ys) 0 n = v % 256 ^ n := by
  simp only [fieldAt, List.drop_zero]
  have : (bytesOf n v ++ ys).take n = bytesOf n v := by
    rw [List.take_append_of_le_length (by simp), List.take_of_length_le (by simp)]
  rw [this, numberOf_bytesOf]

/-- A field of a whole body. -/
theorem fieldAt_bytesOf_nil (n v : Nat) : fieldAt (bytesOf n v) 0 n = v % 256 ^ n := by
  simpa using fieldAt_bytesOf n v []

/-- The bytes behind the first part of a body. -/
theorem byteAt_append {xs ys : List Byte} {off : Nat} (h : xs.length ≤ off) :
    byteAt (xs ++ ys) off = byteAt ys (off - xs.length) := by
  simp only [byteAt, List.getD_eq_getElem?_getD]
  rw [List.getElem?_append_right h]

/-- A one-byte field is its byte. -/
theorem fieldAt_one (bs : List Byte) (off : Nat) : fieldAt bs off 1 = (byteAt bs off).toNat := by
  simp only [fieldAt, byteAt, List.getD_eq_getElem?_getD]
  by_cases h : off < bs.length
  · rw [List.drop_eq_getElem_cons h, List.take_succ_cons, List.take_zero]; simp [numberOf, h]
  · rw [List.drop_eq_nil_of_le (by omega)]; simp [numberOf, h]

@[simp] theorem colourOf_colourBytes (c : Rgb) : colourOf (colourBytes c) = c := rfl

/-- A colour at the head of a list of bytes. -/
theorem colourOf_take (c : Rgb) (ys : List Byte) : colourOf ((colourBytes c ++ ys).take 3) = c := rfl

/-- A value of a signed field. -/
theorem signedOf_signedBytes {v : Int} (h1 : -32768 ≤ v) (h2 : v ≤ 32767) :
    signedOf (signedBytes v) = v := by
  simp only [signedOf, signedBytes]
  rw [numberOf_bytesOf_of_lt (by have := (BitVec.ofInt 16 v).isLt; simpa using this)]
  rw [BitVec.ofNat_toNat, BitVec.setWidth_eq, BitVec.toInt_ofInt]
  rw [Int.bmod_eq_of_le] <;> omega

/-- The groups of a list of items of one length are the items. -/
theorem groupsOf_flatMap {α : Type} (k : Nat) (xs : List α) (f : α → List Byte)
    (h : ∀ x ∈ xs, (f x).length = k) : groupsOf k xs.length (xs.flatMap f) = xs.map f := by
  induction xs with
  | nil => rfl
  | cons x xs ih =>
    have hx : (f x).length = k := h x (by simp)
    simp only [List.length_cons, groupsOf, List.flatMap_cons, List.map_cons]
    rw [← hx, List.take_left', List.drop_left', hx, ih (fun y hy => h y (by simp [hy]))] <;> rfl

/-! ### Characters -/

@[simp] theorem characterByte_characterOf (b : Byte) : characterByte (characterOf b) = b := by
  apply BitVec.eq_of_toNat_eq
  have hb := b.isLt
  have h : (b.setWidth 10 <<< 1).toNat = 2 * b.toNat := by
    simp [BitVec.toNat_shiftLeft, Nat.shiftLeft_eq]; omega
  have h2 : (b.setWidth 10 <<< 1) &&& 0x200#10 = 0#10 := by
    revert b; decide
  simp only [characterByte, characterOf]
  rw [← BitVec.add_eq_or_of_and_eq_zero _ _ h2]
  simp only [BitVec.extractLsb'_toNat, BitVec.toNat_add, h, Nat.shiftRight_eq_div_pow]
  simp; omega

@[simp] theorem characterIsByte_characterOf (b : Byte) : characterIsByte (characterOf b) = true := by
  simp [characterIsByte, characterOf]

end Sys2Proof.Machine
end

