-- ==== Sys2Proof/Laws/Store.lean ====
section
/-! SUPPORT. Laws/Store.lean: the two reads after a write to a store, and that every write keeps the
canonical form. -/

namespace Sys2Proof.Machine

variable {α : Type} {d : Nat → α}

/-- An address that no entry has reads as the default. -/
theorem storeRead_eq_default {m : Store α} {a : Nat} (h : ∀ e ∈ m, e.1 ≠ a) :
    storeRead d m a = d a := by
  induction m with
  | nil => rfl
  | cons e m ih =>
    have h1 : e.1 ≠ a := h e (by simp)
    simp only [storeRead, if_neg h1]
    exact ih (fun x hx => h x (by simp [hx]))

/-- Entries that do not have the address are passed over. -/
theorem storeRead_append_left {m n : Store α} {a : Nat} (h : ∀ e ∈ m, e.1 ≠ a) :
    storeRead d (m ++ n) a = storeRead d n a := by
  induction m with
  | nil => rfl
  | cons e m ih =>
    have h1 : e.1 ≠ a := h e (by simp)
    simp only [List.cons_append, storeRead, if_neg h1]
    exact ih (fun x hx => h x (by simp [hx]))

/-- Entries behind the last that can have the address do not count. -/
theorem storeRead_append_right {m n : Store α} {a : Nat} (h : ∀ e ∈ n, e.1 ≠ a) :
    storeRead d (m ++ n) a = storeRead d m a := by
  induction m with
  | nil => simpa [storeRead] using storeRead_eq_default h
  | cons e m ih =>
    simp only [List.cons_append, storeRead]
    split
    · rfl
    · exact ih

/-- A filter that keeps the entries of an address keeps what it reads as. -/
theorem storeRead_filter {m : Store α} {a : Nat} {p : Nat × α → Bool}
    (h : ∀ e ∈ m, e.1 = a → p e = true) : storeRead d (m.filter p) a = storeRead d m a := by
  induction m with
  | nil => rfl
  | cons e m ih =>
    have ih' := ih (fun x hx => h x (by simp [hx]))
    by_cases he : e.1 = a
    · have hp := h e (by simp) he
      simp [hp, storeRead, he]
    · by_cases hp : p e = true
      · simp [hp, storeRead, he, ih']
      · simp [hp, storeRead, he, ih']

variable [DecidableEq α]

/-- The entries of a listing stand at its addresses and hold no default. -/
theorem mem_storeListing {a : Nat} {vs : List α} {e : Nat × α} (h : e ∈ storeListing d a vs) :
    a ≤ e.1 ∧ e.1 < a + vs.length ∧ e.2 ≠ d e.1 := by
  induction vs generalizing a with
  | nil => simp [storeListing] at h
  | cons v vs ih =>
    simp only [storeListing] at h
    split at h
    · obtain ⟨h1, h2, h3⟩ := ih h
      exact ⟨by omega, by simp only [List.length_cons]; omega, h3⟩
    · rename_i hv
      rcases List.mem_cons.1 h with rfl | h
      · exact ⟨Nat.le_refl _, by simp, hv⟩
      · obtain ⟨h1, h2, h3⟩ := ih h
        exact ⟨by omega, by simp only [List.length_cons]; omega, h3⟩

/-- A listing reads back the values it lists. -/
theorem storeRead_storeListing (a : Nat) (vs : List α) (i : Nat) (h : i < vs.length) :
    storeRead d (storeListing d a vs) (a + i) = vs[i] := by
  induction vs generalizing a i with
  | nil => simp at h
  | cons v vs ih =>
    cases i with
    | zero =>
      simp only [storeListing]
      split
      · rename_i hv
        rw [storeRead_eq_default (fun e he => by have := mem_storeListing he; omega)]
        simp [hv]
      · simp [storeRead]
    | succ i =>
      have h' : i < vs.length := by simpa using h
      have e : a + (i + 1) = a + 1 + i := by omega
      simp only [storeListing, List.getElem_cons_succ]
      split
      · rw [e]; exact ih (a + 1) i h'
      · simp only [storeRead]
        rw [if_neg (by omega), e]; exact ih (a + 1) i h'

/-- A read of a place just written gives the value written. -/
theorem storeRead_storeWrite_in (m : Store α) (a : Nat) (vs : List α) (i : Nat) (h : i < vs.length) :
    storeRead d (storeWrite d m a vs) (a + i) = vs[i] := by
  unfold storeWrite
  rw [storeRead_append_right (fun e he => by have := (List.mem_filter.1 he).2; simp at this; omega),
    storeRead_append_left (fun e he => by have := (List.mem_filter.1 he).2; simp at this; omega),
    storeRead_storeListing a vs i h]

/-- A write leaves every place outside it alone. -/
theorem storeRead_storeWrite_out (m : Store α) (a : Nat) (vs : List α) (b : Nat)
    (h : b < a ∨ a + vs.length ≤ b) :
    storeRead d (storeWrite d m a vs) b = storeRead d m b := by
  unfold storeWrite
  rcases h with h | h
  · rw [storeRead_append_right (fun e he => by have := (List.mem_filter.1 he).2; simp at this; omega),
      storeRead_append_right (fun e he => by have := mem_storeListing he; omega),
      storeRead_filter (fun e _ he => by simp; omega)]
  · rw [List.append_assoc,
      storeRead_append_left (fun e he => by have := (List.mem_filter.1 he).2; simp at this; omega),
      storeRead_append_left (fun e he => by have := mem_storeListing he; omega),
      storeRead_filter (fun e _ he => by simp; omega)]

/-- What one place of a store reads as after a write. -/
theorem storeRead_storeWrite (m : Store α) (a : Nat) (vs : List α) (b : Nat) :
    storeRead d (storeWrite d m a vs) b =
      if h : a ≤ b ∧ b < a + vs.length then vs[b - a]'(by omega) else storeRead d m b := by
  split
  · rename_i h
    have e : b = a + (b - a) := by omega
    have := storeRead_storeWrite_in (d := d) m a vs (b - a) (by omega)
    rw [← e] at this; exact this
  · exact storeRead_storeWrite_out m a vs b (by omega)

/-- What a tile's content state or one palette entry reads as after it alone is set. -/
@[simp] theorem storeRead_storeWrite_single (m : Store α) (a : Nat) (v : α) (b : Nat) :
    storeRead d (storeWrite d m a [v]) b = if b = a then v else storeRead d m b := by
  rw [storeRead_storeWrite]
  by_cases h : b = a
  · subst h; simp
  · have : ¬ (a ≤ b ∧ b < a + [v].length) := by simp; omega
    rw [dif_neg this, if_neg h]

theorem storeListing_pairwise (a : Nat) (vs : List α) :
    ((storeListing d a vs).map Prod.fst).Pairwise (· < ·) := by
  induction vs generalizing a with
  | nil => simp [storeListing]
  | cons v vs ih =>
    simp only [storeListing]
    split
    · exact ih (a + 1)
    · refine List.pairwise_cons.2 ⟨?_, ih (a + 1)⟩
      intro b hb
      obtain ⟨e, he, rfl⟩ := List.mem_map.1 hb
      have := mem_storeListing he; simp only; omega

/-- A write keeps the canonical form. -/
theorem StoreWf.write {m : Store α} (h : StoreWf d m) (a : Nat) (vs : List α) :
    StoreWf d (storeWrite d m a vs) := by
  refine ⟨?_, ?_⟩
  · simp only [storeWrite, List.map_append]
    rw [List.append_assoc]
    refine List.pairwise_append.2 ⟨?_, List.pairwise_append.2 ⟨storeListing_pairwise a vs, ?_, ?_⟩, ?_⟩
    · exact h.1.sublist (List.Sublist.map _ (List.filter_sublist (l := m)))
    · exact h.1.sublist (List.Sublist.map _ (List.filter_sublist (l := m)))
    · intro x hx y hy
      obtain ⟨e, he, rfl⟩ := List.mem_map.1 hx
      obtain ⟨f, hf, rfl⟩ := List.mem_map.1 hy
      have h1 := mem_storeListing he
      have h2 := (List.mem_filter.1 hf).2
      simp at h2; omega
    · intro x hx y hy
      obtain ⟨e, he, rfl⟩ := List.mem_map.1 hx
      have h1 := (List.mem_filter.1 he).2
      simp at h1
      rcases List.mem_append.1 hy with hy | hy
      · obtain ⟨f, hf, rfl⟩ := List.mem_map.1 hy
        have h2 := mem_storeListing hf; omega
      · obtain ⟨f, hf, rfl⟩ := List.mem_map.1 hy
        have h2 := (List.mem_filter.1 hf).2
        simp at h2; omega
  · intro e he
    simp only [storeWrite, List.mem_append] at he
    rcases he with (he | he) | he
    · exact h.2 e (List.mem_filter.1 he).1
    · exact (mem_storeListing he).2.2
    · exact h.2 e (List.mem_filter.1 he).1

/-! ### The pixel store -/

/-- The one write of the pixel store keeps its canonical form. -/
theorem Memory.write_wf {m : Memory} (h : m.wf) (a : Nat) (bs : List Byte) : (m.write a bs).wf :=
  StoreWf.write h a bs

/-- One byte of the pixel store after a write. -/
theorem Memory.read_write (m : Memory) (a : Nat) (bs : List Byte) (b : Nat) :
    (m.write a bs).read b =
      if h : a ≤ b ∧ b < a + bs.length then bs[b - a]'(by omega) else m.read b :=
  storeRead_storeWrite m a bs b

/-- A write leaves every byte outside it alone. -/
theorem Memory.read_write_out (m : Memory) (a : Nat) (bs : List Byte) (b : Nat)
    (h : b < a ∨ a + bs.length ≤ b) : (m.write a bs).read b = m.read b :=
  storeRead_storeWrite_out m a bs b h

end Sys2Proof.Machine
end

