-- ==== Sys2Proof/Laws/Tiles.lean ====
section
/-! SUPPORT. Laws/Tiles.lean: content states and cells after the operations of the tile pool, and the
blocks that those operations leave alone. -/

namespace Sys2Proof.Machine

/-! ### Content states -/

@[simp] theorem Pool.setContent_free (p : Pool) (t : Tile) (c : Content) :
    (p.setContent t c).free = p.free := rfl
@[simp] theorem Pool.setContent_pixels (p : Pool) (t : Tile) (c : Content) :
    (p.setContent t c).pixels = p.pixels := rfl

@[simp] theorem Pool.contentOf_setContent (p : Pool) (t : Tile) (c : Content) (x : Tile) :
    (p.setContent t c).contentOf x = if x = t then c else p.contentOf x := by
  simp [Pool.contentOf, Pool.setContent, Fin.ext_iff]

@[simp] theorem Pool.setContents_free (p : Pool) (ts : List Tile) (c : Content) :
    (p.setContents ts c).free = p.free := by
  induction ts generalizing p with
  | nil => rfl
  | cons t ts ih => exact ih (p.setContent t c)

@[simp] theorem Pool.setContents_pixels (p : Pool) (ts : List Tile) (c : Content) :
    (p.setContents ts c).pixels = p.pixels := by
  induction ts generalizing p with
  | nil => rfl
  | cons t ts ih => exact ih (p.setContent t c)

@[simp] theorem Pool.contentOf_setContents (p : Pool) (ts : List Tile) (c : Content) (x : Tile) :
    (p.setContents ts c).contentOf x = if x ∈ ts then c else p.contentOf x := by
  induction ts generalizing p with
  | nil => simp [Pool.setContents]
  | cons t ts ih =>
    have h := ih (p.setContent t c)
    simp only [Pool.setContents, List.foldl_cons] at *
    rw [h, Pool.contentOf_setContent]
    by_cases h1 : x ∈ ts <;> by_cases h2 : x = t <;> simp [h1, h2]

@[simp] theorem Pool.mem_staleIn (p : Pool) (ts : List Tile) (x : Tile) :
    x ∈ p.staleIn ts ↔ x ∈ ts ∧ p.contentOf x = .stale := by
  simp [Pool.staleIn]

/-- The content store keeps its canonical form. -/
theorem Pool.setContents_wf {p : Pool} (h : StoreWf contentDefault p.content) (ts : List Tile)
    (c : Content) : StoreWf contentDefault (p.setContents ts c).content := by
  induction ts generalizing p with
  | nil => exact h
  | cons t ts ih => exact ih (StoreWf.write h t.val [c])

/-- The cells and the free list do not count for a content state. -/
@[simp] theorem Pool.contentOf_mk (f g : List Tile) (c : Store Content) (m n : Memory) (x : Tile) :
    Pool.contentOf ⟨f, c, m⟩ x = Pool.contentOf ⟨g, c, n⟩ x ↔ True := by simp [Pool.contentOf]

/-! ### Cells -/

/-- A cell reads as it did when none of its three bytes is written. -/
theorem readCell_write_out {m : Memory} {a : Nat} {bs : List Byte} {t : Tile} {cell : Nat}
    (h : cellAddress t cell + 3 ≤ a ∨ a + bs.length ≤ cellAddress t cell) :
    readCell (m.write a bs) t cell = readCell m t cell := by
  simp only [readCell]
  rw [Memory.read_write_out _ _ _ _ (by omega), Memory.read_write_out _ _ _ _ (by omega),
    Memory.read_write_out _ _ _ _ (by omega)]

/-- A cell whose three bytes are written reads as they spell. -/
theorem readCell_write_in {m : Memory} {a : Nat} {bs : List Byte} {t : Tile} {cell : Nat}
    (h1 : a ≤ cellAddress t cell) (h2 : cellAddress t cell + 3 ≤ a + bs.length) :
    readCell (m.write a bs) t cell =
      ⟨bs[cellAddress t cell - a]'(by omega), bs[cellAddress t cell - a + 1]'(by omega),
        bs[cellAddress t cell - a + 2]'(by omega)⟩ := by
  simp only [readCell, Memory.read_write]
  rw [dif_pos (by omega), dif_pos (by omega), dif_pos (by omega)]
  have e1 : cellAddress t cell + 1 - a = cellAddress t cell - a + 1 := by omega
  have e2 : cellAddress t cell + 2 - a = cellAddress t cell - a + 2 := by omega
  simp only [e1, e2]

/-- Cells of different tiles stand apart. -/
theorem cellAddress_apart {x t : Tile} (h : x ≠ t) {c d : Nat} (hc : c < 64) (hd : d < 64) :
    cellAddress x c + 3 ≤ cellAddress t d ∨ cellAddress t d + 3 ≤ cellAddress x c := by
  have : x.val ≠ t.val := fun e => h (Fin.ext e)
  simp only [cellAddress, tileBytes]
  omega

/-- What a cell reads as after one cell is written. -/
theorem readCell_writeCell (m : Memory) (t x : Tile) (c d : Nat) (v : Rgb) (hc : c < 64)
    (hd : d < 64) :
    readCell (writeCell m t c v) x d = if x = t ∧ d = c then v else readCell m x d := by
  unfold writeCell
  split
  · rename_i h
    obtain ⟨rfl, rfl⟩ := h
    rw [readCell_write_in (Nat.le_refl _) (by simp)]
    simp [colourBytes]
  · rename_i h
    rw [readCell_write_out]
    simp only [length_colourBytes]
    by_cases hx : x = t
    · subst hx
      have : d ≠ c := fun e => h ⟨rfl, e⟩
      simp only [cellAddress]; omega
    · exact cellAddress_apart hx hd hc

/-- What a cell reads as after several cells of one tile are set to one colour. -/
theorem readCell_writeCells (m : Memory) (t x : Tile) (cs : List Nat) (d : Nat) (v : Rgb)
    (hc : ∀ c ∈ cs, c < 64) (hd : d < 64) :
    readCell (cs.foldl (fun m c => writeCell m t c v) m) x d =
      if x = t ∧ d ∈ cs then v else readCell m x d := by
  induction cs generalizing m with
  | nil => simp
  | cons c cs ih =>
    rw [List.foldl_cons, ih _ (fun c h => hc c (by simp [h])),
      readCell_writeCell m t x c d v (hc c (by simp)) hd]
    by_cases h1 : x = t <;> by_cases h2 : d ∈ cs <;> by_cases h3 : d = c <;> simp [h1, h2, h3]

theorem length_paint (c : Rgb) : ((List.replicate 64 (colourBytes c)).flatten).length = 192 := by
  simp

theorem getElem_paint (c : Rgb) (i j : Nat) (hi : i < 64) (hj : j < 3) :
    ((List.replicate 64 (colourBytes c)).flatten)[3 * i + j]? = (colourBytes c)[j]? := by
  have key : ∀ n i, i < n →
      ((List.replicate n (colourBytes c)).flatten)[3 * i + j]? = (colourBytes c)[j]? := by
    intro n
    induction n with
    | zero => intro i h; omega
    | succ n ih =>
      intro i h
      rw [List.replicate_succ, List.flatten_cons]
      cases i with
      | zero => rw [List.getElem?_append_left (by simp; omega)]; simp
      | succ i =>
        rw [List.getElem?_append_right (by simp; omega), length_colourBytes]
        rw [show 3 * (i + 1) + j - 3 = 3 * i + j by omega]
        exact ih i (by omega)
  exact key 64 i hi

/-- What a cell reads as after a tile is painted whole. -/
theorem readCell_paintTile (m : Memory) (t x : Tile) (d : Nat) (v : Rgb) (hd : d < 64) :
    readCell (paintTile m t v) x d = if x = t then v else readCell m x d := by
  unfold paintTile
  split
  · rename_i h
    subst h
    have hl := length_paint v
    rw [readCell_write_in (by simp [cellAddress]) (by rw [hl]; simp only [cellAddress, tileBytes]; omega)]
    have e : cellAddress x d - cellAddress x 0 = 3 * d := by simp [cellAddress]
    have g : ∀ j (hj : j < 3) h, ((List.replicate 64 (colourBytes v)).flatten)[3 * d + j]'h =
        (colourBytes v)[j] := by
      intro j hj h
      have := getElem_paint v d j hd hj
      rw [List.getElem?_eq_getElem h, List.getElem?_eq_getElem (by simpa using hj)] at this
      exact Option.some.inj this
    have g0 := g 0 (by omega)
    have g1 := g 1 (by omega)
    have g2 := g 2 (by omega)
    simp only [e]
    simp only [Nat.add_zero] at g0
    rw [g0 (by rw [hl]; omega), g1 (by rw [hl]; omega), g2 (by rw [hl]; omega)]; rfl
  · rename_i h
    rw [readCell_write_out]
    have hne : x.val ≠ t.val := fun e => h (Fin.ext e)
    rw [length_paint]
    simp only [cellAddress, tileBytes]; omega

theorem length_storeReadRun {α : Type} (d : Nat → α) (m : Store α) (a n : Nat) :
    (storeReadRun d m a n).length = n := by simp [storeReadRun]

/-- What a cell reads as after a tile is copied from another. -/
theorem readCell_copyTile (m : Memory) (src dst x : Tile) (d : Nat) (hd : d < 64) :
    readCell (copyTile m src dst) x d = if x = dst then readCell m src d else readCell m x d := by
  unfold copyTile
  split
  · rename_i h
    subst h
    rw [readCell_write_in (by simp [cellAddress])
      (by rw [length_storeReadRun]; simp only [cellAddress, tileBytes]; omega)]
    have e : cellAddress x d - cellAddress x 0 = 3 * d := by simp [cellAddress]
    simp only [e, storeReadRun, List.getElem_map, List.getElem_range]
    simp only [readCell, cellAddress, Memory.read, Nat.mul_zero, Nat.add_zero, Nat.add_assoc]
  · rename_i h
    rw [readCell_write_out]
    have hne : x.val ≠ dst.val := fun e => h (Fin.ext e)
    rw [length_storeReadRun]
    simp only [cellAddress, tileBytes]; omega

theorem cellOfPixel_lt (x y : Nat) : cellOfPixel x y < 64 := by
  simp only [cellOfPixel]; omega

theorem Rect.cellsIn_lt (r : Rect) (w pos : Nat) : ∀ c ∈ r.cellsIn w pos, c < 64 := by
  intro c h; simpa using (List.mem_filter.1 h).1

/-! ### A surface other than the one worked on -/

theorem State.surf_setSurf_of_lt {s : State} {id : Nat} (h : id < 32) (f : Surface) (j : Nat) :
    (s.setSurf id f).surf j = if j = id then f else s.surf j := by
  by_cases hj : j = id
  · subst hj; simp [h]
  · rw [if_neg hj, State.surf_setSurf_ne _ (Ne.symm hj)]

/-! ### What the operations of the tile pool leave alone -/

@[simp] theorem State.lowerStale_link (s : State) (id : Nat) :
    (s.lowerStale id).link = s.link := rfl
@[simp] theorem State.lowerStale_streams (s : State) (id : Nat) :
    (s.lowerStale id).streams = s.streams := rfl
@[simp] theorem State.lowerStale_commits (s : State) (id : Nat) :
    (s.lowerStale id).commits = s.commits := rfl
@[simp] theorem State.lowerStale_colours (s : State) (id : Nat) :
    (s.lowerStale id).colours = s.colours := rfl
@[simp] theorem State.lowerStale_timing (s : State) (id : Nat) :
    (s.lowerStale id).timing = s.timing := rfl
@[simp] theorem State.lowerStale_scan (s : State) (id : Nat) :
    (s.lowerStale id).scan = s.scan := rfl
@[simp] theorem State.lowerStale_control (s : State) (id : Nat) :
    (s.lowerStale id).control = s.control := rfl
@[simp] theorem State.lowerStale_pins (s : State) (id : Nat) :
    (s.lowerStale id).pins = s.pins := rfl
@[simp] theorem State.lowerStale_now (s : State) (id : Nat) :
    (s.lowerStale id).now = s.now := rfl
@[simp] theorem State.lowerStale_pending (s : State) (id : Nat) :
    (s.lowerStale id).pending = s.pending := rfl
@[simp] theorem State.lowerStale_engine (s : State) (id : Nat) :
    (s.lowerStale id).engine = s.engine := rfl

@[simp] theorem State.makeData_link (s : State) (id : Nat) (t : Tile) (m : Memory) :
    (s.makeData id t m).link = s.link := by unfold State.makeData; simp only []; split <;> rfl
@[simp] theorem State.makeData_streams (s : State) (id : Nat) (t : Tile) (m : Memory) :
    (s.makeData id t m).streams = s.streams := by unfold State.makeData; simp only []; split <;> rfl
@[simp] theorem State.makeData_commits (s : State) (id : Nat) (t : Tile) (m : Memory) :
    (s.makeData id t m).commits = s.commits := by unfold State.makeData; simp only []; split <;> rfl
@[simp] theorem State.makeData_colours (s : State) (id : Nat) (t : Tile) (m : Memory) :
    (s.makeData id t m).colours = s.colours := by unfold State.makeData; simp only []; split <;> rfl
@[simp] theorem State.makeData_timing (s : State) (id : Nat) (t : Tile) (m : Memory) :
    (s.makeData id t m).timing = s.timing := by unfold State.makeData; simp only []; split <;> rfl
@[simp] theorem State.makeData_scan (s : State) (id : Nat) (t : Tile) (m : Memory) :
    (s.makeData id t m).scan = s.scan := by unfold State.makeData; simp only []; split <;> rfl
@[simp] theorem State.makeData_control (s : State) (id : Nat) (t : Tile) (m : Memory) :
    (s.makeData id t m).control = s.control := by unfold State.makeData; simp only []; split <;> rfl
@[simp] theorem State.makeData_pins (s : State) (id : Nat) (t : Tile) (m : Memory) :
    (s.makeData id t m).pins = s.pins := by unfold State.makeData; simp only []; split <;> rfl
@[simp] theorem State.makeData_now (s : State) (id : Nat) (t : Tile) (m : Memory) :
    (s.makeData id t m).now = s.now := by unfold State.makeData; simp only []; split <;> rfl
@[simp] theorem State.makeData_pending (s : State) (id : Nat) (t : Tile) (m : Memory) :
    (s.makeData id t m).pending = s.pending := by unfold State.makeData; simp only []; split <;> rfl
@[simp] theorem State.makeData_engine (s : State) (id : Nat) (t : Tile) (m : Memory) :
    (s.makeData id t m).engine = s.engine := by unfold State.makeData; simp only []; split <;> rfl

@[simp] theorem State.resolveTile_link (s : State) (id pos : Nat) (t : Tile) :
    (s.resolveTile id pos t).link = s.link := by unfold State.resolveTile; split <;> simp
@[simp] theorem State.resolveTile_streams (s : State) (id pos : Nat) (t : Tile) :
    (s.resolveTile id pos t).streams = s.streams := by unfold State.resolveTile; split <;> simp
@[simp] theorem State.resolveTile_commits (s : State) (id pos : Nat) (t : Tile) :
    (s.resolveTile id pos t).commits = s.commits := by unfold State.resolveTile; split <;> simp
@[simp] theorem State.resolveTile_colours (s : State) (id pos : Nat) (t : Tile) :
    (s.resolveTile id pos t).colours = s.colours := by unfold State.resolveTile; split <;> simp
@[simp] theorem State.resolveTile_timing (s : State) (id pos : Nat) (t : Tile) :
    (s.resolveTile id pos t).timing = s.timing := by unfold State.resolveTile; split <;> simp
@[simp] theorem State.resolveTile_scan (s : State) (id pos : Nat) (t : Tile) :
    (s.resolveTile id pos t).scan = s.scan := by unfold State.resolveTile; split <;> simp
@[simp] theorem State.resolveTile_control (s : State) (id pos : Nat) (t : Tile) :
    (s.resolveTile id pos t).control = s.control := by unfold State.resolveTile; split <;> simp
@[simp] theorem State.resolveTile_pins (s : State) (id pos : Nat) (t : Tile) :
    (s.resolveTile id pos t).pins = s.pins := by unfold State.resolveTile; split <;> simp
@[simp] theorem State.resolveTile_now (s : State) (id pos : Nat) (t : Tile) :
    (s.resolveTile id pos t).now = s.now := by unfold State.resolveTile; split <;> simp
@[simp] theorem State.resolveTile_pending (s : State) (id pos : Nat) (t : Tile) :
    (s.resolveTile id pos t).pending = s.pending := by unfold State.resolveTile; split <;> simp
@[simp] theorem State.resolveTile_engine (s : State) (id pos : Nat) (t : Tile) :
    (s.resolveTile id pos t).engine = s.engine := by unfold State.resolveTile; split <;> simp

@[simp] theorem State.writePixel_link (s : State) (id x y : Nat) (c : Rgb) :
    (s.writePixel id x y c).link = s.link := by unfold State.writePixel; simp only []; split <;> simp
@[simp] theorem State.writePixel_streams (s : State) (id x y : Nat) (c : Rgb) :
    (s.writePixel id x y c).streams = s.streams := by unfold State.writePixel; simp only []; split <;> simp
@[simp] theorem State.writePixel_commits (s : State) (id x y : Nat) (c : Rgb) :
    (s.writePixel id x y c).commits = s.commits := by unfold State.writePixel; simp only []; split <;> simp
@[simp] theorem State.writePixel_colours (s : State) (id x y : Nat) (c : Rgb) :
    (s.writePixel id x y c).colours = s.colours := by unfold State.writePixel; simp only []; split <;> simp
@[simp] theorem State.writePixel_timing (s : State) (id x y : Nat) (c : Rgb) :
    (s.writePixel id x y c).timing = s.timing := by unfold State.writePixel; simp only []; split <;> simp
@[simp] theorem State.writePixel_scan (s : State) (id x y : Nat) (c : Rgb) :
    (s.writePixel id x y c).scan = s.scan := by unfold State.writePixel; simp only []; split <;> simp
@[simp] theorem State.writePixel_control (s : State) (id x y : Nat) (c : Rgb) :
    (s.writePixel id x y c).control = s.control := by unfold State.writePixel; simp only []; split <;> simp
@[simp] theorem State.writePixel_pins (s : State) (id x y : Nat) (c : Rgb) :
    (s.writePixel id x y c).pins = s.pins := by unfold State.writePixel; simp only []; split <;> simp
@[simp] theorem State.writePixel_now (s : State) (id x y : Nat) (c : Rgb) :
    (s.writePixel id x y c).now = s.now := by unfold State.writePixel; simp only []; split <;> simp
@[simp] theorem State.writePixel_pending (s : State) (id x y : Nat) (c : Rgb) :
    (s.writePixel id x y c).pending = s.pending := by unfold State.writePixel; simp only []; split <;> simp
@[simp] theorem State.writePixel_engine (s : State) (id x y : Nat) (c : Rgb) :
    (s.writePixel id x y c).engine = s.engine := by unfold State.writePixel; simp only []; split <;> simp

@[simp] theorem State.fillTile_link (s : State) (id pos : Nat) (full : Bool) (r : Rect) (c : Rgb) :
    (s.fillTile id pos full r c).link = s.link := by unfold State.fillTile; simp only []; split <;> (try split) <;> simp
@[simp] theorem State.fillTile_streams (s : State) (id pos : Nat) (full : Bool) (r : Rect) (c : Rgb) :
    (s.fillTile id pos full r c).streams = s.streams := by unfold State.fillTile; simp only []; split <;> (try split) <;> simp
@[simp] theorem State.fillTile_commits (s : State) (id pos : Nat) (full : Bool) (r : Rect) (c : Rgb) :
    (s.fillTile id pos full r c).commits = s.commits := by unfold State.fillTile; simp only []; split <;> (try split) <;> simp
@[simp] theorem State.fillTile_colours (s : State) (id pos : Nat) (full : Bool) (r : Rect) (c : Rgb) :
    (s.fillTile id pos full r c).colours = s.colours := by unfold State.fillTile; simp only []; split <;> (try split) <;> simp
@[simp] theorem State.fillTile_timing (s : State) (id pos : Nat) (full : Bool) (r : Rect) (c : Rgb) :
    (s.fillTile id pos full r c).timing = s.timing := by unfold State.fillTile; simp only []; split <;> (try split) <;> simp
@[simp] theorem State.fillTile_scan (s : State) (id pos : Nat) (full : Bool) (r : Rect) (c : Rgb) :
    (s.fillTile id pos full r c).scan = s.scan := by unfold State.fillTile; simp only []; split <;> (try split) <;> simp
@[simp] theorem State.fillTile_control (s : State) (id pos : Nat) (full : Bool) (r : Rect) (c : Rgb) :
    (s.fillTile id pos full r c).control = s.control := by unfold State.fillTile; simp only []; split <;> (try split) <;> simp
@[simp] theorem State.fillTile_pins (s : State) (id pos : Nat) (full : Bool) (r : Rect) (c : Rgb) :
    (s.fillTile id pos full r c).pins = s.pins := by unfold State.fillTile; simp only []; split <;> (try split) <;> simp
@[simp] theorem State.fillTile_now (s : State) (id pos : Nat) (full : Bool) (r : Rect) (c : Rgb) :
    (s.fillTile id pos full r c).now = s.now := by unfold State.fillTile; simp only []; split <;> (try split) <;> simp
@[simp] theorem State.fillTile_pending (s : State) (id pos : Nat) (full : Bool) (r : Rect) (c : Rgb) :
    (s.fillTile id pos full r c).pending = s.pending := by unfold State.fillTile; simp only []; split <;> (try split) <;> simp
@[simp] theorem State.fillTile_engine (s : State) (id pos : Nat) (full : Bool) (r : Rect) (c : Rgb) :
    (s.fillTile id pos full r c).engine = s.engine := by unfold State.fillTile; simp only []; split <;> (try split) <;> simp

@[simp] theorem State.completeCopy_link (s : State) (id pos : Nat) :
    (s.completeCopy id pos).link = s.link := by unfold State.completeCopy; simp only []; split <;> (try split) <;> (try split) <;> (try split) <;> simp
@[simp] theorem State.completeCopy_streams (s : State) (id pos : Nat) :
    (s.completeCopy id pos).streams = s.streams := by unfold State.completeCopy; simp only []; split <;> (try split) <;> (try split) <;> (try split) <;> simp
@[simp] theorem State.completeCopy_commits (s : State) (id pos : Nat) :
    (s.completeCopy id pos).commits = s.commits := by unfold State.completeCopy; simp only []; split <;> (try split) <;> (try split) <;> (try split) <;> simp
@[simp] theorem State.completeCopy_colours (s : State) (id pos : Nat) :
    (s.completeCopy id pos).colours = s.colours := by unfold State.completeCopy; simp only []; split <;> (try split) <;> (try split) <;> (try split) <;> simp
@[simp] theorem State.completeCopy_timing (s : State) (id pos : Nat) :
    (s.completeCopy id pos).timing = s.timing := by unfold State.completeCopy; simp only []; split <;> (try split) <;> (try split) <;> (try split) <;> simp
@[simp] theorem State.completeCopy_scan (s : State) (id pos : Nat) :
    (s.completeCopy id pos).scan = s.scan := by unfold State.completeCopy; simp only []; split <;> (try split) <;> (try split) <;> (try split) <;> simp
@[simp] theorem State.completeCopy_control (s : State) (id pos : Nat) :
    (s.completeCopy id pos).control = s.control := by unfold State.completeCopy; simp only []; split <;> (try split) <;> (try split) <;> (try split) <;> simp
@[simp] theorem State.completeCopy_pins (s : State) (id pos : Nat) :
    (s.completeCopy id pos).pins = s.pins := by unfold State.completeCopy; simp only []; split <;> (try split) <;> (try split) <;> (try split) <;> simp
@[simp] theorem State.completeCopy_now (s : State) (id pos : Nat) :
    (s.completeCopy id pos).now = s.now := by unfold State.completeCopy; simp only []; split <;> (try split) <;> (try split) <;> (try split) <;> simp
@[simp] theorem State.completeCopy_pending (s : State) (id pos : Nat) :
    (s.completeCopy id pos).pending = s.pending := by unfold State.completeCopy; simp only []; split <;> (try split) <;> (try split) <;> (try split) <;> simp
@[simp] theorem State.completeCopy_engine (s : State) (id pos : Nat) :
    (s.completeCopy id pos).engine = s.engine := by unfold State.completeCopy; simp only []; split <;> (try split) <;> (try split) <;> (try split) <;> simp

@[simp] theorem State.releaseSurface_link (s : State) (id : Nat) :
    (s.releaseSurface id).link = s.link := rfl
@[simp] theorem State.releaseSurface_streams (s : State) (id : Nat) :
    (s.releaseSurface id).streams = s.streams := rfl
@[simp] theorem State.releaseSurface_commits (s : State) (id : Nat) :
    (s.releaseSurface id).commits = s.commits := rfl
@[simp] theorem State.releaseSurface_colours (s : State) (id : Nat) :
    (s.releaseSurface id).colours = s.colours := rfl
@[simp] theorem State.releaseSurface_timing (s : State) (id : Nat) :
    (s.releaseSurface id).timing = s.timing := rfl
@[simp] theorem State.releaseSurface_scan (s : State) (id : Nat) :
    (s.releaseSurface id).scan = s.scan := rfl
@[simp] theorem State.releaseSurface_control (s : State) (id : Nat) :
    (s.releaseSurface id).control = s.control := rfl
@[simp] theorem State.releaseSurface_pins (s : State) (id : Nat) :
    (s.releaseSurface id).pins = s.pins := rfl
@[simp] theorem State.releaseSurface_now (s : State) (id : Nat) :
    (s.releaseSurface id).now = s.now := rfl
@[simp] theorem State.releaseSurface_pending (s : State) (id : Nat) :
    (s.releaseSurface id).pending = s.pending := rfl
@[simp] theorem State.releaseSurface_engine (s : State) (id : Nat) :
    (s.releaseSurface id).engine = s.engine := rfl

@[simp] theorem State.retireAll_link (s : State) :
    (s.retireAll).link = s.link := by
  unfold State.retireAll
  generalize surfaceIds = ids
  induction ids generalizing s with
  | nil => rfl
  | cons i ids ih => rw [List.foldl_cons, ih]; split <;> simp
@[simp] theorem State.retireAll_streams (s : State) :
    (s.retireAll).streams = s.streams := by
  unfold State.retireAll
  generalize surfaceIds = ids
  induction ids generalizing s with
  | nil => rfl
  | cons i ids ih => rw [List.foldl_cons, ih]; split <;> simp
@[simp] theorem State.retireAll_commits (s : State) :
    (s.retireAll).commits = s.commits := by
  unfold State.retireAll
  generalize surfaceIds = ids
  induction ids generalizing s with
  | nil => rfl
  | cons i ids ih => rw [List.foldl_cons, ih]; split <;> simp
@[simp] theorem State.retireAll_colours (s : State) :
    (s.retireAll).colours = s.colours := by
  unfold State.retireAll
  generalize surfaceIds = ids
  induction ids generalizing s with
  | nil => rfl
  | cons i ids ih => rw [List.foldl_cons, ih]; split <;> simp
@[simp] theorem State.retireAll_timing (s : State) :
    (s.retireAll).timing = s.timing := by
  unfold State.retireAll
  generalize surfaceIds = ids
  induction ids generalizing s with
  | nil => rfl
  | cons i ids ih => rw [List.foldl_cons, ih]; split <;> simp
@[simp] theorem State.retireAll_scan (s : State) :
    (s.retireAll).scan = s.scan := by
  unfold State.retireAll
  generalize surfaceIds = ids
  induction ids generalizing s with
  | nil => rfl
  | cons i ids ih => rw [List.foldl_cons, ih]; split <;> simp
@[simp] theorem State.retireAll_control (s : State) :
    (s.retireAll).control = s.control := by
  unfold State.retireAll
  generalize surfaceIds = ids
  induction ids generalizing s with
  | nil => rfl
  | cons i ids ih => rw [List.foldl_cons, ih]; split <;> simp
@[simp] theorem State.retireAll_pins (s : State) :
    (s.retireAll).pins = s.pins := by
  unfold State.retireAll
  generalize surfaceIds = ids
  induction ids generalizing s with
  | nil => rfl
  | cons i ids ih => rw [List.foldl_cons, ih]; split <;> simp
@[simp] theorem State.retireAll_now (s : State) :
    (s.retireAll).now = s.now := by
  unfold State.retireAll
  generalize surfaceIds = ids
  induction ids generalizing s with
  | nil => rfl
  | cons i ids ih => rw [List.foldl_cons, ih]; split <;> simp
@[simp] theorem State.retireAll_pending (s : State) :
    (s.retireAll).pending = s.pending := by
  unfold State.retireAll
  generalize surfaceIds = ids
  induction ids generalizing s with
  | nil => rfl
  | cons i ids ih => rw [List.foldl_cons, ih]; split <;> simp
@[simp] theorem State.retireAll_engine (s : State) :
    (s.retireAll).engine = s.engine := by
  unfold State.retireAll
  generalize surfaceIds = ids
  induction ids generalizing s with
  | nil => rfl
  | cons i ids ih => rw [List.foldl_cons, ih]; split <;> simp

@[simp] theorem State.markCarry_link (s : State) (id : Nat) :
    (s.markCarry id).link = s.link := rfl
@[simp] theorem State.markCarry_streams (s : State) (id : Nat) :
    (s.markCarry id).streams = s.streams := rfl
@[simp] theorem State.markCarry_commits (s : State) (id : Nat) :
    (s.markCarry id).commits = s.commits := rfl
@[simp] theorem State.markCarry_colours (s : State) (id : Nat) :
    (s.markCarry id).colours = s.colours := rfl
@[simp] theorem State.markCarry_timing (s : State) (id : Nat) :
    (s.markCarry id).timing = s.timing := rfl
@[simp] theorem State.markCarry_scan (s : State) (id : Nat) :
    (s.markCarry id).scan = s.scan := rfl
@[simp] theorem State.markCarry_control (s : State) (id : Nat) :
    (s.markCarry id).control = s.control := rfl
@[simp] theorem State.markCarry_pins (s : State) (id : Nat) :
    (s.markCarry id).pins = s.pins := rfl
@[simp] theorem State.markCarry_now (s : State) (id : Nat) :
    (s.markCarry id).now = s.now := rfl
@[simp] theorem State.markCarry_pending (s : State) (id : Nat) :
    (s.markCarry id).pending = s.pending := rfl
@[simp] theorem State.markCarry_engine (s : State) (id : Nat) :
    (s.markCarry id).engine = s.engine := rfl

@[simp] theorem State.arbitrate_surfaces (s : State) : s.arbitrate.surfaces = s.surfaces := by
  unfold State.arbitrate; split <;> rfl
@[simp] theorem State.arbitrate_surf (s : State) (id : Nat) : s.arbitrate.surf id = s.surf id := by
  unfold State.arbitrate; split <;> rfl
@[simp] theorem State.arbitrate_pool (s : State) : s.arbitrate.pool = s.pool := by
  unfold State.arbitrate; split <;> rfl
@[simp] theorem State.arbitrate_slotAt (s : State) (i : Nat) : s.arbitrate.slotAt i = s.slotAt i := by
  unfold State.arbitrate; split <;> rfl
@[simp] theorem State.arbitrate_jobs (s : State) : s.arbitrate.engine.jobs = s.engine.jobs := by
  unfold State.arbitrate; split <;> rfl
@[simp] theorem State.arbitrate_counter (s : State) :
    s.arbitrate.engine.counter = s.engine.counter := by
  unfold State.arbitrate; split <;> rfl
@[simp] theorem State.arbitrate_link (s : State) : s.arbitrate.link = s.link := by
  unfold State.arbitrate; split <;> rfl
@[simp] theorem State.arbitrate_streams (s : State) : s.arbitrate.streams = s.streams := by
  unfold State.arbitrate; split <;> rfl
@[simp] theorem State.arbitrate_commits (s : State) : s.arbitrate.commits = s.commits := by
  unfold State.arbitrate; split <;> rfl
@[simp] theorem State.arbitrate_colours (s : State) : s.arbitrate.colours = s.colours := by
  unfold State.arbitrate; split <;> rfl
@[simp] theorem State.arbitrate_timing (s : State) : s.arbitrate.timing = s.timing := by
  unfold State.arbitrate; split <;> rfl
@[simp] theorem State.arbitrate_scan (s : State) : s.arbitrate.scan = s.scan := by
  unfold State.arbitrate; split <;> rfl
@[simp] theorem State.arbitrate_control (s : State) : s.arbitrate.control = s.control := by
  unfold State.arbitrate; split <;> rfl
@[simp] theorem State.arbitrate_pins (s : State) : s.arbitrate.pins = s.pins := by
  unfold State.arbitrate; split <;> rfl
@[simp] theorem State.arbitrate_now (s : State) : s.arbitrate.now = s.now := by
  unfold State.arbitrate; split <;> rfl
@[simp] theorem State.arbitrate_pending (s : State) : s.arbitrate.pending = s.pending := by
  unfold State.arbitrate; split <;> rfl

/-- R87: the arbiter sets an idle engine to its choice and leaves a step under way alone. -/
theorem State.arbitrate_step (s : State) :
    s.arbitrate.engine.step = if s.engine.step = .idle then s.choice else s.engine.step := by
  unfold State.arbitrate
  by_cases h : s.engine.step = .idle <;> by_cases h2 : s.choice = .idle <;> simp [h, h2]

/-- The choice reads the stale counts, the back banks, the content states and the jobs alone. -/
theorem State.choice_congr {s t : State} (h1 : t.surfaces = s.surfaces) (h2 : t.pool = s.pool)
    (h3 : t.engine.jobs = s.engine.jobs) : t.choice = s.choice := by
  have hs : ∀ id, t.surf id = s.surf id := fun id => by simp [State.surf, h1]
  simp [State.choice, State.dueCopy, State.dueFill, State.sweepSurface, hs, h2, h3]

@[simp] theorem State.arbitrate_choice (s : State) : s.arbitrate.choice = s.choice :=
  State.choice_congr (by simp) (by simp) (by simp)

/-! ### Tiles given cells of their own (R30, R28) -/

/-- The stale count of the surface worked on, when its tile loses the state STALE. -/
theorem State.makeData_surf (s : State) (id : Nat) (t : Tile) (m : Memory) (j : Nat) :
    (s.makeData id t m).surf j =
      if s.pool.contentOf t = .stale ∧ j = id ∧ id < 32 then
        { s.surf id with stale := (s.surf id).stale - 1 }
      else s.surf j := by
  unfold State.makeData State.lowerStale
  by_cases h : s.pool.contentOf t = .stale
  · simp only [h, if_true, true_and]
    by_cases hid : id < 32
    · rw [State.surf_setSurf_of_lt hid]; simp [hid]
    · have : ¬ (j = id ∧ id < 32) := fun h => hid h.2
      rw [if_neg this]
      by_cases hj : j = id
      · subst hj; rw [State.surf_of_le _ (by omega), State.surf_of_le _ (by omega)]
      · rw [State.surf_setSurf_ne _ (Ne.symm hj)]; rfl
  · simp [h]

theorem State.makeData_contentOf (s : State) (id : Nat) (t : Tile) (m : Memory) (x : Tile) :
    (s.makeData id t m).pool.contentOf x = if x = t then .data else s.pool.contentOf x := by
  unfold State.makeData
  simp only []
  split <;> simp [Pool.contentOf, State.lowerStale, Pool.setContent, Fin.ext_iff]

@[simp] theorem State.makeData_pixels (s : State) (id : Nat) (t : Tile) (m : Memory) :
    (s.makeData id t m).pool.pixels = m := by
  unfold State.makeData; simp only []; split <;> rfl

@[simp] theorem State.makeData_free (s : State) (id : Nat) (t : Tile) (m : Memory) :
    (s.makeData id t m).pool.free = s.pool.free := by
  unfold State.makeData; simp only []; split <;> rfl

/-- R30: a tile resolved is DATA, and no other content state changes. -/
theorem State.resolveTile_contentOf (s : State) (id pos : Nat) (t x : Tile) :
    (s.resolveTile id pos t).pool.contentOf x = if x = t then .data else s.pool.contentOf x := by
  unfold State.resolveTile
  split
  · rename_i h; by_cases hx : x = t
    · subst hx; simp [h]
    · simp [hx]
  · exact State.makeData_contentOf ..
  · exact State.makeData_contentOf ..

@[simp] theorem State.resolveTile_free (s : State) (id pos : Nat) (t : Tile) :
    (s.resolveTile id pos t).pool.free = s.pool.free := by
  unfold State.resolveTile; split <;> simp

/-- R30: the resolved tile's cells read as the tile read before; no other tile's cells change. -/
theorem State.resolveTile_readCell (s : State) (id pos : Nat) (t x : Tile) (d : Nat) (hd : d < 64) :
    readCell (s.resolveTile id pos t).pool.pixels x d =
      if x = t then
        match s.pool.contentOf t with
        | .data => readCell s.pool.pixels t d
        | .blank => black
        | .stale =>
          match (s.surf id).front[pos]? with
          | none => black
          | some u => if s.pool.contentOf u = .data then readCell s.pool.pixels u d else black
      else readCell s.pool.pixels x d := by
  unfold State.resolveTile
  cases h : s.pool.contentOf t with
  | data =>
    by_cases hx : x = t
    · subst hx; simp
    · simp [hx]
  | blank => simp only []; rw [State.makeData_pixels, readCell_paintTile _ _ _ _ _ hd]
  | stale =>
    simp only []
    rw [State.makeData_pixels]
    unfold State.carryCells
    cases hu : (s.surf id).front[pos]? with
    | none => simp only []; rw [readCell_paintTile _ _ _ _ _ hd]
    | some u =>
      cases hc : s.pool.contentOf u <;> simp only [hc] <;>
        (first | rw [readCell_copyTile _ _ _ _ _ hd] | rw [readCell_paintTile _ _ _ _ _ hd]) <;>
        simp

/-- The record after a tile is resolved: its stale count at most. -/
theorem State.resolveTile_surf (s : State) (id pos : Nat) (t : Tile) (j : Nat) :
    (s.resolveTile id pos t).surf j =
      if s.pool.contentOf t = .stale ∧ j = id ∧ id < 32 then
        { s.surf id with stale := (s.surf id).stale - 1 }
      else s.surf j := by
  unfold State.resolveTile
  split <;> rename_i h
  · simp [h]
  · rw [State.makeData_surf]
  · rw [State.makeData_surf]

end Sys2Proof.Machine
end

