-- ==== Sys2Proof/Laws/Boundary.lean ====
section
/-! SUPPORT. Laws/Boundary.lean: the parts of a frame boundary, one at a time. -/

namespace Sys2Proof.Machine

/-- With no surface RETIRING, none is released. -/
theorem State.retireAll_of_none {s : State} (h : s.noneRetiring) : s.retireAll = s := by
  have key : ∀ ids : List Nat, (∀ id ∈ ids, id < 32) → ids.foldl
      (fun t id => if (t.surf id).state = .retiring then t.releaseSurface id else t) s = s := by
    intro ids
    induction ids with
    | nil => intro _; rfl
    | cons i ids ih =>
      intro hi
      rw [List.foldl_cons, if_neg (h i (hi i (by simp)))]
      exact ih (fun j hj => hi j (by simp [hj]))
  exact key surfaceIds (fun id hid => by simpa [surfaceIds] using hid)

/-- A step under way, or no work outstanding, leaves the arbiter nothing to choose. -/
theorem State.arbitrate_of_busy {s : State} (h : s.engineBusy) : s.arbitrate = s := by
  unfold State.arbitrate
  rw [if_neg]
  rintro ⟨h1, h2⟩
  rcases h with h | h
  · exact h h1
  · exact h2 h

@[simp] theorem State.offerAll_surfaces (s : State) (ns : List Notice) :
    (s.offerAll ns).surfaces = s.surfaces := rfl
@[simp] theorem State.offerAll_pool (s : State) (ns : List Notice) : (s.offerAll ns).pool = s.pool := rfl
@[simp] theorem State.offerAll_engine (s : State) (ns : List Notice) :
    (s.offerAll ns).engine = s.engine := rfl
@[simp] theorem State.offerAll_link (s : State) (ns : List Notice) :
    (s.offerAll ns).link = s.link.offerAll ns := rfl

/-- The FRAME notice of a boundary. -/
theorem State.frameNotice_eq (s : State) :
    s.frameNotice = if s.timing.interval.toNat ≠ 0 ∧
        s.timing.frame.toNat % s.timing.interval.toNat = 0 then
      [noticeFrame s.timing.frame s.timing.state] else [] := rfl

/-- The record after the application of a commit to one surface. -/
theorem State.applySurface_surf (s : State) (carry : Bool) (id : Nat) (h : id < 32) (j : Nat) :
    (s.applySurface carry id).surf j =
      if j = id then
        if carry && (s.surf id).swaps then
          { (s.surf id).applied with
            stale := tileCount (s.surf id).applied.width (s.surf id).applied.height }
        else (s.surf id).applied
      else s.surf j := by
  unfold State.applySurface State.markCarry
  split
  · simp only []
    rw [State.surf_setSurf_of_lt h, State.withPool_surf, State.surf_setSurf_of_lt h,
      State.surf_setSurf_of_lt h]
    by_cases hj : j = id <;> simp [hj]
  · rw [State.surf_setSurf_of_lt h]

/-- A queue whose head is not ready applies nothing. -/
theorem State.applyReady_of_not_ready {s : State} {n : Word} {c : Commit} (cs : List Commit)
    (h : s.ready n c = false) : State.applyReady n (c :: cs) s = (s, []) := by
  simp [State.applyReady, h]

@[simp] theorem State.applyReady_nil (s : State) (n : Word) :
    State.applyReady n [] s = (s, []) := rfl

/-- A boundary with no commit pending: nothing is applied, the RETIRING surfaces are released, a frame
begins, and the timing generator's notices are offered. -/
theorem State.boundary_of_empty {s : State} (sync : List Notice) (h : s.commits.queue = []) :
    s.boundary [] sync = ((s.countBoundary.retireAll.beginFrame).offerAll
      (sync ++ s.countBoundary.retireAll.beginFrame.frameNotice)).arbitrate := by
  have e : s.countBoundary.commits.queue = [] := h
  unfold State.boundary
  simp only [e, State.applyReady_nil, interleave_nil_left, List.append_nil]

end Sys2Proof.Machine
end

