-- ==== Sys2Proof/Laws/Applies.lean ====
section
/-! SUPPORT. Laws/Applies.lean: all that retiring surfaces, applying one commit and applying the
ready commits of a queue do, in the terms of the statements. -/

namespace Sys2Proof.Machine

/-- Every RETIRING surface of a list of ids is released: records, free list, content states and
cells. -/
theorem retire_fold (ids : List Nat) (hnd : ids.Nodup) (hlt : ∀ i ∈ ids, i < 32) : ∀ s : State,
   let t := ids.foldl
     (fun t id => if (t.surf id).state = .retiring then t.releaseSurface id else t) s
   (∀ id, t.surf id = if id ∈ ids ∧ (s.surf id).state = .retiring then surfaceFree else s.surf id) ∧
   t.pool.free = s.pool.free ++
     (ids.filter (fun id => (s.surf id).state == .retiring)).flatMap
       (fun id => (s.surf id).front ++ (s.surf id).back) ∧
   (∀ x : Tile, t.pool.contentOf x = if ∃ id ∈ ids, (s.surf id).state = .retiring ∧
       x ∈ (s.surf id).front ++ (s.surf id).back then .blank else s.pool.contentOf x) ∧
   t.pool.pixels = s.pool.pixels := by
  induction ids with
  | nil => intro s; simp
  | cons i ids ih =>
    intro s
    have hi : i < 32 := hlt i (by simp)
    obtain ⟨hn, hnd⟩ := List.nodup_cons.1 hnd
    have ih := ih hnd (fun j hj => hlt j (by simp [hj]))
    simp only [List.foldl_cons]
    by_cases hr : (s.surf i).state = .retiring
    · rw [if_pos hr]
      obtain ⟨h1, h2, h3, h4⟩ := ih (s.releaseSurface i)
      have hs : ∀ j, (s.releaseSurface i).surf j = if j = i then surfaceFree else s.surf j := by
        intro j; unfold State.releaseSurface; rw [State.surf_setSurf_of_lt hi]; rfl
      have hs' : ∀ j ∈ ids, (s.releaseSurface i).surf j = s.surf j := by
        intro j hj; rw [hs, if_neg]; rintro rfl; exact hn hj
      refine ⟨?_, ?_, ?_, ?_⟩
      · intro id
        rw [h1, hs]
        by_cases e : id = i
        · subst e; simp [hr, hn]
        · simp [e]
      · rw [h2]
        have : ids.filter (fun id => ((s.releaseSurface i).surf id).state == .retiring) =
            ids.filter (fun id => (s.surf id).state == .retiring) := by
          apply List.filter_congr; intro j hj; rw [hs' j hj]
        rw [this]
        have e2 : (ids.filter (fun id => (s.surf id).state == SurfaceState.retiring)).flatMap
              (fun id => ((s.releaseSurface i).surf id).front ++
                  ((s.releaseSurface i).surf id).back) =
            (ids.filter (fun id => (s.surf id).state == SurfaceState.retiring)).flatMap
              (fun id => (s.surf id).front ++ (s.surf id).back) := by
          apply List.flatMap_congr; intro j hj; rw [hs' j (List.mem_of_mem_filter hj)]
        rw [e2]
        simp [hr, State.releaseSurface]
      · intro x
        rw [h3]
        have e : (∃ id ∈ ids, ((s.releaseSurface i).surf id).state = .retiring ∧
            x ∈ ((s.releaseSurface i).surf id).front ++ ((s.releaseSurface i).surf id).back) ↔
            (∃ id ∈ ids, (s.surf id).state = .retiring ∧ x ∈ (s.surf id).front ++
            (s.surf id).back) := by
          constructor
          · rintro ⟨j, hj, a⟩; rw [hs' j hj] at a; exact ⟨j, hj, a⟩
          · rintro ⟨j, hj, a⟩; refine ⟨j, hj, ?_⟩; rw [hs' j hj]; exact a
        simp only [e]
        have e3 : (s.releaseSurface i).pool.contentOf x = if x ∈ (s.surf i).front ++
            (s.surf i).back then .blank else s.pool.contentOf x := by
          simp only [State.releaseSurface, State.setSurf_pool, State.withPool_pool,
              Pool.contentOf_setContents]
          rfl
        rw [e3]
        by_cases a : ∃ id ∈ ids, (s.surf id).state = .retiring ∧ x ∈ (s.surf id).front ++
            (s.surf id).back
        · rw [if_pos a, if_pos]; obtain ⟨j, hj, a⟩ := a; exact ⟨j, by simp [hj], a⟩
        · rw [if_neg a]
          by_cases b : x ∈ (s.surf i).front ++ (s.surf i).back
          · rw [if_pos b, if_pos]; exact ⟨i, by simp, hr, b⟩
          · rw [if_neg b, if_neg]; rintro ⟨j, hj, c⟩; rcases List.mem_cons.1 hj with rfl | hj
            · exact b c.2
            · exact a ⟨j, hj, c⟩
      · rw [h4]; simp [State.releaseSurface]
    · rw [if_neg hr]
      obtain ⟨h1, h2, h3, h4⟩ := ih s
      refine ⟨?_, ?_, ?_, h4⟩
      · intro id; rw [h1]
        by_cases e : id = i
        · subst e; simp [hr]
        · simp [e]
      · rw [h2]; simp [hr]
      · intro x; rw [h3]
        congr 1
        simp [hr]

/-- The ids are distinct. -/
theorem surfaceIds_nodup : surfaceIds.Nodup := List.nodup_range
/-- The ids are those below 32. -/
theorem surfaceIds_lt : ∀ i ∈ surfaceIds, i < 32 := fun i h => by simpa [surfaceIds] using h

/-- A counted boundary whose surfaces are retired and whose frame is begun,
with any link and engine. -/
theorem begins_of_counted (u v : State) (hv : v = u.countBoundary) (l e) :
   Begins u ((v.retireAll.beginFrame).withLink l |>.withEngine e) := by
  have hs : ∀ id, v.surf id = u.surf id := by intro id; subst hv; rfl
  have hp : v.pool = u.pool := by subst hv; rfl
  have h0 := retire_fold surfaceIds surfaceIds_nodup surfaceIds_lt v
  simp only [] at h0
  rw [← State.retireAll] at h0
  obtain ⟨h1, h2, h3, h4⟩ := h0
  have hb : v.retireAll.beginFrame.surfaces = v.retireAll.surfaces ∧
      v.retireAll.beginFrame.pool = v.retireAll.pool ∧ v.retireAll.beginFrame.timing = v.timing ∧
      v.retireAll.beginFrame.commits = v.commits ∧ v.retireAll.beginFrame.colours = v.colours ∧
      v.retireAll.beginFrame.streams = v.streams ∧ v.retireAll.beginFrame.control = v.control ∧
      v.retireAll.beginFrame.pins = v.pins ∧ v.retireAll.beginFrame.now = v.now ∧
      v.retireAll.beginFrame.pending = v.pending := by
    unfold State.beginFrame; split <;> simp
  obtain ⟨b1, b2, b3, b4, b5, b6, b7, b8, b9, b10⟩ := hb
  refine ⟨?_, ?_, ?_, ?_, ?_, ?_, ?_, ?_, ?_, ?_, ?_, ?_, ?_, ?_⟩
  · intro id hid
    have : (((v.retireAll.beginFrame).withLink l).withEngine e).surf id = v.retireAll.surf id := by
      simp [State.surf, b1]
    rw [this, h1, hs]
    simp [surfaceIds, hid]
  · simp only [State.withEngine_pool, State.withLink_pool, b2, h2, hp]
    simp only [hs]; rfl
  · intro x
    simp only [State.withEngine_pool, State.withLink_pool, b2, h3, hp]
    simp only [hs]; simp [surfaceIds]
  · simp [b2, h4, hp]
  · simp [b3]; subst hv; rfl
  · intro h
    simp only [State.withEngine_scan, State.withLink_scan]
    unfold State.beginFrame
    have ht : v.retireAll.timing.state = u.timing.state := by rw [State.retireAll_timing, hv]; rfl
    have hsc : v.retireAll.scan = u.scan := by rw [State.retireAll_scan, hv]; rfl
    rw [ht, hsc]
    rcases h with h | h
    · rw [h]; simp
    · rw [h]; cases u.timing.state <;> simp [h]
  · intro h g hg
    simp only [State.withEngine_scan, State.withLink_scan]
    unfold State.beginFrame
    have ht : v.retireAll.timing.state = u.timing.state := by rw [State.retireAll_timing, hv]; rfl
    have hsc : v.retireAll.scan = u.scan := by rw [State.retireAll_scan, hv]; rfl
    have hg' : u.scan.live = some g := hg
    rw [ht, hsc, hg']
    cases h2 : u.timing.state with
    | stopped => exact absurd h2 h
    | _ => simp [Canvas.lineSlot, hg']
  · simp [b4]; subst hv; rfl
  · simp [b5]; subst hv; rfl
  · simp [b6]; subst hv; rfl
  · simp [b7]; subst hv; rfl
  · simp [b8]; subst hv; rfl
  · simp [b9]; subst hv; rfl
  · simp [b10]; subst hv; rfl

/-- R50 on the record of a STAGED or LIVE surface. -/
theorem Surface.afterCommit_eq (f : Surface) (carry : Bool) (hd : f.defined) :
     (if carry && f.swaps then
      { f.applied with stale := tileCount f.applied.width f.applied.height }
     else f.applied) = f.afterCommit carry := by
  unfold Surface.swaps Surface.double Surface.applied Surface.afterCommit Surface.swaps
    Surface.double Attrs.apply Surface.swapBanks
  have h2 : (if f.state = .staged then SurfaceState.live else f.state) = .live := by
    rcases hd with h | h <;> simp [h]
  have e : decide (f.banks = 2) = (f.banks == 2) := by by_cases h : f.banks = 2 <;> simp [h]
  cases hb : (f.banks == 2) <;> cases hdirty : f.dirty <;> cases carry <;>
    rcases f.staged.key with _ | _ | _ <;> simp [h2, e, hb]

/-- The content states after carry marking. -/
theorem State.markCarry_contentOf (s : State) (id : Nat) (x : Tile) :
  (s.markCarry id).pool.contentOf x =
      if x ∈ (s.surf id).back then .stale else s.pool.contentOf x := by
  simp [State.markCarry]

/-- R50 on a list of surfaces: all that it does. -/
theorem applySurfaces_spec (carry : Bool) (ids : List Nat) (hnd : ids.Nodup)
    (hlt : ∀ i ∈ ids, i < 32) : ∀ s : State, (∀ i ∈ ids, (s.surf i).defined) →
   let t := ids.foldl (fun u id => u.applySurface carry id) s
   (∀ id, t.surf id = if id ∈ ids then (s.surf id).afterCommit carry else s.surf id) ∧
   (∀ x : Tile, t.pool.contentOf x = if carry = true ∧ ∃ id ∈ ids, (s.surf id).banks = 2 ∧
       (s.surf id).dirty = true ∧ x ∈ (s.surf id).front then .stale else s.pool.contentOf x) ∧
   t.pool.free = s.pool.free ∧ t.pool.pixels = s.pool.pixels ∧ t.commits = s.commits ∧
       t.scan = s.scan ∧ t.colours = s.colours ∧ t.timing = s.timing ∧ t.streams = s.streams ∧
       t.engine = s.engine ∧ t.link = s.link ∧ t.control = s.control ∧ t.pins = s.pins ∧
       t.now = s.now ∧ t.pending = s.pending := by
  induction ids with
  | nil => intro s _; simp
  | cons i ids ih =>
    intro s hdef
    have hi : i < 32 := hlt i (by simp)
    obtain ⟨hn, hnd⟩ := List.nodup_cons.1 hnd
    have hs : ∀ j, (s.applySurface carry i).surf j =
        if j = i then (s.surf i).afterCommit carry else s.surf j := by
      intro j; rw [State.applySurface_surf s carry i hi j,
          Surface.afterCommit_eq _ _ (hdef i (by simp))]
    have hs' : ∀ j ∈ ids, (s.applySurface carry i).surf j = s.surf j := by
      intro j hj; rw [hs, if_neg]; rintro rfl; exact hn hj
    obtain ⟨h1, h2, h3, h4, h5⟩ := ih hnd (fun j hj => hlt j (by simp [hj]))
        (s.applySurface carry i)
      (fun j hj => (hs' j hj).symm ▸ hdef j (by simp [hj]))
    have hc : ∀ x, (s.applySurface carry i).pool.contentOf x = if carry = true ∧
        (s.surf i).banks = 2 ∧ (s.surf i).dirty = true ∧
        x ∈ (s.surf i).front then .stale else s.pool.contentOf x := by
      intro x
      unfold State.applySurface
      by_cases hcs : (carry && (s.surf i).swaps) = true
      · simp only [hcs, if_true]
        rw [State.markCarry_contentOf, State.surf_setSurf_of_lt hi]
        simp only [if_true, State.setSurf_pool]
        simp only [Bool.and_eq_true, Surface.swaps, Surface.double, beq_iff_eq] at hcs
        have : (s.surf i).applied.back = (s.surf i).front := by
          simp [Surface.applied, Surface.swaps, Surface.double, hcs.2.1, hcs.2.2, Surface.swapBanks]
        rw [this]; simp [hcs.1, hcs.2.1, hcs.2.2]
      · have : ¬ (carry = true ∧ (s.surf i).banks = 2 ∧ (s.surf i).dirty = true ∧
            x ∈ (s.surf i).front) := by
          rintro ⟨a, b, c, d⟩; apply hcs; simp [a, Surface.swaps, Surface.double, b, c]
        rw [if_neg this]
        simp only [hcs, Bool.false_eq_true, if_false]; rfl
    have ho : (s.applySurface carry i).pool.free = s.pool.free ∧
        (s.applySurface carry i).pool.pixels = s.pool.pixels ∧
        (s.applySurface carry i).commits = s.commits ∧ (s.applySurface carry i).scan = s.scan ∧
        (s.applySurface carry i).colours = s.colours ∧ (s.applySurface carry i).timing = s.timing ∧
        (s.applySurface carry i).streams = s.streams ∧ (s.applySurface carry i).engine = s.engine ∧
        (s.applySurface carry i).link = s.link ∧ (s.applySurface carry i).control = s.control ∧
        (s.applySurface carry i).pins = s.pins ∧ (s.applySurface carry i).now = s.now ∧
        (s.applySurface carry i).pending = s.pending := by
      unfold State.applySurface State.markCarry; split <;> simp
    obtain ⟨o1, o2, o3, o4, o5, o6, o7, o8, o9, o10, o11, o12, o13⟩ := ho
    obtain ⟨g1, g2, g3, g4, g5, g6, g7, g8, g9, g10, g11⟩ := h5
    simp only [List.foldl_cons]
    refine ⟨?_, ?_, ?_, ?_, ?_, ?_, ?_, ?_, ?_, ?_, ?_, ?_, ?_, ?_, ?_⟩
    · intro id; rw [h1, hs]
      by_cases e : id = i
      · subst e; simp [hn]
      · simp [e]
    · intro x; rw [h2, hc]
      have e : (carry = true ∧ ∃ id ∈ ids, ((s.applySurface carry i).surf id).banks = 2 ∧
          ((s.applySurface carry i).surf id).dirty = true ∧
          x ∈ ((s.applySurface carry i).surf id).front) ↔ (carry = true ∧ ∃ id ∈ ids,
          (s.surf id).banks = 2 ∧ (s.surf id).dirty = true ∧ x ∈ (s.surf id).front) := by
        constructor
        · rintro ⟨a, j, hj, b⟩; rw [hs' j hj] at b; exact ⟨a, j, hj, b⟩
        · rintro ⟨a, j, hj, b⟩; refine ⟨a, j, hj, ?_⟩; rw [hs' j hj]; exact b
      simp only [e]
      by_cases a : carry = true ∧ ∃ id ∈ ids, (s.surf id).banks = 2 ∧ (s.surf id).dirty = true ∧
          x ∈ (s.surf id).front
      · rw [if_pos a, if_pos]; obtain ⟨a, j, hj, b⟩ := a; exact ⟨a, j, by simp [hj], b⟩
      · rw [if_neg a]
        by_cases b : carry = true ∧ (s.surf i).banks = 2 ∧ (s.surf i).dirty = true ∧
            x ∈ (s.surf i).front
        · rw [if_pos b, if_pos]; exact ⟨b.1, i, by simp, b.2⟩
        · rw [if_neg b, if_neg]; rintro ⟨c, j, hj, d⟩; rcases List.mem_cons.1 hj with rfl | hj
          · exact b ⟨c, d⟩
          · exact a ⟨c, j, hj, d⟩
    · rw [h3, o1]
    · rw [h4, o2]
    · rw [g1, o3]
    · rw [g2, o4]
    · rw [g3, o5]
    · rw [g4, o6]
    · rw [g5, o7]
    · rw [g6, o8]
    · rw [g7, o9]
    · rw [g8, o10]
    · rw [g9, o11]
    · rw [g10, o12]
    · rw [g11, o13]

/-- R51, as the statements spell it. -/
theorem applyCanvasFields_eq (s : Scan) : applyCanvasFields s.live s.staged = s.canvasAfter := rfl

/-- R125: when the clock changes. -/
theorem clockChanges_iff (s : State) : clockChanges s.scan.live s.scan.canvasAfter = true ↔
    ∀ g ∈ s.scan.live,
    (g.mode, g.period, g.edge) ≠
      (s.scan.canvasAfter.mode, s.scan.canvasAfter.period, s.scan.canvasAfter.edge) := by
  unfold clockChanges
  cases h : s.scan.live with
  | none => simp
  | some b => simp; tauto

/-- R125 for one commit. -/
theorem State.timingAfter_single (s : State)
    (c : Commit) : s.timingAfter [c] = if c.canvas then s.applyCanvas.timing else s.timing := by
  unfold State.timingAfter State.applyCanvas State.clockMoves
  rw [applyCanvasFields_eq]
  cases hc : c.canvas
  · simp [hc]
  · simp only [List.mem_singleton, exists_eq_left, hc, true_and, ← clockChanges_iff, if_true]
    split
    · simp [State.withTiming, State.withScan]; cases s.scan.canvasAfter.mode <;> rfl
    · rfl

/-- R36: the record keeps the last four. -/
theorem recordApplied_eq (r : List Applied) (e : Applied) : recordApplied r e = (r ++
    [e]).drop ((r ++ [e]).length - 4) := by
  unfold recordApplied
  simp only [List.length_append, List.length_singleton]
  split
  · rw [show r.length + 1 - 4 = 0 by omega]; rfl
  · rw [List.drop_append_of_le_length (by omega)]; congr 2

/-- R50, R51: all that the application of one commit does. -/
theorem State.applyCommit_applies (s : State) (c : Commit) (n : Word) (hnd : c.surfaces.Nodup)
    (h : ∀ id ∈ c.surfaces, id < 32 ∧ (s.surf id).defined) :
    Applies s (s.applyCommit c n) [c] n := by
  obtain ⟨h1, h2, h3, h4, h5, h6, h7, h8, h9, h10, h11, h12, h13, h14, h15⟩ :=
      applySurfaces_spec c.carry c.surfaces hnd (fun i hi => (h i hi).1) s (fun i hi => (h i hi).2)
  unfold State.applyCommit
  generalize c.surfaces.foldl (fun u id => u.applySurface c.carry id) s = t at *
  have hcan : ∀ t : State, t.scan = s.scan → t.timing = s.timing →
     let u := if c.canvas then t.applyCanvas else t
     u.scan = (if c.canvas = true then
         { s.scan with live := some s.scan.canvasAfter, staged := stagedCanvasNone }
       else s.scan) ∧ u.timing = s.timingAfter [c] ∧ u.surfaces = t.surfaces ∧ u.pool = t.pool ∧
           u.commits = t.commits ∧ u.colours = t.colours ∧ u.streams = t.streams ∧
           u.engine = t.engine ∧ u.link = t.link ∧ u.control = t.control ∧ u.pins = t.pins ∧
           u.now = t.now ∧ u.pending = t.pending := by
    intro t e1 e2
    rw [State.timingAfter_single]
    cases hc : c.canvas
    · simp [e1, e2]
    · simp only [if_true]
      unfold State.applyCanvas
      rw [e1, applyCanvasFields_eq]
      cases hcc : clockChanges s.scan.live s.scan.canvasAfter <;>
        simp [State.withTiming, State.withScan, e2, hcc]
  obtain ⟨c1, c2, c3, c4, c5, c6, c7, c8, c9, c10, c11, c12, c13⟩ := hcan t h6 h8
  clear hcan
  simp only []
  generalize (if c.canvas = true then t.applyCanvas else t) = u
    at c1 c2 c3 c4 c5 c6 c7 c8 c9 c10 c11 c12 c13 ⊢
  have hcur : let v := if c.curve then u.applyCurve else u
     v.colours = (if c.curve = true ∧ s.colours.modified = true then
         { s.colours with liveCurve := s.colours.stagedCurve, modified := false }
       else s.colours) ∧ v.scan = u.scan ∧ v.timing = u.timing ∧ v.surfaces = u.surfaces ∧
           v.pool = u.pool ∧ v.commits = u.commits ∧ v.streams = u.streams ∧ v.engine = u.engine ∧
           v.link = u.link ∧ v.control = u.control ∧ v.pins = u.pins ∧ v.now = u.now ∧
           v.pending = u.pending := by
    cases hc : c.curve
    · simp [c6, h7]
    · simp only [if_true, true_and]; unfold State.applyCurve; rw [c6, h7]
      cases hm : s.colours.modified
      · simp [c6, h7]
      · simp
  obtain ⟨d1, d2, d3, d4, d5, d6, d7, d8, d9, d10, d11, d12, d13⟩ := hcur
  simp only [] at d1 d2 d3 d4 d5 d6 d7 d8 d9 d10 d11 d12 d13 ⊢
  generalize (if c.curve = true then u.applyCurve else u) = v
    at d1 d2 d3 d4 d5 d6 d7 d8 d9 d10 d11 d12 d13 ⊢
  refine ⟨?_, ?_, ?_, ?_, ?_, ?_, ?_, ?_, ?_, ?_, ?_, ?_, ?_, ?_, ?_, ?_⟩
  · intro id hid
    have : (v.withCommits
        ⟨v.commits.queue.tail, recordApplied v.commits.applied ⟨c.tag, n⟩⟩).surf id =
        t.surf id := by
      simp [State.surf, d4, c3]
    rw [this, h1]
    by_cases e : id ∈ c.surfaces <;> simp [e]
  · intro x
    have : (v.withCommits ⟨v.commits.queue.tail, recordApplied v.commits.applied ⟨c.tag, n⟩⟩).pool =
        t.pool := by simp [d5, c4]
    rw [this, h2]; simp
  · simp [d5, c4, h3]
  · simp [d5, c4, h4]
  · simp [d6, c5, h5]
  · simp only [State.withCommits_commits, d6, c5, h5, recordApplied_eq]; simp
  · simp [d2, c1]
  · simp [d1]
  · simp [d3, c2]
  · simp [d7, c7, h9]
  · simp [d8, c8, h10]
  · simp [d9, c9, h11]
  · simp [d10, c10, h12]
  · simp [d11, c11, h13]
  · simp [d12, c12, h14]
  · simp [d13, c13, h15]

/-- What R44 says of a queue that its application needs. -/
structure Applicable (s : State) (q : List Commit) : Prop where
  nd : (q.flatMap (·.surfaces)).Nodup
  can : q.countP (·.canvas) ≤ 1
  cur : q.countP (·.curve) ≤ 1
  ok : ∀ c ∈ q, ∀ id ∈ c.surfaces, id < 32 ∧ (s.surf id).defined

/-- R46, as the statements spell it. -/
theorem State.ready_iff (s : State) (n : Word) (c : Commit) : s.ready n c = true ↔ s.isReady n c :=
    by
  unfold State.ready Surface.settled atOrPast
  unfold State.isReady State.owesNothing
  rw [Bool.and_eq_true]
  apply and_congr
  · simp
  · cases h : c.target <;> simp

/-- R52: the COMMIT-DONE notice of a ready commit. -/
theorem commitDone_eq (s : State) (n : Word) (c : Commit) (h : s.isReady n c) :
    commitDone s c n = s.doneNotice n c := by
  unfold commitDone noticeCommitDone State.doneNotice State.swapCount
    Surface.swaps Surface.double isPast atOrPast flagByte
  have e : (fun id => (s.surf id).banks == 2 && (s.surf id).dirty) =
      (fun id => decide ((s.surf id).banks = 2) && (s.surf id).dirty) := by
    funext id; by_cases h : (s.surf id).banks = 2 <;> simp [h]
  rw [e]
  congr 3
  cases ht : c.target with
  | none => simp
  | some t =>
    have := h.2 t ht
    simp only [Option.any_some, this, decide_true, Bool.true_and, Option.mem_some_iff]
    by_cases e : n = t
    · subst e; simp
    · simp [e, Ne.symm e]

/-- No commit of a list names the id. -/
theorem find_naming_none (cs : List Commit) (id : Nat) (h : ∀ c ∈ cs, id ∉ c.surfaces) :
    cs.find? (fun c => c.surfaces.contains id) = none := by
  rw [List.find?_eq_none]; intro c hc; simpa using h c hc

/-- Keeping the last four twice is keeping them once. -/
theorem drop_last_four_append (L es : List Applied) : (L.drop (L.length - 4) ++
    es).drop ((L.drop (L.length - 4) ++ es).length - 4) = (L ++ es).drop ((L ++ es).length - 4) :=
    by
  have h1 : (L.drop (L.length - 4) ++ es) = (L ++ es).drop (L.length - 4) := by
    rw [List.drop_append_of_le_length (by omega)]
  rw [h1, List.drop_drop]
  congr 1
  simp; omega

/-- R125: commits without CANVAS leave the timing generator. -/
theorem State.timingAfter_none (s : State) (cs : List Commit) (h : ∀ c ∈ cs, c.canvas = false) :
    s.timingAfter cs = s.timing := by
  unfold State.timingAfter; rw [if_neg]; rintro ⟨⟨c, hc, h2⟩, _⟩; simp [h c hc] at h2

/-- R125 asks of the commits only whether one carries CANVAS. -/
theorem State.timingAfter_congr (s : State) (cs ds : List Commit)
    (h : (∃ c ∈ cs, c.canvas = true) ↔ ∃ c ∈ ds, c.canvas = true) :
    s.timingAfter cs = s.timingAfter ds := by
  unfold State.timingAfter State.clockMoves
  simp only [h]

/-- R125 asks of the state only its canvases and its timing generator. -/
theorem State.timingAfter_eq_of_scan (s u : State) (cs : List Commit) (h1 : u.scan = s.scan)
    (h2 : u.timing = s.timing) : u.timingAfter cs = s.timingAfter cs := by
  unfold State.timingAfter State.clockMoves; rw [h1, h2]

section
variable {s u : State} {c : Commit} {q : List Commit} {n : Word}

/-- Once the head has been applied, the rest is applicable, its surfaces being as they were. -/
theorem Applicable.tail (hf : Applicable s (c :: q)) (ha : Applies s u [c] n) : (∀ d ∈ q,
    ∀ id ∈ d.surfaces, u.surf id = s.surf id) ∧ Applicable u q := by
  have h1 : ∀ d ∈ q, ∀ id ∈ d.surfaces, u.surf id = s.surf id := by
    intro d hd id hid
    have hlt := (hf.ok d (by simp [hd]) id hid).1
    rw [ha.1 id hlt]
    have : id ∉ c.surfaces := by
      intro hc
      have := hf.nd
      simp only [List.flatMap_cons, List.nodup_append] at this
      exact this.2.2 id hc id (List.mem_flatMap.2 ⟨d, hd, hid⟩) rfl
    simp [this]
  refine ⟨h1, ?_, ?_, ?_, ?_⟩
  · have := hf.nd; simp only [List.flatMap_cons, List.nodup_append] at this; exact this.2.1
  · have := hf.can; simp only [List.countP_cons] at this; omega
  · have := hf.cur; simp only [List.countP_cons] at this; omega
  · intro d hd id hid; rw [h1 d hd id hid]; exact hf.ok d (by simp [hd]) id hid

/-- A flag that at most one commit carries, and the head does, no other carries. -/
theorem flag_held_once (p : Commit → Bool) (h : (c :: q).countP p ≤ 1) (hc : p c = true) : ∀ d ∈ q,
    p d = false := by
  simp only [List.countP_cons, hc, if_true] at h
  have : q.countP p = 0 := by omega
  intro d hd; have := List.countP_eq_zero.1 this d hd; simpa using this

/-- The head applied, and then others of the queue. -/
theorem Applies.cons {v : State} {cs : List Commit} (hsub : ∀ d ∈ cs, d ∈ q)
    (hf : Applicable s (c :: q)) (ha : Applies s u [c] n) (hb : Applies u v cs n) :
    Applies s v (c :: cs) n := by
  obtain ⟨hs, hf'⟩ := hf.tail ha
  have hcan : c.canvas = true → ∀ d ∈ cs, d.canvas = false :=
      fun h d hd => flag_held_once (·.canvas) hf.can h d (hsub d hd)
  have hcur : c.curve = true → ∀ d ∈ cs, d.curve = false :=
      fun h d hd => flag_held_once (·.curve) hf.cur h d (hsub d hd)
  obtain ⟨a1, a2, a3, a4, a5, a6, a7, a8, a9, a10, a11, a12, a13, a14, a15, a16⟩ := ha
  obtain ⟨b1, b2, b3, b4, b5, b6, b7, b8, b9, b10, b11, b12, b13, b14, b15, b16⟩ := hb
  refine ⟨?_, ?_, ?_, ?_, ?_, ?_, ?_, ?_, ?_, ?_, ?_, ?_, ?_, ?_, ?_, ?_⟩
  · intro id hid
    rw [b1 id hid]
    by_cases hc : id ∈ c.surfaces
    · have : cs.find? (fun c => c.surfaces.contains id) = none := by
        apply find_naming_none; intro d hd hid'
        have := hf.nd
        simp only [List.flatMap_cons, List.nodup_append] at this
        exact this.2.2 id hc id (List.mem_flatMap.2 ⟨d, hsub d hd, hid'⟩) rfl
      rw [this, a1 id hid]; simp [hc]
    · have e : u.surf id = s.surf id := by rw [a1 id hid]; simp [hc]
      rw [e]; simp [hc]
  · intro x
    rw [b2, a2]
    have e : (∃ d ∈ cs, d.carry = true ∧ ∃ id ∈ d.surfaces, (u.surf id).banks = 2 ∧
        (u.surf id).dirty = true ∧ x ∈ (u.surf id).front) ↔ (∃ d ∈ cs, d.carry = true ∧
        ∃ id ∈ d.surfaces, (s.surf id).banks = 2 ∧ (s.surf id).dirty = true ∧
        x ∈ (s.surf id).front) := by
      constructor
      · rintro ⟨d, hd, h1, id, hid, h2⟩; rw [hs d (hsub d hd) id hid] at h2
        exact ⟨d, hd, h1, id, hid, h2⟩
      · rintro ⟨d, hd, h1, id, hid, h2⟩; refine ⟨d, hd, h1, id, hid, ?_⟩
        rw [hs d (hsub d hd) id hid]; exact h2
    simp only [e, List.mem_singleton, exists_eq_left, List.exists_mem_cons_iff]
    split
    · rename_i h; rw [if_pos (.inr h)]
    · rename_i h; split
      · rename_i h2; rw [if_pos (.inl h2)]
      · rename_i h2; rw [if_neg]; rintro (h3 | h3); exact h2 h3; exact h h3
  · rw [b3, a3]
  · rw [b4, a4]
  · rw [b5, a5]; simp
  · simp only [List.map_cons, List.map_nil] at a6
    simp only [] at a6 b6 ⊢
    rw [if_neg (by simp)] at a6 ⊢
    by_cases e : cs = []
    · subst e; rw [b6, if_pos rfl, a6]; simp
    · rw [b6, if_neg e, a6, drop_last_four_append]; simp
  · rw [b7]
    cases hc : c.canvas
    · have e : u.scan = s.scan := by rw [a7, if_neg (by simp [hc])]
      rw [e]; simp [hc]
    · rw [if_neg (by rintro ⟨d, hd, h⟩; simp [hcan hc d hd] at h), a7, if_pos (by simp [hc]),
          if_pos (by simp [hc])]
  · rw [b8]
    cases hc : c.curve
    · have e : u.colours = s.colours := by rw [a8, if_neg (by simp [hc])]
      rw [e]; simp [hc]
    · rw [if_neg (by rintro ⟨⟨d, hd, h⟩, _⟩; simp [hcur hc d hd] at h), a8]
      simp [hc]
  · rw [b9]
    cases hc : c.canvas
    · rw [State.timingAfter_eq_of_scan s u cs (by rw [a7, if_neg (by simp [hc])])
          (by rw [a9, State.timingAfter_none]; simp [hc])]
      apply State.timingAfter_congr; simp [hc]
    · rw [State.timingAfter_none u cs (hcan hc), a9]; apply State.timingAfter_congr; simp [hc]
  · rw [b10, a10]
  · rw [b11, a11]
  · rw [b12, a12]
  · rw [b13, a13]
  · rw [b14, a14]
  · rw [b15, a15]
  · rw [b16, a16]

/-- Readiness of the rest is the same before the head is applied. -/
theorem Applies.isReady_iff (hf : Applicable s (c :: q)) (ha : Applies s u [c] n) {d : Commit}
    (hd : d ∈ q) (m : Word) : u.isReady m d ↔ s.isReady m d := by
  have hs := (hf.tail ha).1 d hd
  unfold State.isReady State.owesNothing
  constructor
  · rintro ⟨h1, h2⟩; refine ⟨?_, h2⟩; intro id hid; rw [← hs id hid]; exact h1 id hid
  · rintro ⟨h1, h2⟩; refine ⟨?_, h2⟩; intro id hid; rw [hs id hid]; exact h1 id hid

/-- The notices of the rest are the same before the head is applied. -/
theorem Applies.doneNotice_eq (hf : Applicable s (c :: q)) (ha : Applies s u [c] n) {d : Commit}
    (hd : d ∈ q) (m : Word) : u.doneNotice m d = s.doneNotice m d := by
  have hs := (hf.tail ha).1 d hd
  unfold State.doneNotice
  have : d.surfaces.countP (fun id => decide ((u.surf id).banks = 2) && (u.surf id).dirty) =
      d.surfaces.countP (fun id => decide ((s.surf id).banks = 2) && (s.surf id).dirty) := by
    apply List.countP_congr; intro id hid; rw [hs id hid]
  rw [this]

/-- R125 for the rest, after the head. -/
theorem Applies.timingAfter_eq (hf : Applicable s (c :: q)) (ha : Applies s u [c] n)
    (ds : List Commit) (hsub : ∀ d ∈ ds, d ∈ q) : u.timingAfter ds = s.timingAfter (c :: ds) := by
  have hcan : c.canvas = true → ∀ d ∈ ds, d.canvas = false :=
      fun h d hd => flag_held_once (·.canvas) hf.can h d (hsub d hd)
  have a7 := ha.2.2.2.2.2.2.1
  have a9 := ha.2.2.2.2.2.2.2.2.1
  cases hc : c.canvas
  · rw [State.timingAfter_eq_of_scan s u ds (by rw [a7, if_neg (by simp [hc])])
        (by rw [a9, State.timingAfter_none]; simp [hc])]
    apply State.timingAfter_congr; simp [hc]
  · rw [State.timingAfter_none u ds (hcan hc), a9]; apply State.timingAfter_congr; simp [hc]
end

/-- No commit applied. -/
theorem Applies.refl (s : State) (n : Word) : Applies s s [] n := by
  refine ⟨?_, ?_, rfl, rfl, rfl, ?_, ?_, ?_, ?_, rfl, rfl, rfl, rfl, rfl, rfl, rfl⟩
  · intro id _; rfl
  · intro x; simp
  · simp
  · simp
  · simp
  · rw [State.timingAfter_none]; simp

/-- R46, R49: all that applying the ready commits of a queue does. -/
theorem State.applyReady_applies (n : Word) : ∀ (q : List Commit) (s : State),
    s.commits.queue = q → Applicable s q →
   ∃ cs rest, DueCommits s n cs rest ∧ Applies s (State.applyReady n q s).1 cs n ∧
       (State.applyReady n q s).2 = cs.map (s.doneNotice n) := by
  intro q
  induction q with
  | nil =>
    intro s hq hf
    exact ⟨[], [], ⟨by simp [hq], by simp, by intro k h1 h2; simp at h2, .inl rfl⟩,
        Applies.refl s n, rfl⟩
  | cons c q ih =>
    intro s hq hf
    by_cases hr : s.isReady n c
    · have hr' := (State.ready_iff s n c).2 hr
      have hndc : c.surfaces.Nodup := by
        have := hf.nd; simp only [List.flatMap_cons, List.nodup_append] at this; exact this.1
      have ha := State.applyCommit_applies s c n hndc (hf.ok c (by simp))
      simp only [State.applyReady, hr', if_true]
      have hu : (s.applyCommit c n).commits.queue = q := by rw [ha.2.2.2.2.1, hq]; rfl
      have ht : (s.applyCommit c n).timing = s.timingAfter [c] := ha.2.2.2.2.2.2.2.2.1
      by_cases hst : (s.applyCommit c n).timing.state = .stopped
      · rw [if_pos hst]
        refine ⟨[c], q, ⟨by simp [hq], by simpa using hr, by intro k h1 h2; simp at h2; omega,
            .inr (.inl ⟨by simp, by rw [← ht]; exact hst⟩)⟩, ha, ?_⟩
        simp [commitDone_eq s n c hr]
      · rw [if_neg hst]
        obtain ⟨cs, rest, hd, hap, hno⟩ := ih (s.applyCommit c n) hu (hf.tail ha).2
        have hq2 : q = cs ++ rest := by rw [← hd.1, hu]
        have hsub : ∀ d ∈ cs, d ∈ q := by intro d h; rw [hq2]; simp [h]
        refine ⟨c :: cs, rest, ⟨by rw [hq, hq2]; rfl, ?_, ?_, ?_⟩, Applies.cons hsub hf ha hap, ?_⟩
        · intro d hdm; rcases List.mem_cons.1 hdm with rfl | hdm
          · exact hr
          · exact (Applies.isReady_iff hf ha (hsub d hdm) n).1 (hd.2.1 d hdm)
        · intro k h1 h2
          obtain ⟨k, rfl⟩ : ∃ j, k = j + 1 := ⟨k - 1, by omega⟩
          simp only [List.length_cons] at h2
          rw [List.take_succ_cons,
            ← Applies.timingAfter_eq hf ha _ (fun d h => hsub d (List.mem_of_mem_take h))]
          rcases Nat.eq_zero_or_pos k with rfl | hk
          · rw [List.take_zero, State.timingAfter_none _ _ (by simp)]; exact hst
          · exact hd.2.2.1 k hk (by omega)
        · rcases hd.2.2.2 with h | h | ⟨d, hdm, h⟩
          · exact .inl h
          · refine .inr (.inl ⟨by simp, ?_⟩)
            rw [← Applies.timingAfter_eq hf ha cs hsub]; exact h.2
          · refine .inr (.inr ⟨d, hdm, ?_⟩)
            rw [← Applies.isReady_iff hf ha _ n]
            · exact h
            · rw [hq2]; simp [List.mem_of_mem_head? hdm]
        · simp only []
          rw [hno, commitDone_eq s n c hr]
          simp only [List.map_cons]
          congr 1
          apply List.map_congr_left
          intro d hdm; exact Applies.doneNotice_eq hf ha (hsub d hdm) n
    · have hr' : s.ready n c = false := by
        rw [← Bool.not_eq_true, State.ready_iff]; exact hr
      rw [State.applyReady_of_not_ready q hr']
      exact ⟨[], c :: q, ⟨by simp [hq], by simp, by intro k h1 h2; simp at h2,
          .inr (.inr ⟨c, by simp, hr⟩)⟩, Applies.refl s n, rfl⟩

end Sys2Proof.Machine
end

