-- ==== Sys2Proof/Laws/Moments.lean ====
section
/-! SUPPORT. Laws/Moments.lean: all that a frame boundary, the readiness of a head while STOPPED and
the completion of an engine step do, in the terms of the statements. -/

namespace Sys2Proof.Machine

/-- Notices of two lists in a free order: each list keeps its own. -/
theorem interleave_spec (pick : Nat → Bool) : ∀ (n i : Nat) (xs ys : List Notice),
   (interleave pick n i xs ys).Perm (xs ++ ys) ∧ xs.Sublist (interleave pick n i xs ys) ∧
       ys.Sublist (interleave pick n i xs ys) := by
  intro n
  induction n with
  | zero =>
    intro i xs ys; unfold interleave
    exact ⟨List.Perm.refl _, List.sublist_append_left _ _, List.sublist_append_right _ _⟩
  | succ n ih =>
    intro i xs ys
    cases xs with
    | nil =>
      unfold interleave
      exact ⟨List.Perm.refl _, List.sublist_append_left _ _, List.sublist_append_right _ _⟩
    | cons x xs =>
      cases ys with
      | nil =>
        unfold interleave
        exact ⟨List.Perm.refl _, List.sublist_append_left _ _, List.sublist_append_right _ _⟩
      | cons y ys =>
        unfold interleave
        split
        · obtain ⟨h1, h2, h3⟩ := ih (i + 1) (x :: xs) ys
          refine ⟨?_, h2.cons y, h3.cons_cons y⟩
          exact (h1.cons y).trans List.perm_middle.symm
        · obtain ⟨h1, h2, h3⟩ := ih (i + 1) xs (y :: ys)
          exact ⟨h1.cons x, h2.cons_cons x, h3.cons x⟩

/-- R87: all that the arbiter does. -/
theorem engineGoesOn_arbitrate (s t : State) (h : t.engine = s.engine) (hn : t.now = s.now) :
    EngineGoesOn s t.arbitrate := by
  refine ⟨?_, ?_, ?_, ?_⟩
  · simp [h]
  · simp [h]
  · intro hi; unfold State.arbitrate; rw [if_neg]; exact h; rw [h]; exact fun c => hi c.1
  · intro hi
    refine ⟨?_, ?_⟩
    · rw [State.arbitrate_step, State.arbitrate_choice]; simp [h, hi]
    · rw [State.arbitrate_choice]; unfold State.arbitrate
      by_cases hc : t.choice = .idle
      · rw [if_neg (by simp [hc]), if_pos hc, h]
      · rw [if_pos ⟨by rw [h]; exact hi, hc⟩, if_neg hc]; simp [hn]

/-- Counting a boundary and R125 do not meet. -/
theorem State.timingAfter_countBoundary (s : State) (cs : List Commit) :
    s.countBoundary.timingAfter cs =
    { s.timingAfter cs with
      frame := s.timing.frame + 1, lastBoundary := some s.now, fsy := true } := by
  unfold State.timingAfter State.clockMoves
  have : s.countBoundary.scan = s.scan := rfl
  rw [this]
  split <;> rfl

/-- R125 keeps the frame counter and the FRAME interval. -/
theorem State.timingAfter_frame (s : State) (cs : List Commit) :
    (s.timingAfter cs).frame = s.timing.frame ∧
      (s.timingAfter cs).interval = s.timing.interval := by
  unfold State.timingAfter; split <;> exact ⟨rfl, rfl⟩

/-- A boundary: the frame begun, then its notices in some order, then the arbiter. -/
theorem State.boundary_form (s : State) (lead sync : List Notice) :
    let r := State.applyReady (s.timing.frame + 1) s.commits.queue s.countBoundary
    ∃ g, g = r.1.retireAll.beginFrame ∧ ∃ pick m, s.boundary lead sync =
      (g.offerAll (interleave pick m 0 (lead ++ r.2) (sync ++ g.frameNotice))).arbitrate := by
  intro r
  refine ⟨_, rfl, Config.timingNoticeFirst s.now (s.timing.frame + 1),
    (lead ++ r.2).length + (sync ++ r.1.retireAll.beginFrame.frameNotice).length, ?_⟩
  have e1 : s.countBoundary.timing.frame = s.timing.frame + 1 := rfl
  have e2 : s.countBoundary.commits.queue = s.commits.queue := rfl
  unfold State.boundary
  simp only [e1, e2, r]

/-- Beginning a frame changes the scan engine alone. -/
theorem State.beginFrame_blocks (t : State) : t.beginFrame.timing = t.timing ∧
    t.beginFrame.engine = t.engine ∧ t.beginFrame.link = t.link ∧ t.beginFrame.now = t.now := by
    unfold State.beginFrame; split <;> simp

/-- The due commits are the same before the boundary is counted. -/
theorem DueCommits.of_countBoundary {s : State} {n cs rest}
    (hd : DueCommits s.countBoundary n cs rest) : DueCommits s n cs rest := by
      refine ⟨hd.1, ?_, ?_, ?_⟩
      · intro c hc; exact hd.2.1 c hc
      · intro k h1 h2; have := hd.2.2.1 k h1 h2; rw [State.timingAfter_countBoundary] at this
        exact this
      · rcases hd.2.2.2 with h | h | h
        · exact .inl h
        · refine .inr (.inl ⟨h.1, ?_⟩); have := h.2; rw [State.timingAfter_countBoundary] at this
          exact this
        · exact .inr (.inr h)

/-- Commits applied after the boundary was counted, as if before. -/
theorem Applies.of_countBoundary {s t : State} {n cs} (h : Applies s.countBoundary t cs n) :
    ∃ u, Applies s u cs n ∧ t = u.countBoundary := by
  obtain ⟨a1, a2, a3, a4, a5, a6, a7, a8, a9, a10, a11, a12, a13, a14, a15, a16⟩ := h
  refine ⟨{ t with timing := s.timingAfter cs }, ⟨a1, a2, a3, a4, a5, a6, a7, a8, rfl, a10, a11,
      a12, a13, a14, a15, a16⟩, ?_⟩
  have e1 : t.timing = { s.timingAfter cs with
      frame := (s.timingAfter cs).frame + 1, lastBoundary := some t.now, fsy := true } := by
          rw [a9, State.timingAfter_countBoundary, (State.timingAfter_frame s cs).1, a15]; rfl
  show t = { t with timing :=
    { s.timingAfter cs with
      frame := (s.timingAfter cs).frame + 1, lastBoundary := some t.now, fsy := true } }
  rw [← e1]

/-- R124: all that a frame boundary does. -/
theorem State.boundary_passes (s : State) (lead sync : List Notice)
    (hf : Applicable s s.commits.queue) :
    PassesBoundary s (s.boundary lead sync) lead sync ∧ EngineGoesOn s (s.boundary lead sync) := by
  obtain ⟨cs, rest, hd, ha, hno⟩ :=
      State.applyReady_applies (s.timing.frame + 1) s.commits.queue s.countBoundary rfl
      ⟨hf.nd, hf.can, hf.cur, hf.ok⟩
  obtain ⟨g, hg, pick, m, hb⟩ := State.boundary_form s lead sync
  generalize State.applyReady (s.timing.frame + 1) s.commits.queue s.countBoundary = r at *
  obtain ⟨u, hu, hv⟩ := Applies.of_countBoundary ha
  have b1 := State.beginFrame_blocks r.1.retireAll
  rw [← hg] at b1
  have g1 : g.timing = r.1.timing := by rw [b1.1, State.retireAll_timing]
  have g2 : g.engine = s.engine := by
      rw [b1.2.1, State.retireAll_engine]; exact ha.2.2.2.2.2.2.2.2.2.2.1
  have g3 : g.link = s.link := by
      rw [b1.2.2.1, State.retireAll_link]; exact ha.2.2.2.2.2.2.2.2.2.2.2.1
  have g4 : g.now = s.now := by
      rw [b1.2.2.2, State.retireAll_now]; exact ha.2.2.2.2.2.2.2.2.2.2.2.2.2.2.1
  have e9 : r.1.timing = _ := ha.2.2.2.2.2.2.2.2.1
  obtain ⟨i1, i2, i3⟩ := interleave_spec pick m 0 (lead ++ r.2) (sync ++ g.frameNotice)
  generalize interleave pick m 0 (lead ++ r.2) (sync ++ g.frameNotice) = o at *
  refine ⟨⟨cs, rest, u, o, DueCommits.of_countBoundary hd, hu, ?_, ?_⟩, ?_⟩
  · have hbg := begins_of_counted u r.1 hv (g.link.offerAll o) (s.boundary lead sync).engine
    rw [← hg] at hbg
    have e : ((g.withLink (g.link.offerAll o)).withEngine (s.boundary lead sync).engine) =
        s.boundary lead sync := by
      rw [hb]
      unfold State.arbitrate State.offerAll
      split <;> rfl
    rw [e] at hbg; exact hbg
  · have hclk : g.frameNotice = s.frameNoticeDue (s.timing.frame + 1)
        (s.boundary lead sync).timing.state := by
      have e3 : (s.boundary lead sync).timing = r.1.timing := by
          rw [hb, State.arbitrate_timing]; exact g1
      rw [State.frameNotice_eq, State.frameNoticeDue, e3, g1, e9, State.timingAfter_countBoundary]
      simp only [(State.timingAfter_frame s cs).2]; rfl
    rw [← hclk]
    have hno' : r.2 = cs.map (s.doneNotice (s.timing.frame + 1)) := hno
    rw [← hno']
    refine ⟨i1, i2, i3, ?_⟩
    rw [hb, State.arbitrate_link, State.offerAll_link, g3]
  · rw [hb]
    exact engineGoesOn_arbitrate _ _ g2 g4

/-- R44 makes the queue applicable. -/
theorem FreezeLaw.applicable {s : State} (h : FreezeLaw s) : Applicable s s.commits.queue :=
  ⟨h.2.1, h.2.2.1, h.2.2.2.1, fun c hc id hid => let x := h.2.2.2.2.1 c hc id hid; ⟨x.1, x.2.2⟩⟩

/-- The mode that a CANVAS head would make live. -/
theorem State.modeAfter_eq (s : State) : s.modeAfter = s.scan.canvasAfter.mode := rfl
/-- R48 while STOPPED. -/
theorem State.stoppedNumber_eq (s : State) : s.stoppedNumber = s.stoppedFrame := rfl

/-- R47: which head a STOPPED part applies. -/
theorem State.stoppedHead_iff (s : State) (c : Commit) : s.stoppedHead = some c ↔
    s.timing.state = .stopped ∧ s.commits.queue.head? = some c ∧ c.canvas = true ∧
    s.isReady s.stoppedFrame c := by
  unfold State.stoppedHead
  cases ht : s.timing.state <;>
    rcases hq : s.commits.queue with _ | ⟨d, q⟩ <;> simp [State.stoppedNumber_eq]
  rw [State.ready_iff]
  constructor
  · rintro ⟨⟨h1, h2⟩, rfl⟩; exact ⟨rfl, h1, h2⟩
  · rintro ⟨rfl, h1, h2⟩; exact ⟨⟨h1, h2⟩, rfl⟩

/-- R47: when a STOPPED part applies none. -/
theorem State.stoppedHead_none (s : State) : s.stoppedHead = none ↔ ¬ s.headIsDue := by
  constructor
  · rintro h ⟨h1, c, hc, h2, h3⟩
    have := (State.stoppedHead_iff s c).2 ⟨h1, hc, h2, h3⟩
    rw [h] at this; cases this
  · intro h
    cases hh : s.stoppedHead with
    | none => rfl
    | some c =>
      obtain ⟨h1, h2, h3, h4⟩ := (State.stoppedHead_iff s c).1 hh
      exact absurd ⟨h1, c, h2, h3, h4⟩ h

/-- With no due head, the notice is offered and nothing is applied. -/
theorem State.decideStopped_of_not_due (s : State) (lead) (h : ¬ s.headIsDue) :
    s.decideStopped lead = s.offerAll lead := by
  unfold State.decideStopped; rw [(State.stoppedHead_none s).2 h]

/-- The arbiter changes the engine alone, whatever the link. -/
theorem State.arbitrate_withLink (s : State) (l : Link) : (s.withLink l).arbitrate =
    { s with link := l, engine := ((s.withLink l).arbitrate).engine } := by
  unfold State.arbitrate; split <;> rfl

/-- R54, R55: all that the readiness of a due head does on a STOPPED part. -/
theorem State.decideStopped_applies (s : State) (lead) (hf : Applicable s s.commits.queue)
    (h : s.headIsDue) : AppliesStopped s (s.decideStopped lead) lead ∧
    EngineGoesOn s (s.decideStopped lead) := by
  obtain ⟨h1, c, hc, h3, h4⟩ := h
  have hh := (State.stoppedHead_iff s c).2 ⟨h1, hc, h3, h4⟩
  have hmem : c ∈ s.commits.queue := List.mem_of_mem_head? hc
  by_cases hm : s.scan.canvasAfter.mode = .off
  · have e : s.decideStopped lead = ((s.applyCommit c s.timing.frame).offerAll (lead ++
        [commitDone s c s.timing.frame])).arbitrate := by
      unfold State.decideStopped; rw [hh]; simp only [State.modeAfter_eq, hm, if_true]
    have hr : s.isReady s.timing.frame c := by
      have : s.stoppedFrame = s.timing.frame := by unfold State.stoppedFrame; rw [if_pos hm]
      rw [← this]; exact h4
    rw [commitDone_eq s _ c hr] at e
    have hndc : c.surfaces.Nodup := by
      have := hf.nd
      obtain ⟨l1, l2, hl⟩ := List.append_of_mem hmem
      rw [hl] at this
      simp only [List.flatMap_append, List.flatMap_cons, List.nodup_append] at this
      exact this.2.1.1
    have ha := State.applyCommit_applies s c s.timing.frame hndc (hf.ok c hmem)
    have hl : (s.applyCommit c s.timing.frame).link = s.link := ha.2.2.2.2.2.2.2.2.2.2.2.1
    have he : (s.applyCommit c s.timing.frame).engine = s.engine := ha.2.2.2.2.2.2.2.2.2.2.1
    have hn : (s.applyCommit c s.timing.frame).now = s.now := ha.2.2.2.2.2.2.2.2.2.2.2.2.2.2.1
    generalize s.applyCommit c s.timing.frame = u at *
    refine ⟨⟨fun _ => ⟨c, hc, u, ha, ?_⟩, fun hne => absurd hm hne⟩, ?_⟩
    · rw [e, ← hl]; exact State.arbitrate_withLink u _
    · rw [e]; exact engineGoesOn_arbitrate _ _ he hn
  · have e : s.decideStopped lead = s.boundary lead [] := by
      unfold State.decideStopped; rw [hh]; simp only [State.modeAfter_eq, hm, if_false]
    rw [e]
    obtain ⟨b1, b2⟩ := State.boundary_passes s lead [] hf
    exact ⟨⟨fun h => absurd h hm, fun _ => b1⟩, b2⟩

/-- Behind the arbiter, the arbiter has nothing to choose. -/
theorem EngineGoesOn.arbitrate_eq (s t : State) (h : EngineGoesOn s t) : t.arbitrate = t := by
  unfold State.arbitrate
  rw [if_neg]
  rintro ⟨h1, h2⟩
  by_cases hi : s.engine.step = .idle
  · have := (h.2.2.2 hi).1; rw [h1] at this; exact h2 this.symm
  · have := h.2.2.1 hi; rw [this] at h1; exact hi h1

/-- The arbiter makes no head due. -/
theorem State.arbitrate_headIsDue (s : State) : s.arbitrate.headIsDue ↔ s.headIsDue := by
  unfold State.headIsDue State.stoppedFrame State.isReady State.owesNothing; simp

/-- The arbiter changes the engine alone. -/
theorem State.arbitrate_eq (s : State) : s.arbitrate = { s with engine := s.arbitrate.engine } := by
  unfold State.arbitrate; split <;> rfl

/-- The application of commits has nothing to do with the engine. -/
theorem Applies.withEngine {s t : State} {cs n} (e e' : Engine)
    (h : Applies { s with engine := e } t cs n) :
    Applies { s with engine := e' } { t with engine := e' } cs n := by
  obtain ⟨a1, a2, a3, a4, a5, a6, a7, a8, a9, a10, a11, a12, a13, a14, a15, a16⟩ := h
  exact ⟨a1, a2, a3, a4, a5, a6, a7, a8, a9, a10, rfl, a12, a13, a14, a15, a16⟩

/-- Nor has it on a STOPPED part. -/
theorem AppliesStopped.withEngine {s t : State} {lead} (e e' : Engine)
    (h : AppliesStopped { s with engine := e } t lead) :
    AppliesStopped { s with engine := e' } t lead := by
  refine ⟨?_, ?_⟩
  · intro hm; obtain ⟨c, hc, u, ha, ht⟩ := h.1 hm
    exact ⟨c, hc, _, Applies.withEngine e e' ha, by rw [ht]; rfl⟩
  · intro hm; obtain ⟨cs, rest, u, o, hd, ha, hb, hl⟩ := h.2 hm
    exact ⟨cs, rest, _, o, hd, Applies.withEngine e e' ha, hb, hl⟩

/-- A completion that makes no head due: its notice, then the arbiter. -/
theorem State.afterStep_of_not_due (s : State) (d : Bool) (lead) (h : d = false ∨ ¬ s.headIsDue) :
    s.afterStep d lead = (s.offerAll lead).arbitrate := by
  unfold State.afterStep
  cases d
  · rfl
  · have h : ¬ s.headIsDue := by simpa using h
    simp [(State.stoppedHead_none s).2 h, State.decideStopped_of_not_due s lead h]

/-- A completion that makes a head due: all that it does. -/
theorem State.afterStep_applies (s : State) (lead) (hf : Applicable s s.commits.queue)
    (h : s.headIsDue) (hi : s.engine.step = .idle) :
    AppliesStopped s (s.afterStep true lead) lead ∧
    EngineGoesOnEither s (s.afterStep true lead) := by
  unfold State.afterStep
  simp only [if_true]
  split
  · have hd := (State.arbitrate_headIsDue s).2 h
    obtain ⟨h1, h2⟩ := State.decideStopped_applies s.arbitrate lead
      ⟨by simpa using hf.nd, by simpa using hf.can, by simpa using hf.cur, by simpa using hf.ok⟩ hd
    have h1' := h1
    rw [State.arbitrate_eq s] at h1'
    refine ⟨AppliesStopped.withEngine s.arbitrate.engine s.engine ?_, ?_⟩
    · convert h1' using 2; exact State.arbitrate_eq s
    · by_cases hc : s.choice = .idle
      · left
        have : s.arbitrate = s := by unfold State.arbitrate; rw [if_neg]; rintro ⟨_, b⟩; exact b hc
        rw [this] at h2 ⊢; exact h2
      · right
        have e : s.arbitrate.engine = { s.engine with step := s.choice, since := s.now } := by
          unfold State.arbitrate; rw [if_pos ⟨hi, hc⟩]; rfl
        refine ⟨hi, hc, ?_⟩
        rw [h2.2.2.1 (by rw [e]; exact hc), e]
  · obtain ⟨h1, h2⟩ := State.decideStopped_applies s lead hf h
    rw [EngineGoesOn.arbitrate_eq s _ h2]
    exact ⟨h1, .inl h2⟩

end Sys2Proof.Machine
end

