-- ==== Sys2Proof/Laws/ScanOut.lean ====
section
/-! SUPPORT. Laws/ScanOut.lean: what the pixel output bus does with a line, moment by moment. -/

namespace Sys2Proof.Machine

/-- How many clock gaps have run out: `x` of them, exactly when their sum has and the next one has
not. -/
theorem gapsOver_eq_iff (gap : Nat → Nat) (n i e x : Nat) (hx : x ≤ n) :
    gapsOver gap n i e = x ↔
      ((List.range x).map (fun k => gap (i + k))).sum ≤ e ∧
        (x < n → e < ((List.range (x + 1)).map (fun k => gap (i + k))).sum) := by
  induction n generalizing i e x with
  | zero => obtain rfl : x = 0 := by omega
            simp [gapsOver]
  | succ n ih =>
    have hs : ∀ m, ((List.range (m + 1)).map (fun k => gap (i + k))).sum =
        gap i + ((List.range m).map (fun k => gap (i + 1 + k))).sum := by
      intro m
      rw [List.range_succ_eq_map]
      simp [Function.comp_def, Nat.add_assoc, Nat.add_comm 1]
    unfold gapsOver
    show (if (gap i : Nat) ≤ e then gapsOver gap n (i + 1) (e - gap i) + 1 else 0) = x ↔ _
    rcases x with _ | x
    · split
      · rename_i h; simp; exact h
      · rename_i h; simp; omega
    · rw [hs, hs]
      split
      · rw [Nat.add_right_cancel_iff, ih (i + 1) (e - gap i) x (by omega)]
        omega
      · constructor
        · intro h; omega
        · rintro ⟨h1, h2⟩; omega

/-- How many gaps have run out never falls as time goes on. -/
theorem gapsOver_mono (gap : Nat → Nat) (n i : Nat) {e f : Nat} (h : e ≤ f) :
    gapsOver gap n i e ≤ gapsOver gap n i f := by
  induction n generalizing i e f with
  | zero => exact le_refl _
  | succ n ih =>
    unfold gapsOver
    by_cases h1 : (gap i : Nat) ≤ e
    · rw [if_pos h1, if_pos (le_trans h1 h)]
      exact Nat.succ_le_succ (ih (i + 1) (Nat.sub_le_sub_right h _))
    · rw [if_neg h1]
      exact Nat.zero_le _

/-- No more gaps run out than there are. -/
theorem gapsOver_le (gap : Nat → Nat) (n i e : Nat) : gapsOver gap n i e ≤ n := by
  induction n generalizing i e with
  | zero => exact le_refl _
  | succ n ih =>
    unfold gapsOver
    split
    · exact Nat.succ_le_succ (ih _ _)
    · exact Nat.zero_le _

/-- The bus never gives more of a line than its pixels and its rest. -/
theorem DrivenLine.given_le (d : DrivenLine) (ends : Time → Bool) (now : Time) :
    d.given ends now ≤ d.codes.length + 1 := by
  have h := gapsOver_le d.gap (d.codes.length + 1) 0 (now - d.since)
  unfold DrivenLine.given
  dsimp only
  split
  · exact le_refl _
  · split
    · exact max_le h (Nat.le_succ _)
    · exact h

/-- While the line is not being closed, what the bus has given follows the clock gaps alone. -/
theorem DrivenLine.given_of_open {d : DrivenLine} {ends : Time → Bool} {now : Time}
    (h1 : ends (now + 1) = false) (h2 : ends (now + 2) = false) :
    d.given ends now = gapsOver d.gap (d.codes.length + 1) 0 (now - d.since) := by
  simp [DrivenLine.given, h1, h2]

/-- R120: every pixel has been clocked two units of time before the slot ends. -/
theorem DrivenLine.length_le_given {d : DrivenLine} {ends : Time → Bool} {now : Time}
    (h : ends (now + 2) = true) : d.codes.length ≤ d.given ends now := by
  unfold DrivenLine.given
  dsimp only
  split
  · exact Nat.le_succ _
  · exact le_max_right _ _

/-- R121: the bus is at rest one unit of time before the slot ends. -/
theorem DrivenLine.given_of_ends {d : DrivenLine} {ends : Time → Bool} {now : Time}
    (h : ends (now + 1) = true) : d.given ends now = d.codes.length + 1 := by
  simp [DrivenLine.given, h]

/-- The slot of a line, once over, stays over. -/
theorem slotBegun_mono {l : LineSlot} {b k : Nat} {m n : Time} (h : m ≤ n)
    (hm : slotBegun l b m k = true) : slotBegun l b n k = true := by
  simp only [slotBegun, decide_eq_true_eq] at *
  exact le_trans hm (Nat.mul_le_mul_left _ h)

/-- The slot of the line being driven, by its numbers. -/
theorem State.slotEnds_eq {s : State} {l : LineSlot} {b : Time} (h1 : s.scan.slot = some l)
    (h2 : s.timing.lastBoundary = some b) (d : DrivenLine) (m : Time) :
    s.slotEnds d m = slotBegun l b m (d.line + 1) := by
  simp only [State.slotEnds, h1, h2]

/-- R121: with no line being driven, the bus is at rest. -/
theorem State.busLevels_of_none {s : State} (h : s.scan.driven = none) :
    s.busEvents = [] ∧ s.busLevels = busAtRest := by
  simp only [State.busEvents, State.busLevels, h, and_self]

end Sys2Proof.Machine
end

