-- ==== Sys2Proof/Laws/Serve.lean ====
section
/-! SUPPORT. Laws/Serve.lean: what executing a request in its turn comes to. -/

namespace Sys2Proof.Machine

/-- The frame the executor takes: it stands first among the WAITING frames of a RUNNING part whose
executor is IDLE. -/
theorem State.nextRequest_eq_some {s : State} {f : Request} :
    s.nextRequest = some f ↔
      s.control.state = .running ∧ s.link.executing = none ∧ s.link.inbound.head? = some f := by
  unfold State.nextRequest
  rcases hc : s.control.state <;> rcases he : s.link.executing with _ | e <;>
    rcases hi : s.link.inbound with _ | ⟨g, gs⟩ <;> simp

theorem Asks.next {s : State} {f : Request} {k : Byte} {body : List Byte} (h : Asks s f k body) :
    s.nextRequest = some f :=
  State.nextRequest_eq_some.2 ⟨h.1, h.2.1, h.2.2.1⟩

/-- Taking the frame and queueing its reply is answering it. -/
theorem State.take_queueReply (s : State) (f : Request) (a : Answer) :
    s.takeRequest.queueReply f (replyTo f a) = s.answer f a.status a.body := rfl

/-- A request in its turn whose length is right is handed to its block. -/
theorem State.serve_of_asks {s : State} {f : Request} {k : Byte} {body : List Byte}
    (h : Asks s f k body) (hl : lengthOk k body = true)
    (handle : List Byte → State → State × Answer) :
    s.serve k handle =
      (handle body s.takeRequest).1.queueReply f (replyTo f (handle body s.takeRequest).2) := by
  obtain ⟨-, -, -, hk, hb⟩ := id h
  subst hb hk
  simp [State.serve, h.next, hl]

/-- A body of the wrong length is refused. -/
theorem State.serve_badLength {s : State} {f : Request} {k : Byte} {body : List Byte}
    (h : Asks s f k body) (hl : lengthOk k body = false)
    (handle : List Byte → State → State × Answer) :
    s.serve k handle = s.answer f .badLength [] := by
  obtain ⟨-, -, -, hk, hb⟩ := id h
  subst hb hk
  simp [State.serve, h.next, hl, State.take_queueReply]

/-- A request that its block refuses, or answers without an effect, changes the link alone. -/
theorem State.serve_answer {s : State} {f : Request} {k : Byte} {body : List Byte}
    (h : Asks s f k body) (hl : lengthOk k body = true)
    {handle : List Byte → State → State × Answer} {st : Status} {b : List Byte}
    (hh : handle body s.takeRequest = (s.takeRequest, ⟨st, b⟩)) :
    s.serve k handle = s.answer f st b := by
  rw [State.serve_of_asks h hl, hh]; rfl

/-- What a frame of another block's KIND, or no frame, comes to. -/
theorem State.serve_other {s : State} {k : Byte} (handle : List Byte → State → State × Answer)
    (h : ∀ f, s.nextRequest = some f → f.kind ≠ k) : s.serve k handle = s := by
  unfold State.serve
  split
  · rfl
  · rename_i f hf; rw [if_neg (h f hf)]

/-- Everything that `serve` can do. -/
theorem State.serve_cases (s : State) (k : Byte) (handle : List Byte → State → State × Answer) :
    (∃ f, s.nextRequest = some f ∧ f.kind = k ∧ lengthOk k f.body = true ∧
      s.serve k handle =
        (handle f.body s.takeRequest).1.queueReply f (replyTo f (handle f.body s.takeRequest).2)) ∨
    (∃ f, s.nextRequest = some f ∧ f.kind = k ∧ lengthOk k f.body = false ∧
      s.serve k handle = s.answer f .badLength []) ∨
    s.serve k handle = s := by
  cases hn : s.nextRequest with
  | none => exact .inr (.inr (State.serve_other handle (by simp [hn])))
  | some f =>
    by_cases hk : f.kind = k
    · have ha : Asks s f k f.body :=
        let ⟨h1, h2, h3⟩ := State.nextRequest_eq_some.1 hn; ⟨h1, h2, h3, hk, rfl⟩
      cases hl : lengthOk k f.body with
      | true => exact .inl ⟨f, rfl, hk, hl, State.serve_of_asks ha hl handle⟩
      | false => exact .inr (.inl ⟨f, rfl, hk, hl, State.serve_badLength ha hl handle⟩)
    · exact .inr (.inr (State.serve_other handle (by simp [hn, hk])))

/-! ### The parts of a state whose request has been taken -/

@[simp] theorem State.takeRequest_surf (s : State) (id : Nat) : s.takeRequest.surf id = s.surf id := rfl
@[simp] theorem State.takeRequest_surfaces (s : State) : s.takeRequest.surfaces = s.surfaces := rfl
@[simp] theorem State.takeRequest_slotAt (s : State) (i : Nat) : s.takeRequest.slotAt i = s.slotAt i := rfl
@[simp] theorem State.takeRequest_streams (s : State) : s.takeRequest.streams = s.streams := rfl
@[simp] theorem State.takeRequest_pool (s : State) : s.takeRequest.pool = s.pool := rfl
@[simp] theorem State.takeRequest_engine (s : State) : s.takeRequest.engine = s.engine := rfl
@[simp] theorem State.takeRequest_commits (s : State) : s.takeRequest.commits = s.commits := rfl
@[simp] theorem State.takeRequest_colours (s : State) : s.takeRequest.colours = s.colours := rfl
@[simp] theorem State.takeRequest_timing (s : State) : s.takeRequest.timing = s.timing := rfl
@[simp] theorem State.takeRequest_scan (s : State) : s.takeRequest.scan = s.scan := rfl
@[simp] theorem State.takeRequest_control (s : State) : s.takeRequest.control = s.control := rfl
@[simp] theorem State.takeRequest_pins (s : State) : s.takeRequest.pins = s.pins := rfl
@[simp] theorem State.takeRequest_now (s : State) : s.takeRequest.now = s.now := rfl
@[simp] theorem State.takeRequest_pending (s : State) : s.takeRequest.pending = s.pending := rfl
theorem State.takeRequest_link (s : State) :
    s.takeRequest.link = { s.link with inbound := s.link.inbound.tail } := rfl

/-- R4: what the surface checks answer. -/
theorem surfaceCheck_eq_none {s : State} {id : Nat} :
    surfaceCheck s id = none ↔ id ≤ 31 ∧ (s.surf id).defined := by
  unfold surfaceCheck
  split
  · simp; omega
  · rename_i h
    rcases hs : (s.surf id).state <;> simp [Surface.defined, hs] <;> omega

end Sys2Proof.Machine
end

