-- ==== Sys2Proof/Laws/Step.lean ====
section
/-! SUPPORT. Laws/Step.lean: no command and no step stops the part. -/

namespace Sys2Proof.Machine

/-- Every command, in every state, is answered with a next state: no fault and no refusal. -/
theorem exec_next (i : Instr) (s : State) : ∃ t, exec i s = .next t := by
  cases i <;> exact ⟨_, rfl⟩

/-- Every step is answered with a next state. -/
theorem step_next (s : State) : ∃ t, step s = .next t := by
  unfold step
  split
  · exact exec_next _ _
  · split
    · exact exec_next _ _
    · exact ⟨_, rfl⟩

/-- With no command waiting and no event due, time passes. -/
theorem step_idle {s : State} (h : s.pending = []) (hd : s.dueEvent = none) :
    step s = .next s.tick := by
  simp [step, h, hd]

/-- With no command waiting, the first event due is taken. -/
theorem step_due {s : State} {i : Instr} (h : s.pending = []) (hd : s.dueEvent = some i) :
    step s = exec i s := by
  simp [step, h, hd]

/-- Each of the part's own events that a step takes is one that is due. -/
theorem State.dueEvent_due {s : State} {i : Instr} (h : s.dueEvent = some i) :
    (true, i) ∈ s.ownEvents := by
  unfold State.dueEvent at h
  cases hf : s.ownEvents.find? (·.1) with
  | none => simp [hf] at h
  | some e =>
    obtain ⟨b, j⟩ := e
    simp only [hf, Option.map_some, Option.some.injEq] at h
    subst h
    have h1 : b = true := by simpa using List.find?_some hf
    exact h1 ▸ List.mem_of_find?_eq_some hf

end Sys2Proof.Machine
end

