-- ==== Sys2Proof/WellFormed.lean ====
section
/-! DEFINITION. WellFormed.lean: which commands the outside world can send.

Every operand but one is meaningful at every value of its type. A character on HRX begins with a low
start bit (R140): ten line bits with a high start bit are no character. -/

namespace Sys2Proof

/-- The start bit of a character is low. -/
def startBitLow (c : Character) : Bool := !c.getLsbD 0

/-- A command the outside world can send. -/
def WellFormed (i : Instr) : Bool :=
  match i with
  | .rxByte c => startBitLow c
  | .identify | .status | .reset | .notify | .canvas | .loadCurve | .loadPalette | .define
  | .destroy | .setAttr | .query | .openStream | .write | .writeHoldEnd | .closeStream | .read
  | .fill | .commit | .cancel | .badKind | .internalTimerExpiry | .fsyPulseEnd | .finEdge _
  | .lossDeadline | .lineSlotStart | .copyStepComplete | .fillStepComplete | .timeoutDiscard
  | .linkBreak | .linkBreakEnd | .transmitStart | .transmitEnd | .pinReset | .powerFail
  | .rstnRelease | .powerGood | .hello => true

end Sys2Proof
end

