-- ==== Sys2Proof/Tests/Slice0.lean ====
section
/-! SUPPORT. Tests/Slice0.lean: tests on single steps, with values from the worked examples of the
spec, and for each statement with hypotheses a state and operands that meet them, clause by clause at
boundary values. -/

namespace Sys2Proof.Tests

set_option Elab.async false

open Sys2Proof Sys2Proof.Machine

/-! ### Small states -/

/-- A RUNNING part with four free tiles and nothing else. -/
def running : State :=
  { State.reset with
    control := ⟨.running, 0, false, false, 0, .mbit1⟩
    pins := ⟨false, false, false, false, true, false, true⟩
    pool := ⟨[10, 11, 12, 13], [], []⟩ }

/-- The frame of the tests, with SEQ 7. -/
def req (kind : Byte) (body : List Byte) : Request := ⟨7, kind, body, 0⟩

/-- A state with one WAITING frame. -/
def asked (s : State) (kind : Byte) (body : List Byte) : State :=
  s.withLink { s.link with inbound := [req kind body] }

/-- A LIVE double-banked surface of 16 × 8 pixels, two tiles a bank. -/
def panel : Surface :=
  { surfaceFree with
    state := .live, width := 16, height := 8, banks := 2, front := [0, 1], back := [2, 3]
    live := attrsDefault 16 8 }

/-- A LIVE single-banked surface of one tile. -/
def single : Surface :=
  { surfaceFree with
    state := .live, width := 8, height := 8, banks := 1, front := [4], live := attrsDefault 8 8 }

/-- The panel is surface 1 and the single-banked surface is surface 0. -/
def shown : State := (running.setSurf 1 panel).setSurf 0 single

/-- A canvas of 8 × 8 pixels, INTERNAL, P = 4000. -/
def canvas : Canvas := ⟨8, 8, black, .internal, 4000, .rise⟩

/-- The clock runs: FREE_RUN, frame 5, the last boundary at moment 0, P just over. -/
def ticking : State :=
  { shown with
    now := 96000
    timing := ⟨.freeRun, 5, some 0, none, 0, 0, 0, true⟩
    scan := ⟨some canvas, stagedCanvasNone, true, some 3, some canvas.lineSlot, none⟩ }

/-- The clock follows FIN. -/
def following (st : TimingState) (now : Time) (edge : Option Time) (good : Nat) : State :=
  { ticking with now := now, timing := ⟨st, 5, some 0, edge, good, 0, 1, true⟩ }

/-- A job on surface 0 that fills all of its one tile. -/
def job : FillJob := ⟨3, 0, 0, 0, 8, 8, ⟨1, 2, 3⟩, [(0, true)], 0⟩

/-- A commit of surface 1 alone. -/
def swapping : Commit := ⟨9, false, false, false, none, [1]⟩

/-- An R565 stream on the whole of surface 1. -/
def stream : Stream :=
  ⟨1, 0, 0, 16, 8, .r565, none, .wrap, .down, 0, 0, 0, [], false, 0⟩

/-- The stream stands in slot 0. -/
def streaming : State := (shown.setSurf 1 { panel with stream := some 0 }).setSlot 0 (some stream)

/-- A property of the next state. -/
def after (o : Host.Outcome State Fault Refusal) (p : State → Bool) : Bool :=
  match o with
  | .next t => p t
  | .fault _ | .refused _ => false

/-- The status and body of the newest queued reply. -/
def answerOf (s : State) : Option (Status × List Byte) :=
  s.link.outbound.getLast?.bind fun f =>
    match f with
    | .reply _ r _ => some (r.status, r.body)
    | .notice _ _ _ => none

/-- The reply to a request on a state. -/
def replyOf (i : Instr) (s : State) : Option (Status × List Byte) :=
  match exec i s with
  | .next t => answerOf t
  | .fault _ | .refused _ => none

/-! ### Well-formedness and the table's words -/

/-- Ten line bits with a high start bit are no character. -/
theorem test_wellFormed_refuses_high_start_bit : WellFormed (.rxByte 0x3FF#10) = false := by decide

theorem test_wellFormed_takes_character : WellFormed (.rxByte (characterOf 0xA5)) = true := by decide

/-- No row of the table has bits. -/
theorem test_no_word_spells_a_command : decodeTableWord 16 0x1234 = none := by decide

theorem test_withFetchWord_changes_nothing : running.withFetchWord 8 1 = running := rfl

/-! ### Encoding (R159, R140) -/

/-- The nine ASCII digits of R159. -/
theorem test_crc_of_digits :
    crcOf [0x31, 0x32, 0x33, 0x34, 0x35, 0x36, 0x37, 0x38, 0x39] = 0x29B1 := by decide +kernel

theorem test_crc_of_nothing : crcOf [] = 0xFFFF := by decide

/-- A byte goes least significant bit first between the start and the stop bit. -/
theorem test_character_of_sync : characterOf 0xA5 = 0b1101001010#10 := by decide

/-- The frames of Section 10.1: 7 + LEN and 9 + LEN bytes. -/
theorem test_frame_lengths :
    (hostFrameBytes 1 2 [0]).length = 8 ∧ (partFrameBytes 1 2 3 4 [0]).length = 10 := by decide

/-! ### Part control -/

/-- R168. -/
theorem test_identify : replyOf .identify (asked running 0x01 []) =
    some (.ok, [0x20, 0x51, 1, 32, 0, 16, 8, 4, 4, 8, 32, 0, 4]) := by decide

/-- Table 10-12: 39 bytes with no commit and no job; the free-list length stands at offset 7. -/
theorem test_status_layout : (replyOf .status (asked running 0x02 [0])).map
    (fun r => (r.1, r.2.length, (r.2.drop 7).take 2)) = some (.ok, 39, [4, 0]) := by decide

/-- R169: a clear flag of 2 is refused. -/
theorem test_status_bad_flag : replyOf .status (asked running 0x02 [2]) = some (.badField, []) := by
  decide

theorem test_reset_pending : after (exec .reset (asked running 0x03 []))
    (fun t => t.control.state == .resetPending && answerOf t == some (.ok, [])) = true := by decide

/-- R135: the new k, the old k, the counter and the state. -/
theorem test_notify : replyOf .notify (asked ticking 0x04 [60]) =
    some (.ok, [60, 0, 5, 0, 0, 0, 1]) := by decide

theorem test_pinReset_holds : after (exec .pinReset ticking)
    (fun t => t.control.state == .held && t.timing == timingReset) = true := by decide

theorem test_powerFail_holds : after (exec .powerFail ticking)
    (fun t => t.control.state == .held && !t.pins.powerGood) = true := by decide

/-- R166, R167: power first, then RSTN; the straps 10 name 6 Mbit/s. -/
theorem test_rstnRelease_starts : after
    (exec .rstnRelease { State.reset with
      pins := ⟨false, false, true, false, false, false, true⟩ })
    (fun t => t.control.state == .starting && t.control.rate == .mbit6) = true := by decide

theorem test_powerGood_waits_for_rstn : after (exec .powerGood State.reset)
    (fun t => t.control.state == .held && t.control.freshPower) = true := by decide

/-- R166: the first HELLO after power has reason POWER and notice sequence 0. -/
theorem test_hello_power : after
    (exec .hello { running with control := ⟨.starting, 0, false, true, 0, .mbit1⟩ })
    (fun t => t.link.outbound == [.notice 0x60 0 (0 :: capacities)]) = true := by decide

/-! ### The link -/

/-- R140: 0xA5 in HUNT begins a frame. -/
theorem test_rxByte_sync : after (exec (.rxByte (characterOf 0xA5)) running)
    (fun t => t.link.framer.state == .length) = true := by decide

/-- A whole IDENTIFY frame joins the WAITING frames. -/
theorem test_rxByte_frame : after (receive (hostFrameBytes 7 0x01 []) running)
    (fun t => t.link.inbound == [frameOf 7 0x01 []] && t.link.framer.state == .hunt) = true := by
  decide +kernel

theorem test_badKind : replyOf .badKind (asked running 0x60 []) = some (.badKind, [0x60]) := by decide

/-- R141: more than 500 µs, so not at 12000 units but at 12001. -/
theorem test_timeout_boundary :
    (after (exec .timeoutDiscard { running with
        now := 12000, link := { running.link with framer := ⟨.length, [], 0⟩ } })
      (fun t => t.link.framer.state == .length) &&
    after (exec .timeoutDiscard { running with
        now := 12001, link := { running.link with framer := ⟨.length, [], 0⟩ } })
      (fun t => t.link.framer.state == .hunt && t.link.counters.timeout == 1 &&
        t.link.outbound == [.notice 0x66 0 [1, 0, 0]])) = true := by decide

/-- R156: a BREAK leaves HELLO LINK alone in the queue, with notice sequence 0. -/
theorem test_break : after (exec .linkBreak { asked running 0x01 [] with now := 4800 })
    (fun t => t.link.inbound == [] && t.link.paused &&
      t.link.outbound == [.notice 0x60 0 (3 :: capacities)]) = true := by decide

theorem test_breakEnd : after (exec .linkBreakEnd { running with
      pins := { running.pins with hrxLow := true, breakTaken := true } })
    (fun t => !t.pins.hrxLow && !t.pins.breakTaken) = true := by decide

/-- R148: a frame that begins with one frame WAITING reports 7 credits. -/
theorem test_transmitStart_credits : after
    (exec .transmitStart ((asked running 0x01 []).offer ⟨0x63, []⟩))
    (fun t => (t.link.sending.map (fun x => byteAt x.bytes 6)) == some 7 &&
      t.link.outbound == []) = true := by decide

/-- R152: nine bytes at 1 Mbit/s take 90 µs. -/
theorem test_transmitEnd_moment :
    (after (exec .transmitEnd { running with
        now := 2159
        link := { running.link with sending := some ⟨.notice 0x63 0 [],
          partFrameBytes 0x63 0 0 8 [], 0⟩ } }) (fun t => t.link.sending.isSome) &&
    after (exec .transmitEnd { running with
        now := 2160
        link := { running.link with sending := some ⟨.notice 0x63 0 [],
          partFrameBytes 0x63 0 0 8 [], 0⟩ } }) (fun t => t.link.sending.isNone)) = true := by decide

/-! ### Colours, canvas and curve -/

/-- R97: the two examples. -/
theorem test_r565 : convertPixel coloursReset .r565 none [0x1F, 0xF8] = ⟨255, 0, 255⟩ ∧
    convertPixel coloursReset .r565 none [0xE4, 0x07] = ⟨0, 255, 33⟩ := by decide

/-- R119: opacity 128, 200 over 50. -/
theorem test_blend : blendChannel 128 200 50 = 125 := by decide

/-- Table 6-5. -/
theorem test_curve_reset : ([0, 1, 16, 64, 128, 192, 254, 255].map (coloursReset.liveCode 1)) =
    [0, 16, 257, 1028, 2056, 3083, 4079, 4095] := by decide

/-- Table 12-1, step 2: five fields are staged. -/
theorem test_canvas : replyOf .canvas (asked running 0x10
    [0x1F, 0, 1, 128, 0, 0, 0, 0, 1, 0x80, 0x3E]) = some (.ok, [5]) := by decide

/-- Table 7-1: a width of 513 is refused. -/
theorem test_canvas_range : replyOf .canvas (asked running 0x10 [1, 1, 2]) = some (.badField, []) := by
  decide

/-- R105: one code at index 255 of channel 2. -/
theorem test_loadCurve : after (exec .loadCurve (asked running 0x11 [2, 255, 0x34, 0x02]))
    (fun t => t.colours.modified && storeRead curveDefault t.colours.stagedCurve 767 == 0x234#12 &&
      t.colours.liveCode 2 255 == 4095#12) = true := by decide

/-- R101: two entries from index 255 run past the end. -/
theorem test_loadPalette_past_end :
    replyOf .loadPalette (asked running 0x12 [0, 255, 1, 2, 3, 4, 5, 6]) = some (.badField, []) := by
  decide

theorem test_loadPalette : after (exec .loadPalette (asked running 0x12 [3, 255, 1, 2, 3]))
    (fun t => t.colours.paletteEntry 3 255 == ⟨1, 2, 3⟩ && answerOf t == some (.ok, [3, 255, 1, 0])) =
    true := by decide

/-! ### Surfaces -/

/-- R6: front bank first, from the head of the free list. -/
theorem test_define : after (exec .define (asked running 0x20 [2, 16, 0, 8, 0, 2]))
    (fun t => (t.surf 2).front == [10, 11] && (t.surf 2).back == [12, 13] && t.pool.free == [] &&
      answerOf t == some (.ok, [2, 0, 0, 0])) = true := by decide

/-- R5: one tile too few. -/
theorem test_define_no_space :
    replyOf .define (asked running 0x20 [2, 17, 0, 8, 0, 2]) = some (.noSpace, [4, 0]) := by decide

theorem test_destroy_live : after (exec .destroy (asked shown 0x21 [1]))
    (fun t => (t.surf 1).state == .retiring && (t.surf 1).back == [2, 3] &&
      answerOf t == some (.ok, [3, 0])) = true := by decide

/-- R15: a frozen surface is not destroyed. -/
theorem test_destroy_frozen :
    replyOf .destroy (asked (shown.setSurf 1 { panel with pendingTag := some 9 }) 0x21 [1]) =
      some (.inCommit, []) := by decide

/-- A position of −20 on x. -/
theorem test_setAttr : after (exec .setAttr (asked shown 0x22 [1, 1, 0, 0xEC, 0xFF]))
    (fun t => (t.surf 1).staged.x == some (-20) && (t.surf 1).live.x == 0 &&
      answerOf t == some (.ok, [1])) = true := by decide

/-- A view width of 17 on a surface of width 16. -/
theorem test_setAttr_range :
    replyOf .setAttr (asked shown 0x22 [1, 128, 0, 17, 0]) = some (.badField, []) := by decide

theorem test_query_free : (replyOf .query (asked shown 0x23 [31])).map
    (fun r => (r.1, r.2.length, r.2.head?)) = some (.ok, 53, some 0) := by decide

/-! ### Streams -/

/-- R63: slot 0, no stream closed. -/
theorem test_open : replyOf .openStream
    (asked shown 0x30 [1, 0, 0, 0, 0, 16, 0, 8, 0, 0, 0, 1, 1]) = some (.ok, [0, 0xFF, 0]) := by decide

/-- Three bytes of R565 are one pixel and a residue of one byte. -/
theorem test_write : replyOf .write (asked streaming 0x31 [0, 0, 0, 0x1F, 0xF8, 0x11]) =
    some (.ok, [1, 0, 0, 0, 1, 0, 0, 0, 1, 1, 1, 0]) := by decide

theorem test_write_out_of_order : replyOf .write (asked streaming 0x31 [0, 2, 0, 1]) =
    some (.outOfOrder, [0, 0, 0, 0, 0, 0]) := by decide

theorem test_writeHoldEnd : after
    (exec .writeHoldEnd (streaming.withLink { streaming.link with
      executing := some ⟨req 0x31 [0, 0, 0, 1, 2], false⟩ }))
    (fun t => t.link.executing == none && answerOf t ==
      some (.ok, [1, 0, 0, 0, 1, 0, 0, 0, 1, 0, 1, 0])) = true := by decide

theorem test_close : replyOf .closeStream (asked (streaming.setSlot 0
    (some { stream with residue := [5], written := 300 })) 0x32 [0]) =
      some (.ok, [1, 44, 1, 0, 0]) := by decide

/-- R27: a BLANK tile reads black. -/
theorem test_read_blank : replyOf .read (asked shown 0x33 [1, 1, 15, 0, 7, 0, 1, 0, 1, 0]) =
    some (.ok, [1, 0, 0, 0, 0]) := by decide

/-- READ of the back bank of a single-banked surface. -/
theorem test_read_no_back : replyOf .read (asked shown 0x33 [0, 1, 0, 0, 0, 0, 1, 0, 1, 0]) =
    some (.badField, []) := by decide

/-! ### Tile engine -/

/-- R84: columns 7 and 8 of a 16 × 8 surface touch both its tiles in part. -/
theorem test_tileSequence : tileSequence 16 8 ⟨7, 0, 2, 8⟩ = [(0, false), (1, false)] := by decide

theorem test_fill : after (exec .fill (asked shown 0x34 [1, 0, 0, 0, 0, 16, 0, 8, 0, 9, 9, 9]))
    (fun t => t.engine.step == .fill 0 0 && (t.surf 1).fills == 1 && (t.surf 1).dirty &&
      answerOf t == some (.accepted, [0, 0, 2, 0, 1])) = true := by decide

/-- R32: a copy over a BLANK front tile leaves the tile BLANK. -/
theorem test_copyStep : after
    (exec .copyStepComplete { ticking with
      surfaces := ticking.surfaces.setIfInBounds 1 { panel with stale := 1 }
      pool := ticking.pool.setContent 3 .stale
      engine := ⟨[], 0, .copy 1 1, 95976⟩ })
    (fun t => t.pool.contentOf 3 == .blank && (t.surf 1).stale == 0 && t.engine.step == .idle) =
    true := by decide

theorem test_fillStep : after
    (exec .fillStepComplete { ticking with
      surfaces := ticking.surfaces.setIfInBounds 0 { single with fills := 1 }
      engine := ⟨[job], 4, .fill 3 0, 95988⟩ })
    (fun t => t.pool.contentOf 4 == .data && readCell t.pool.pixels 4 63 == ⟨1, 2, 3⟩ &&
      (t.surf 0).fills == 0 && t.link.outbound == [.notice 0x62 0 [3, 0, 0]]) = true := by
  decide +kernel

/-! ### Commits and the frame clock -/

/-- Tag 9, no flags, surface 1. -/
theorem test_commit : after (exec .commit (asked ticking 0x40 [9, 0, 0, 1, 1]))
    (fun t => t.commits.queue == [swapping] && (t.surf 1).pendingTag == some 9 &&
      answerOf t == some (.ok, [9, 0, 0, 1])) = true := by decide

/-- R39: while STOPPED a commit without CANVAS is refused. -/
theorem test_commit_stopped :
    replyOf .commit (asked shown 0x40 [9, 0, 0, 1, 1]) = some (.notRunning, []) := by decide

theorem test_cancel : replyOf .cancel (asked { ticking with commits := ⟨[swapping], []⟩ } 0x41 [9, 0]) =
    some (.ok, [0, 0]) := by decide

theorem test_cancel_too_late :
    replyOf .cancel (asked { ticking with commits := ⟨[], [⟨9, 3⟩, ⟨9, 4⟩]⟩ } 0x41 [9, 0]) =
      some (.tooLate, [4, 0, 0, 0]) := by decide

/-- R127: P after the last boundary and not a 24th of a microsecond earlier. -/
theorem test_timer : (after (exec .internalTimerExpiry ticking) (fun t => t.timing.frame == 6) &&
    after (exec .internalTimerExpiry { ticking with now := 95999 })
      (fun t => t.timing.frame == 5)) = true := by decide +kernel

/-- A boundary swaps a dirty surface that the ready head names. -/
theorem test_boundary_swaps : after
    (exec .internalTimerExpiry { ticking with
      surfaces := ticking.surfaces.setIfInBounds 1 { panel with dirty := true, pendingTag := some 9 }
      commits := ⟨[swapping], []⟩ })
    (fun t => (t.surf 1).front == [2, 3] && !(t.surf 1).dirty && t.commits.applied == [⟨9, 6⟩] &&
      t.link.outbound == [.notice 0x61 0 [9, 0, 6, 0, 0, 0, 1, 0]]) = true := by decide +kernel

theorem test_fsyPulseEnd : after (exec .fsyPulseEnd ticking) (fun t => !t.timing.fsy) = true := by
  decide

/-- R131: 0.875P is early enough for an accepted edge, a 24th of a microsecond less is a glitch. -/
theorem test_finEdge_locked :
    (after (exec (.finEdge .rise) (following .locked 84000 (some 0) 0))
      (fun t => t.timing.frame == 6 && t.timing.glitches == 0) &&
    after (exec (.finEdge .rise) (following .locked 83999 (some 0) 0))
      (fun t => t.timing.frame == 5 && t.timing.glitches == 1)) = true := by decide +kernel

/-- R132: 1.25P. -/
theorem test_lossDeadline : after (exec .lossDeadline (following .locked 120000 (some 0) 0))
    (fun t => t.timing.state == .seeking && t.link.outbound ==
      [.notice 0x65 0 [6, 0, 0, 0, 0, 0], .notice 0x63 1 [6, 0, 0, 0, 2]]) = true := by decide +kernel

/-- Line 3 of a blank canvas: eight black pixels, whose codes are 0. -/
theorem test_lineSlotStart : after (exec .lineSlotStart ticking)
    (fun t => t.scan.nextLine == some 4 &&
      t.scan.driven == some ⟨3, false, List.replicate 8 ⟨0, 0, 0⟩, 96000⟩) = true := by decide +kernel

/-! ### Steps -/

/-- With no command waiting and nothing due, time passes. -/
theorem test_step_idle : after (step State.reset) (fun t => t.now == 1) = true := by decide

/-- With no command waiting, the executor takes the WAITING frame. -/
theorem test_step_takes_request : after (step (asked running 0x01 []))
    (fun t => answerOf t == some (.ok, capacities)) = true := by decide

/-! ### Witnesses: resets and the link -/

theorem test_witness_StepRunsFrontCommand :
    ({ State.reset with pending := [.identify, .hello] } : State).pending = .identify :: [.hello] := rfl

/-- HELD with the pins at these levels. -/
def heldWith (rstnHigh power : Bool) : State :=
  { State.reset with pins := { pinsReset with rstnHigh := rstnHigh, powerGood := power } }

theorem test_witness_ReleaseAndPower :
    ((heldWith false true).control.state = .held ∧ (heldWith false true).pins.powerGood = true) ∧
    ((heldWith true false).control.state = .held ∧ (heldWith true false).pins.powerGood = false ∧
      (heldWith true false).pins.rstnHigh = true) ∧
    ((heldWith false false).control.state = .held ∧ (heldWith false false).pins.powerGood = false ∧
      (heldWith false false).pins.rstnHigh = false) := by decide +kernel

/-- STARTING entered at moment 0, at the last moment for HELLO. -/
def starting : State :=
  { running with now := 48000, control := ⟨.starting, 0, false, true, 0, .mbit1⟩ }

theorem test_witness_HelloIsOffered : starting.control.state = .starting ∧
    starting.link.outbound = [] ∧ starting.link.lost = 0 ∧
    starting.now ≤ starting.control.startingSince + 24 * 2000 := by decide +kernel

/-- A HELLO stands at the head of the queue of `s`. -/
def helloQueued (s : State) : State := s.offer (noticeHello .power)

/-- RESET-PENDING. -/
def leaving : State := running.withControl { running.control with state := .resetPending }

theorem test_witness_TransmissionStarts :
    (∀ s ∈ [helloQueued running, helloQueued leaving, helloQueued starting],
      s.link.sending = none ∧ s.link.paused = false ∧
      s.link.outbound = .notice 0x60 0 (0 :: capacities) :: []) ∧
    (helloQueued running).control.state = .running ∧
    (helloQueued leaving).control.state = .resetPending ∧
    (helloQueued starting).control.state = .starting ∧
    (OutFrame.notice 0x60 0 (0 :: capacities)).isHello = true := by decide +kernel

/-- The OK reply of RESET, being sent since moment 0. -/
def lastReply : Sending :=
  ⟨.reply (req 0x03 []) ⟨0x83, 7, .ok, []⟩ false, partFrameBytes 0x83 7 0 8 [], 0⟩

/-- The first byte of a frame, 0x5A, on HTX at 1 Mbit/s, bit by bit, and HTX behind the last. -/
theorem test_htx :
    (List.range 10).map (fun k => ({ running.withLink { running.link with sending := some lastReply }
      with now := 24 * k } : State).htxHigh) =
      [false, false, true, false, true, true, false, true, false, true] ∧
    ({ running.withLink { running.link with sending := some lastReply }
      with now := 2160 } : State).htxHigh = true := by decide +kernel

theorem test_witness_TransmissionEnds :
    (lastReply.bytes[0]? = some 0x5A ∧
      24 * (10 * 0 + 9) + 1 * lastReply.since ≤ 1 * 239 ∧
      1 * 239 < 24 * (10 * 0 + 9 + 1) + 1 * lastReply.since ∧ running.control.rate.mbit = 1) ∧
    (∀ s ∈ [({ running with now := 2160 } : State), { leaving with now := 2160 }],
      (s.withLink { s.link with sending := some lastReply }).link.sending = some lastReply ∧
      240 * lastReply.bytes.length + s.control.rate.mbit * lastReply.since ≤
        s.control.rate.mbit * s.now) ∧
    ¬ (running.control.state = .resetPending ∧ lastReply.frame.isResetReply = true) ∧
    leaving.control.state = .resetPending ∧ lastReply.frame.isResetReply = true := by decide +kernel

/-- A part with `n` WAITING frames of other SEQs. -/
def waiting (n : Nat) : State :=
  running.withLink { running.link with inbound := List.replicate n (req 0x01 []) }

theorem test_witness_HostFrameArrives :
    (List.replicate 1024 (0 : Byte)).length ≤ 1024 ∧ (waiting 7).control.state = .running ∧
    (waiting 7).pins.hrxLow = false ∧ (waiting 7).link.framer.state = .hunt ∧
    (waiting 7).link.framer.bytes = [] ∧
    (waiting 7).link.inHand (frameOf 8 0x31 (List.replicate 1024 0)) = false ∧
    (waiting 7).link.recall (frameOf 8 0x31 (List.replicate 1024 0)) = none ∧
    (waiting 7).link.held < 8 := by
  refine ⟨by rw [List.length_replicate], rfl, rfl, rfl, rfl, rfl, rfl, by decide +kernel⟩

/-- A frame whose copy comes. -/
def copied : Request := frameOf 7 0x01 []

/-- Its entry in the reply history. -/
def recalled : HistoryEntry := ⟨7, copied.crc, ⟨0x81, 7, .ok, capacities⟩⟩

/-- The history holds the entry. -/
def remembering : State := running.withLink { running.link with history := [recalled] }

theorem test_witness_DuplicateAndOverrun :
    (∀ s ∈ [running, remembering, waiting 8], s.control.state = .running ∧ s.pins.hrxLow = false ∧
      s.link.framer.state = .hunt ∧ s.link.framer.bytes = []) ∧
    (running.withLink { running.link with inbound := [copied] }).link.inHand copied = true ∧
    (remembering.link.recall copied = some recalled ∧ remembering.link.inHand copied = false ∧
      remembering.link.held < 8) ∧
    (waiting 8).link.inHand (frameOf 8 0x01 []) = false ∧ 8 ≤ (waiting 8).link.held := by
  decide +kernel

/-- A history entry of one SEQ. -/
def entry (seq : Byte) : HistoryEntry := ⟨seq, 0, ⟨0x81, seq, .ok, []⟩⟩

/-- A history of `n` entries, of the SEQs below `n`. -/
def history (n : Nat) : List HistoryEntry := (List.range n).map (fun i => entry (BitVec.ofNat 8 i))

theorem test_witness_History :
    (history 2 = [] ++ entry 0 :: [entry 1] ∧ (entry 0).seq = (entry 0).seq ∧
      ∀ x ∈ ([] ++ [entry 1] : List HistoryEntry), x.seq ≠ (entry 0).seq) ∧
    ((∀ x ∈ history 7, x.seq ≠ (entry 9).seq) ∧ (history 7).length < 8) ∧
    ((∀ x ∈ history 8, x.seq ≠ (entry 9).seq) ∧ (history 8).length = 8) := by decide +kernel

/-- A part whose framer holds a partial frame. -/
def partway (st : FramerState) (bs : List Byte) (now : Time) : State :=
  { running with now := now, link := { running.link with framer := ⟨st, bs, 0⟩ } }

theorem test_witness_FramerDiscards :
    ((partway .length [1] 0).link.framer.state = .length ∧
      (partway .length [1] 0).link.framer.bytes.length = 1 ∧
      1024 < fieldAt ((partway .length [1] 0).link.framer.bytes ++ [4]) 0 2) ∧
    ((partway .check [0, 0, 7, 1, 9] 0).link.framer.state = .check ∧
      (partway .check [0, 0, 7, 1, 9] 0).link.framer.bytes.length = 5 + fieldAt [0, 0, 7, 1, 9] 0 2 ∧
      crcOf ([0, 0, 7, 1, 9].take (4 + fieldAt [0, 0, 7, 1, 9] 0 2)) ≠
        BitVec.ofNat 16 (fieldAt ([0, 0, 7, 1, 9] ++ [9]) (4 + fieldAt [0, 0, 7, 1, 9] 0 2) 2)) ∧
    ((partway .length [] 12001).link.framer.state ≠ .hunt ∧
      (partway .length [] 12001).link.framer.lastByte + 24 * 500 < (partway .length [] 12001).now) := by
  decide +kernel

/-- A link with `n` notices queued and a LOST count. -/
def noticed (n : Nat) (lost : Half) : Link :=
  { linkReset with outbound := List.replicate n (.notice 0x63 0 []), lost := lost }

theorem test_witness_Offer :
    let queued : Link → Nat := fun l => l.outbound.countP (fun f => match f with
      | .notice _ _ _ => true
      | .reply _ _ _ => false)
    ((noticed 23 0).lost = 0 ∧ queued (noticed 23 0) < 24) ∧
    ((noticed 22 1).lost ≠ 0 ∧ queued (noticed 22 1) < 23) ∧
    ((noticed 24 0).lost = 0 ∧ 24 ≤ queued (noticed 24 0)) ∧
    ((noticed 23 1).lost ≠ 0 ∧ 23 ≤ queued (noticed 23 1)) := by decide +kernel

theorem test_witness_Characters :
    (0x1FE#10).getLsbD 9 = false ∧ running.control.state = .running ∧
    running.pins.hrxLow = false ∧ running.link.framer.state = .hunt ∧ (0x5A : Byte) ≠ 0xA5 ∧
    ([] : List Byte).length = 0 ∧ fieldAt ([0] ++ [4]) 0 2 ≤ 1024 ∧
    ([1, 0] : List Byte).length = 2 ∧ ([1, 0, 7] : List Byte).length = 3 ∧
    4 ≤ ([1, 0, 7, 2] : List Byte).length ∧
    ([1, 0, 7, 2] : List Byte).length < 4 + fieldAt [1, 0, 7, 2] 0 2 ∧
    ([0, 0, 7, 1] : List Byte).length = 4 + fieldAt [0, 0, 7, 1] 0 2 := by decide +kernel

theorem test_witness_Break :
    (∀ s ∈ [({ running with now := 4800 } : State), { leaving with now := 4800 }],
      s.pins.breakTaken = false ∧ s.control.runningSince + 24 * 200 ≤ s.now) ∧
    running.control.state = .running ∧ leaving.control.state = .resetPending := by decide +kernel

/-! ### Witnesses: requests -/

/-- The WAITING frame of `asked` is in its turn. -/
theorem test_witness_Asks : Asks (asked shown 0x23 [31]) (req 0x23 [31]) 0x23 [31] := by decide +kernel

/-- On any RUNNING part with an IDLE executor, whatever the KIND and the body. -/
theorem asked_asks (s : State) (k : Byte) (body : List Byte) (h : s.control.state = .running)
    (he : s.link.executing = none) : Asks (asked s k body) (req k body) k body :=
  ⟨h, he, rfl, rfl, rfl⟩

theorem test_witness_Undecodable :
    Asks (asked shown 0x60 []) (req 0x60 []) 0x60 [] ∧ isRequestKind 0x60 = false ∧
    Asks (asked shown 0x01 [1]) (req 0x01 [1]) 0x01 [1] ∧ isRequestKind 0x01 = true ∧
    lengthOk 0x01 [1] = false := by decide +kernel

/-- DESTROY of id 40. -/
def outOfRange : State := asked shown 0x21 [40]

theorem test_witness_RefusedRequest :
    Asks outOfRange (req 0x21 [40]) 0x21 [40] ∧ isRequestKind 0x21 = true ∧
    exec (rowOfKind 0x21) outOfRange = .next (outOfRange.answer (req 0x21 [40]) .badField []) ∧
    (outOfRange.answer (req 0x21 [40]) .badField []).link.executing = none ∧
    (outOfRange.answer (req 0x21 [40]) .badField []).link.outbound.getLast? =
      some (.reply (req 0x21 [40]) ⟨0xA1, 7, .badField, []⟩ false) ∧
    Status.badField ≠ .ok ∧ Status.badField ≠ .accepted := by
  refine ⟨by decide +kernel, by decide +kernel, rfl, rfl, rfl, by decide, by decide⟩

theorem test_witness_PartRequests :
    Asks (asked shown 0x01 []) (req 0x01 []) 0x01 [] ∧
    (∀ clear ∈ [0, 1, 2], Asks (asked shown 0x02 [clear]) (req 0x02 [clear]) 0x02 [clear]) ∧
    (2 : Byte) ≠ 0 ∧ (2 : Byte) ≠ 1 ∧
    Asks (asked shown 0x03 []) (req 0x03 []) 0x03 [] ∧
    Asks (asked shown 0x04 [255]) (req 0x04 [255]) 0x04 [255] := by decide +kernel

/-- Every field of the canvas at an end of its range. -/
def canvasEnds : StagedCanvas := ⟨some 512, some 8, none, some .off, some 50000, some .fall⟩

/-- A queue whose commit carries CANVAS and CURVE. -/
def held : State := { ticking with commits := ⟨[⟨1, false, true, true, none, []⟩], []⟩ }

theorem test_witness_Canvas :
    canvasEnds.inRange ∧
    Asks (asked shown 0x10 (canvasBody canvasEnds)) (req 0x10 (canvasBody canvasEnds)) 0x10
      (canvasBody canvasEnds) ∧ (∀ c ∈ shown.commits.queue, c.canvas = false) ∧
    Asks (asked held 0x10 (canvasBody canvasEnds)) (req 0x10 (canvasBody canvasEnds)) 0x10
      (canvasBody canvasEnds) ∧ (∃ c ∈ held.commits.queue, c.canvas = true) := by decide +kernel

/-- No field of a CANVAS body. -/
def noCanvasFields : CanvasFields := ⟨none, none, none, none, none, none, false⟩

/-- One value beyond each end of each range of Table 7-1, and the first undefined mask bit. -/
theorem test_witness_Canvas_refused :
    (∀ g ∈ [{ noCanvasFields with width := some 7 }, { noCanvasFields with width := some 513 },
        { noCanvasFields with height := some 7 }, { noCanvasFields with height := some 257 },
        { noCanvasFields with mode := some 3 }, { noCanvasFields with period := some 3999 },
        { noCanvasFields with period := some 50001 }, { noCanvasFields with edge := some 2 }],
      g.outOfRange ∧ Asks (asked shown 0x10 (canvasBodyRaw g)) (req 0x10 (canvasBodyRaw g)) 0x10
        (canvasBodyRaw g)) ∧
    (lengthOk 0x10 [64] = true ∧ Asks (asked shown 0x10 [64]) (req 0x10 [64]) 0x10 [64] ∧
      64 ≤ (byteAt [64] 0).toNat) ∧
    lengthOk 0x10 (canvasBody canvasEnds) = true := by decide +kernel

theorem test_witness_ColourTables :
    (2 : Nat) < 3 ∧ 1 ≤ ([0xFFF#12] : List (BitVec 12)).length ∧ 255 + [0xFFF#12].length ≤ 256 ∧
    Asks (asked shown 0x11 [2, 255, 0xFF, 0x0F]) (req 0x11 [2, 255, 0xFF, 0x0F]) 0x11
      (bytesOf 1 2 ++ bytesOf 1 255 ++ [0xFFF#12].flatMap (fun v => bytesOf 2 v.toNat)) ∧
    (∀ c ∈ shown.commits.queue, c.curve = false) ∧
    Asks (asked held 0x11 [2, 255, 0xFF, 0x0F]) (req 0x11 [2, 255, 0xFF, 0x0F]) 0x11
      (bytesOf 1 2 ++ bytesOf 1 255 ++ [0xFFF#12].flatMap (fun v => bytesOf 2 v.toNat)) ∧
    (∃ c ∈ held.commits.queue, c.curve = true) ∧
    (3 : Nat) < 4 ∧ 1 ≤ [(⟨1, 2, 3⟩ : Rgb)].length ∧ 255 + [(⟨1, 2, 3⟩ : Rgb)].length ≤ 256 ∧
    Asks (asked shown 0x12 [3, 255, 1, 2, 3]) (req 0x12 [3, 255, 1, 2, 3]) 0x12
      (bytesOf 1 3 ++ bytesOf 1 255 ++ [(⟨1, 2, 3⟩ : Rgb)].flatMap colourBytes) := by decide +kernel

/-- A channel and a palette too high, runs past index 255, and a code above 4095. -/
theorem test_witness_ColourTables_refused :
    (∀ body ∈ [[3, 0, 1, 0], [0, 255, 1, 0, 1, 0], [0, 0, 0, 0x10]],
      lengthOk 0x11 body = true ∧ Asks (asked shown 0x11 body) (req 0x11 body) 0x11 body ∧
      (2 < (byteAt body 0).toNat ∨ 256 < (byteAt body 1).toNat + (body.length - 2) / 2 ∨
        ∃ i < (body.length - 2) / 2, 4095 < fieldAt body (2 + 2 * i) 2)) ∧
    lengthOk 0x11 [2, 255, 0xFF, 0x0F] = true ∧
    (∀ body ∈ [[4, 0, 1, 2, 3], [0, 255, 1, 2, 3, 4, 5, 6]],
      lengthOk 0x12 body = true ∧ Asks (asked shown 0x12 body) (req 0x12 body) 0x12 body ∧
      (3 < (byteAt body 0).toNat ∨ 256 < (byteAt body 1).toNat + (body.length - 2) / 3)) := by
  decide +kernel

/-- Surface 31 is RETIRING. -/
def retiring : State := shown.setSurf 31 { single with state := .retiring, front := [5] }

theorem test_witness_SurfaceChecks :
    (∀ id ∈ [31, 32, 30], Asks (asked retiring 0x21 [id]) (req 0x21 [id]) 0x21 [id] ∧
      lengthOk 0x21 [id] = true) ∧
    31 < (byteAt [32] 0).toNat ∧
    (byteAt [30] 0).toNat ≤ 31 ∧ (retiring.surf (byteAt [30] 0).toNat).state = .free ∧
    (byteAt [31] 0).toNat ≤ 31 ∧ (retiring.surf (byteAt [31] 0).toNat).state = .retiring := by decide +kernel

/-- Two banks of two tiles, the last four of the free list. -/
theorem test_witness_Define :
    (31 : Nat) < 32 ∧ 1 ≤ 16 ∧ 16 ≤ 512 ∧ 1 ≤ 8 ∧ 8 ≤ 256 ∧ 2 = (16 + 7) / 8 * ((8 + 7) / 8) ∧
    (running.surf 31).state = .free ∧ 2 * 2 ≤ running.pool.free.length ∧
    Asks (asked running 0x20 [31, 16, 0, 8, 0, 2]) (req 0x20 [31, 16, 0, 8, 0, 2]) 0x20
      (bytesOf 1 31 ++ bytesOf 2 16 ++ bytesOf 2 8 ++ bytesOf 1 2) := by decide +kernel

/-- Each value of DEFINE one beyond its range; an id LIVE and one RETIRING; six tiles wanted of four. -/
theorem test_witness_Define_refused :
    (∀ p ∈ [(32, 8, 8, 1), (2, 0, 8, 1), (2, 513, 8, 1), (2, 8, 0, 1), (2, 8, 257, 1), (2, 8, 8, 0),
        (2, 8, 8, 3)],
      p.1 < 256 ∧ p.2.1 < 65536 ∧ p.2.2.1 < 65536 ∧ p.2.2.2 < 256 ∧
      (31 < p.1 ∨ p.2.1 < 1 ∨ 512 < p.2.1 ∨ p.2.2.1 < 1 ∨ 256 < p.2.2.1 ∨
        p.2.2.2 ≠ 1 ∧ p.2.2.2 ≠ 2)) ∧
    (shown.surf 1).defined ∧ (retiring.surf 31).state = .retiring ∧
    (6 = (24 + 7) / 8 * ((9 + 7) / 8) ∧ (running.surf 31).state = .free ∧
      running.pool.free.length < 1 * 6) ∧
    Asks (asked running 0x20 [31, 24, 0, 9, 0, 1]) (req 0x20 [31, 24, 0, 9, 0, 1]) 0x20
      (bytesOf 1 31 ++ bytesOf 2 24 ++ bytesOf 2 9 ++ bytesOf 1 1) := by decide +kernel

/-- Surface 1 not yet shown. -/
def unseen : State := shown.setSurf 1 { panel with state := .staged }

theorem test_witness_Destroy :
    ((shown.surf 1).state = .live ∧ (shown.surf 1).pendingTag = none ∧
      Asks (asked shown 0x21 [1]) (req 0x21 [1]) 0x21 (bytesOf 1 1)) ∧
    ((unseen.surf 1).state = .staged ∧ (unseen.surf 1).pendingTag = none ∧
      Asks (asked unseen 0x21 [1]) (req 0x21 [1]) 0x21 (bytesOf 1 1)) ∧
    shown.engine.step = .idle := by decide +kernel

/-- A fill of surface 0 is under way. -/
def filling : State :=
  { ticking with
    surfaces := ticking.surfaces.setIfInBounds 0 { single with fills := 1 }
    engine := ⟨[job], 4, .fill 3 0, 95988⟩ }

/-- DESTROY of surface 0 meets a step of its own, and of surface 1 a step of another. -/
theorem test_witness_Destroy_steps :
    filling.engine.stepSurface = some 0 ∧ filling.engine.step ≠ .idle ∧
    filling.engine.stepSurface ≠ some 1 := by decide +kernel

/-- Every attribute at an end of its range. -/
def attrEnds : StagedAttrs :=
  ⟨some (-1024), some 1023, some 255, some 0, some false, some 15, some 7, some 16, some 1,
    some .clear⟩

/-- Surface 1 is frozen by tag 9. -/
def frozen : State :=
  { ticking with
    surfaces := ticking.surfaces.setIfInBounds 1 { panel with dirty := true, pendingTag := some 9 }
    commits := ⟨[{ swapping with carry := true }], [⟨8, 4⟩, ⟨8, 5⟩]⟩ }

theorem test_witness_SetAttr :
    (∀ s ∈ [shown, frozen], (s.surf 1).defined ∧ (s.surf 1).width ≤ 512 ∧ (s.surf 1).height ≤ 256 ∧
      attrEnds.inRange (s.surf 1).width (s.surf 1).height ∧
      Asks (asked s 0x22 (setAttrBody 1 attrEnds)) (req 0x22 (setAttrBody 1 attrEnds)) 0x22
        (setAttrBody 1 attrEnds)) ∧
    (shown.surf 1).pendingTag = none ∧ (frozen.surf 1).pendingTag ≠ none := by decide +kernel

/-- No attribute of a SET-ATTR body. -/
def noAttrFields : AttrFields :=
  ⟨none, none, none, none, none, none, none, none, none, none, false, false⟩

/-- One value beyond each end of each range of Table 1-4, the key both ways, and the first undefined
mask bit; DESTROY of the frozen surface. -/
theorem test_witness_SetAttr_refused :
    (∀ g ∈ [{ noAttrFields with x := some (-1025) }, { noAttrFields with x := some 1024 },
        { noAttrFields with y := some (-1025) }, { noAttrFields with y := some 1024 },
        { noAttrFields with visible := some 2 }, { noAttrFields with vx := some 16 },
        { noAttrFields with vy := some 8 }, { noAttrFields with vw := some 0 },
        { noAttrFields with vw := some 17 }, { noAttrFields with vh := some 0 },
        { noAttrFields with vh := some 9 },
        { noAttrFields with keySet := some black, keyClear := true }],
      g.outOfRange (shown.surf 1).width (shown.surf 1).height ∧
      Asks (asked shown 0x22 (setAttrBodyRaw 1 g)) (req 0x22 (setAttrBodyRaw 1 g)) 0x22
        (setAttrBodyRaw 1 g)) ∧
    (lengthOk 0x22 [1, 0, 8] = true ∧ (byteAt [1, 0, 8] 0).toNat = 1 ∧
      Asks (asked shown 0x22 [1, 0, 8]) (req 0x22 [1, 0, 8]) 0x22 [1, 0, 8] ∧
      2048 ≤ fieldAt [1, 0, 8] 1 2) ∧
    (lengthOk 0x22 (setAttrBody 1 attrEnds) = true ∧
      (byteAt (setAttrBody 1 attrEnds) 0).toNat = 1) ∧
    Asks (asked frozen 0x21 [1]) (req 0x21 [1]) 0x21 (bytesOf 1 1) := by decide +kernel

theorem test_witness_Query :
    (∀ id ∈ [31, 32], Asks (asked shown 0x23 [id]) (req 0x23 [id]) 0x23 [id]) ∧
    31 < (32 : Byte).toNat ∧ (31 : Byte).toNat ≤ 31 := by decide +kernel

/-- The whole of surface 1, I8 through palette 3; slot 0 is the surface's own and is closed. -/
theorem test_witness_Open :
    (streaming.surf 1).defined ∧ (streaming.surf 1).width ≤ 512 ∧ (streaming.surf 1).height ≤ 256 ∧
    0 + 16 ≤ (streaming.surf 1).width ∧ 0 + 8 ≤ (streaming.surf 1).height ∧
    (Format.i8 = .i8 → (3 : Byte).toNat ≤ 3) ∧
    ¬ ((streaming.surf 1).banks = 2 ∧ (streaming.surf 1).pendingTag ≠ none) ∧
    (streaming.slotAt 0 = none ∨ (streaming.surf 1).stream = some 0) ∧
    (∀ i < 0, streaming.slotAt i ≠ none ∧ (streaming.surf 1).stream ≠ some i) ∧
    Asks (asked streaming 0x30 [1, 0, 0, 0, 0, 16, 0, 8, 0, 4, 3, 1, 1])
      (req 0x30 [1, 0, 0, 0, 0, 16, 0, 8, 0, 4, 3, 1, 1]) 0x30
      (bytesOf 1 1 ++ bytesOf 2 0 ++ bytesOf 2 0 ++ bytesOf 2 16 ++ bytesOf 2 8 ++
        [Format.i8.code, 3, StreamMode.stop.code, StreamOrder.up.code]) := by decide +kernel

/-- Slot 0 is taken by another surface, so surface 0 takes slot 1. -/
theorem test_witness_Open_next_slot :
    streaming.slotAt 1 = none ∧
    (∀ i < 1, streaming.slotAt i ≠ none ∧ (streaming.surf 0).stream ≠ some i) := by decide +kernel

/-- Every slot is taken, none by surface 0. -/
def noSlot : State := { shown with streams := Vector.replicate 8 (some stream) }

/-- The window, each code and the palette one beyond; a frozen surface; no free slot. -/
theorem test_witness_Open_refused :
    (∀ p ∈ [(15, 0, 2, 1, 0, 0, 0, 0), (0, 7, 1, 2, 0, 0, 0, 0), (0, 0, 0, 1, 0, 0, 0, 0),
        (0, 0, 1, 0, 0, 0, 0, 0), (0, 0, 1, 1, 5, 0, 0, 0), (0, 0, 1, 1, 4, 4, 0, 0),
        (0, 0, 1, 1, 0, 0, 2, 0), (0, 0, 1, 1, 0, 0, 0, 2)],
      let (wx, wy, ww, wh, fmt, palette, mode, order) :=
        (p : Nat × Nat × Nat × Nat × Byte × Byte × Byte × Byte)
      ww = 0 ∨ wh = 0 ∨ (shown.surf 1).width < wx + ww ∨ (shown.surf 1).height < wy + wh ∨
        4 < fmt.toNat ∨ 1 < mode.toNat ∨ 1 < order.toNat ∨ (fmt = 4 ∧ 3 < palette.toNat)) ∧
    ((frozen.surf 1).defined ∧ (frozen.surf 1).banks = 2 ∧ (frozen.surf 1).pendingTag ≠ none) ∧
    ((noSlot.surf 0).defined ∧
      ¬ ((noSlot.surf 0).banks = 2 ∧ (noSlot.surf 0).pendingTag ≠ none) ∧
      (noSlot.surf 0).stream = none ∧ ∀ i < 8, noSlot.slotAt i ≠ none) ∧
    (∀ s ∈ [frozen, noSlot], Asks (asked s 0x30 [0, 0, 0, 0, 0, 8, 0, 8, 0, 0, 0, 0, 0])
      (req 0x30 [0, 0, 0, 0, 0, 8, 0, 8, 0, 0, 0, 0, 0]) 0x30
      (bytesOf 1 0 ++ bytesOf 2 0 ++ bytesOf 2 0 ++ bytesOf 2 8 ++ bytesOf 2 8 ++
        [0, 0, 0, 0])) := by decide +kernel

/-- The cursor on the last pixel of a STOP window, with a residue of one byte. -/
def lastPixel : Stream :=
  { stream with mode := .stop, order := .up, cx := 15, cy := 0, residue := [0x1F] }

/-- `st` stands in slot 7. -/
def inSlot (st : Stream) : State :=
  (shown.setSurf 1 { panel with stream := some 7 }).setSlot 7 (some st)

theorem test_witness_Write :
    (∀ st ∈ [stream, lastPixel],
      (inSlot st).slotAt 7 = some st ∧ st.full = false ∧ st.cx < st.ww ∧ st.cy < st.wh ∧
      st.ww ≤ 512 ∧ st.wh ≤ 256 ∧ st.residue.length < st.format.bytesPerPixel ∧
      ((inSlot st).surf st.surface).fills = 0 ∧
      Asks (asked (inSlot st) 0x31 [7, 0, 0, 0xF8]) (req 0x31 [7, 0, 0, 0xF8]) 0x31
        (bytesOf 1 7 ++ bytesOf 2 st.expected.toNat ++ [0xF8])) ∧
    (lastPixel.mode = .stop ∧ lastPixel.ww * lastPixel.wh - lastPixel.place ≤ (1 + 1) / 2) ∧
    ¬ (stream.mode = .stop ∧ stream.ww * stream.wh - stream.place ≤ (0 + 1) / 2) := by decide +kernel

/-- A slot too high, a free slot, a FULL stream and a sequence number one ahead. -/
theorem test_witness_Write_refused :
    (7 : Nat) < 8 ∧ (inSlot stream).slotAt 6 = none ∧
    (∀ st ∈ [stream, { lastPixel with full := true, residue := [] }],
      (inSlot st).slotAt 7 = some st ∧ ((inSlot st).surf st.surface).fills = 0) ∧
    stream.full = false ∧ stream.expected + 1 ≠ stream.expected ∧
    (∀ slot ∈ [6, 7, 8], Asks (asked (inSlot stream) 0x31 [BitVec.ofNat 8 slot, 1, 0, 9])
      (req 0x31 [BitVec.ofNat 8 slot, 1, 0, 9]) 0x31
      (bytesOf 1 slot ++ bytesOf 2 (1 : Half).toNat ++ [9])) := by decide +kernel

/-- An L8 stream whose window is two pixels wide: the third pixel falls on the first. -/
def wrapping : Stream := { stream with format := .l8, wx := 14, wy := 7, ww := 2, wh := 1 }

theorem test_witness_WrittenPixel :
    (∀ st ∈ [lastPixel, wrapping],
      (inSlot st).slotAt 7 = some st ∧ st.full = false ∧ st.surface < 32 ∧
      st.cx < st.ww ∧ st.cy < st.wh ∧
      (∀ r ∈ [(inSlot st).surf st.surface],
        st.wx + st.ww ≤ r.width ∧ st.wy + st.wh ≤ r.height ∧
        r.front.length = tileCount r.width r.height ∧
        (r.banks = 2 → r.back.length = tileCount r.width r.height) ∧ (r.front ++ r.back).Nodup ∧
        r.fills = 0 ∧ r.banks = 2 ∧ (0 : Tile) ∉ r.drawBank) ∧
      st.residue.length < st.format.bytesPerPixel ∧
      Asks (asked (inSlot st) 0x31 [7, 0, 0, 1, 2, 3]) (req 0x31 [7, 0, 0, 1, 2, 3]) 0x31
        (bytesOf 1 7 ++ bytesOf 2 st.expected.toNat ++ [1, 2, 3])) ∧
    wrapping.pixelsOf 3 = 3 ∧
    (let spot : Nat → Nat × Nat := fun i =>
      wrapping.pixelAt ((wrapping.place + i) % (wrapping.ww * wrapping.wh))
     (∀ i ∈ [1, 2], ∀ j, i < j → j < 3 → spot j ≠ spot i) ∧ spot 2 = spot 0 ∧
      ∀ i < 3, spot i ≠ (13, 7)) := by
  refine ⟨by decide +kernel, by decide +kernel, ?_, by decide +kernel, by decide +kernel⟩
  intro i hi j h1 h2
  simp only [List.mem_cons, List.not_mem_nil, or_false] at hi
  obtain ⟨rfl, rfl⟩ : i = 1 ∧ j = 2 := by omega
  decide +kernel

/-- A stream on surface 0, whose fill is not done. -/
def waitingStream : State := filling.setSlot 2 (some { stream with surface := 0, ww := 8 })

theorem test_witness_WriteIsHeld :
    4 ≤ ([2, 0, 0, 9] : List Byte).length ∧ ([2, 0, 0, 9] : List Byte).length ≤ 1024 ∧
    waitingStream.slotAt (byteAt [2, 0, 0, 9] 0).toNat = some { stream with surface := 0, ww := 8 } ∧
    0 < (waitingStream.surf 0).fills ∧
    Asks (asked waitingStream 0x31 [2, 0, 0, 9]) (req 0x31 [2, 0, 0, 9]) 0x31 [2, 0, 0, 9] := by
  decide +kernel

/-- A held WRITE whose surface has no fill left; `orphan` after a BREAK. -/
def resumed (orphan : Bool) : State :=
  streaming.withLink { streaming.link with
    executing := some ⟨req 0x31 [0, 0, 0, 1, 2], orphan⟩ }

theorem test_witness_HeldWrite : ∀ o ∈ [false, true],
    (resumed o).control.state = .running ∧
    (resumed o).link.executing = some ⟨req 0x31 [0, 0, 0, 1, 2], o⟩ ∧
    (req 0x31 [0, 0, 0, 1, 2]).kind = 0x31 ∧ lengthOk 0x31 [0, 0, 0, 1, 2] = true ∧
    (∀ st ∈ (resumed o).slotAt (byteAt [0, 0, 0, 1, 2] 0).toNat,
      ((resumed o).surf st.surface).fills = 0) := by decide +kernel

theorem test_witness_Close :
    (∀ slot ∈ [7, 8, 6], Asks (asked (inSlot stream) 0x32 [slot]) (req 0x32 [slot]) 0x32 [slot]) ∧
    7 < (8 : Byte).toNat ∧ (6 : Byte).toNat ≤ 7 ∧ (inSlot stream).slotAt (6 : Byte).toNat = none ∧
    (7 : Byte).toNat ≤ 7 ∧ (inSlot stream).slotAt (7 : Byte).toNat = some stream ∧
    stream.residue.length < stream.format.bytesPerPixel := by decide +kernel

/-- A surface of one row of 341 pixels. -/
def wide : State :=
  running.setSurf 5 { single with width := 341, height := 1, front := List.replicate 43 4 }

theorem test_witness_Read :
    (wide.surf 5).defined ∧ (wide.surf 5).width ≤ 512 ∧ (wide.surf 5).height ≤ 256 ∧
    (0 + 341 ≤ (wide.surf 5).width ∧ 1 + 340 ≤ (wide.surf 5).width ∧ 0 + 1 ≤ (wide.surf 5).height) ∧
    Asks (asked wide 0x33 [5, 0, 0, 0, 0, 0, 0x55, 1, 1, 0])
      (req 0x33 [5, 0, 0, 0, 0, 0, 0x55, 1, 1, 0]) 0x33
      (bytesOf 1 5 ++ bytesOf 1 0 ++ bytesOf 2 0 ++ bytesOf 2 0 ++ bytesOf 2 341 ++ bytesOf 2 1) ∧
    340 < 341 * 1 ∧
    Asks (asked wide 0x33 [5, 0, 1, 0, 0, 0, 0x54, 1, 1, 0])
      (req 0x33 [5, 0, 1, 0, 0, 0, 0x54, 1, 1, 0]) 0x33
      (bytesOf 1 5 ++ bytesOf 1 0 ++ bytesOf 2 1 ++ bytesOf 2 0 ++ bytesOf 2 340 ++ bytesOf 2 1) ∧
    340 * 1 ≤ 340 := by decide +kernel

/-- A bank that surface 0 lacks, a bank that no surface has, and rectangles that are empty or one
pixel too far. -/
theorem test_witness_Read_refused :
    (∀ p ∈ [(2, 0, 0, 1, 1), (1, 0, 0, 1, 1), (0, 0, 0, 0, 1), (0, 0, 0, 1, 0), (0, 7, 0, 2, 1),
        (0, 0, 7, 1, 2)],
      let (bank, x, y, w, h) := (p : Nat × Nat × Nat × Nat × Nat)
      (1 < bank ∨ bank = 1 ∧ (shown.surf 0).banks ≠ 2 ∨ w = 0 ∨ h = 0 ∨
        (shown.surf 0).width < x + w ∨ (shown.surf 0).height < y + h) ∧
      Asks (asked shown 0x33 (bytesOf 1 0 ++ bytesOf 1 bank ++ bytesOf 2 x ++ bytesOf 2 y ++
          bytesOf 2 w ++ bytesOf 2 h))
        (req 0x33 (bytesOf 1 0 ++ bytesOf 1 bank ++ bytesOf 2 x ++ bytesOf 2 y ++
          bytesOf 2 w ++ bytesOf 2 h)) 0x33
        (bytesOf 1 0 ++ bytesOf 1 bank ++ bytesOf 2 x ++ bytesOf 2 y ++ bytesOf 2 w ++
          bytesOf 2 h)) ∧ (shown.surf 0).defined := by decide +kernel

/-! ### Witnesses: engine, commits, boundaries -/

theorem test_witness_TileSequence :
    1 ≤ (⟨15, 7, 2, 2⟩ : Rect).width ∧ 1 ≤ (⟨15, 7, 2, 2⟩ : Rect).height ∧
    (⟨15, 7, 2, 2⟩ : Rect).x + (⟨15, 7, 2, 2⟩ : Rect).width ≤ 17 ∧
    (⟨15, 7, 2, 2⟩ : Rect).y + (⟨15, 7, 2, 2⟩ : Rect).height ≤ 9 := by decide +kernel

theorem test_witness_Fill :
    (∀ s ∈ [shown, filling], (s.surf 1).defined ∧ (s.surf 1).width ≤ 512 ∧ (s.surf 1).height ≤ 256 ∧
      15 + 1 ≤ (s.surf 1).width ∧ 0 + 8 ≤ (s.surf 1).height ∧
      ¬ ((s.surf 1).banks = 2 ∧ (s.surf 1).pendingTag ≠ none) ∧ s.engine.jobs.length < 4 ∧
      Asks (asked s 0x34 [1, 15, 0, 0, 0, 1, 0, 8, 0, 1, 2, 3])
        (req 0x34 [1, 15, 0, 0, 0, 1, 0, 8, 0, 1, 2, 3]) 0x34
        (bytesOf 1 1 ++ bytesOf 2 15 ++ bytesOf 2 0 ++ bytesOf 2 1 ++ bytesOf 2 8 ++
          colourBytes ⟨1, 2, 3⟩)) ∧
    shown.engine.step = .idle ∧ shown.engine.jobs = [] ∧ filling.engine.step ≠ .idle := by decide +kernel

/-- The queue holds four jobs. -/
def engineFull : State := { filling with engine := ⟨List.replicate 4 job, 4, .fill 3 0, 95988⟩ }

/-- Empty rectangles and rectangles one pixel too far, a frozen surface, and a full queue. -/
theorem test_witness_Fill_refused :
    (∀ p ∈ [(0, 0, 0, 1), (0, 0, 1, 0), (15, 0, 2, 1), (0, 7, 1, 2)],
      let (x, y, w, h) := (p : Nat × Nat × Nat × Nat)
      w = 0 ∨ h = 0 ∨ (shown.surf 1).width < x + w ∨ (shown.surf 1).height < y + h) ∧
    ((frozen.surf 1).banks = 2 ∧ (frozen.surf 1).pendingTag ≠ none) ∧
    (¬ ((engineFull.surf 1).banks = 2 ∧ (engineFull.surf 1).pendingTag ≠ none) ∧
      4 ≤ engineFull.engine.jobs.length) ∧
    (∀ s ∈ [shown, frozen, engineFull], (s.surf 1).defined ∧
      Asks (asked s 0x34 [1, 15, 0, 7, 0, 1, 0, 1, 0, 1, 2, 3])
        (req 0x34 [1, 15, 0, 7, 0, 1, 0, 1, 0, 1, 2, 3]) 0x34
        (bytesOf 1 1 ++ bytesOf 2 15 ++ bytesOf 2 7 ++ bytesOf 2 1 ++ bytesOf 2 1 ++
          colourBytes ⟨1, 2, 3⟩)) := by decide +kernel

/-- A carry copy of tile 3, position 1 of surface 1, whose 1.0 µs are over; tile 1 is DATA. -/
def copying : State :=
  { ticking with
    surfaces := ticking.surfaces.setIfInBounds 1 { panel with stale := 1 }
    pool := (ticking.pool.setContent 3 .stale).setContent 1 .data
    engine := ⟨[], 0, .copy 1 1, 95976⟩ }

/-- The three content states, read at position 1 of the back bank and at position 0 of each bank; and
what the arbiter finds: a STALE tile of surface 1 behind one that is not, a job, and nothing. -/
theorem test_witness_Contents_and_choice :
    ((copying.surf 1).back[7 / 8 * ((16 + 7) / 8) + 15 / 8]? = some 3 ∧
      copying.pool.contentOf 3 = .stale ∧ (copying.surf 1).front[1]? = some 1 ∧
      copying.pool.contentOf 1 ≠ .stale ∧ copying.pool.contentOf 1 = .data ∧
      (copying.surf 1).back[0]? = some 2 ∧ copying.pool.contentOf 2 = .blank) ∧
    (0 < (copying.surf 1).stale ∧ (∀ i < 1, (copying.surf i).stale = 0) ∧
      ∀ p < 1, (copying.surf 1).back[p]? = some 2) ∧
    ((∀ id < 32, (filling.surf id).stale = 0) ∧ filling.engine.jobs = job :: [] ∧
      job.tiles[job.progress]? = some (0, true)) ∧
    ((∀ id < 32, (shown.surf id).stale = 0) ∧ shown.engine.jobs = []) := by decide +kernel

/-- R44 of a state, its last clause bounded. -/
theorem freezeLaw_of {s : State}
    (h : (s.commits.queue.map (·.tag)).Nodup ∧ (s.commits.queue.flatMap (·.surfaces)).Nodup ∧
      s.commits.queue.countP (·.canvas) ≤ 1 ∧ s.commits.queue.countP (·.curve) ≤ 1 ∧
      (∀ c ∈ s.commits.queue, ∀ id ∈ c.surfaces,
        id < 32 ∧ (s.surf id).pendingTag = some c.tag ∧ (s.surf id).defined) ∧
      ∀ id < 32, (s.surf id).pendingTag.all (fun tag =>
        s.commits.queue.any (fun c => c.tag == tag && c.surfaces.contains id)) = true) :
    FreezeLaw s :=
  ⟨h.1, h.2.1, h.2.2.1, h.2.2.2.1, h.2.2.2.2.1, fun id hid tag ht => by
    simpa [ht] using h.2.2.2.2.2 id hid⟩

/-- R46 and R48 of a commit, its target read as data. -/
theorem isReady_of {s : State} {n : Word} {c : Commit} (h : s.owesNothing c ∧
    c.target.all (fun t => decide ((n - t).toNat < 2 ^ 31)) = true) : s.isReady n c :=
  ⟨h.1, fun t ht => by simpa [Option.mem_def.1 ht] using h.2⟩

/-- The head of a STOPPED part is due, its target read as data. -/
theorem headIsDue_of {s : State} (h : s.timing.state = .stopped ∧
    ∃ c ∈ s.commits.queue.head?, c.canvas = true ∧ s.owesNothing c ∧
      c.target.all (fun t => decide ((s.stoppedFrame - t).toNat < 2 ^ 31)) = true) : s.headIsDue :=
  ⟨h.1, let ⟨c, hc, hk, hr⟩ := h.2; ⟨c, hc, hk, isReady_of hr⟩⟩

/-- A STOPPED part with a commit of surfaces 0 and 1 at its head, and the canvas of `mode` staged. -/
def stopped (mode : SyncMode) (panelNow singleNow : Surface) : State :=
  { shown with
    now := 96000
    surfaces := (shown.surfaces.setIfInBounds 1 { panelNow with pendingTag := some 9 }).setIfInBounds
      0 { singleNow with pendingTag := some 9 }
    scan := { scanReset with
      staged := ⟨some 8, some 8, some black, some mode, some 4000, some .rise⟩ }
    commits := ⟨[⟨9, true, true, false, none, [0, 1]⟩], []⟩ }

/-- The last STALE tile of the head's surfaces is being copied on a STOPPED part. -/
def copyingStopped : State :=
  { stopped .internal { panel with dirty := true, stale := 1 } single with
    pool := copying.pool, engine := ⟨[], 0, .copy 1 1, 95976⟩ }

/-- The tile has been resolved meanwhile. -/
def copyingResolved : State := { copying with pool := copying.pool.setContent 3 .data }

theorem test_witness_CarryCopy :
    (∀ s ∈ [copying, copyingResolved, copyingStopped],
      s.engine.step = .copy 1 1 ∧ s.engine.since + 24 ≤ s.now ∧ (s.surf 1).back[1]? = some 3 ∧
      (s.surf 1).front[1]? = some 1 ∧ (3 : Tile) ≠ 1 ∧ s.pool.contentOf 1 ≠ .stale) ∧
    (copying.pool.contentOf 3 = .stale ∧ copying.pool.contentOf 1 = .data) ∧
    copyingResolved.pool.contentOf 3 ≠ .stale ∧
    copyingStopped.pool.contentOf 3 = .stale ∧ (copyingStopped.surf 1).stale = 1 ∧
    (∃ c ∈ copyingStopped.commits.queue.head?, 1 ∈ c.surfaces) := by decide +kernel

/-- DESTROY of the surface of a COPY in progress: its tile becomes BLANK, resolved or not. -/
theorem test_destroy_blanks_the_copied_tile : (∀ s ∈ [copying, copyingResolved],
    (s.surf 1).state = .live ∧ (s.surf 1).pendingTag = none ∧
    Asks (asked s 0x21 [1]) (req 0x21 [1]) 0x21 (bytesOf 1 1) ∧
    after (exec .destroy (asked s 0x21 [1]))
      (fun t => t.pool.contentOf 3 == .blank && t.pool.contentOf 1 == .data &&
        t.engine.step == .idle) = true) := by decide +kernel

theorem test_witness_CarryCopy_due :
    ({ copyingStopped with
        engine := { copyingStopped.engine with step := .idle }
        surfaces := copyingStopped.surfaces.setIfInBounds 1
          { copyingStopped.surf 1 with stale := (copyingStopped.surf 1).stale - 1 } } :
      State).headIsDue := headIsDue_of (by decide +kernel)

theorem test_witness_CarryCopy_freeze :
    FreezeLaw copying ∧ FreezeLaw copyingResolved ∧ FreezeLaw copyingStopped :=
  ⟨freezeLaw_of (by decide +kernel), freezeLaw_of (by decide +kernel), freezeLaw_of (by decide +kernel)⟩

/-- A job of two tiles on surface 1, its first in part. -/
def longJob : FillJob := ⟨3, 1, 1, 0, 15, 8, ⟨1, 2, 3⟩, [(0, false), (1, true)], 0⟩

/-- Its first step is over. -/
def fillingLong : State := { filling with engine := ⟨[longJob], 4, .fill 3 0, 95988⟩ }

/-- The last fill of the head's surfaces is at its last tile on a STOPPED part. -/
def fillingStopped : State :=
  { stopped .off panel { single with fills := 1 } with engine := filling.engine }

theorem test_witness_FillStep :
    (∀ s ∈ [filling, fillingStopped],
      s.engine.step = .fill job.number 0 ∧ s.engine.since + 12 ≤ s.now ∧ s.engine.jobs = job :: [] ∧
      job.tiles[job.progress]? = some (0, true) ∧ job.surface < 32 ∧
      (s.surf job.surface).drawBank[0]? = some 4 ∧ s.pool.contentOf 4 ≠ .stale ∧
      job.progress + 1 = job.tiles.length) ∧
    ¬ (∃ c ∈ filling.commits.queue.head?, job.surface ∈ c.surfaces) ∧
    (∃ c ∈ fillingStopped.commits.queue.head?, job.surface ∈ c.surfaces) ∧
    (fillingLong.engine.step = .fill longJob.number 0 ∧
      fillingLong.engine.since + 12 ≤ fillingLong.now ∧
      fillingLong.engine.jobs = longJob :: [] ∧
      longJob.tiles[longJob.progress]? = some (0, false) ∧ longJob.surface < 32 ∧
      (fillingLong.surf longJob.surface).drawBank[0]? = some 2 ∧
      fillingLong.pool.contentOf 2 ≠ .stale ∧
      longJob.progress + 1 ≠ longJob.tiles.length) := by decide +kernel

theorem test_witness_FillStep_due :
    ({ fillingStopped with
        engine := { fillingStopped.engine with step := .idle, jobs := [] }
        surfaces := fillingStopped.surfaces.setIfInBounds 0
          { fillingStopped.surf 0 with fills := (fillingStopped.surf 0).fills - 1 } } :
      State).headIsDue := headIsDue_of (by decide +kernel)

theorem test_witness_FillStep_freeze :
    FreezeLaw filling ∧ FreezeLaw fillingStopped ∧ FreezeLaw fillingLong :=
  ⟨freezeLaw_of (by decide +kernel), freezeLaw_of (by decide +kernel), freezeLaw_of (by decide +kernel)⟩

/-- A commit of everything, with the farthest target. -/
def whole : Commit := ⟨65535, true, true, true, some 65540, [0, 1]⟩

/-- A commit with the tag 10. -/
def tagged (canvas curve : Bool) (ids : List Nat) : Commit := ⟨10, false, canvas, curve, none, ids⟩

/-- Table 3-2 passed, the target read as data. -/
theorem acceptsCommit_of {s : State} {c : Commit}
    (h : (s.commits.queue.length < 4 ∧ (∀ d ∈ s.commits.queue, d.tag ≠ c.tag) ∧
      (c.surfaces ≠ [] ∨ c.canvas = true ∨ c.curve = true) ∧
      (s.timing.state = .stopped → c.canvas = true) ∧
      (c.canvas = true → ¬ s.scan.lacksRequired) ∧
      (c.canvas = true → ∀ d ∈ s.commits.queue, d.canvas = false) ∧
      (c.curve = true → ∀ d ∈ s.commits.queue, d.curve = false) ∧ c.surfaces.Nodup ∧
      (∀ id ∈ c.surfaces, id < 32 ∧ (s.surf id).defined ∧ (s.surf id).pendingTag = none ∧
        ¬ ((s.surf id).banks = 2 ∧ (s.surf id).stream ≠ none))) ∧
      c.target.all (fun t => decide ((t - s.timing.frame).toNat ≤ 65535)) = true) :
    s.acceptsCommit c :=
  let ⟨⟨h1, h2, h3, h4, h5, h6, h7, h8, h9⟩, ht⟩ := h
  ⟨h1, h2, h3, h4, h5, h6, h7, h8, h9, fun t hm => by simpa [Option.mem_def.1 hm] using ht⟩

/-- Four pending commits. -/
def queueFull : State := { ticking with commits := ⟨List.replicate 4 swapping, []⟩ }

/-- Checks 1 to 4 of COMMIT, each failing: an undefined flag, an id and a count one too high, nothing
to do, four pending, the tag of the pending one. -/
theorem test_witness_Commit_refused_1 :
    (lengthOk 0x40 [1, 0, 16, 0] = true ∧
      Asks (asked ticking 0x40 [1, 0, 16, 0]) (req 0x40 [1, 0, 16, 0]) 0x40 [1, 0, 16, 0] ∧
      16 ≤ fieldAt [1, 0, 16, 0] 2 1) ∧
    ((tagged true false [32]).surfaces.length < 256 ∧
      (∀ id ∈ (tagged true false [32]).surfaces, id < 256) ∧
      ∃ id ∈ (tagged true false [32]).surfaces, 31 < id) ∧
    32 < (tagged true false (List.replicate 33 1)).surfaces.length ∧
    ((tagged false false []).surfaces = [] ∧ (tagged false false []).canvas = false ∧
      (tagged false false []).curve = false) ∧
    4 ≤ queueFull.commits.queue.length ∧
    (frozen.commits.queue.length < 4 ∧
      frozen.commits.queue[0]? = some { swapping with carry := true } ∧
      swapping.tag = { swapping with tag := 9 }.tag) ∧
    (∀ c ∈ [tagged false false [1], tagged true true [0, 1], swapping],
      c.surfaces.length < 256 ∧ (∀ id ∈ c.surfaces, id < 32) ∧ c.surfaces.length ≤ 32 ∧
      (c.surfaces ≠ [] ∨ c.canvas = true ∨ c.curve = true) ∧
      Asks (asked ticking 0x40 (commitBody c)) (req 0x40 (commitBody c)) 0x40 (commitBody c)) := by
  decide +kernel

/-- Checks 5 to 7: a STOPPED part, no canvas, and CANVAS and CURVE held. -/
theorem test_witness_Commit_refused_2 :
    (shown.timing.state = .stopped ∧ (tagged false false [1]).canvas = false ∧
      ∀ d ∈ shown.commits.queue, d.tag ≠ 10) ∧
    ((tagged true false []).canvas = true ∧ shown.scan.lacksRequired) ∧
    (held.clockRuns ∧ ¬ held.scan.lacksRequired ∧ (∀ d ∈ held.commits.queue, d.tag ≠ 10) ∧
      ∀ d ∈ held.commits.queue, d.canvas = true ∧ d.curve = true) ∧
    held.commits.queue ≠ [] := by decide +kernel

theorem test_witness_Commit_refused_freeze : FreezeLaw held := freezeLaw_of (by decide +kernel)

/-- Surface 1 has an open stream while the clock runs. -/
def streamingTicking : State :=
  { ticking with surfaces := streaming.surfaces, streams := streaming.streams }

/-- Checks 8 to 12: an id twice, a FREE and a RETIRING one, a frozen one, an open stream, a target one
frame too far; each behind a surface that passes. -/
theorem test_witness_Commit_refused_3 :
    ([1] ++ 1 :: [] = (tagged false false [1, 1]).surfaces ∧ ([1] : List Nat).Nodup ∧
      1 ∈ ([1] : List Nat)) ∧
    ((∀ i ∈ ([1] : List Nat), (ticking.surf i).defined) ∧ (ticking.surf 5).state = .free ∧
      (tagged false false [1, 5]).surfaces = [1] ++ 5 :: []) ∧
    ((∀ i ∈ ([1] : List Nat), (ticking.surf i).defined) ∧ (retiring.surf 31).state = .retiring) ∧
    ((∀ id ∈ [0, 1], (frozen.surf id).defined) ∧
      (∀ i ∈ ([0] : List Nat), (frozen.surf i).pendingTag = none) ∧
      (frozen.surf 1).pendingTag = some 9 ∧ ∀ d ∈ frozen.commits.queue, d.tag ≠ 10) ∧
    ((∀ id ∈ [0, 1], (streamingTicking.surf id).defined ∧
        (streamingTicking.surf id).pendingTag = none) ∧
      (∀ i ∈ ([0] : List Nat),
        ¬ ((streamingTicking.surf i).banks = 2 ∧ (streamingTicking.surf i).stream ≠ none)) ∧
      (streamingTicking.surf 1).banks = 2 ∧ (streamingTicking.surf 1).stream = some 0) ∧
    65535 < ((65541 : Word) - ticking.timing.frame).toNat := by decide +kernel

/-- A STOPPED part with a commit at its head that is not CANVAS. -/
def stoppedBehind : State :=
  { frozen with
    timing := timingReset
    scan := { scanReset with
      staged := ⟨some 8, some 8, some black, some .internal, some 4000, some .rise⟩ } }

/-- The number of `stopped` frames is far from the target. -/
def later : Commit := ⟨10, false, true, false, some 65535, []⟩

theorem test_witness_CommitJoins :
    ticking.acceptsCommit whole ∧ stoppedBehind.acceptsCommit (tagged true false [0]) ∧
    ({ stoppedBehind with commits := commitsReset, surfaces := shown.surfaces } :
      State).acceptsCommit later :=
  ⟨acceptsCommit_of (by decide +kernel), acceptsCommit_of (by decide +kernel),
    acceptsCommit_of (by decide +kernel)⟩

/-- The commit of the STOPPED part stands behind another, or is not ready. -/
theorem test_witness_CommitJoins_waits :
    (ticking.clockRuns ∧ stoppedBehind.commits.queue ≠ [] ∧
      Asks (asked ticking 0x40 (commitBody whole)) (req 0x40 (commitBody whole)) 0x40
        (commitBody whole) ∧
      Asks (asked stoppedBehind 0x40 (commitBody (tagged true false [0])))
        (req 0x40 (commitBody (tagged true false [0]))) 0x40 (commitBody (tagged true false [0]))) ∧
    ¬ ({ stoppedBehind with commits := commitsReset, surfaces := shown.surfaces } :
      State).isReady stoppedBehind.stoppedFrame later :=
  ⟨by decide +kernel, fun h => absurd (h.2 65535 rfl) (by decide +kernel)⟩

/-- A first canvas is staged on a STOPPED part. -/
def staged : State :=
  shown.withScan { shown.scan with
    staged := ⟨some 8, some 8, some black, some .internal, some 4000, some .rise⟩ }

/-- The live canvas has the mode OFF, and a mode is staged. -/
def stagedMode (mode : SyncMode) : State :=
  shown.withScan { shown.scan with
    live := some { canvas with mode := .off }
    staged := { stagedCanvasNone with mode := some mode } }

/-- A first canvas, a restart, and a canvas that leaves the mode OFF. -/
theorem test_witness_CommitStarts :
    (∀ s ∈ [staged, stagedMode .external, stagedMode .off],
      s.timing.state = .stopped ∧ s.commits.queue = [] ∧
      Asks (asked s 0x40 (commitBody (tagged true true [0, 1])))
        (req 0x40 (commitBody (tagged true true [0, 1]))) 0x40
        (commitBody (tagged true true [0, 1]))) ∧
    (staged.scan.canvasAfter.mode ≠ .off ∧ staged.scan.live = none) ∧
    ((stagedMode .external).scan.canvasAfter.mode ≠ .off ∧
      ∃ g ∈ (stagedMode .external).scan.live, g.mode = .off) ∧
    (stagedMode .off).scan.canvasAfter.mode = .off := by decide +kernel

theorem test_witness_CommitStarts_ready (s : State)
    (h : s = staged ∨ s = stagedMode .external ∨ s = stagedMode .off) :
    s.acceptsCommit (tagged true true [0, 1]) ∧
      s.isReady s.stoppedFrame (tagged true true [0, 1]) := by
  obtain rfl | rfl | rfl := h <;>
    exact ⟨acceptsCommit_of (by decide +kernel), isReady_of (by decide +kernel)⟩

theorem test_witness_Cancel_asks (tag : Half) :
    Asks (asked frozen 0x41 (bytesOf 2 tag.toNat)) (req 0x41 (bytesOf 2 tag.toNat)) 0x41
      (bytesOf 2 tag.toNat) := asked_asks _ _ _ rfl rfl

/-- A STOPPED part whose second commit carries CANVAS and is ready. -/
def cancelStopped : State :=
  { stoppedBehind with
    commits := ⟨[{ swapping with carry := true }, tagged true false [0]], []⟩
    surfaces := frozen.surfaces.setIfInBounds 0 { single with pendingTag := some 10 } }

theorem test_witness_Cancel :
    (frozen.commits.queue[0]? = some { swapping with carry := true } ∧ frozen.clockRuns) ∧
    (cancelStopped.commits.queue[1]? = some (tagged true false [0]) ∧ 0 < 1 ∧
      ∀ d ∈ cancelStopped.commits.queue[0]?, d.tag ≠ 10) ∧
    cancelStopped.commits.queue[0]? = some { swapping with carry := true } ∧
    ((∀ d ∈ frozen.commits.queue, d.tag ≠ 8) ∧
      frozen.commits.applied = [⟨8, 4⟩] ++ (⟨8, 5⟩ : Applied) :: [] ∧
      (∀ d ∈ ([] : List Applied), d.tag ≠ 8)) ∧
    ((∀ d ∈ frozen.commits.queue, d.tag ≠ 7) ∧ ∀ e ∈ frozen.commits.applied, e.tag ≠ 7) := by
  decide +kernel

theorem test_witness_Cancel_due :
    ({ cancelStopped with
        commits := { cancelStopped.commits with queue := cancelStopped.commits.queue.eraseIdx 0 }
        surfaces := cancelStopped.surfaces.setIfInBounds 1
          { cancelStopped.surf 1 with pendingTag := none } } : State).headIsDue :=
  headIsDue_of (by decide +kernel)

theorem test_witness_Cancel_stopped_asks (tag : Half) :
    Asks (asked cancelStopped 0x41 (bytesOf 2 tag.toNat)) (req 0x41 (bytesOf 2 tag.toNat)) 0x41
      (bytesOf 2 tag.toNat) := asked_asks _ _ _ rfl rfl

theorem test_witness_Cancel_freeze : FreezeLaw cancelStopped := freezeLaw_of (by decide +kernel)

theorem test_witness_TimerExpiry :
    ticking.timing.state = .freeRun ∧ ticking.scan.live = some canvas ∧
    ticking.timing.lastBoundary = some 0 ∧ ticking.timing.fsy = true ∧ 0 + 24 * 4 ≤ ticking.now ∧
    0 + 24 * canvas.period ≤ ticking.now ∧ ticking.commits.queue = [] ∧ ticking.noneRetiring ∧
    ticking.engineBusy := by decide +kernel

/-- FSY at its last moment, and one before, in a running and in a STOPPED part. -/
theorem test_witness_Fsy :
    (∀ s ∈ [following .locked 96 none 0, following .stopped 96 none 0],
      s.timing.lastBoundary = some 0 ∧ s.timing.fsy = true ∧ 0 + 24 * 4 ≤ s.now) ∧
    (following .stopped 95 none 0).now < 0 + 24 * 4 := by decide +kernel

/-- Two commits are pending: one swaps surface 1 with CARRY, the other has CANVAS and CURVE. The
staged canvas stops the clock. -/
def pendingTwo (s : State) : State :=
  { s with
    surfaces := frozen.surfaces.setIfInBounds 0 { single with pendingTag := some 10 }
    commits := ⟨[{ swapping with carry := true }, { tagged true true [0] with target := some 6 }], []⟩
    colours := { coloursReset with modified := true }
    scan := { s.scan with staged := { stagedCanvasNone with mode := some .off } } }

theorem test_witness_BoundaryApplies :
    (∀ s ∈ [pendingTwo ticking, pendingTwo (following .seeking 96000 none 0),
        pendingTwo (following .locked 120000 none 0), pendingTwo (following .locked 84000 none 0),
        pendingTwo (following .seeking 84000 (some 0) 1)],
      s.scan.live = some canvas ∧ s.timing.lastBoundary = some 0 ∧
      ∀ c ∈ s.commits.queue, s.owesNothing c ∧
        c.target.all (fun t => decide ((s.timing.frame + 1 - t).toNat < 2 ^ 31)) = true) ∧
    (ticking.timing.state = .freeRun ∧ 0 + 24 * canvas.period ≤ 96000) ∧
    0 + 30 * canvas.period ≤ 120000 ∧
    (0 + 21 * canvas.period ≤ 84000 ∧ 84000 ≤ 0 + 27 * canvas.period ∧
      0 + 12 * canvas.period ≤ 84000) := by decide +kernel

theorem test_witness_BoundaryApplies_freeze :
    FreezeLaw (pendingTwo ticking) ∧ FreezeLaw (pendingTwo (following .seeking 96000 none 0)) ∧
    FreezeLaw (pendingTwo (following .locked 120000 none 0)) ∧
    FreezeLaw (pendingTwo (following .locked 84000 none 0)) ∧
    FreezeLaw (pendingTwo (following .seeking 84000 (some 0) 1)) := by
  refine ⟨?_, ?_, ?_, ?_, ?_⟩ <;> exact freezeLaw_of (by decide +kernel)

/-- The second commit stops the clock: the part is STOPPED behind this boundary, with nothing left
pending and the record at its two entries. -/
theorem test_boundary_stops : after (exec .internalTimerExpiry (pendingTwo ticking))
    (fun t => t.timing.state == .stopped && t.timing.frame == 6 && t.commits.queue == [] &&
      t.commits.applied == [⟨9, 6⟩, ⟨10, 6⟩] && !t.colours.modified && !t.scan.scanning) = true := by
  decide +kernel

/-- A boundary is due while surface 31 is RETIRING. -/
def retiringDue : State := { ticking with surfaces := retiring.surfaces }

theorem test_witness_BoundaryRetires :
    retiringDue.timing.state = .freeRun ∧ retiringDue.scan.live = some canvas ∧
    retiringDue.timing.lastBoundary = some 0 ∧ 0 + 24 * canvas.period ≤ retiringDue.now ∧
    retiringDue.commits.queue = [] ∧ (retiringDue.surf 31).state = .retiring := by decide +kernel

/-- 21P and 27P in 24ths of a microsecond are the ends of a good interval; 12P is P/2. -/
theorem test_witness_FinEdges :
    (∀ s ∈ [ticking, following .seeking 83999 (some 0) 0, following .seeking 108001 (some 0) 0,
        following .seeking 84000 (some 0) 0, following .seeking 108000 (some 0) 0,
        following .locked 83999 (some 0) 0],
      s.scan.live = some canvas ∧ s.timing.lastBoundary = some 0 ∧ 0 ≤ s.now) ∧
    (Edge.fall ≠ canvas.edge ∧ ticking.timing.state = .freeRun) ∧
    (Edge.rise = canvas.edge ∧
      (∀ e ∈ (following .seeking 83999 (some 0) 0).timing.lastEdge,
        83999 < e + 21 * canvas.period ∨ e + 27 * canvas.period < 83999) ∧
      (∀ e ∈ (following .seeking 108001 (some 0) 0).timing.lastEdge,
        108001 < e + 21 * canvas.period ∨ e + 27 * canvas.period < 108001)) ∧
    (0 + 21 * canvas.period ≤ 84000 ∧ 108000 ≤ 0 + 27 * canvas.period) ∧
    83999 < 0 + 21 * canvas.period := by decide +kernel

/-- An edge with a good interval, one 24th of a microsecond before P/2 after the last boundary. -/
def lockingEarly : State :=
  { following .seeking 132000 none 0 with
    timing := ⟨.seeking, 5, some 84001, some 48000, 1, 0, 1, true⟩ }

theorem test_witness_FinEdges_lock :
    lockingEarly.scan.live = some canvas ∧ lockingEarly.timing.lastBoundary = some 84001 ∧
    84001 ≤ lockingEarly.now ∧ lockingEarly.timing.state = .seeking ∧
    lockingEarly.timing.lastEdge = some 48000 ∧ 48000 + 21 * canvas.period ≤ lockingEarly.now ∧
    lockingEarly.now ≤ 48000 + 27 * canvas.period ∧ lockingEarly.timing.good = 1 ∧
    lockingEarly.now < 84001 + 12 * canvas.period := by decide +kernel

theorem test_witness_LockingLossAndAccepted :
    (∀ s ∈ [following .seeking 84000 (some 0) 1, following .locked 84000 (some 0) 0,
        following .locked 120000 (some 0) 0],
      s.scan.live = some canvas ∧ s.timing.lastBoundary = some 0 ∧ s.commits.queue = [] ∧
      s.noneRetiring ∧ s.engineBusy) ∧
    0 + 21 * canvas.period ≤ 84000 ∧ 84000 ≤ 0 + 27 * canvas.period ∧ 0 + 12 * canvas.period ≤ 84000 ∧
    0 + 30 * canvas.period ≤ 120000 := by decide +kernel

/-- The slot of line 7, the last, begins 7 × 3500 µs / 8 after the boundary. -/
def lastLine : State :=
  { ticking with now := 73500, scan := { ticking.scan with nextLine := some 7 } }

/-- The last line is being driven since its slot began. -/
def driving : State :=
  { lastLine with scan := { lastLine.scan with
      driven := some ⟨7, false, List.replicate 8 ⟨1, 2, 3⟩, 73500⟩ } }

theorem test_witness_LineSlot :
    (lastLine.scan.scanning = true ∧ lastLine.scan.nextLine = some 7 ∧
      lastLine.scan.live = some canvas ∧ 7 < canvas.height ∧
      lastLine.scan.slot = some ⟨7 * canvas.period, 8 * canvas.height⟩ ∧
      lastLine.timing.lastBoundary = some 0 ∧
      24 * 7 * (7 * canvas.period) + 8 * canvas.height * 0 ≤ 8 * canvas.height * lastLine.now) ∧
    lastLine.scan.driven = none ∧
    (driving.scan.driven = some ⟨7, false, List.replicate 8 ⟨1, 2, 3⟩, 73500⟩ ∧
      driving.scan.slot = some ⟨7 * canvas.period, 8 * canvas.height⟩ ∧
      driving.timing.lastBoundary = some 0 ∧ 73500 ≤ driving.now ∧
      ¬ (24 * (7 + 1) * (7 * canvas.period) + 8 * canvas.height * 0 ≤
        8 * canvas.height * (driving.now + 2)) ∧
      24 * (7 + 1) * (7 * canvas.period) + 8 * canvas.height * 0 ≤
        8 * canvas.height * (83998 + 2)) := by
  decide +kernel

/-- R120, R121: in the last moment of its slot all of the line has been given and the bus rests. -/
theorem test_line_is_whole_in_its_slot :
    ({ driving with now := 83999 } : State).busEvents =
      .lineStart false :: (List.replicate 8 (BusEvent.pixel ⟨1, 2, 3⟩) ++ [.rest]) ∧
    ({ driving with now := 83999 } : State).busLevels = busAtRest := by decide +kernel

/-- The source pixel at the far corner of the panel is the key colour; one column on is not covered. -/
theorem test_witness_Composition :
    (panel.live.x ≤ ((15 : Nat) : Int) ∧ ((15 : Nat) : Int) < panel.live.x + panel.live.vw ∧
      panel.live.y ≤ ((7 : Nat) : Int) ∧ ((7 : Nat) : Int) < panel.live.y + panel.live.vh) ∧
    ¬ (((16 : Nat) : Int) < panel.live.x + panel.live.vw) ∧ 1 ≤ panel.width ∧ 1 ≤ panel.height ∧
    (some black : Option Rgb) = some (shown.readPixel panel panel.front 15 7) ∧
    panel.live.key ≠ some (shown.readPixel panel panel.front 15 7) := by decide +kernel

theorem test_witness_Blend :
    ({ panel with live := { panel.live with opacity := 0 } } : Surface).live.opacity = 0 ∧
    panel.coversPixel 15 7 = true ∧ single.coversPixel 7 7 = true ∧ panel.live.key = none ∧
    single.live.key = none := by decide +kernel

/-! ### Witnesses: the laws -/

/-- The running part of these tests with every other tile on the free list and a command waiting. -/
def lawful : State :=
  { ticking with
    pending := [.fsyPulseEnd]
    pool := ⟨(List.finRange 4096).drop 5, [], []⟩ }

theorem test_lawful_link : LinkLaw lawful := by unfold LinkLaw; decide

theorem test_lawful_queue : QueueLaw lawful := by unfold QueueLaw; decide

/-- The tiles behind the first `n`, and those `n` in any order, are all the tiles. -/
theorem drop_append_perm (all banks : List Tile) (n : Nat) (h : banks.Perm (all.take n)) :
    (all.drop n ++ banks).Perm all := by
  have p : (all.drop n ++ all.take n).Perm (all.take n ++ all.drop n) := List.perm_append_comm
  rw [List.take_append_drop] at p
  exact (h.append_left _).trans p

theorem test_lawful_tiles : TileLaw lawful := by
  refine ⟨?_, by decide +kernel⟩
  have h1 : (List.finRange 4096).take 5 = [0, 1, 2, 3, 4] := by
    refine List.ext_getElem (by simp) (fun i h _ => ?_)
    have hi : i < 5 := by simpa using h
    simp only [List.getElem_take, List.getElem_finRange]
    interval_cases i <;> rfl
  have h2 : lawful.bankTiles = [4, 0, 1, 2, 3] := by decide +kernel
  have h3 : lawful.bankTiles.Perm ((List.finRange 4096).take 5) := by rw [h1, h2]; decide
  have hf : lawful.pool.free = (List.finRange 4096).drop 5 := by simp only [lawful]
  rw [hf]
  generalize List.finRange 4096 = all at h3 ⊢
  exact drop_append_perm all lawful.bankTiles 5 h3

theorem test_lawful_stale : StaleLaw lawful := by
  refine ⟨by decide +kernel, ?_⟩
  intro t h
  exact absurd h (by simp [lawful, Pool.contentOf, storeRead, contentDefault])

theorem lawful_no_stream : (∀ i < 8, lawful.slotAt i = none) ∧
    ∀ id < 32, (lawful.surf id).stream = none ∧ (lawful.surf id).pendingTag = none := by
  decide +kernel

theorem test_lawful_streams : StreamLaw lawful := by
  refine ⟨?_, ?_⟩
  · intro i hi st h; rw [lawful_no_stream.1 i hi] at h; cases h
  · intro id hid i h; rw [(lawful_no_stream.2 id hid).1] at h; cases h

theorem test_lawful_freeze : FreezeLaw lawful := by
  refine ⟨by decide +kernel, by decide +kernel, by decide +kernel, by decide +kernel, by decide +kernel, ?_⟩
  intro id hid tag h; rw [(lawful_no_stream.2 id hid).2] at h; cases h

theorem test_lawful_curves : CurveLaw lawful ∧ StoreLaw lawful := by
  unfold CurveLaw StoreLaw; decide

/-- HELD, with RSTN rising. -/
theorem test_held_law : HeldLaw { State.reset with pending := [.rstnRelease] } :=
  ⟨by decide +kernel, fun _ => by simp [State.reset]⟩

/-- The steps that the laws are about are taken. -/
theorem test_lawful_steps : (∃ t, step lawful = .next t) ∧
    ∃ t, step { State.reset with pending := [.rstnRelease] } = .next t :=
  ⟨step_next _, step_next _⟩

/-- Surface 1 is double-banked, the clock runs, and the step counts no frame. -/
theorem test_lawful_front : lawful.clockRuns ∧ (lawful.surf 1).banks = 2 ∧
    (lawful.surf 1).state ≠ .free ∧
    after (step lawful) (fun t => t.timing.frame == lawful.timing.frame &&
      (t.surf 1).state != .free) = true := by decide +kernel

end Sys2Proof.Tests
end

section
/-! PROOFS. CLOSE (R76): what its block answers for each operand, and what executing it comes to. -/

namespace Sys2Proof.Machine

theorem exec_closeStream (s : State) : exec .closeStream s = .next (s.serve 0x32 handleClose) := rfl

/-- Every body of one byte has the length that Table 10-6 gives for CLOSE. -/
theorem lengthOk_close (slot : Byte) : lengthOk 0x32 [slot] = true := rfl

/-- The field of a body of one byte is that byte. -/
@[simp] theorem fieldAt_singleton (b : Byte) : fieldAt [b] 0 1 = b.toNat := fieldAt_one [b] 0

/-! ### The block's answer -/

theorem handleClose_of_gt {slot : Byte} (h : 7 < slot.toNat) (s : State) :
    handleClose [slot] s = (s, ⟨.badField, []⟩) := by
  simp [handleClose, h, refuse]

theorem handleClose_of_free {s : State} {slot : Byte} (h : slot.toNat ≤ 7)
    (hs : s.slotAt slot.toNat = none) : handleClose [slot] s = (s, ⟨.noStream, []⟩) := by
  simp [handleClose, h.not_gt, hs, refuse]

theorem handleClose_of_open {s : State} {slot : Byte} {st : Stream} (h : slot.toNat ≤ 7)
    (hs : s.slotAt slot.toNat = some st) :
    handleClose [slot] s =
      ((s.setSlot slot.toNat none).setSurf st.surface { s.surf st.surface with stream := none },
        ⟨.ok, bytesOf 1 st.residue.length ++ bytesOf 4 st.written.toNat⟩) := by
  simp [handleClose, h.not_gt, hs]

/-! ### Executing it -/

/-- Freeing the slot and clearing the record touch neither the link nor each other, so the reply can
be queued first. -/
theorem State.queueReply_setSurf_setSlot_takeRequest (s : State) (f : Request) (a : Answer)
    (i id : Nat) (x : Option Stream) (r : Surface) :
    ((s.takeRequest.setSlot i x).setSurf id r).queueReply f (replyTo f a) =
      { s.answer f a.status a.body with
        streams := s.streams.setIfInBounds i x
        surfaces := s.surfaces.setIfInBounds id r } := rfl

/-- R76: closing a slot that holds a stream. -/
theorem exec_closeStream_of_open {s : State} {f : Request} {slot : Byte} {st : Stream}
    (ha : Asks s f 0x32 [slot]) (h : slot.toNat ≤ 7) (hs : s.slotAt slot.toNat = some st) :
    exec .closeStream s = .next { s.answer f .ok
        (bytesOf 1 st.residue.length ++ bytesOf 4 st.written.toNat) with
      streams := s.streams.setIfInBounds slot.toNat none
      surfaces := s.surfaces.setIfInBounds st.surface { s.surf st.surface with stream := none } } := by
  have hc := handleClose_of_open (s := s.takeRequest) h hs
  rw [exec_closeStream, State.serve_of_asks ha (lengthOk_close slot), hc,
    State.queueReply_setSurf_setSlot_takeRequest, State.takeRequest_surf]

/-- The widest pixel of Table 6-1 has three bytes. -/
theorem Format.bytesPerPixel_le_three (k : Format) : k.bytesPerPixel ≤ 3 := by
  cases k <;> decide

/-- Settles O33: the three outcomes of CLOSE, by the slot it names; a residue shorter than a pixel
has at most two bytes because no pixel has more than three. -/
theorem closeFreesTheSlot : Obligations.CloseFreesTheSlot := by
  intro s f slot ha
  have hl := lengthOk_close slot
  refine ⟨fun hgt => ?badField, fun hle hs => ?noStream, fun hle st hs => ⟨?closed, fun hr => ?residue⟩⟩
  case badField =>
    rw [exec_closeStream, State.serve_answer ha hl (handleClose_of_gt hgt _)]
  case noStream =>
    rw [exec_closeStream, State.serve_answer ha hl (handleClose_of_free hle hs)]
  case closed => exact exec_closeStream_of_open ha hle hs
  case residue =>
    have := st.format.bytesPerPixel_le_three
    omega

end Sys2Proof.Machine
end

section
/-! PROOFS. The blend (R119): a whole-number mean that lies between the two values it weighs, and the
colours that covering surfaces leave one after the other. -/

namespace Sys2Proof.Machine

/-! ### The weighted mean -/

/-- R119's formula over whole numbers: `s` over `b` at opacity `a`, rounded. `blendChannel` computes
it (`blendChannel_toNat`). -/
def weightedMean (a s b : Nat) : Nat := (a * s + (255 - a) * b + 127) / 255

/-- The two weights add up to 255. -/
theorem weights_mul {a : Nat} (ha : a ≤ 255) (m : Nat) : a * m + (255 - a) * m = 255 * m := by
  rw [← Nat.add_mul, Nat.add_sub_cancel' ha]

theorem le_weightedMean {a s b m : Nat} (ha : a ≤ 255) (hs : m ≤ s) (hb : m ≤ b) :
    m ≤ weightedMean a s b := by
  have hw := weights_mul ha m
  have := Nat.mul_le_mul_left a hs
  have := Nat.mul_le_mul_left (255 - a) hb
  unfold weightedMean
  omega

/-- The rounding term 127 is too small to lift the mean past a bound of both values. -/
theorem weightedMean_le {a s b m : Nat} (ha : a ≤ 255) (hs : s ≤ m) (hb : b ≤ m) :
    weightedMean a s b ≤ m := by
  have hw := weights_mul ha m
  have := Nat.mul_le_mul_left a hs
  have := Nat.mul_le_mul_left (255 - a) hb
  unfold weightedMean
  omega

theorem weightedMean_self {a : Nat} (ha : a ≤ 255) (s : Nat) : weightedMean a s s = s :=
  Nat.le_antisymm (weightedMean_le ha le_rfl le_rfl) (le_weightedMean ha le_rfl le_rfl)

theorem weightedMean_opaque (s b : Nat) : weightedMean 255 s b = s := by
  unfold weightedMean
  omega

theorem weightedMean_transparent (s b : Nat) : weightedMean 0 s b = b := by
  unfold weightedMean
  omega

/-! ### The blend of a channel and of a colour -/

theorem byte_toNat_le (b : Byte) : b.toNat ≤ 255 := Nat.le_of_lt_succ b.isLt

/-- The mean of two bytes fits in a byte, so the channel holds it whole. -/
theorem blendChannel_toNat (a s b : Byte) :
    (blendChannel a s b).toNat = weightedMean a.toNat s.toNat b.toNat := by
  have hle := weightedMean_le (byte_toNat_le a) (byte_toNat_le s) (byte_toNat_le b)
  exact Nat.mod_eq_of_lt (Nat.lt_succ_of_le hle)

theorem blendChannel_opaque (s b : Byte) : blendChannel 255 s b = s :=
  BitVec.eq_of_toNat_eq ((blendChannel_toNat 255 s b).trans (weightedMean_opaque _ _))

theorem blendChannel_transparent (s b : Byte) : blendChannel 0 s b = b :=
  BitVec.eq_of_toNat_eq ((blendChannel_toNat 0 s b).trans (weightedMean_transparent _ _))

theorem blendChannel_self (a s : Byte) : blendChannel a s s = s :=
  BitVec.eq_of_toNat_eq
    ((blendChannel_toNat a s s).trans (weightedMean_self (byte_toNat_le a) _))

theorem min_le_blendChannel (a s b : Byte) :
    min s.toNat b.toNat ≤ (blendChannel a s b).toNat := by
  rw [blendChannel_toNat]
  exact le_weightedMean (byte_toNat_le a) (min_le_left _ _) (min_le_right _ _)

theorem blendChannel_le_max (a s b : Byte) :
    (blendChannel a s b).toNat ≤ max s.toNat b.toNat := by
  rw [blendChannel_toNat]
  exact weightedMean_le (byte_toNat_le a) (le_max_left _ _) (le_max_right _ _)

theorem blend_transparent (s b : Rgb) : blend 0 s b = b := by
  simp only [blend, blendChannel_transparent]

/-! ### What a surface does to the colour below -/

/-- A transparent surface leaves the colour below whether it does not cover, hides by its key, or
blends. -/
theorem State.composeOver_of_transparent (s : State) {f : Surface} (x y : Nat) (below : Rgb)
    (ha : f.live.opacity = 0) : s.composeOver f x y below = below := by
  unfold State.composeOver
  split
  case isFalse => rfl
  case isTrue =>
    dsimp only
    split
    · rfl
    · rw [ha, blend_transparent]

theorem State.composeOver_of_covers (s : State) {f : Surface} {x y : Nat} (below : Rgb)
    (hc : f.coversPixel x y = true) (hk : f.live.key = none) :
    s.composeOver f x y below = blend f.live.opacity (s.sourcePixel f x y) below := by
  simp [State.composeOver, hc, hk]

/-- Two blends, one over the other: the mean of the upper one weighs the lower one's already rounded
mean. -/
theorem blendChannel_blendChannel_toNat (a u a' v b : Byte) :
    (blendChannel a' v (blendChannel a u b)).toNat =
      weightedMean a'.toNat v.toNat (weightedMean a.toNat u.toNat b.toNat) := by
  rw [blendChannel_toNat, blendChannel_toNat]

/-- Settles O49: the channel's blend is the mean, whose bounds and end values follow from the weights
adding up to 255; a covering surface without a key blends its source, so two of them blend twice. -/
theorem blendIsTheRoundedMean : Obligations.BlendIsTheRoundedMean := by
  refine ⟨fun a s b => ⟨blendChannel_toNat a s b, blendChannel_opaque s b,
    blendChannel_transparent s b, blendChannel_self a s, min_le_blendChannel a s b,
    blendChannel_le_max a s b⟩, fun s f g x y below => ⟨?transparent, ?stacked⟩⟩
  case transparent => exact s.composeOver_of_transparent x y below
  case stacked =>
    intro hf hg hkf hkg
    rw [s.composeOver_of_covers below hf hkf, s.composeOver_of_covers _ hg hkg]
    exact ⟨blendChannel_blendChannel_toNat .., blendChannel_blendChannel_toNat ..,
      blendChannel_blendChannel_toNat ..⟩

end Sys2Proof.Machine
end

section
/-! PROOFS. IDENTIFY (R168): the thirteen bytes, and the two frames that carry them. -/

namespace Sys2Proof.Machine

theorem exec_identify (s : State) : exec .identify s = .next (s.serve 0x01 handleIdentify) := rfl

/-- IDENTIFY has no body (Table 10-6). -/
theorem lengthOk_identify : lengthOk 0x01 [] = true := rfl

/-- R168's layout of the reply: family code 0x5120 and revision 1; then 32 surfaces, 4096 tiles,
8 streams, 4 commits, 4 fill jobs, 8 inbound buffers, 32 outbound frames and 1024 body bytes. -/
theorem capacities_eq :
    capacities = [0x20, 0x51, 1, 32, 0x00, 0x10, 8, 4, 4, 8, 32, 0x00, 0x04] := by decide

theorem handleIdentify_eq (body : List Byte) (s : State) :
    handleIdentify body s = (s, ⟨.ok, capacities⟩) := rfl

theorem noticeHello_body (r : HelloReason) : (noticeHello r).body = r.code :: capacities := rfl

/-- IDENTIFY's block hands back the state it is given, so executing it only answers. -/
theorem exec_identify_of_asks {s : State} {f : Request} (ha : Asks s f 0x01 []) :
    exec .identify s = .next (s.answer f .ok capacities) := by
  rw [exec_identify, State.serve_answer ha lengthOk_identify (handleIdentify_eq [] _)]

/-- Settles O15: the reply and HELLO carry the one list of capacities, whose bytes are R168's. -/
theorem identifyReportsTheCapacities : Obligations.IdentifyReportsTheCapacities := by
  refine ⟨fun s f ha => ?reply, fun r => ?hello⟩
  case reply => rw [exec_identify_of_asks ha, capacities_eq]
  case hello => rw [noticeHello_body, capacities_eq]

end Sys2Proof.Machine
end

section
/-! PROOFS. What a step can do, said once: every command is made of few moves of the tile pool, the
surface records, the streams, the fill jobs and the commits, or is a boundary, the application of a
commit on a STOPPED part, or a reset. The laws of the device are then proved move by move. -/

namespace Sys2Proof.Machine

/-! ### Moves -/

/-- The blocks that the laws of tiles, surfaces, streams, jobs, commits and colours speak of are the
same. -/
structure SameBlocks (s t : State) : Prop where
  surfaces : t.surfaces = s.surfaces
  pool : t.pool = s.pool
  streams : t.streams = s.streams
  jobs : t.engine.jobs = s.engine.jobs
  commits : t.commits = s.commits
  colours : t.colours = s.colours

/-- No frame is counted, and the timing generator neither starts nor stops. -/
structure SameFrame (s t : State) : Prop where
  now : t.now = s.now
  frame : t.timing.frame = s.timing.frame
  stopped : t.timing.state = .stopped ↔ s.timing.state = .stopped

/-- Nothing happens that a law or a frame counts. -/
structure Quiet (s t : State) : Prop extends SameBlocks s t, SameFrame s t

theorem SameBlocks.surf {s t : State} (h : SameBlocks s t) (id : Nat) : t.surf id = s.surf id := by
  simp only [State.surf, h.surfaces]

theorem SameBlocks.slotAt {s t : State} (h : SameBlocks s t) (i : Nat) : t.slotAt i = s.slotAt i := by
  simp only [State.slotAt, h.streams]

theorem SameFrame.refl (s : State) : SameFrame s s := ⟨rfl, rfl, Iff.rfl⟩

theorem SameFrame.trans {s t u : State} (h : SameFrame s t) (g : SameFrame t u) : SameFrame s u :=
  ⟨g.now.trans h.now, g.frame.trans h.frame, g.stopped.trans h.stopped⟩

theorem Quiet.refl (s : State) : Quiet s s := ⟨⟨rfl, rfl, rfl, rfl, rfl, rfl⟩, SameFrame.refl s⟩

/-- The surface is drawn in at the tile `x`: a STALE tile's surface loses one from its stale count,
the tile is DATA or BLANK then, and no other tile changes (R28, R30 to R32). -/
structure Touches (s t : State) (id : Nat) (x : Tile) : Prop where
  drawn : x ∈ (s.surf id).drawBank ∨ x ∈ (s.surf id).back
  surf : ∀ j, t.surf j = if s.pool.contentOf x = .stale ∧ j = id ∧ id < 32 then
      { s.surf id with stale := (s.surf id).stale - 1 } else s.surf j
  content : ∃ c, c ≠ .stale ∧ ∀ y, t.pool.contentOf y = if y = x then c else s.pool.contentOf y
  cells : ∀ y, y ≠ x → ∀ cell < 64,
    readCell t.pool.pixels y cell = readCell s.pool.pixels y cell
  free : t.pool.free = s.pool.free
  contentWf : StoreWf contentDefault s.pool.content → StoreWf contentDefault t.pool.content
  pixelsWf : s.pool.pixels.wf → t.pool.pixels.wf
  streams : t.streams = s.streams
  jobs : t.engine.jobs = s.engine.jobs
  commits : t.commits = s.commits
  colours : t.colours = s.colours
  frame : SameFrame s t

/-- R61 for a stream in its slot: the cursor lies in the window, the residue is shorter than a pixel,
and a FULL stream stands on the window's last pixel with no residue. -/
def Stream.inOrder (st : Stream) : Prop :=
  st.cx < st.ww ∧ st.cy < st.wh ∧ st.residue.length < st.format.bytesPerPixel ∧
    (st.full = true → st.place + 1 = st.ww * st.wh ∧ st.residue = [])

/-- The surface has no stream, no fill job and no pending commit. -/
structure State.Unused (s : State) (id : Nat) : Prop where
  stream : (s.surf id).stream = none
  jobs : ∀ j ∈ s.engine.jobs, j.surface ≠ id
  pending : (s.surf id).pendingTag = none

/-- What COMMIT checks of a commit that joins the queue, as far as R44 needs it. -/
structure State.Admits (s : State) (c : Commit) : Prop where
  room : s.commits.queue.length < 4
  tag : ∀ d ∈ s.commits.queue, d.tag ≠ c.tag
  canvas : c.canvas = true → ∀ d ∈ s.commits.queue, d.canvas = false
  curve : c.curve = true → ∀ d ∈ s.commits.queue, d.curve = false
  nodup : c.surfaces.Nodup
  ids : ∀ id ∈ c.surfaces, id < 32 ∧ (s.surf id).defined ∧ (s.surf id).pendingTag = none

/-- A move that allocates no tile, applies no commit, and counts no frame. -/
inductive Calm : State → State → Prop
  | quiet {s t : State} (h : Quiet s t) : Calm s t
  | palette (s : State) (p first : Nat) (es : List Rgb) :
    Calm s (s.withColours (s.colours.loadPalette p first es))
  | curve (s : State) (channel first : Nat) (codes : List Nat) :
    Calm s (s.withColours (s.colours.loadCurve channel first codes))
  /-- A stream is closed (R76). -/
  | close {s : State} {i id : Nat}
    (h : (s.surf id).stream = some i ∨ ∃ st, s.slotAt i = some st ∧ st.surface = id) :
    Calm s ((s.setSlot i none).setSurf id { s.surf id with stream := none })
  /-- A stream is set up in a free slot (R63). -/
  | openSlot {s : State} {id slot : Nat} {st : Stream} (hid : id < 32) (hslot : slot < 8)
    (hfree : s.slotAt slot = none) (hnone : (s.surf id).stream = none) (hdef : (s.surf id).defined)
    (hst : st.surface = id) (hok : st.inOrder) :
    Calm s ((s.setSlot slot (some st)).setSurf id { s.surf id with stream := some slot })
  /-- A stream goes on to the end of a WRITE (R67 to R71). -/
  | writeSlot {s : State} {slot : Nat} {st st' : Stream} (h : s.slotAt slot = some st)
    (hs : st'.surface = st.surface) (hok : st.inOrder → st'.inOrder) :
    Calm s (s.setSlot slot (some st'))
  /-- Staged attributes and the mark "dirty" change (R11, R13). -/
  | tweak (s : State) (id : Nat) (staged : StagedAttrs) (dirty : Bool) :
    Calm s (s.setSurf id { s.surf id with staged := staged, dirty := dirty })
  | touch {s t : State} {id : Nat} {x : Tile} (h : Touches s t id x) : Calm s t
  /-- A fill job joins the queue (R86). -/
  | queueJob {s : State} {id : Nat} {e : Engine} {job : FillJob} (dirty : Bool) (hid : id < 32)
    (hdef : (s.surf id).defined) (hroom : s.engine.jobs.length < 4) (hjob : job.surface = id)
    (he : e.jobs = s.engine.jobs ++ [job]) :
    Calm s ((s.withEngine e).setSurf id
      { s.surf id with fills := (s.surf id).fills + 1, dirty := dirty })
  /-- The head job goes on to its next tile (R91). -/
  | nextTile {s : State} {e : Engine} {j j' : FillJob} {rest : List FillJob}
    (h : s.engine.jobs = j :: rest) (he : e.jobs = j' :: rest) (hj : j'.surface = j.surface) :
    Calm s (s.withEngine e)
  | finishJob {s : State} {j : FillJob} {rest : List FillJob} (h : s.engine.jobs = j :: rest) :
    Calm s (s.finishJob j)
  | abandon {s : State} {id : Nat} (hid : id < 32) : Calm s (s.abandonWork id).1
  /-- DESTROY of a LIVE surface, its work abandoned (R17). -/
  | retire {s : State} {id : Nat} (hid : id < 32) (hl : (s.surf id).state = .live)
    (h : s.Unused id) :
    Calm s (s.setSurf id { s.surf id with state := .retiring, staged := stagedNone })
  /-- DESTROY of a STAGED surface, its work abandoned (R16). -/
  | release {s : State} {id : Nat} (hid : id < 32) (hl : (s.surf id).state = .staged)
    (h : s.Unused id) : Calm s (s.releaseSurface id)
  | accept {s : State} {c : Commit} (h : s.Admits c) : Calm s (s.acceptCommit c)
  | cancel {s : State} {i : Nat} {c : Commit} (h : s.commits.queue[i]? = some c) :
    Calm s (s.removeCommit i c)

/-- Calm moves one after another. -/
def Calms : State → State → Prop := Relation.ReflTransGen Calm

theorem Calm.calms {s t : State} (h : Calm s t) : Calms s t := Relation.ReflTransGen.single h

theorem Quiet.calms {s t : State} (h : Quiet s t) : Calms s t := (Calm.quiet h).calms

theorem Calms.refl (s : State) : Calms s s := Relation.ReflTransGen.refl

/-- All that a command can do. -/
inductive Effect : State → State → Prop
  | calm {s t : State} (h : Calms s t) : Effect s t
  /-- DEFINE (R6, R7). -/
  | define {s u t : State} {id w h banks : Nat} (hu : Quiet s u) (hid : id < 32)
    (hf : (u.surf id).state = .free) (hb : banks = 1 ∨ banks = 2)
    (hroom : banks * tileCount w h ≤ u.pool.free.length)
    (ht : Quiet (u.defineSurface id w h banks) t) : Effect s t
  /-- A frame boundary (R124). -/
  | boundary {s u t : State} (lead sync : List Notice) (hu : Calms s u)
    (ht : Quiet (u.boundary lead sync) t) (hb : t.timing = (u.boundary lead sync).timing) :
    Effect s t
  /-- A head applied with no boundary while STOPPED (R55). -/
  | stopped {s u t : State} {c : Commit} (hu : Calms s u) (hc : u.stoppedHead = some c)
    (ht : Quiet (u.applyCommit c u.timing.frame) t) : Effect s t
  /-- A power, pin or soft reset (R166, R170, R171). -/
  | reset {s t : State} (hb : SameBlocks s.resetBlocks t) (ht : t.timing = timingReset)
    (hc : t.control.state = .held ∨ t.control.state = .starting) : Effect s t

/-! ### Quiet updates -/

section
variable (s : State)

theorem quiet_withLink (l : Link) : Quiet s (s.withLink l) := ⟨⟨rfl, rfl, rfl, rfl, rfl, rfl⟩, ⟨rfl, rfl, Iff.rfl⟩⟩
theorem quiet_withScan (c : Scan) : Quiet s (s.withScan c) := ⟨⟨rfl, rfl, rfl, rfl, rfl, rfl⟩, ⟨rfl, rfl, Iff.rfl⟩⟩
theorem quiet_withControl (c : Control) : Quiet s (s.withControl c) :=
  ⟨⟨rfl, rfl, rfl, rfl, rfl, rfl⟩, ⟨rfl, rfl, Iff.rfl⟩⟩
theorem quiet_withPins (p : Pins) : Quiet s (s.withPins p) := ⟨⟨rfl, rfl, rfl, rfl, rfl, rfl⟩, ⟨rfl, rfl, Iff.rfl⟩⟩
theorem quiet_takeRequest : Quiet s s.takeRequest := quiet_withLink s _
theorem quiet_queueReply (f : Request) (r : Reply) : Quiet s (s.queueReply f r) := quiet_withLink s _
theorem quiet_answer (f : Request) (st : Status) (b : List Byte) : Quiet s (s.answer f st b) :=
  quiet_withLink s _
theorem quiet_offer (n : Notice) : Quiet s (s.offer n) := quiet_withLink s _
theorem quiet_offerAll (ns : List Notice) : Quiet s (s.offerAll ns) := quiet_withLink s _

theorem quiet_withTiming {t : Timing} (hf : t.frame = s.timing.frame)
    (hs : t.state = .stopped ↔ s.timing.state = .stopped) : Quiet s (s.withTiming t) :=
  ⟨⟨rfl, rfl, rfl, rfl, rfl, rfl⟩, rfl, hf, hs⟩

theorem quiet_withEngine {e : Engine} (h : e.jobs = s.engine.jobs) : Quiet s (s.withEngine e) :=
  ⟨⟨rfl, rfl, rfl, h, rfl, rfl⟩, ⟨rfl, rfl, Iff.rfl⟩⟩

theorem quiet_endStep : Quiet s s.endStep := quiet_withEngine s rfl

theorem quiet_arbitrate : Quiet s s.arbitrate := by
  refine ⟨⟨?_, ?_, ?_, ?_, ?_, ?_⟩, ?_, ?_, ?_⟩ <;> simp
end

theorem Quiet.trans {s t u : State} (h : Quiet s t) (g : Quiet t u) : Quiet s u :=
  ⟨⟨g.surfaces.trans h.surfaces, g.pool.trans h.pool, g.streams.trans h.streams,
    g.jobs.trans h.jobs, g.commits.trans h.commits, g.colours.trans h.colours⟩,
    h.toSameFrame.trans g.toSameFrame⟩

theorem Effect.of_quiet {s t : State} (h : Quiet s t) : Effect s t := .calm h.calms

theorem Calms.trans {s t u : State} (h : Calms s t) (g : Calms t u) : Calms s u :=
  Relation.ReflTransGen.trans h g

theorem Calms.quiet {s t u : State} (h : Calms s t) (g : Quiet t u) : Calms s u :=
  Relation.ReflTransGen.tail h (.quiet g)

theorem Calms.step {s t u : State} (h : Calms s t) (g : Calm t u) : Calms s u := Relation.ReflTransGen.tail h g

/-! ### The tags of a list of surfaces -/

/-- The pending-commit field of every surface of a list set to one value: `freeze` and `thaw`. -/
def State.setTags (s : State) (ids : List Nat) (p : Option Half) : State :=
  ids.foldl (fun t id => t.setSurf id { t.surf id with pendingTag := p }) s

theorem State.freeze_eq (s : State) (ids : List Nat) (tag : Half) :
    s.freeze ids tag = s.setTags ids (some tag) := rfl

theorem State.thaw_eq (s : State) (ids : List Nat) : s.thaw ids = s.setTags ids none := rfl

theorem State.setTags_eq (s : State) (ids : List Nat) (p : Option Half) :
    s.setTags ids p = { s with surfaces := (s.setTags ids p).surfaces } := by
  induction ids generalizing s with
  | nil => rfl
  | cons i ids ih => exact ih (s.setSurf i { s.surf i with pendingTag := p })

theorem State.setTags_surf (s : State) (ids : List Nat) (p : Option Half) (j : Nat) :
    (s.setTags ids p).surf j =
      if j ∈ ids ∧ j < 32 then { s.surf j with pendingTag := p } else s.surf j := by
  induction ids generalizing s with
  | nil => simp [State.setTags]
  | cons i ids ih =>
    have h := ih (s.setSurf i { s.surf i with pendingTag := p })
    change (State.setTags _ ids p).surf j = _ at h
    rw [show s.setTags (i :: ids) p =
      (s.setSurf i { s.surf i with pendingTag := p }).setTags ids p from rfl, h, State.surf_setSurf]
    by_cases hi : i = j
    · subst hi
      by_cases hj : i ∈ ids <;> by_cases hl : i < 32 <;> simp [hj, hl]
    · have hji : j ≠ i := Ne.symm hi
      simp [hi, hji]

section
variable (s : State) (ids : List Nat) (p : Option Half)
@[simp] theorem State.setTags_pool : (s.setTags ids p).pool = s.pool := by rw [State.setTags_eq]
@[simp] theorem State.setTags_streams : (s.setTags ids p).streams = s.streams := by
  rw [State.setTags_eq]
@[simp] theorem State.setTags_slotAt (i : Nat) : (s.setTags ids p).slotAt i = s.slotAt i := by
  rw [State.slotAt, State.setTags_streams]; rfl
@[simp] theorem State.setTags_engine : (s.setTags ids p).engine = s.engine := by
  rw [State.setTags_eq]
@[simp] theorem State.setTags_commits : (s.setTags ids p).commits = s.commits := by
  rw [State.setTags_eq]
@[simp] theorem State.setTags_colours : (s.setTags ids p).colours = s.colours := by
  rw [State.setTags_eq]
theorem State.setTags_sameFrame : SameFrame s (s.setTags ids p) := by
  rw [State.setTags_eq]; exact ⟨rfl, rfl, Iff.rfl⟩
end

theorem State.acceptCommit_eq (s : State) (c : Commit) : s.acceptCommit c =
    (s.withCommits { s.commits with queue := s.commits.queue ++ [c] }).setTags c.surfaces
      (some c.tag) := rfl

theorem State.removeCommit_eq (s : State) (i : Nat) (c : Commit) : s.removeCommit i c =
    (s.withCommits { s.commits with queue := s.commits.queue.eraseIdx i }).setTags c.surfaces
      none := rfl

/-- Every calm move counts no frame. -/
theorem Calm.sameFrame {s t : State} (h : Calm s t) : SameFrame s t := by
  cases h with
  | quiet h => exact h.toSameFrame
  | touch h => exact h.frame
  | @accept c _ =>
    exact SameFrame.trans (t := s.withCommits { s.commits with queue := s.commits.queue ++ [c] })
      ⟨rfl, rfl, Iff.rfl⟩ (State.setTags_sameFrame _ c.surfaces (some c.tag))
  | @cancel i c _ =>
    exact SameFrame.trans (t := s.withCommits { s.commits with queue := s.commits.queue.eraseIdx i })
      ⟨rfl, rfl, Iff.rfl⟩ (State.setTags_sameFrame _ c.surfaces none)
  | _ => exact ⟨rfl, rfl, Iff.rfl⟩

theorem Calms.sameFrame {s t : State} (h : Calms s t) : SameFrame s t := by
  induction h with
  | refl => exact SameFrame.refl s
  | tail _ h ih => exact ih.trans h.sameFrame

/-! ### Drawing in a tile -/

theorem writeCells_wf {m : Memory} (h : m.wf) (x : Tile) (cells : List Nat) (c : Rgb) :
    (cells.foldl (fun m cell => writeCell m x cell c) m).wf := by
  induction cells generalizing m with
  | nil => exact h
  | cons cell cells ih => exact ih (Memory.write_wf h _ _)

theorem State.carryCells_wf {s : State} (h : s.pool.pixels.wf) (f : Surface) (pos : Nat) (x : Tile) :
    (s.carryCells f pos x).wf := by
  unfold State.carryCells
  split
  · split
    · exact Memory.write_wf h _ _
    · exact Memory.write_wf h _ _
    · exact Memory.write_wf h _ _
  · exact Memory.write_wf h _ _

theorem State.makeData_contentWf {s : State} (h : StoreWf contentDefault s.pool.content) (id : Nat)
    (x : Tile) (m : Memory) : StoreWf contentDefault (s.makeData id x m).pool.content := by
  have hw : StoreWf contentDefault (s.pool.setContent x .data).content := StoreWf.write h _ _
  unfold State.makeData
  dsimp only
  split <;> exact hw

theorem State.resolveTile_contentWf {s : State} (h : StoreWf contentDefault s.pool.content)
    (id pos : Nat) (x : Tile) : StoreWf contentDefault (s.resolveTile id pos x).pool.content := by
  unfold State.resolveTile
  split
  · exact h
  · exact State.makeData_contentWf h _ _ _
  · exact State.makeData_contentWf h _ _ _

theorem State.resolveTile_pixelsWf {s : State} (h : s.pool.pixels.wf) (id pos : Nat) (x : Tile) :
    (s.resolveTile id pos x).pool.pixels.wf := by
  unfold State.resolveTile
  split
  · exact h
  · rw [State.makeData_pixels]; exact Memory.write_wf h _ _
  · rw [State.makeData_pixels]; exact State.carryCells_wf h _ _ _

/-- A tile that is given a pixel store of its own touches nothing else. -/
theorem State.makeData_touches {s : State} {id : Nat} {x : Tile} {m : Memory}
    (hx : x ∈ (s.surf id).drawBank ∨ x ∈ (s.surf id).back)
    (hm : ∀ y, y ≠ x → ∀ cell < 64, readCell m y cell = readCell s.pool.pixels y cell)
    (hw : s.pool.pixels.wf → m.wf) : Touches s (s.makeData id x m) id x where
  drawn := hx
  surf := State.makeData_surf s id x m
  content := ⟨.data, by decide, State.makeData_contentOf s id x m⟩
  cells := by rw [State.makeData_pixels]; exact hm
  free := State.makeData_free s id x m
  contentWf h := State.makeData_contentWf h id x m
  pixelsWf h := by rw [State.makeData_pixels]; exact hw h
  streams := by simp
  jobs := by simp
  commits := by simp
  colours := by simp
  frame := ⟨by simp, by simp, by simp⟩

/-- A tile resolved and then written in touches nothing else. -/
theorem State.resolveTile_touches {s : State} {id pos : Nat} {x : Tile} {m : Memory}
    (hx : x ∈ (s.surf id).drawBank ∨ x ∈ (s.surf id).back)
    (hm : ∀ y, y ≠ x → ∀ cell < 64,
      readCell m y cell = readCell (s.resolveTile id pos x).pool.pixels y cell)
    (hw : (s.resolveTile id pos x).pool.pixels.wf → m.wf) :
    Touches s ((s.resolveTile id pos x).withPool
      { (s.resolveTile id pos x).pool with pixels := m }) id x where
  drawn := hx
  surf := State.resolveTile_surf s id pos x
  content := ⟨.data, by decide, State.resolveTile_contentOf s id pos x⟩
  cells y hy cell hc := by
    rw [State.withPool_pool, hm y hy cell hc, State.resolveTile_readCell _ _ _ _ _ _ hc, if_neg hy]
  free := State.resolveTile_free s id pos x
  contentWf h := State.resolveTile_contentWf h id pos x
  pixelsWf h := hw (State.resolveTile_pixelsWf h id pos x)
  streams := by simp
  jobs := by simp
  commits := by simp
  colours := by simp
  frame := ⟨by simp, by simp, by simp⟩

theorem State.writePixel_calms (s : State) (id x y : Nat) (c : Rgb) :
    Calms s (s.writePixel id x y c) := by
  unfold State.writePixel
  dsimp only
  split
  · exact .refl _
  · rename_i t ht
    refine Calm.calms (.touch (id := id) (x := t) (State.resolveTile_touches ?_ ?_ ?_))
    · exact .inl (List.mem_of_getElem? ht)
    · intro z hz cell hc
      rw [readCell_writeCell _ _ _ _ _ _ (cellOfPixel_lt x y) hc, if_neg (by simp [hz])]
    · exact fun h => Memory.write_wf h _ _

theorem State.fillTile_calms (s : State) (id pos : Nat) (full : Bool) (r : Rect) (c : Rgb) :
    Calms s (s.fillTile id pos full r c) := by
  unfold State.fillTile
  dsimp only
  split
  · exact .refl _
  · rename_i t ht
    have hd : t ∈ (s.surf id).drawBank ∨ t ∈ (s.surf id).back := .inl (List.mem_of_getElem? ht)
    split
    · refine Calm.calms (.touch (State.makeData_touches hd ?_ fun h => Memory.write_wf h _ _))
      intro z hz cell hc
      rw [readCell_paintTile _ _ _ _ _ hc, if_neg hz]
    · refine Calm.calms (.touch (State.resolveTile_touches hd ?_ fun h => writeCells_wf h _ _ _))
      intro z hz cell hc
      rw [readCell_writeCells _ _ _ _ _ _ (r.cellsIn_lt _ _) hc, if_neg (by simp [hz])]

/-- R32: a carry copy over a BLANK front tile leaves a BLANK tile. -/
theorem State.blankStale_touches {s : State} {id : Nat} {x : Tile} (hx : x ∈ (s.surf id).back)
    (hs : s.pool.contentOf x = .stale) :
    Touches s ((s.withPool (s.pool.setContent x .blank)).lowerStale id) id x where
  drawn := .inr hx
  surf j := by
    have hid : id < 32 := by
      by_contra h
      rw [State.surf_of_le s (by omega)] at hx
      simp [surfaceFree] at hx
    unfold State.lowerStale
    rw [State.surf_setSurf_of_lt hid]
    simp [hs, hid]
  content := ⟨.blank, by decide, Pool.contentOf_setContent s.pool x .blank⟩
  cells _ _ _ _ := rfl
  free := rfl
  contentWf h := StoreWf.write h _ _
  pixelsWf h := h
  streams := rfl
  jobs := rfl
  commits := rfl
  colours := rfl
  frame := ⟨rfl, rfl, Iff.rfl⟩

theorem State.completeCopy_calms (s : State) (id pos : Nat) : Calms s (s.completeCopy id pos) := by
  unfold State.completeCopy
  dsimp only
  split
  · exact .refl _
  · rename_i t ht
    have hb : t ∈ (s.surf id).back := List.mem_of_getElem? ht
    split
    · rename_i hs
      split
      · exact .refl _
      · split
        · refine Calm.calms (.touch (State.makeData_touches (.inr hb) ?_ fun h => Memory.write_wf h _ _))
          intro z hz cell hc
          rw [readCell_copyTile _ _ _ _ _ hc, if_neg hz]
        · exact Calm.calms (.touch (State.blankStale_touches hb hs))
    · exact .refl _

end Sys2Proof.Machine
end

section
/-! PROOFS. Every command is of the effects of the moves: the blocks' answers to requests, request by
request, and the part's own events. -/

namespace Sys2Proof.Machine

/-! ### What refusals of COMMIT rule out (Table 3-2) -/

theorem firstCommit_eq_none {p : Commit → Bool} {q : List Commit} :
    firstCommit p q = none ↔ ∀ d ∈ q, p d = false := by
  unfold firstCommit
  cases h : q.findIdx? p with
  | none => simpa using List.findIdx?_eq_none_iff.1 h
  | some i =>
    obtain ⟨hi, hp, -⟩ := List.findIdx?_eq_some_iff_getElem.1 h
    simp only [Option.bind_some, List.getElem?_eq_getElem hi, Option.map_some, reduceCtorEq, false_iff]
    intro hall
    rw [hall _ (List.getElem_mem hi)] at hp
    cases hp

theorem firstCommit_eq_some {p : Commit → Bool} {q : List Commit} {i : Nat} {c : Commit} :
    firstCommit p q = some (i, c) ↔
      q[i]? = some c ∧ p c = true ∧ ∀ k < i, ∀ d, q[k]? = some d → p d = false := by
  unfold firstCommit
  constructor
  · intro h
    obtain ⟨j, hj, h⟩ := Option.bind_eq_some_iff.1 h
    obtain ⟨d, hd, he⟩ := Option.map_eq_some_iff.1 h
    obtain ⟨rfl, rfl⟩ := Prod.mk.injEq _ _ _ _ ▸ he
    obtain ⟨hi, hp, hmin⟩ := List.findIdx?_eq_some_iff_getElem.1 hj
    have e : q[j] = d := by rw [List.getElem?_eq_getElem hi] at hd; exact Option.some.inj hd
    refine ⟨hd, e ▸ hp, fun k hk d hd => ?_⟩
    have hk' : k < q.length := by omega
    rw [List.getElem?_eq_getElem hk'] at hd
    have := hmin k hk
    rw [Option.some.inj hd] at this
    simpa using this
  · rintro ⟨hc, hp, hmin⟩
    obtain ⟨hi, rfl⟩ := List.getElem?_eq_some_iff.1 hc
    have hj : q.findIdx? p = some i := by
      refine List.findIdx?_eq_some_iff_getElem.2 ⟨hi, hp, fun k hk => ?_⟩
      have := hmin k hk _ (List.getElem?_eq_getElem (by omega))
      simp [this]
    simp [hj, hi]

/-- Check 8 passes exactly a list without repetition. -/
theorem firstRepeat_eq_none {seen ids : List Nat} :
    firstRepeat seen ids = none ↔ ids.Nodup ∧ ∀ id ∈ ids, id ∉ seen := by
  induction ids generalizing seen with
  | nil => simp [firstRepeat]
  | cons i ids ih =>
    unfold firstRepeat
    by_cases h : i ∈ seen
    · simp [h]
    · simp only [List.contains_eq_mem, h, decide_false, Bool.false_eq_true, if_false, ih,
        List.nodup_cons, List.mem_cons, not_or, forall_eq_or_imp, not_false_eq_true, true_and]
      constructor
      · rintro ⟨hn, hs⟩
        exact ⟨⟨fun hi => (hs i hi).1 rfl, hn⟩, fun j hj => (hs j hj).2⟩
      · rintro ⟨⟨hi, hn⟩, hs⟩
        exact ⟨hn, fun j hj => ⟨fun e => hi (e ▸ hj), hs j hj⟩⟩

theorem State.flagHolder_eq_none {s : State} {c : Commit} {seq : Byte} :
    s.flagHolder c seq = none ↔ (c.canvas = true → ∀ d ∈ s.commits.queue, d.canvas = false) ∧
      (c.curve = true → ∀ d ∈ s.commits.queue, d.curve = false) := by
  have key : ∀ (b : Bool) (p : Commit → Bool),
      (if b then firstCommit p s.commits.queue else none) = none ↔
        (b = true → ∀ d ∈ s.commits.queue, p d = false) := by
    intro b p
    cases b <;> simp [firstCommit_eq_none]
  rw [← key c.canvas, ← key c.curve]
  unfold State.flagHolder
  dsimp only
  generalize (if c.canvas then firstCommit (·.canvas) s.commits.queue else none) = x
  generalize (if c.curve then firstCommit (·.curve) s.commits.queue else none) = y
  rcases x with _ | x <;> rcases y with _ | y <;> simp
  split <;> simp

/-- A COMMIT that checks 3 to 12 do not refuse may join the queue. -/
theorem State.admits_of_commitRefusal {s : State} {c : Commit} {seq : Byte}
    (hids : ∀ id ∈ c.surfaces, id < 32) (h : s.commitRefusal c seq = none) : s.Admits c := by
  unfold State.commitRefusal at h
  dsimp only at h
  split at h
  · cases h
  rename_i hroom
  split at h
  · cases h
  rename_i htag
  split at h
  · cases h
  split at h
  · cases h
  split at h
  · cases h
  rename_i hflag
  split at h
  · cases h
  rename_i hrep
  split at h
  · cases h
  rename_i hstate
  split at h
  · cases h
  rename_i hfrozen
  obtain ⟨hcan, hcur⟩ := State.flagHolder_eq_none.1 hflag
  refine ⟨by omega, ?_, hcan, hcur, (firstRepeat_eq_none.1 hrep).1, ?_⟩
  · intro d hd
    simpa using firstCommit_eq_none.1 htag d hd
  · intro id hid
    have h1 := List.find?_eq_none.1 hstate id hid
    have h2 := List.find?_eq_none.1 hfrozen id hid
    refine ⟨hids id hid, ?_, by simpa [Surface.frozen] using h2⟩
    cases hs : (s.surf id).state <;> simp [hs, Surface.defined] at h1 ⊢

/-! ### A WRITE's stream (R67 to R71) -/

/-- The cursor lies in the window, and a FULL stream's on its last pixel. -/
def Stream.inWindow (st : Stream) : Prop :=
  st.cx < st.ww ∧ st.cy < st.wh ∧ (st.full = true → st.place + 1 = st.ww * st.wh)

/-- The row of the cursor, counted in the stream's order. -/
def Stream.row (st : Stream) : Nat :=
  match st.order with
  | .down => st.cy
  | .up => st.wh - 1 - st.cy

theorem Stream.place_eq (st : Stream) : st.place = st.row * st.ww + st.cx := rfl

theorem Stream.place_of_atLast {st : Stream} (hy : st.cy < st.wh)
    (h : st.atLast = true) : st.place + 1 = st.ww * st.wh := by
  simp only [Stream.atLast, Bool.and_eq_true, beq_iff_eq] at h
  obtain ⟨h1, h2⟩ := h
  obtain ⟨w, hw⟩ : ∃ w, st.wh = w + 1 := ⟨st.wh - 1, by omega⟩
  have hrow : st.row = w := by
    unfold Stream.row
    cases ho : st.order <;> simp only [ho, beq_iff_eq] at h2 ⊢ <;> omega
  rw [st.place_eq, hrow, hw, Nat.mul_succ, Nat.mul_comm st.ww]
  omega

@[simp] theorem Stream.advance_surface (st : Stream) : st.advance.surface = st.surface := by
  unfold Stream.advance; split <;> [rfl; (split <;> rfl)]
@[simp] theorem Stream.advance_format (st : Stream) : st.advance.format = st.format := by
  unfold Stream.advance; split <;> [rfl; (split <;> rfl)]
@[simp] theorem Stream.advance_full (st : Stream) : st.advance.full = st.full := by
  unfold Stream.advance; split <;> [rfl; (split <;> rfl)]

/-- R68: the cursor's next place lies in the window too. -/
theorem Stream.advance_inWindow {st : Stream} (h : st.inWindow) (hf : st.full = false) :
    st.advance.inWindow := by
  obtain ⟨hx, hy, -⟩ := h
  have hfull : st.advance.full = true → st.advance.place + 1 = st.advance.ww * st.advance.wh := by
    rw [st.advance_full, hf]; intro h; cases h
  refine ⟨?_, ?_, hfull⟩
  · unfold Stream.advance
    split
    · assumption
    · split <;> exact Nat.lt_of_le_of_lt (Nat.zero_le _) hx
  · unfold Stream.advance
    split
    · exact hy
    rename_i hlast
    split
    · cases st.order <;> dsimp only <;> omega
    · rename_i hat
      have hcx : st.cx + 1 = st.ww := by omega
      simp only [Stream.atLast, hcx, beq_self_eq_true, Bool.true_and] at hat
      cases ho : st.order <;> simp only [ho, beq_iff_eq] at hat ⊢ <;> omega

@[simp] theorem Stream.wrotePixel_surface (st : Stream) : st.wrotePixel.surface = st.surface := by
  unfold Stream.wrotePixel; dsimp only; split <;> simp
@[simp] theorem Stream.wrotePixel_format (st : Stream) : st.wrotePixel.format = st.format := by
  unfold Stream.wrotePixel; dsimp only; split <;> simp

theorem Stream.wrotePixel_inWindow {st : Stream} (h : st.inWindow) (hf : st.full = false) :
    st.wrotePixel.inWindow := by
  unfold Stream.wrotePixel
  dsimp only
  split
  · rename_i hl
    exact ⟨h.1, h.2.1, fun _ => Stream.place_of_atLast h.2.1 hl.2⟩
  · exact Stream.advance_inWindow (st := { st with written := saturate32 st.written })
      ⟨h.1, h.2.1, h.2.2⟩ hf

theorem State.ingestPixel_streams (s : State) (st : Stream) (bs : List Byte) :
    (s.ingestPixel st bs).streams = s.streams := by
  unfold State.ingestPixel
  dsimp only
  split <;> simp

theorem State.ingestPixel_calms (s : State) (st : Stream) (bs : List Byte) :
    Calms s (s.ingestPixel st bs) := by
  unfold State.ingestPixel
  dsimp only
  split
  · exact (State.writePixel_calms ..).step (.tweak _ _ _ _)
  · exact State.writePixel_calms ..

/-- The pixels of a WRITE are calm moves, and leave the stream's cursor in its window. -/
theorem State.ingest_spec (ps : List (List Byte)) (s : State) (st : Stream) (n : Nat) :
    Calms s (s.ingest ps st n).1 ∧ (s.ingest ps st n).2.1.surface = st.surface ∧
      (s.ingest ps st n).2.1.format = st.format ∧
      (st.inWindow → (s.ingest ps st n).2.1.inWindow) ∧
      (s.ingest ps st n).1.streams = s.streams := by
  induction ps generalizing s st n with
  | nil => exact ⟨.refl _, rfl, rfl, id, rfl⟩
  | cons p ps ih =>
    unfold State.ingest
    split
    · exact ⟨.refl _, rfl, rfl, id, rfl⟩
    · rename_i hf
      obtain ⟨h1, h2, h3, h4, h5⟩ := ih (s.ingestPixel st p) st.wrotePixel (n + 1)
      exact ⟨(State.ingestPixel_calms s st p).trans h1, h2.trans st.wrotePixel_surface,
        h3.trans st.wrotePixel_format,
        fun h => h4 (Stream.wrotePixel_inWindow h (by simpa using hf)),
        h5.trans (State.ingestPixel_streams s st p)⟩

theorem Format.bytesPerPixel_pos (k : Format) : 0 < k.bytesPerPixel := by cases k <;> decide

/-- The bytes left over are fewer than a pixel has. -/
theorem length_splitPixels_lt {k : Nat} (hk : 0 < k) (bs : List Byte) :
    (splitPixels k bs).2.length < k := by
  unfold splitPixels
  rw [List.length_drop, Nat.mul_comm, ← Nat.mod_eq_sub_mul_div]
  exact Nat.mod_lt _ hk

/-- An accepted WRITE is calm moves, the last of them the stream's. -/
theorem State.takeWrite_calms {s : State} {slot : Nat} {st : Stream} (h : s.slotAt slot = some st)
    (payload : List Byte) : Calms s (s.takeWrite slot st payload).1 := by
  obtain ⟨h1, h2, h3, h4, h5⟩ := State.ingest_spec
    (splitPixels st.format.bytesPerPixel (st.residue ++ payload)).1 s st 0
  unfold State.takeWrite
  refine h1.step (.writeSlot (st := st) ?_ h2 ?_)
  · rw [← h]
    exact congrArg (fun v => v[slot]?.getD none) h5
  · rintro ⟨hx, hy, -, hfull⟩
    obtain ⟨hx', hy', hlast⟩ := h4 ⟨hx, hy, fun hf => (hfull hf).1⟩
    refine ⟨hx', hy', ?_, fun hf => ⟨hlast hf, if_pos hf⟩⟩
    dsimp only
    rw [h3]
    split
    · exact st.format.bytesPerPixel_pos
    · exact length_splitPixels_lt st.format.bytesPerPixel_pos _

/-! ### The blocks' answers -/

section
variable (body : List Byte) (s : State)

theorem handleStatus_calms : Calms s (handleStatus body s).1 := by
  unfold handleStatus
  split
  · exact .refl _
  · split
    · exact Quiet.calms ⟨⟨rfl, rfl, rfl, rfl, rfl, rfl⟩, rfl, rfl, Iff.rfl⟩
    · exact .refl _

theorem handleReset_calms : Calms s (handleReset body s).1 :=
  ((quiet_withLink s _).trans (quiet_withControl _ _)).calms

theorem handleNotify_calms : Calms s (handleNotify body s).1 :=
  Quiet.calms ⟨⟨rfl, rfl, rfl, rfl, rfl, rfl⟩, rfl, rfl, Iff.rfl⟩

theorem handleCanvas_calms : Calms s (handleCanvas body s).1 := by
  unfold handleCanvas
  dsimp only
  split
  · exact .refl _
  · split
    · exact .refl _
    · exact (quiet_withScan s _).calms

theorem handleLoadPalette_calms : Calms s (handleLoadPalette body s).1 := by
  unfold handleLoadPalette
  dsimp only
  split
  · exact .refl _
  · split
    · exact .refl _
    · exact Calm.calms (.palette _ _ _ _)

theorem handleLoadCurve_calms : Calms s (handleLoadCurve body s).1 := by
  unfold handleLoadCurve
  dsimp only
  split
  · exact .refl _
  · split
    · exact .refl _
    · split
      · exact .refl _
      · split
        · exact .refl _
        · exact Calm.calms (.curve _ _ _ _)

theorem handleSetAttr_calms : Calms s (handleSetAttr body s).1 := by
  unfold handleSetAttr
  dsimp only
  split
  · exact .refl _
  · split
    · exact .refl _
    · split
      · exact .refl _
      · exact Calm.calms (.tweak _ _ _ _)

theorem handleQuery_calms : Calms s (handleQuery body s).1 := by
  unfold handleQuery
  dsimp only
  split <;> exact .refl _

theorem handleRead_calms : Calms s (handleRead body s).1 := by
  unfold handleRead
  dsimp only
  split
  · exact .refl _
  · split
    · exact .refl _
    · split
      · exact .refl _
      · split <;> exact .refl _

theorem handleClose_calms : Calms s (handleClose body s).1 := by
  unfold handleClose
  dsimp only
  split
  · exact .refl _
  · split
    · exact .refl _
    · rename_i st hst
      exact Calm.calms (.close (.inr ⟨st, hst, rfl⟩))

theorem handleWrite_calms : Calms s (handleWrite body s).1 := by
  unfold handleWrite
  dsimp only
  split
  · exact .refl _
  · split
    · exact .refl _
    · rename_i st hst
      split
      · exact .refl _
      · split
        · exact .refl _
        · exact State.takeWrite_calms hst _
end

/-! ### DESTROY and OPEN -/

theorem State.closeStreamOf_calms (s : State) (id : Nat) : Calms s (s.closeStreamOf id) := by
  unfold State.closeStreamOf
  split
  · exact .refl _
  · rename_i i hi
    exact Calm.calms (.close (.inl hi))

theorem State.closeStreamOf_surf (s : State) (id j : Nat) : (s.closeStreamOf id).surf j =
    if j = id then { s.surf id with stream := none } else s.surf j := by
  unfold State.closeStreamOf
  split
  · rename_i h
    split
    · rename_i hj; subst hj; rw [← h]
    · rfl
  · rename_i i hi
    have hid : id < 32 := by
      by_contra h
      rw [State.surf_of_le s (by omega)] at hi
      cases hi
    rw [State.surf_setSurf_of_lt hid, State.setSlot_surf]

theorem State.closeStreamOf_slotAt (s : State) (id i : Nat) : (s.closeStreamOf id).slotAt i =
    if (s.surf id).stream = some i then none else s.slotAt i := by
  unfold State.closeStreamOf
  split
  · rename_i h; simp [h]
  · rename_i k hk
    rw [State.setSurf_slotAt, State.slotAt_setSlot, hk]
    by_cases h : k = i
    · subst h
      by_cases h8 : k < 8
      · simp [h8]
      · simp [h8, State.slotAt_of_le s (by omega : 8 ≤ k)]
    · simp [h]

/-- Closing a stream changes its slot and its surface's record alone. -/
theorem State.closeStreamOf_eq (s : State) (id : Nat) : s.closeStreamOf id = { s with
    streams := (s.closeStreamOf id).streams, surfaces := (s.closeStreamOf id).surfaces } := by
  unfold State.closeStreamOf
  split <;> rfl

section
variable (s : State) (id : Nat)
@[simp] theorem State.closeStreamOf_pool : (s.closeStreamOf id).pool = s.pool := by
  rw [State.closeStreamOf_eq]
@[simp] theorem State.closeStreamOf_engine : (s.closeStreamOf id).engine = s.engine := by
  rw [State.closeStreamOf_eq]
@[simp] theorem State.closeStreamOf_commits : (s.closeStreamOf id).commits = s.commits := by
  rw [State.closeStreamOf_eq]
@[simp] theorem State.closeStreamOf_link : (s.closeStreamOf id).link = s.link := by
  rw [State.closeStreamOf_eq]
@[simp] theorem State.closeStreamOf_colours : (s.closeStreamOf id).colours = s.colours := by
  rw [State.closeStreamOf_eq]
@[simp] theorem State.closeStreamOf_timing : (s.closeStreamOf id).timing = s.timing := by
  rw [State.closeStreamOf_eq]
@[simp] theorem State.closeStreamOf_scan : (s.closeStreamOf id).scan = s.scan := by
  rw [State.closeStreamOf_eq]
@[simp] theorem State.closeStreamOf_control : (s.closeStreamOf id).control = s.control := by
  rw [State.closeStreamOf_eq]
@[simp] theorem State.closeStreamOf_pins : (s.closeStreamOf id).pins = s.pins := by
  rw [State.closeStreamOf_eq]
@[simp] theorem State.closeStreamOf_now : (s.closeStreamOf id).now = s.now := by
  rw [State.closeStreamOf_eq]
@[simp] theorem State.closeStreamOf_pending : (s.closeStreamOf id).pending = s.pending := by
  rw [State.closeStreamOf_eq]
end

theorem State.abandonWork_surf (s : State) {id : Nat} (hid : id < 32) (j : Nat) :
    (s.abandonWork id).1.surf j =
      if j = id then { s.surf id with stale := 0, fills := 0 } else s.surf j := by
  unfold State.abandonWork
  dsimp only
  rw [State.withEngine_surf, State.surf_setSurf_of_lt hid]
  rfl

theorem State.abandonAll_surf (s : State) {id : Nat} (hid : id < 32) (j : Nat) :
    (s.abandonAll id).1.surf j = if j = id then
      { s.surf id with stream := none, stale := 0, fills := 0 } else s.surf j := by
  unfold State.abandonAll
  change ((s.closeStreamOf id).abandonWork id).1.surf j = _
  rw [State.abandonWork_surf _ hid, State.closeStreamOf_surf, State.closeStreamOf_surf]
  by_cases h : j = id <;> simp [h]

theorem State.abandonAll_jobs (s : State) (id : Nat) :
    (s.abandonAll id).1.engine.jobs = s.engine.jobs.filter (·.surface != id) := by
  unfold State.abandonAll State.abandonWork
  simp

theorem State.abandonAll_calms (s : State) {id : Nat} (hid : id < 32) :
    Calms s (s.abandonAll id).1 :=
  (((s.closeStreamOf_calms id).step (.abandon hid)).quiet (quiet_offerAll _ _))

/-- A surface that is not frozen is in no use once its work is abandoned. -/
theorem State.abandonAll_unused (s : State) {id : Nat} (hid : id < 32)
    (hp : (s.surf id).pendingTag = none) : (s.abandonAll id).1.Unused id := by
  refine ⟨?_, ?_, ?_⟩
  · rw [State.abandonAll_surf s hid, if_pos rfl]
  · intro j hj
    rw [State.abandonAll_jobs] at hj
    simpa using (List.mem_filter.1 hj).2
  · rw [State.abandonAll_surf s hid, if_pos rfl]; exact hp

theorem handleDestroy_calms (body : List Byte) (s : State) : Calms s (handleDestroy body s).1 := by
  unfold handleDestroy
  dsimp only
  split
  · exact .refl _
  rename_i hc
  obtain ⟨hid, hdef⟩ := surfaceCheck_eq_none.1 hc
  generalize fieldAt body 0 1 = id at *
  have hid : id < 32 := by omega
  split
  · exact .refl _
  rename_i hp
  have hu := s.abandonAll_unused hid (by simpa [Surface.frozen] using hp)
  have hs : ((s.abandonAll id).1.surf id).state = (s.surf id).state := by
    rw [State.abandonAll_surf s hid, if_pos rfl]
  split
  · rename_i hstate
    exact ((s.abandonAll_calms hid).step (.release hid (hs.trans hstate) hu)).quiet
      (quiet_arbitrate _)
  · rename_i hstate
    have hlive : (s.surf id).state = .live := hdef.resolve_left hstate
    exact ((s.abandonAll_calms hid).step (.retire hid (hs.trans hlive) hu)).quiet (quiet_arbitrate _)

theorem State.mem_freeSlots {s : State} {i : Nat} :
    i ∈ s.freeSlots ↔ i < 8 ∧ s.slotAt i = none := by
  simp [State.freeSlots, slotNumbers]

theorem openedStream_inOrder {id wx wy ww wh p : Nat} {fmt : Format} {mode : StreamMode}
    {order : StreamOrder} (hw : ww ≠ 0) (hh : wh ≠ 0) :
    (openedStream id wx wy ww wh fmt p mode order).inOrder := by
  refine ⟨Nat.pos_of_ne_zero hw, ?_, fmt.bytesPerPixel_pos, fun h => by cases h⟩
  unfold openedStream
  dsimp only
  split <;> omega

theorem handleOpen_calms (body : List Byte) (s : State) : Calms s (handleOpen body s).1 := by
  unfold handleOpen
  dsimp only
  split
  · exact .refl _
  rename_i hc
  obtain ⟨hid, hdef⟩ := surfaceCheck_eq_none.1 hc
  generalize fieldAt body 0 1 = id at *
  split
  · exact .refl _
  rename_i hwin
  simp only [not_or] at hwin
  split
  · split
    · exact .refl _
    split
    · exact .refl _
    split
    · exact .refl _
    rename_i slot rest hslots
    obtain ⟨h8, hfree⟩ := State.mem_freeSlots.1 (hslots ▸ List.mem_cons_self : slot ∈ (s.closeStreamOf id).freeSlots)
    refine (s.closeStreamOf_calms id).step (.openSlot (by omega) h8 hfree ?_ ?_ rfl
      (openedStream_inOrder hwin.1 hwin.2.1))
    · rw [State.closeStreamOf_surf, if_pos rfl]
    · rw [State.closeStreamOf_surf, if_pos rfl]; exact hdef
  · exact .refl _

/-! ### FILL, COMMIT and CANCEL -/

theorem handleFill_calms (body : List Byte) (s : State) : Calms s (handleFill body s).1 := by
  unfold handleFill
  dsimp only
  split
  · exact .refl _
  rename_i hc
  obtain ⟨hid, hdef⟩ := surfaceCheck_eq_none.1 hc
  generalize fieldAt body 0 1 = id at *
  split
  · exact .refl _
  split
  · exact .refl _
  split
  · exact .refl _
  rename_i hroom
  exact (Calms.step (.refl s) (.queueJob _ (by omega) hdef (by omega) rfl rfl)).quiet (quiet_arbitrate _)

theorem handleCommit_calms (seq : Byte) (body : List Byte) (s : State) :
    Calms s (handleCommit seq body s).1 := by
  unfold handleCommit
  dsimp only
  split
  · exact .refl _
  rename_i hids
  simp only [not_or, List.any_eq_true, decide_eq_true_eq, not_exists, not_and, not_lt] at hids
  split
  · exact .refl _
  split
  · exact .refl _
  rename_i hr
  refine Calm.calms (.accept (State.admits_of_commitRefusal (fun id hid => ?_) hr))
  exact Nat.lt_succ_of_le (hids.2.2 id hid)

theorem handleCancel_calms (body : List Byte) (s : State) : Calms s (handleCancel body s).1 := by
  unfold handleCancel
  dsimp only
  split
  · rename_i i c hc
    exact Calm.calms (.cancel (firstCommit_eq_some.1 hc).1)
  · split <;> exact .refl _

/-! ### Executing a request -/

theorem State.serve_calms (s : State) (k : Byte) {handle : List Byte → State → State × Answer}
    (h : ∀ body u, Calms u (handle body u).1) : Calms s (s.serve k handle) := by
  obtain ⟨f, -, -, -, e⟩ | ⟨f, -, -, -, e⟩ | e := s.serve_cases k handle
  · rw [e]
    exact ((quiet_takeRequest s).calms.trans (h f.body _)).quiet (quiet_queueReply _ _ _)
  · rw [e]; exact (quiet_answer s _ _ _).calms
  · rw [e]; exact .refl s

theorem State.serve_define_effect (s : State) : Effect s (s.serve 0x20 handleDefine) := by
  obtain ⟨f, -, -, -, e⟩ | ⟨f, -, -, -, e⟩ | e := s.serve_cases 0x20 handleDefine
  · have hq := quiet_takeRequest s
    rw [e]
    generalize s.takeRequest = u at hq
    unfold handleDefine
    dsimp only
    split
    · exact .of_quiet (hq.trans (quiet_queueReply _ _ _))
    rename_i hr
    simp only [not_or, not_lt] at hr
    split
    · exact .of_quiet (hq.trans (quiet_queueReply _ _ _))
    rename_i hd
    split
    · exact .of_quiet (hq.trans (quiet_queueReply _ _ _))
    rename_i hret
    split
    · exact .of_quiet (hq.trans (quiet_queueReply _ _ _))
    rename_i hroom
    refine .define hq (by omega) ?_ (by omega) (not_lt.1 hroom) (quiet_queueReply _ _ _)
    cases hs : (u.surf (fieldAt f.body 0 1)).state <;> simp [hs] at hd hret ⊢
  · rw [e]; exact .of_quiet (quiet_answer s _ _ _)
  · rw [e]; exact .of_quiet (Quiet.refl s)

theorem quiet_endHeld (s : State) (e : Executing) (a : Answer) : Quiet s (s.endHeld e a) := by
  unfold State.endHeld
  split
  · exact quiet_withLink _ _
  · exact quiet_queueReply _ _ _

theorem quiet_startSend (s : State) (f : OutFrame) : Quiet s (s.startSend f) := by
  unfold State.startSend
  dsimp only
  split
  · exact ((quiet_withLink s _).trans (quiet_withControl _ _)).trans (quiet_withPins _ _)
  · exact (quiet_withLink s _).trans (quiet_withControl _ _)

/-! ### The part's own events -/

/-- A boundary behind calm moves, and calm moves behind it. -/
theorem Effect.of_boundary {s u : State} (lead sync : List Notice) (hu : Calms s u) :
    Effect s (u.boundary lead sync) := .boundary lead sync hu (Quiet.refl _) rfl

theorem State.decideStopped_effect {s u : State} (lead : List Notice) (hu : Calms s u) :
    Effect s (u.decideStopped lead) := by
  unfold State.decideStopped
  split
  · exact .calm (hu.quiet (quiet_offerAll _ _))
  · rename_i c hc
    split
    · exact .stopped hu hc ((quiet_offerAll _ _).trans (quiet_arbitrate _))
    · exact .of_boundary _ _ hu

theorem Effect.arbitrate {s t : State} (h : Effect s t) : Effect s t.arbitrate := by
  have hq := quiet_arbitrate t
  cases h with
  | calm h => exact .calm (h.quiet hq)
  | define hu hid hf hb hroom ht => exact .define hu hid hf hb hroom (ht.trans hq)
  | boundary lead sync hu ht hb => exact .boundary lead sync hu (ht.trans hq) (by simpa using hb)
  | stopped hu hc ht => exact .stopped hu hc (ht.trans hq)
  | reset hb ht hc =>
    refine .reset ?_ (by simpa using ht) (by simpa using hc)
    exact ⟨hq.surfaces.trans hb.surfaces, hq.pool.trans hb.pool, hq.streams.trans hb.streams,
      hq.jobs.trans hb.jobs, hq.commits.trans hb.commits, hq.colours.trans hb.colours⟩

theorem State.afterStep_effect {s u : State} (d : Bool) (lead : List Notice) (hu : Calms s u) :
    Effect s (u.afterStep d lead) := by
  unfold State.afterStep
  split
  · split
    · exact State.decideStopped_effect lead (hu.quiet (quiet_arbitrate u))
    · exact (State.decideStopped_effect lead hu).arbitrate
  · exact .calm (hu.quiet ((quiet_offerAll _ _).trans (quiet_arbitrate _)))

theorem State.decideIfHeadChanged_effect {s u : State} (v : State) (hu : Calms s u) :
    Effect s (v.decideIfHeadChanged u) := by
  unfold State.decideIfHeadChanged
  split
  · exact .calm hu
  · exact State.decideStopped_effect [] hu

theorem State.copyCompletes_effect (s : State) (id pos : Nat) :
    Effect s (s.copyCompletes id pos) :=
  State.afterStep_effect _ _ ((s.completeCopy_calms id pos).quiet (quiet_endStep _))

theorem State.fillCompletes_effect {s : State} {j : FillJob} {rest : List FillJob}
    (h : s.engine.jobs = j :: rest) (pos : Nat) (full : Bool) :
    Effect s (s.fillCompletes j pos full) := by
  have hc : Calms s (s.fillTile j.surface pos full j.rect j.colour).endStep :=
    (s.fillTile_calms ..).quiet (quiet_endStep _)
  have hj : (s.fillTile j.surface pos full j.rect j.colour).endStep.engine.jobs = j :: rest := by
    simpa [State.endStep] using h
  unfold State.fillCompletes
  dsimp only
  generalize (s.fillTile j.surface pos full j.rect j.colour).endStep = u at hc hj
  split
  · refine .calm ((hc.step (.nextTile (j' := { j with progress := j.progress + 1 }) hj ?_ rfl)).quiet
      (quiet_arbitrate _))
    rw [hj]; rfl
  · exact State.afterStep_effect _ _ (hc.step (.finishJob hj))

theorem State.fillDue_jobs {s : State} {j : FillJob} {pos : Nat} {full : Bool}
    (h : s.fillDue = some (j, pos, full)) : ∃ rest, s.engine.jobs = j :: rest := by
  unfold State.fillDue at h
  split at h
  · rename_i n p k rest hs hj
    split at h
    · obtain ⟨e, -, he⟩ := Option.map_eq_some_iff.1 h
      exact ⟨rest, by rw [hj]; congr 1; exact (Prod.mk.inj he).1⟩
    · cases h
  · cases h

theorem State.lock_effect {s u : State} (hu : Calms s u) (hs : u.timing.state ≠ .stopped) :
    Effect s u.lock := by
  have hq : Calms s (u.withTiming { u.timing with
      state := .locked, good := 0, lastEdge := some u.now }) :=
    hu.quiet (quiet_withTiming u rfl (by simp [hs]))
  unfold State.lock
  dsimp only
  split
  · exact .of_boundary _ _ hq
  · exact .calm (hq.quiet (quiet_offer _ _))

theorem State.seekEdge_effect {s u : State} (hu : Calms s u) (hs : u.timing.state ≠ .stopped) :
    Effect s u.seekEdge := by
  unfold State.seekEdge
  split
  · split
    · exact State.lock_effect hu hs
    · exact .calm (hu.quiet (quiet_withTiming u rfl Iff.rfl))
  · exact .calm (hu.quiet (quiet_withTiming u rfl Iff.rfl))

theorem State.lockedEdge_effect {s u : State} (hu : Calms s u) : Effect s u.lockedEdge := by
  unfold State.lockedEdge
  split
  · exact .of_boundary _ _ (hu.quiet (quiet_withTiming u rfl Iff.rfl))
  · exact .calm (hu.quiet (quiet_withTiming u rfl Iff.rfl))

theorem State.loseLock_effect {s : State} (hs : s.timing.state = .locked) : Effect s s.loseLock :=
  .of_boundary _ _ (quiet_withTiming s (t := { s.timing with state := .seeking, good := 0 }) rfl
    (by simp [hs])).calms

theorem State.softReset_effect {s u : State} (hp : u.pool.pixels = s.pool.pixels) :
    Effect s u.softReset := by
  refine .reset ⟨rfl, ?_, rfl, rfl, rfl, rfl⟩ rfl (.inr rfl)
  change (⟨freeListReset, [], u.pool.pixels⟩ : Pool) = ⟨freeListReset, [], s.pool.pixels⟩
  rw [hp]

theorem State.leaveHeld_quiet (s : State) : Quiet s s.leaveHeld := by
  unfold State.leaveHeld State.enterStarting
  split
  · exact quiet_withControl s _
  · exact Quiet.refl s

/-! ### Every command -/

/-- All that a command can do. -/
theorem exec_effect {i : Instr} {s t : State} (h : exec i s = .next t) : Effect s t := by
  have calms : ∀ {k handle}, (∀ body u, Calms u (handle body u).1) →
      exec i s = .next (s.serve k handle) → Effect s t := by
    intro k handle hh he
    rw [he] at h
    cases h
    exact .calm (s.serve_calms k hh)
  cases i with
  | identify => exact calms (fun _ u => .refl u) rfl
  | status => exact calms handleStatus_calms rfl
  | reset => exact calms handleReset_calms rfl
  | notify => exact calms handleNotify_calms rfl
  | canvas => exact calms handleCanvas_calms rfl
  | loadCurve => exact calms handleLoadCurve_calms rfl
  | loadPalette => exact calms handleLoadPalette_calms rfl
  | define => cases h; exact s.serve_define_effect
  | destroy => exact calms handleDestroy_calms rfl
  | setAttr => exact calms handleSetAttr_calms rfl
  | query => exact calms handleQuery_calms rfl
  | openStream => exact calms handleOpen_calms rfl
  | write =>
    cases h
    split
    · exact .of_quiet (Quiet.refl s)
    · split
      · exact .of_quiet ((quiet_takeRequest s).trans (quiet_withLink _ _))
      · exact .calm (s.serve_calms _ handleWrite_calms)
  | writeHoldEnd =>
    cases h
    split
    · exact .of_quiet (Quiet.refl s)
    · rename_i e _
      split
      · exact .of_quiet (Quiet.refl s)
      · exact .calm ((handleWrite_calms e.request.body s).quiet (quiet_endHeld _ _ _))
  | closeStream => exact calms handleClose_calms rfl
  | read => exact calms handleRead_calms rfl
  | fill => exact calms handleFill_calms rfl
  | commit => cases h; exact State.decideIfHeadChanged_effect s (s.serve_calms _ (handleCommit_calms _))
  | cancel => cases h; exact State.decideIfHeadChanged_effect s (s.serve_calms _ handleCancel_calms)
  | badKind =>
    cases h
    split
    · exact .of_quiet (Quiet.refl s)
    · split
      · exact .of_quiet (Quiet.refl s)
      · exact .of_quiet ((quiet_takeRequest s).trans (quiet_queueReply _ _ _))
  | internalTimerExpiry =>
    cases h
    split
    · exact .of_boundary _ _ (.refl s)
    · exact .of_quiet (Quiet.refl s)
  | fsyPulseEnd =>
    cases h
    split
    · exact .of_quiet (quiet_withTiming s rfl Iff.rfl)
    · exact .of_quiet (Quiet.refl s)
  | finEdge d =>
    cases h
    have hp := (quiet_withPins s { s.pins with finHigh := d == .rise }).calms
    generalize s.withPins { s.pins with finHigh := d == .rise } = u at hp
    dsimp only
    split
    · split
      · rename_i hs; exact State.seekEdge_effect hp (by simp [hs])
      · exact State.lockedEdge_effect hp
      · exact .calm hp
      · exact .calm hp
    · exact .calm hp
  | lossDeadline =>
    cases h
    split
    · rename_i hd
      simp only [State.lossDue, Bool.and_eq_true, beq_iff_eq] at hd
      exact State.loseLock_effect hd.1
    · exact .of_quiet (Quiet.refl s)
  | lineSlotStart =>
    cases h
    split
    · exact .of_quiet (Quiet.refl s)
    · exact .of_quiet (quiet_withScan s _)
  | copyStepComplete =>
    cases h
    split
    · exact .of_quiet (Quiet.refl s)
    · exact s.copyCompletes_effect _ _
  | fillStepComplete =>
    cases h
    split
    · exact .of_quiet (Quiet.refl s)
    · rename_i hd
      obtain ⟨rest, hj⟩ := State.fillDue_jobs hd
      exact State.fillCompletes_effect hj _ _
  | rxByte c =>
    cases h
    split
    · exact .of_quiet (quiet_withLink s _)
    · exact .of_quiet (Quiet.refl s)
  | timeoutDiscard =>
    cases h
    split
    · exact .of_quiet (quiet_withLink s _)
    · exact .of_quiet (Quiet.refl s)
  | linkBreak =>
    cases h
    split
    · unfold State.doBreak
      dsimp only
      split
      · exact State.softReset_effect rfl
      · exact .of_quiet ((quiet_withLink s _).trans (quiet_withPins _ _))
    · exact .of_quiet (Quiet.refl s)
  | linkBreakEnd => cases h; exact .of_quiet ((quiet_withLink s _).trans (quiet_withPins _ _))
  | transmitStart =>
    cases h
    split
    · exact .of_quiet (Quiet.refl s)
    · exact .of_quiet (quiet_startSend s _)
  | transmitEnd =>
    cases h
    split
    · exact .of_quiet (Quiet.refl s)
    · unfold State.endSend
      dsimp only
      split
      · exact State.softReset_effect rfl
      · exact .of_quiet (quiet_withLink s _)
  | pinReset => cases h; exact .reset ⟨rfl, rfl, rfl, rfl, rfl, rfl⟩ rfl (.inl rfl)
  | powerFail => cases h; exact .reset ⟨rfl, rfl, rfl, rfl, rfl, rfl⟩ rfl (.inl rfl)
  | rstnRelease => cases h; exact .of_quiet ((quiet_withPins s _).trans (State.leaveHeld_quiet _))
  | powerGood =>
    cases h
    split
    · exact .of_quiet (Quiet.refl s)
    · exact .of_quiet (((quiet_withPins s _).trans (quiet_withControl _ _)).trans
        (State.leaveHeld_quiet _))
  | hello =>
    cases h
    split
    · exact .of_quiet (quiet_offer s _)
    · exact .of_quiet (Quiet.refl s)

/-- A step is a command, the queue apart, or the passing of time. -/
theorem step_cases {s t : State} (h : step s = .next t) :
    (∃ i q, exec i { s with pending := q } = .next t) ∨ t = s.tick := by
  unfold step at h
  split at h
  · exact .inl ⟨_, _, h⟩
  · split at h
    · exact .inl ⟨_, s.pending, h⟩
    · cases h; exact .inr rfl

/-- All that a step can do. -/
theorem step_effect {s t : State} (h : step s = .next t) :
    (∃ q, Effect { s with pending := q } t) ∨ t = s.tick := by
  obtain ⟨i, q, h⟩ | h := step_cases h
  · exact .inl ⟨q, exec_effect h⟩
  · exact .inr h

end Sys2Proof.Machine
end

section
/-! PROOFS. How a law of the device is kept by every step: it is enough that each move keeps it. -/

namespace Sys2Proof.Machine

/-! ### The application of a commit, block by block (R50, R51) -/

/-- The surfaces of a commit applied one after another. -/
def State.applySurfaces (s : State) (carry : Bool) (ids : List Nat) : State :=
  ids.foldl (fun u id => u.applySurface carry id) s

theorem State.applySurface_eq (s : State) (carry : Bool) (id : Nat) : s.applySurface carry id =
    { s with
      surfaces := (s.applySurface carry id).surfaces, pool := (s.applySurface carry id).pool } := by
  unfold State.applySurface
  dsimp only
  split <;> rfl

theorem State.applySurfaces_eq (s : State) (carry : Bool) (ids : List Nat) :
    s.applySurfaces carry ids = { s with
      surfaces := (s.applySurfaces carry ids).surfaces
      pool := (s.applySurfaces carry ids).pool } := by
  induction ids generalizing s with
  | nil => rfl
  | cons i ids ih =>
    have h := ih (s.applySurface carry i)
    rw [State.applySurface_eq s] at h
    rw [show s.applySurfaces carry (i :: ids) = (s.applySurface carry i).applySurfaces carry ids
      from rfl, State.applySurface_eq s]
    exact h

/-- The canvas applied reads and changes the scan engine and the timing generator alone. -/
theorem State.applyCanvas_of_eq {s u : State} (hs : u.scan = s.scan) (ht : u.timing = s.timing) :
    u.applyCanvas = { u with scan := s.applyCanvas.scan, timing := s.applyCanvas.timing } := by
  unfold State.applyCanvas
  rw [hs]
  dsimp only
  split
  · simp only [State.withTiming, State.withScan, ht]
  · simp only [State.withScan, ht]

/-- The curve applied reads and changes the colour tables alone. -/
theorem State.applyCurve_of_eq {s u : State} (h : u.colours = s.colours) :
    u.applyCurve = { u with colours := s.applyCurve.colours } := by
  unfold State.applyCurve
  rw [h]
  split
  · rfl
  · rw [← h]

/-- Every block that applying a commit changes. -/
theorem State.applyCommit_eq (s : State) (c : Commit) (n : Word) : s.applyCommit c n =
    { s.applySurfaces c.carry c.surfaces with
      commits := ⟨s.commits.queue.tail, recordApplied s.commits.applied ⟨c.tag, n⟩⟩
      colours := if c.curve then s.applyCurve.colours else s.colours
      timing := if c.canvas then s.applyCanvas.timing else s.timing
      scan := if c.canvas then s.applyCanvas.scan else s.scan } := by
  have he := s.applySurfaces_eq c.carry c.surfaces
  have hf : c.surfaces.foldl (fun u id => u.applySurface c.carry id) s =
      s.applySurfaces c.carry c.surfaces := rfl
  unfold State.applyCommit
  simp only [hf]
  generalize s.applySurfaces c.carry c.surfaces = t at he
  have hu : (if c.canvas then t.applyCanvas else t) = { t with
      timing := if c.canvas then s.applyCanvas.timing else s.timing
      scan := if c.canvas then s.applyCanvas.scan else s.scan } := by
    cases c.canvas
    · rw [he]; rfl
    · exact State.applyCanvas_of_eq (by rw [he]) (by rw [he])
  rw [hu]
  generalize hue : { t with timing := _, scan := _ } = u
  have hcol : u.colours = s.colours := by rw [← hue, he]
  cases c.curve
  · rw [← hue, he]; rfl
  · simp only [if_true]
    rw [State.applyCurve_of_eq hcol, ← hue, he]
    rfl

/-! ### A record after the application of commits that may name it -/

/-- Two records that differ at most as the application of commits makes them differ: the banks may
have changed places, the state may have gone from STAGED to LIVE. -/
structure SameShape (f g : Surface) : Prop where
  width : g.width = f.width
  height : g.height = f.height
  banks : g.banks = f.banks
  stream : g.stream = f.stream
  fills : g.fills = f.fills
  isFree : g.state = .free ↔ f.state = .free
  isDefined : g.defined ↔ f.defined
  places : g.front = f.front ∧ g.back = f.back ∨ f.banks = 2 ∧ g.front = f.back ∧ g.back = f.front

theorem SameShape.refl (f : Surface) : SameShape f f :=
  ⟨rfl, rfl, rfl, rfl, rfl, Iff.rfl, Iff.rfl, .inl ⟨rfl, rfl⟩⟩

theorem SameShape.trans {f g h : Surface} (a : SameShape f g) (b : SameShape g h) : SameShape f h where
  width := b.width.trans a.width
  height := b.height.trans a.height
  banks := b.banks.trans a.banks
  stream := b.stream.trans a.stream
  fills := b.fills.trans a.fills
  isFree := b.isFree.trans a.isFree
  isDefined := b.isDefined.trans a.isDefined
  places := by
    have hb := a.banks
    rcases a.places with ⟨a1, a2⟩ | ⟨a0, a1, a2⟩ <;> rcases b.places with ⟨b1, b2⟩ | ⟨b0, b1, b2⟩ <;>
      simp_all

theorem Surface.applied_sameShape (f : Surface) (k : Nat) :
    SameShape f f.applied ∧ SameShape f { f.applied with stale := k } := by
  have h : SameShape f f.applied := by
    unfold Surface.applied
    dsimp only
    by_cases hs : f.swaps = true
    · rw [if_pos hs]
      have hb : f.banks = 2 := by
        simp only [Surface.swaps, Surface.double, Bool.and_eq_true, beq_iff_eq] at hs
        exact hs.1
      refine ⟨rfl, rfl, rfl, rfl, rfl, ?_, ?_, .inr ⟨hb, rfl, rfl⟩⟩ <;>
        cases hf : f.state <;> simp [Surface.swapBanks, Surface.defined, hf]
    · rw [if_neg hs]
      refine ⟨rfl, rfl, rfl, rfl, rfl, ?_, ?_, .inl ⟨rfl, rfl⟩⟩ <;>
        cases hf : f.state <;> simp [Surface.defined, hf]
  exact ⟨h, h.width, h.height, h.banks, h.stream, h.fills, h.isFree, h.isDefined, h.places⟩

theorem State.applySurface_sameShape (s : State) (carry : Bool) (id j : Nat) :
    SameShape (s.surf j) ((s.applySurface carry id).surf j) := by
  by_cases hid : id < 32
  · rw [State.applySurface_surf s carry id hid]
    split
    · rename_i h
      subst h
      split
      · exact ((s.surf j).applied_sameShape _).2
      · exact ((s.surf j).applied_sameShape 0).1
    · exact SameShape.refl _
  · have e : (s.applySurface carry id).surf j = s.surf j := by
      have hn : (s.surf id).swaps = false := by rw [State.surf_of_le s (by omega)]; rfl
      simp only [State.applySurface, hn, Bool.and_false, Bool.false_eq_true, if_false,
        State.surf_setSurf]
      rw [if_neg (by omega)]
    rw [e]
    exact SameShape.refl _

theorem State.applySurfaces_sameShape (s : State) (carry : Bool) (ids : List Nat) (j : Nat) :
    SameShape (s.surf j) ((s.applySurfaces carry ids).surf j) := by
  induction ids generalizing s with
  | nil => exact SameShape.refl _
  | cons i ids ih => exact (s.applySurface_sameShape carry i j).trans (ih _)

/-- Marking for a carry changes content states alone. -/
theorem State.applySurfaces_pool (s : State) (carry : Bool) (ids : List Nat) :
    (s.applySurfaces carry ids).pool.free = s.pool.free ∧
      (s.applySurfaces carry ids).pool.pixels = s.pool.pixels ∧
      (StoreWf contentDefault s.pool.content →
        StoreWf contentDefault (s.applySurfaces carry ids).pool.content) := by
  induction ids generalizing s with
  | nil => exact ⟨rfl, rfl, id⟩
  | cons i ids ih =>
    have h : (s.applySurface carry i).pool.free = s.pool.free ∧
        (s.applySurface carry i).pool.pixels = s.pool.pixels ∧
        (StoreWf contentDefault s.pool.content →
          StoreWf contentDefault (s.applySurface carry i).pool.content) := by
      unfold State.applySurface State.markCarry
      dsimp only
      split
      · exact ⟨Pool.setContents_free _ _ _, Pool.setContents_pixels _ _ _,
          fun h => Pool.setContents_wf h _ _⟩
      · exact ⟨rfl, rfl, id⟩
    obtain ⟨h1, h2, h3⟩ := h
    obtain ⟨g1, g2, g3⟩ := ih (s.applySurface carry i)
    exact ⟨g1.trans h1, g2.trans h2, g3 ∘ h3⟩

section
variable (s : State) (c : Commit) (n : Word)

theorem State.applyCommit_sameShape (j : Nat) :
    SameShape (s.surf j) ((s.applyCommit c n).surf j) := by
  rw [State.applyCommit_eq]
  exact s.applySurfaces_sameShape c.carry c.surfaces j

theorem State.applyCommit_free : (s.applyCommit c n).pool.free = s.pool.free := by
  rw [State.applyCommit_eq]; exact (s.applySurfaces_pool _ _).1
theorem State.applyCommit_pixels : (s.applyCommit c n).pool.pixels = s.pool.pixels := by
  rw [State.applyCommit_eq]; exact (s.applySurfaces_pool _ _).2.1
theorem State.applyCommit_contentWf (h : StoreWf contentDefault s.pool.content) :
    StoreWf contentDefault (s.applyCommit c n).pool.content := by
  rw [State.applyCommit_eq]; exact (s.applySurfaces_pool _ _).2.2 h
@[simp] theorem State.applyCommit_streams : (s.applyCommit c n).streams = s.streams := by
  rw [State.applyCommit_eq, State.applySurfaces_eq]
@[simp] theorem State.applyCommit_engine : (s.applyCommit c n).engine = s.engine := by
  rw [State.applyCommit_eq, State.applySurfaces_eq]
@[simp] theorem State.applyCommit_now : (s.applyCommit c n).now = s.now := by
  rw [State.applyCommit_eq, State.applySurfaces_eq]
@[simp] theorem State.applyCommit_link : (s.applyCommit c n).link = s.link := by
  rw [State.applyCommit_eq, State.applySurfaces_eq]
@[simp] theorem State.applyCommit_control : (s.applyCommit c n).control = s.control := by
  rw [State.applyCommit_eq, State.applySurfaces_eq]
@[simp] theorem State.applyCommit_pins : (s.applyCommit c n).pins = s.pins := by
  rw [State.applyCommit_eq, State.applySurfaces_eq]
theorem State.applyCommit_commits : (s.applyCommit c n).commits =
    ⟨s.commits.queue.tail, recordApplied s.commits.applied ⟨c.tag, n⟩⟩ := by
  rw [State.applyCommit_eq]
theorem State.applyCommit_colours : (s.applyCommit c n).colours =
    if c.curve then s.applyCurve.colours else s.colours := by rw [State.applyCommit_eq]

/-- R125 touches neither the frame counter nor the moment of the last boundary nor FSY. -/
theorem State.applyCommit_timing : (s.applyCommit c n).timing.frame = s.timing.frame ∧
    (s.applyCommit c n).timing.lastBoundary = s.timing.lastBoundary ∧
    (s.applyCommit c n).timing.fsy = s.timing.fsy := by
  have h : s.applyCanvas.timing.frame = s.timing.frame ∧
      s.applyCanvas.timing.lastBoundary = s.timing.lastBoundary ∧
      s.applyCanvas.timing.fsy = s.timing.fsy := by
    unfold State.applyCanvas
    dsimp only
    split <;> exact ⟨rfl, rfl, rfl⟩
  rw [State.applyCommit_eq]
  dsimp only
  split
  · exact h
  · exact ⟨rfl, rfl, rfl⟩
end

/-! ### Laws that every step keeps -/

/-- A property of the part that every move keeps. -/
structure Kept (P : State → Prop) : Prop where
  same : ∀ {s t : State}, SameBlocks s t → P s → P t
  calm : ∀ {s t : State}, Calm s t → P s → P t
  define : ∀ {s : State} {id w h banks : Nat}, id < 32 → (s.surf id).state = .free →
    banks = 1 ∨ banks = 2 → banks * tileCount w h ≤ s.pool.free.length → P s →
    P (s.defineSurface id w h banks)
  apply : ∀ {s : State} {c : Commit} (n : Word), s.commits.queue.head? = some c →
    (∀ id ∈ c.surfaces, (s.surf id).settled = true) → P s → P (s.applyCommit c n)
  release : ∀ {s : State} {id : Nat}, id < 32 → (s.surf id).state = .retiring → P s →
    P (s.releaseSurface id)
  reset : ∀ {s : State}, P s → P s.resetBlocks

theorem State.settled_of_ready {s : State} {n : Word} {c : Commit} (h : s.ready n c = true) :
    ∀ id ∈ c.surfaces, (s.surf id).settled = true := by
  unfold State.ready at h
  rw [Bool.and_eq_true, List.all_eq_true] at h
  exact h.1

section
variable {P : State → Prop} (hP : Kept P)
include hP

theorem Kept.quiet {s t : State} (h : Quiet s t) (hs : P s) : P t := hP.same h.toSameBlocks hs

theorem Kept.calms {s t : State} (h : Calms s t) (hs : P s) : P t := by
  induction h with
  | refl => exact hs
  | tail _ h ih => exact hP.calm h ih

theorem Kept.applyReady (n : Word) (q : List Commit) {s : State} (hq : s.commits.queue = q)
    (hs : P s) : P (State.applyReady n q s).1 := by
  induction q generalizing s with
  | nil => exact hs
  | cons c q ih =>
    unfold State.applyReady
    split
    · rename_i hr
      have ht := hP.apply (c := c) n (by rw [hq]; rfl) (State.settled_of_ready hr) hs
      dsimp only
      split
      · exact ht
      · exact ih (by rw [State.applyCommit_commits, hq]; rfl) ht
    · exact hs

theorem Kept.retireAll {s : State} (hs : P s) : P s.retireAll := by
  have key : ∀ ids : List Nat, (∀ id ∈ ids, id < 32) → ∀ {s}, P s → P (ids.foldl
      (fun t id => if (t.surf id).state = .retiring then t.releaseSurface id else t) s) := by
    intro ids
    induction ids with
    | nil => exact fun _ _ hs => hs
    | cons i ids ih =>
      intro hlt s hs
      refine ih (fun j hj => hlt j (List.mem_cons_of_mem i hj)) ?_
      dsimp only
      split
      · rename_i hr; exact hP.release (hlt i List.mem_cons_self) hr hs
      · exact hs
  exact key surfaceIds surfaceIds_lt hs

theorem Kept.boundary (lead sync : List Notice) {s : State} (hs : P s) :
    P (s.boundary lead sync) := by
  obtain ⟨g, hg, pick, m, e⟩ := State.boundary_form s lead sync
  have hb : ∀ u : State, SameBlocks u u.beginFrame := by
    intro u; unfold State.beginFrame; split <;> exact ⟨rfl, rfl, rfl, rfl, rfl, rfl⟩
  rw [e, hg]
  refine hP.quiet (quiet_arbitrate _) (hP.quiet (quiet_offerAll _ _) (hP.same (hb _) ?_))
  have hc : P s.countBoundary := hP.same (s := s) ⟨rfl, rfl, rfl, rfl, rfl, rfl⟩ hs
  exact hP.retireAll (hP.applyReady _ s.commits.queue rfl hc)

theorem Kept.effect {s t : State} (h : Effect s t) (hs : P s) : P t := by
  cases h with
  | calm h => exact hP.calms h hs
  | define hu hid hf hb hroom ht => exact hP.quiet ht (hP.define hid hf hb hroom (hP.quiet hu hs))
  | boundary lead sync hu ht _ => exact hP.quiet ht (hP.boundary lead sync (hP.calms hu hs))
  | stopped hu hc ht =>
    refine hP.quiet ht (hP.apply _ ?_ ?_ (hP.calms hu hs))
    · exact ((State.stoppedHead_iff _ _).1 hc).2.1
    · exact State.settled_of_ready ((State.ready_iff _ _ _).2 ((State.stoppedHead_iff _ _).1 hc).2.2.2)
  | reset hb _ _ => exact hP.same hb (hP.reset hs)

/-- A law that every move keeps is kept by every step. -/
theorem Kept.step {s t : State} (hs : P s) (h : step s = .next t) : P t := by
  obtain ⟨q, h⟩ | rfl := step_effect h
  · exact hP.effect h (hP.same (s := s) ⟨rfl, rfl, rfl, rfl, rfl, rfl⟩ hs)
  · exact hP.same (s := s) ⟨rfl, rfl, rfl, rfl, rfl, rfl⟩ hs
end

theorem Kept.and {P Q : State → Prop} (hP : Kept P) (hQ : Kept Q) : Kept (fun s => P s ∧ Q s) where
  same h hs := ⟨hP.same h hs.1, hQ.same h hs.2⟩
  calm h hs := ⟨hP.calm h hs.1, hQ.calm h hs.2⟩
  define h1 h2 h3 h4 hs := ⟨hP.define h1 h2 h3 h4 hs.1, hQ.define h1 h2 h3 h4 hs.2⟩
  apply n h1 h2 hs := ⟨hP.apply n h1 h2 hs.1, hQ.apply n h1 h2 hs.2⟩
  release h1 h2 hs := ⟨hP.release h1 h2 hs.1, hQ.release h1 h2 hs.2⟩
  reset hs := ⟨hP.reset hs.1, hQ.reset hs.2⟩

/-! ### Records and slots after one is set -/

/-- What every record shows that the one set shows too. -/
theorem State.surf_setSurf_keeps {α : Type} (s : State) {id : Nat} {f : Surface} (g : Surface → α)
    (h : g f = g (s.surf id)) (j : Nat) : g ((s.setSurf id f).surf j) = g (s.surf j) := by
  rw [State.surf_setSurf]
  split
  · rename_i hj; rw [h, hj.1]
  · rfl

/-- What every record shows whatever its stale count. -/
theorem Touches.keeps {α : Type} {s t : State} {id : Nat} {x : Tile} (h : Touches s t id x)
    (g : Surface → α) (hg : ∀ f k, g { f with stale := k } = g f) (j : Nat) :
    g (t.surf j) = g (s.surf j) := by
  rw [h.surf]
  split
  · rename_i hj; rw [hg, hj.2.1]
  · rfl

/-- What every record shows whatever its pending-commit field. -/
theorem State.setTags_keeps {α : Type} (s : State) (ids : List Nat) (p : Option Half)
    (g : Surface → α) (hg : ∀ f q, g { f with pendingTag := q } = g f) (j : Nat) :
    g ((s.setTags ids p).surf j) = g (s.surf j) := by
  rw [State.setTags_surf]
  split
  · exact hg _ _
  · rfl

/-- What every record shows whatever its outstanding work. -/
theorem State.abandonWork_keeps {α : Type} (s : State) {id : Nat} (hid : id < 32)
    (g : Surface → α) (hg : ∀ f a b, g { f with stale := a, fills := b } = g f) (j : Nat) :
    g ((s.abandonWork id).1.surf j) = g (s.surf j) := by
  rw [State.abandonWork_surf s hid]
  split
  · rename_i hj; rw [hg, hj]
  · rfl

theorem State.surf_resetBlocks (s : State) (id : Nat) : s.resetBlocks.surf id = surfaceFree := by
  by_cases h : id < 32
  · simp [State.surf, State.resetBlocks, h]
  · exact State.surf_of_le _ (by omega)

theorem State.slotAt_resetBlocks (s : State) (i : Nat) : s.resetBlocks.slotAt i = none := by
  by_cases h : i < 8
  · simp [State.slotAt, State.resetBlocks, h]
  · exact State.slotAt_of_le _ (by omega)

theorem State.releaseSurface_surf (s : State) {id : Nat} (hid : id < 32) (j : Nat) :
    (s.releaseSurface id).surf j = if j = id then surfaceFree else s.surf j := by
  unfold State.releaseSurface
  dsimp only
  rw [State.surf_setSurf_of_lt hid]
  rfl

theorem State.defineSurface_surf (s : State) {id : Nat} (hid : id < 32) (w h banks j : Nat) :
    (s.defineSurface id w h banks).surf j = if j = id then
      definedSurface w h banks (s.pool.free.take (tileCount w h))
        (if banks = 2 then (s.pool.free.drop (tileCount w h)).take (tileCount w h) else [])
      else s.surf j := by
  unfold State.defineSurface
  dsimp only
  rw [State.surf_setSurf_of_lt hid]
  by_cases hb : banks = 2 <;> simp [hb, Pool.allocate]

end Sys2Proof.Machine
end

section
/-! PROOFS. The laws of the commit and fill queues, of the streams, of the freezes and of the colour
tables, each kept by every move. -/

namespace Sys2Proof.Machine

/-! ### The queues (R14, R35, R36, R83) -/

section
variable {s t : State}

theorem QueueLaw.congr (h : QueueLaw s) (hq : t.commits.queue.length ≤ 4)
    (ha : t.commits.applied.length ≤ 4) (hj : t.engine.jobs = s.engine.jobs)
    (hf : ∀ id, (t.surf id).fills = (s.surf id).fills)
    (hd : ∀ id, (s.surf id).defined → (t.surf id).defined) : QueueLaw t := by
  obtain ⟨-, -, h3, h4, h5⟩ := h
  refine ⟨hq, ha, hj ▸ h3, fun id hid => ?_, fun j hm => ?_⟩
  · rw [hf, hj, h4 id hid]
  · obtain ⟨h6, h7⟩ := h5 j (hj ▸ hm)
    exact ⟨h6, hd _ h7⟩

theorem QueueLaw.of_eq (h : QueueLaw s) (hc : t.commits = s.commits)
    (hj : t.engine.jobs = s.engine.jobs) (hf : ∀ id, (t.surf id).fills = (s.surf id).fills)
    (hd : ∀ id, (t.surf id).state = (s.surf id).state) : QueueLaw t :=
  h.congr (hc ▸ h.1) (hc ▸ h.2.1) hj hf fun id h => by rw [Surface.defined, hd]; exact h

/-- A surface with no job on it may leave the states STAGED and LIVE. -/
theorem QueueLaw.of_unused (h : QueueLaw s) {id : Nat} (hu : ∀ j ∈ s.engine.jobs, j.surface ≠ id)
    (hc : t.commits = s.commits) (hj : t.engine.jobs = s.engine.jobs)
    (hf : (t.surf id).fills = 0 ∨ (t.surf id).fills = (s.surf id).fills)
    (he : ∀ j, j ≠ id → t.surf j = s.surf j) : QueueLaw t := by
  obtain ⟨h1, h2, h3, h4, h5⟩ := h
  have h0 : s.engine.jobs.countP (fun j => j.surface == id) = 0 :=
    List.countP_eq_zero.2 fun j hm => by simpa using hu j hm
  refine ⟨hc ▸ h1, hc ▸ h2, hj ▸ h3, fun k hk => ?_, fun j hm => ?_⟩
  · by_cases e : k = id
    · subst e
      rw [hj, h0]
      rcases hf with hf | hf
      · exact hf
      · rw [hf, h4 k hk, h0]
    · rw [he k e, hj, h4 k hk]
  · rw [hj] at hm
    rw [he _ (hu j hm)]
    exact h5 j hm

/-- With no job on it, a surface that is not STAGED or LIVE is free of jobs. -/
theorem QueueLaw.no_job (h : QueueLaw s) {id : Nat} (hd : ¬ (s.surf id).defined) :
    ∀ j ∈ s.engine.jobs, j.surface ≠ id := by
  rintro j hj rfl
  exact hd (h.2.2.2.2 j hj).2
end

theorem QueueLaw.abandon {s : State} {id : Nat} (hid : id < 32) (h : QueueLaw s) :
    QueueLaw (s.abandonWork id).1 := by
  have hjobs : (s.abandonWork id).1.engine.jobs = s.engine.jobs.filter (·.surface != id) := rfl
  obtain ⟨h1, h2, h3, h4, h5⟩ := h
  refine ⟨h1, h2, ?_, fun k hk => ?_, fun j hm => ?_⟩
  · rw [hjobs]; exact (List.length_filter_le _ _).trans h3
  · rw [State.abandonWork_surf s hid, hjobs, List.countP_filter]
    split
    · rename_i e
      subst e
      exact (List.countP_eq_zero.2 fun j _ => by simp).symm
    · rename_i e
      rw [h4 k hk]
      refine List.countP_congr fun j _ => ?_
      simp only [Bool.and_eq_true, beq_iff_eq, bne_iff_ne, ne_eq]
      exact ⟨fun hj => ⟨hj, fun h => e (hj.symm.trans h)⟩, fun hj => hj.1⟩
  · rw [hjobs, List.mem_filter] at hm
    rw [State.abandonWork_surf s hid, if_neg (by simpa using hm.2)]
    exact h5 j hm.1

theorem QueueLaw.queueJob {s : State} {id : Nat} {e : Engine} {job : FillJob} (dirty : Bool)
    (hid : id < 32) (hdef : (s.surf id).defined) (hroom : s.engine.jobs.length < 4)
    (hjob : job.surface = id) (he : e.jobs = s.engine.jobs ++ [job]) (h : QueueLaw s) :
    QueueLaw ((s.withEngine e).setSurf id
      { s.surf id with fills := (s.surf id).fills + 1, dirty := dirty }) := by
  have hd : ∀ j, (((s.withEngine e).setSurf id
      { s.surf id with fills := (s.surf id).fills + 1, dirty := dirty }).surf j).defined ↔
      (s.surf j).defined := fun j => by
    have := State.surf_setSurf_keeps (s.withEngine e) (id := id)
      (f := { s.surf id with fills := (s.surf id).fills + 1, dirty := dirty }) Surface.state rfl j
    simp only [Surface.defined, this, State.withEngine_surf]
  obtain ⟨h1, h2, h3, h4, h5⟩ := h
  refine ⟨h1, h2, ?_, fun k hk => ?_, fun j hm => ?_⟩
  · rw [State.setSurf_engine, State.withEngine_engine, he, List.length_append, List.length_singleton]
    omega
  · rw [State.setSurf_engine, State.withEngine_engine, he, List.countP_append, State.surf_setSurf,
      List.countP_singleton, hjob]
    by_cases e : id = k
    · subst e
      simp [hid, h4 id hid]
    · simp [e, h4 k hk]
  · rw [State.setSurf_engine, State.withEngine_engine, he, List.mem_append, List.mem_singleton] at hm
    rw [hd]
    rcases hm with hm | rfl
    · exact h5 j hm
    · rw [hjob]; exact ⟨hid, hdef⟩

theorem QueueLaw.nextTile {s : State} {e : Engine} {j j' : FillJob} {rest : List FillJob}
    (hj : s.engine.jobs = j :: rest) (he : e.jobs = j' :: rest) (hs : j'.surface = j.surface)
    (h : QueueLaw s) : QueueLaw (s.withEngine e) := by
  obtain ⟨h1, h2, h3, h4, h5⟩ := h
  rw [hj] at h3 h4 h5
  refine ⟨h1, h2, ?_, fun k hk => ?_, fun x hm => ?_⟩
  · rw [State.withEngine_engine, he]; exact h3
  · rw [State.withEngine_surf, State.withEngine_engine, he, h4 k hk]
    simp only [List.countP_cons, hs]
  · rw [State.withEngine_engine, he] at hm
    rcases List.mem_cons.1 hm with rfl | hm
    · rw [hs]; exact h5 j List.mem_cons_self
    · exact h5 x (List.mem_cons_of_mem _ hm)

theorem QueueLaw.finishJob {s : State} {j : FillJob} {rest : List FillJob}
    (hj : s.engine.jobs = j :: rest) (h : QueueLaw s) : QueueLaw (s.finishJob j) := by
  have hjobs : (s.finishJob j).engine.jobs = rest := by
    change s.engine.jobs.tail = rest
    rw [hj]; rfl
  have hd : ∀ k, ((s.finishJob j).surf k).state = (s.surf k).state :=
    State.surf_setSurf_keeps (s.withEngine { s.engine with jobs := s.engine.jobs.tail })
      Surface.state rfl
  obtain ⟨h1, h2, h3, h4, h5⟩ := h
  rw [hj] at h3 h4 h5
  refine ⟨h1, h2, ?_, fun k hk => ?_, fun x hm => ?_⟩
  · rw [hjobs]; exact (Nat.le_succ _).trans h3
  · have hk' := h4 k hk
    rw [hjobs]
    rw [List.countP_cons] at hk'
    unfold State.finishJob
    rw [State.surf_setSurf]
    by_cases e : j.surface = k
    · subst e
      rw [if_pos ⟨rfl, hk⟩]
      simp only [beq_self_eq_true, if_true] at hk'
      rw [hk', Nat.add_sub_cancel]
    · rw [if_neg (fun h => e h.1), State.withEngine_surf, hk']
      simp [e]
  · rw [hjobs] at hm
    simp only [Surface.defined, hd]
    exact h5 x (List.mem_cons_of_mem _ hm)

theorem length_recordApplied_le {r : List Applied} (e : Applied) (h : r.length ≤ 4) :
    (recordApplied r e).length ≤ 4 := by
  rw [recordApplied_eq, List.length_drop, List.length_append, List.length_singleton]
  omega

theorem QueueLaw.release {s : State} {id : Nat} (hid : id < 32)
    (hu : ∀ j ∈ s.engine.jobs, j.surface ≠ id) (h : QueueLaw s) : QueueLaw (s.releaseSurface id) := by
  refine h.of_unused hu rfl rfl (.inl ?_) fun j hj => ?_
  · rw [State.releaseSurface_surf s hid, if_pos rfl]; rfl
  · rw [State.releaseSurface_surf s hid, if_neg hj]

theorem queueLaw_resetBlocks (s : State) : QueueLaw s.resetBlocks := by
  refine ⟨Nat.zero_le _, Nat.zero_le _, Nat.zero_le _, fun id _ => ?_, fun j hj => by cases hj⟩
  rw [State.surf_resetBlocks]
  rfl

theorem queueLaw_kept : Kept QueueLaw where
  same h hs := hs.of_eq h.commits h.jobs (fun id => by rw [h.surf]) (fun id => by rw [h.surf])
  calm := by
    intro s t h hs
    cases h with
    | quiet h =>
      exact hs.of_eq h.commits h.jobs (fun id => by rw [h.surf]) (fun id => by rw [h.surf])
    | palette | curve | writeSlot => exact hs.of_eq rfl rfl (fun _ => rfl) (fun _ => rfl)
    | close | openSlot =>
      exact hs.of_eq rfl rfl (State.surf_setSurf_keeps (s.setSlot _ _) Surface.fills rfl)
        (State.surf_setSurf_keeps (s.setSlot _ _) Surface.state rfl)
    | tweak =>
      exact hs.of_eq rfl rfl (State.surf_setSurf_keeps s Surface.fills rfl)
        (State.surf_setSurf_keeps s Surface.state rfl)
    | touch h =>
      exact hs.of_eq h.commits h.jobs (h.keeps Surface.fills fun _ _ => rfl)
        (h.keeps Surface.state fun _ _ => rfl)
    | queueJob dirty hid hdef hroom hjob he => exact hs.queueJob dirty hid hdef hroom hjob he
    | nextTile hj he hsurf => exact hs.nextTile hj he hsurf
    | finishJob hj => exact hs.finishJob hj
    | abandon hid => exact hs.abandon hid
    | retire hid hl hu =>
      exact hs.of_unused hu.jobs rfl rfl (.inr (by rw [State.surf_setSurf_self s hid]))
        fun j hj => State.surf_setSurf_ne s (Ne.symm hj) _
    | release hid hl hu => exact hs.release hid hu.jobs
    | @accept c h =>
      rw [State.acceptCommit_eq]
      refine hs.congr ?_ ?_ (by simp) (State.setTags_keeps _ _ _ Surface.fills fun _ _ => rfl)
        fun id h => ?_
      · have := h.room
        simp only [State.setTags_commits, State.withCommits_commits, List.length_append,
          List.length_singleton]
        omega
      · rw [State.setTags_commits]; exact hs.2.1
      · rw [Surface.defined, State.setTags_keeps _ _ _ Surface.state fun _ _ => rfl]; exact h
    | @cancel i c h =>
      rw [State.removeCommit_eq]
      refine hs.congr ?_ ?_ (by simp) (State.setTags_keeps _ _ _ Surface.fills fun _ _ => rfl)
        fun id h => ?_
      · rw [State.setTags_commits]; exact (List.length_eraseIdx_le _ _).trans hs.1
      · rw [State.setTags_commits]; exact hs.2.1
      · rw [Surface.defined, State.setTags_keeps _ _ _ Surface.state fun _ _ => rfl]; exact h
  define := by
    intro s id w h banks hid hf _ _ hs
    refine hs.of_unused (hs.no_job (id := id) ?_) rfl rfl (.inl ?_) fun j hj => ?_
    · simp [hf]
    · rw [State.defineSurface_surf s hid, if_pos rfl]; rfl
    · rw [State.defineSurface_surf s hid, if_neg hj]
  apply := by
    intro s c n _ _ hs
    refine hs.congr ?_ ?_ (by rw [State.applyCommit_engine])
      (fun id => (s.applyCommit_sameShape c n id).fills)
      (fun id => (s.applyCommit_sameShape c n id).isDefined.2)
    · rw [State.applyCommit_commits, List.length_tail]; exact (Nat.sub_le _ _).trans hs.1
    · rw [State.applyCommit_commits]; exact length_recordApplied_le _ hs.2.1
  release := fun hid hr hs => hs.release hid (hs.no_job (by simp [hr]))
  reset _ := queueLaw_resetBlocks _

/-- Settles O52: no move breaks the bounds of the queues or the count of a surface's jobs. -/
theorem stepsKeepTheQueueLaw : Obligations.StepsKeepTheQueueLaw :=
  fun _ _ hs h => queueLaw_kept.step hs h

/-! ### The streams (R61) -/

section
variable {s t : State}

theorem StreamLaw.of_eq (h : StreamLaw s) (hs : ∀ i, t.slotAt i = s.slotAt i)
    (hf : ∀ id, (t.surf id).stream = (s.surf id).stream)
    (hd : ∀ id, (s.surf id).defined → (t.surf id).defined) : StreamLaw t := by
  refine ⟨fun i hi st hst => ?_, fun id hid i hi => ?_⟩
  · obtain ⟨h1, h2, h3, h4⟩ := h.1 i hi st (hs i ▸ hst)
    exact ⟨h1, (hf _).trans h2, hd _ h3, h4⟩
  · obtain ⟨h1, st, h2⟩ := h.2 id hid i ((hf id).symm.trans hi)
    exact ⟨h1, st, hs i ▸ h2⟩

/-- A record that holds no stream names no slot, and no slot names it. -/
theorem StreamLaw.surface_ne (h : StreamLaw s) {id i : Nat} {st : Stream}
    (hn : (s.surf id).stream = none) (hst : s.slotAt i = some st) : st.surface ≠ id := by
  rintro rfl
  have hi : i < 8 := by
    by_contra hi
    rw [State.slotAt_of_le s (by omega)] at hst
    cases hst
  rw [(h.1 i hi st hst).2.1] at hn
  cases hn

/-- A surface with no stream may leave the states STAGED and LIVE. -/
theorem StreamLaw.of_unused (h : StreamLaw s) {id : Nat} (hn : (s.surf id).stream = none)
    (ht : (t.surf id).stream = none) (hs : ∀ i, t.slotAt i = s.slotAt i)
    (he : ∀ j, j ≠ id → t.surf j = s.surf j) : StreamLaw t := by
  refine ⟨fun i hi st hst => ?_, fun k hk i hi => ?_⟩
  · rw [hs] at hst
    rw [he _ (h.surface_ne hn hst)]
    exact h.1 i hi st hst
  · have hne : k ≠ id := by rintro rfl; rw [ht] at hi; cases hi
    rw [he k hne] at hi
    rw [hs]
    exact h.2 k hk i hi

/-- A surface that is neither STAGED nor LIVE has no stream. -/
theorem StreamLaw.no_stream (h : StreamLaw s) {id : Nat} (hid : id < 32)
    (hd : ¬ (s.surf id).defined) : (s.surf id).stream = none := by
  cases hst : (s.surf id).stream with
  | none => rfl
  | some i =>
    obtain ⟨hi, st, hs, rfl⟩ := h.2 id hid i hst
    exact absurd (h.1 i hi st hs).2.2.1 hd
end

theorem StreamLaw.close {s : State} {i id : Nat} (h : StreamLaw s)
    (hc : (s.surf id).stream = some i ∨ ∃ st, s.slotAt i = some st ∧ st.surface = id) :
    StreamLaw ((s.setSlot i none).setSurf id { s.surf id with stream := none }) := by
  have hbind : id < 32 ∧ (s.surf id).stream = some i ∧ ∃ st, s.slotAt i = some st ∧ st.surface = id := by
    rcases hc with hc | ⟨st, hst, rfl⟩
    · have hid : id < 32 := by
        by_contra hid
        rw [State.surf_of_le s (by omega)] at hc
        cases hc
      exact ⟨hid, hc, (h.2 id hid i hc).2⟩
    · have hi : i < 8 := by
        by_contra hi
        rw [State.slotAt_of_le s (by omega)] at hst
        cases hst
      obtain ⟨h1, h2, -⟩ := h.1 i hi st hst
      exact ⟨h1, h2, st, hst, rfl⟩
  obtain ⟨hid, hstream, st₀, hst₀, hsurf⟩ := hbind
  refine ⟨fun k hk st hst => ?_, fun j hj k hk => ?_⟩
  · rw [State.setSurf_slotAt, State.slotAt_setSlot] at hst
    split at hst
    · cases hst
    rename_i hki
    have hne : id ≠ st.surface := by
      rintro rfl
      rw [(h.1 k hk st hst).2.1] at hstream
      exact hki ⟨(Option.some.inj hstream).symm, hk⟩
    rw [State.surf_setSurf_ne _ hne, State.setSlot_surf]
    exact h.1 k hk st hst
  · rw [State.surf_setSurf_of_lt hid] at hk
    split at hk
    · cases hk
    rename_i hjid
    obtain ⟨hk8, st, hst, hs⟩ := h.2 j hj k hk
    refine ⟨hk8, st, ?_, hs⟩
    rw [State.setSurf_slotAt, State.slotAt_setSlot, if_neg]
    · exact hst
    · rintro ⟨rfl, -⟩
      rw [hst₀] at hst
      cases hst
      exact hjid (hs.symm.trans hsurf)

theorem StreamLaw.openSlot {s : State} {id slot : Nat} {st : Stream} (h : StreamLaw s) (hid : id < 32)
    (hslot : slot < 8) (hfree : s.slotAt slot = none) (hnone : (s.surf id).stream = none)
    (hdef : (s.surf id).defined) (hst : st.surface = id) (hok : st.inOrder) :
    StreamLaw ((s.setSlot slot (some st)).setSurf id { s.surf id with stream := some slot }) := by
  refine ⟨fun k hk x hx => ?_, fun j hj k hk => ?_⟩
  · rw [State.setSurf_slotAt, State.slotAt_setSlot] at hx
    split at hx
    · rename_i hks
      cases hx
      rw [hst, State.surf_setSurf_self _ hid, hks.1]
      exact ⟨hid, rfl, hdef, hok⟩
    · rw [State.surf_setSurf_ne _ (h.surface_ne hnone hx).symm]
      exact h.1 k hk x hx
  · rw [State.surf_setSurf_of_lt hid] at hk
    rw [State.setSurf_slotAt, State.slotAt_setSlot]
    split at hk
    · rename_i hjid
      cases hk
      exact ⟨hslot, st, if_pos ⟨rfl, hslot⟩, hst.trans hjid.symm⟩
    · obtain ⟨hk8, x, hx, hs⟩ := h.2 j hj k hk
      refine ⟨hk8, x, ?_, hs⟩
      rw [if_neg]
      · exact hx
      · rintro ⟨rfl, -⟩; rw [hfree] at hx; cases hx

theorem StreamLaw.writeSlot {s : State} {slot : Nat} {st st' : Stream} (h : StreamLaw s)
    (hst : s.slotAt slot = some st) (hs : st'.surface = st.surface) (hok : st.inOrder → st'.inOrder) :
    StreamLaw (s.setSlot slot (some st')) := by
  refine ⟨fun k hk x hx => ?_, fun j hj k hk => ?_⟩
  · rw [State.slotAt_setSlot] at hx
    rw [State.setSlot_surf]
    split at hx
    · rename_i hks
      cases hx
      obtain ⟨h1, h2, h3, h4⟩ := h.1 slot (hks.1 ▸ hk) st hst
      rw [hs]
      exact ⟨h1, hks.1 ▸ h2, h3, hok h4⟩
    · exact h.1 k hk x hx
  · obtain ⟨hk8, x, hx, hxs⟩ := h.2 j hj k hk
    rw [State.slotAt_setSlot]
    split
    · rename_i hks
      rw [← hks.1, hst] at hx
      cases hx
      exact ⟨hk8, st', rfl, hs.trans hxs⟩
    · exact ⟨hk8, x, hx, hxs⟩

theorem StreamLaw.release {s : State} {id : Nat} (hid : id < 32) (hn : (s.surf id).stream = none)
    (h : StreamLaw s) : StreamLaw (s.releaseSurface id) := by
  refine h.of_unused hn ?_ (fun _ => rfl) fun j hj => ?_
  · rw [State.releaseSurface_surf s hid, if_pos rfl]; rfl
  · rw [State.releaseSurface_surf s hid, if_neg hj]

theorem streamLaw_resetBlocks (s : State) : StreamLaw s.resetBlocks := by
  refine ⟨fun i _ st hst => ?_, fun id _ i hi => ?_⟩
  · rw [State.slotAt_resetBlocks] at hst; cases hst
  · rw [State.surf_resetBlocks] at hi; cases hi

theorem streamLaw_kept : Kept StreamLaw where
  same h hs := hs.of_eq h.slotAt (fun id => by rw [h.surf]) (fun id hd => by rw [h.surf]; exact hd)
  calm := by
    have of_state : ∀ {s t : State}, StreamLaw s → (∀ i, t.slotAt i = s.slotAt i) →
        (∀ id, (t.surf id).stream = (s.surf id).stream) →
        (∀ id, (t.surf id).state = (s.surf id).state) → StreamLaw t :=
      fun h h1 h2 h3 => h.of_eq h1 h2 fun id hd => by rw [Surface.defined, h3]; exact hd
    intro s t h hs
    cases h with
    | quiet h => exact of_state hs h.slotAt (fun id => by rw [h.surf]) (fun id => by rw [h.surf])
    | palette | curve | nextTile =>
      exact of_state hs (fun _ => rfl) (fun _ => rfl) (fun _ => rfl)
    | close h => exact hs.close h
    | openSlot hid hslot hfree hnone hdef hst hok =>
      exact hs.openSlot hid hslot hfree hnone hdef hst hok
    | writeSlot h hsurf hok => exact hs.writeSlot h hsurf hok
    | tweak =>
      exact of_state hs (fun _ => rfl) (State.surf_setSurf_keeps s Surface.stream rfl)
        (State.surf_setSurf_keeps s Surface.state rfl)
    | queueJob | finishJob =>
      exact of_state hs (fun _ => rfl) (State.surf_setSurf_keeps (s.withEngine _) Surface.stream rfl)
        (State.surf_setSurf_keeps (s.withEngine _) Surface.state rfl)
    | touch h =>
      exact of_state hs (fun i => by rw [State.slotAt, h.streams]; rfl)
        (h.keeps Surface.stream fun _ _ => rfl) (h.keeps Surface.state fun _ _ => rfl)
    | abandon hid =>
      exact of_state hs (fun _ => rfl) (s.abandonWork_keeps hid Surface.stream fun _ _ _ => rfl)
        (s.abandonWork_keeps hid Surface.state fun _ _ _ => rfl)
    | retire hid hl hu =>
      exact hs.of_unused hu.stream (by rw [State.surf_setSurf_self s hid]; exact hu.stream)
        (fun _ => rfl) fun j hj => State.surf_setSurf_ne s (Ne.symm hj) _
    | release hid hl hu => exact hs.release hid hu.stream
    | accept | cancel =>
      exact of_state hs (State.setTags_slotAt _ _ _)
        (State.setTags_keeps _ _ _ Surface.stream fun _ _ => rfl)
        (State.setTags_keeps _ _ _ Surface.state fun _ _ => rfl)
  define := by
    intro s id w h banks hid hf _ _ hs
    refine hs.of_unused (id := id) (hs.no_stream hid (by simp [hf])) ?_ (fun _ => rfl) fun j hj => ?_
    · rw [State.defineSurface_surf s hid, if_pos rfl]; rfl
    · rw [State.defineSurface_surf s hid, if_neg hj]
  apply := by
    intro s c n _ _ hs
    exact hs.of_eq (fun i => by rw [State.slotAt, State.applyCommit_streams]; rfl)
      (fun id => (s.applyCommit_sameShape c n id).stream)
      (fun id => (s.applyCommit_sameShape c n id).isDefined.2)
  release := fun hid hr hs => hs.release hid (hs.no_stream hid (by simp [hr]))
  reset _ := streamLaw_resetBlocks _

/-- Settles O55: no move parts a slot from its record or moves a cursor out of its window. -/
theorem stepsKeepTheStreamLaw : Obligations.StepsKeepTheStreamLaw :=
  fun _ _ hs h => streamLaw_kept.step hs h

end Sys2Proof.Machine
end

section
/-! PROOFS. The law of the freezes (R34, R35, R44) and the laws of the colour tables and the stores,
kept by every move. -/

namespace Sys2Proof.Machine

/-! ### The freezes -/

section
variable {s t : State}

theorem FreezeLaw.of_eq (h : FreezeLaw s) (hq : t.commits.queue = s.commits.queue)
    (hp : ∀ id, (t.surf id).pendingTag = (s.surf id).pendingTag)
    (hd : ∀ id, (s.surf id).defined → (t.surf id).defined) : FreezeLaw t := by
  obtain ⟨h1, h2, h3, h4, h5, h6⟩ := h
  refine ⟨hq ▸ h1, hq ▸ h2, hq ▸ h3, hq ▸ h4, fun c hc id hid => ?_, fun id hid tag ht => ?_⟩
  · obtain ⟨g1, g2, g3⟩ := h5 c (hq ▸ hc) id hid
    exact ⟨g1, (hp id).trans g2, hd id g3⟩
  · rw [hq]; exact h6 id hid tag ((hp id).symm.trans ht)

/-- A surface that is not frozen is named by no pending commit. -/
theorem FreezeLaw.not_named (h : FreezeLaw s) {id : Nat} (hp : (s.surf id).pendingTag = none) :
    ∀ c ∈ s.commits.queue, id ∉ c.surfaces := by
  intro c hc hid
  rw [(h.2.2.2.2.1 c hc id hid).2.1] at hp
  cases hp

/-- A surface that is neither STAGED nor LIVE is not frozen. -/
theorem FreezeLaw.no_tag (h : FreezeLaw s) {id : Nat} (hid : id < 32)
    (hd : ¬ (s.surf id).defined) : (s.surf id).pendingTag = none := by
  cases ht : (s.surf id).pendingTag with
  | none => rfl
  | some tag =>
    obtain ⟨c, hc, -, hm⟩ := h.2.2.2.2.2 id hid tag ht
    exact absurd (h.2.2.2.2.1 c hc id hm).2.2 hd

/-- A surface that is not frozen may leave the states STAGED and LIVE. -/
theorem FreezeLaw.of_unused (h : FreezeLaw s) {id : Nat} (hn : (s.surf id).pendingTag = none)
    (ht : (t.surf id).pendingTag = none) (hq : t.commits.queue = s.commits.queue)
    (he : ∀ j, j ≠ id → t.surf j = s.surf j) : FreezeLaw t := by
  have hnot := h.not_named hn
  obtain ⟨h1, h2, h3, h4, h5, h6⟩ := h
  refine ⟨hq ▸ h1, hq ▸ h2, hq ▸ h3, hq ▸ h4, fun c hc k hk => ?_, fun k hk tag hp => ?_⟩
  · rw [hq] at hc
    rw [he k (by rintro rfl; exact hnot c hc hk)]
    exact h5 c hc k hk
  · have hne : k ≠ id := by rintro rfl; rw [ht] at hp; cases hp
    rw [he k hne] at hp
    rw [hq]
    exact h6 k hk tag hp
end

theorem queue_split {q : List Commit} {i : Nat} {c : Commit} (h : q[i]? = some c) :
    q = q.take i ++ c :: q.drop (i + 1) := by
  obtain ⟨hi, rfl⟩ := List.getElem?_eq_some_iff.1 h
  rw [← List.drop_eq_getElem_cons hi, List.take_append_drop]

/-- A commit leaves the queue, the freezes of its surfaces ending. -/
theorem FreezeLaw.remove {s t : State} {i : Nat} {c : Commit} (h : FreezeLaw s)
    (hc : s.commits.queue[i]? = some c) (hq : t.commits.queue = s.commits.queue.eraseIdx i)
    (ht : ∀ id, id < 32 → (t.surf id).pendingTag =
      if id ∈ c.surfaces then none else (s.surf id).pendingTag)
    (hd : ∀ id, id < 32 → id ∉ c.surfaces → (s.surf id).defined → (t.surf id).defined) :
    FreezeLaw t := by
  have hsplit := queue_split hc
  rw [List.eraseIdx_eq_take_drop_succ] at hq
  obtain ⟨h1, h2, h3, h4, h5, h6⟩ := h
  generalize s.commits.queue.take i = l at *
  generalize s.commits.queue.drop (i + 1) = r at *
  have hsub : (l ++ r).Sublist (l ++ c :: r) := (List.sublist_cons_self c r).append_left l
  rw [hsplit] at h1 h2 h3 h4 h5 h6
  rw [FreezeLaw, hq]
  have hother : ∀ d ∈ l ++ r, ∀ id ∈ d.surfaces, id ∉ c.surfaces := by
    intro d hd' id hid hidc
    simp only [List.flatMap_append, List.flatMap_cons, List.nodup_append, List.mem_append,
      List.mem_flatMap] at h2
    obtain ⟨-, ⟨-, -, hcr⟩, hl⟩ := h2
    rcases List.mem_append.1 hd' with hd' | hd'
    · exact hl id ⟨d, hd', hid⟩ id (.inl hidc) rfl
    · exact hcr id hidc id ⟨d, hd', hid⟩ rfl
  refine ⟨h1.sublist (hsub.map _), ?_, ?_, ?_, ?_, ?_⟩
  · rw [List.flatMap_def] at h2 ⊢
    exact h2.sublist (hsub.map _).flatten
  · exact (hsub.countP_le).trans h3
  · exact (hsub.countP_le).trans h4
  · intro d hd' id hid
    obtain ⟨g1, g2, g3⟩ := h5 d (hsub.subset hd') id hid
    have hn := hother d hd' id hid
    exact ⟨g1, by rw [ht id g1, if_neg hn, g2], hd id g1 hn g3⟩
  · intro id hid tag hp
    rw [ht id hid] at hp
    split at hp
    · cases hp
    rename_i hn
    obtain ⟨d, hdm, hdt, hdi⟩ := h6 id hid tag hp
    refine ⟨d, ?_, hdt, hdi⟩
    rcases List.mem_append.1 hdm with hm | hm
    · exact List.mem_append_left _ hm
    · rcases List.mem_cons.1 hm with rfl | hm
      · exact absurd hdi hn
      · exact List.mem_append_right _ hm

/-- A commit that COMMIT does not refuse joins the queue and freezes what it names. -/
theorem FreezeLaw.accept {s : State} {c : Commit} (h : FreezeLaw s) (ha : s.Admits c) :
    FreezeLaw (s.acceptCommit c) := by
  have hnamed : ∀ id ∈ c.surfaces, ∀ d ∈ s.commits.queue, id ∉ d.surfaces :=
    fun id hid => h.not_named (ha.ids id hid).2.2
  have hq : (s.acceptCommit c).commits.queue = s.commits.queue ++ [c] := by
    rw [State.acceptCommit_eq, State.setTags_commits]; rfl
  have hs : ∀ id, (s.acceptCommit c).surf id = if id ∈ c.surfaces ∧ id < 32 then
      { s.surf id with pendingTag := some c.tag } else s.surf id :=
    State.setTags_surf _ _ _
  obtain ⟨h1, h2, h3, h4, h5, h6⟩ := h
  rw [FreezeLaw, hq]
  refine ⟨?_, ?_, ?_, ?_, ?_, ?_⟩
  · rw [List.map_append, List.nodup_append]
    refine ⟨h1, List.nodup_singleton _, fun a hm b hb => ?_⟩
    obtain ⟨d, hd, rfl⟩ := List.mem_map.1 hm
    rw [List.map_singleton, List.mem_singleton] at hb
    subst hb
    exact ha.tag d hd
  · rw [List.flatMap_append, List.nodup_append]
    refine ⟨h2, by simpa using ha.nodup, fun a hm b hb => ?_⟩
    obtain ⟨d, hd, hda⟩ := List.mem_flatMap.1 hm
    rintro rfl
    exact hnamed a (by simpa using hb) d hd hda
  · rw [List.countP_append, List.countP_singleton]
    split
    · rename_i hcan
      rw [List.countP_eq_zero.2 fun d hd => by rw [ha.canvas hcan d hd]; decide]
    · exact h3
  · rw [List.countP_append, List.countP_singleton]
    split
    · rename_i hcur
      rw [List.countP_eq_zero.2 fun d hd => by rw [ha.curve hcur d hd]; decide]
    · exact h4
  · intro d hd id hid
    rw [hs]
    rcases List.mem_append.1 hd with hd | hd
    · rw [if_neg (fun hc => hnamed id hc.1 d hd hid)]
      exact h5 d hd id hid
    · rw [List.mem_singleton] at hd
      subst hd
      obtain ⟨g1, g2, -⟩ := ha.ids id hid
      rw [if_pos ⟨hid, g1⟩]
      exact ⟨g1, rfl, g2⟩
  · intro id hid tag hp
    rw [hs] at hp
    split at hp
    · rename_i hc
      exact ⟨c, List.mem_append_right _ (List.mem_singleton_self c), Option.some.inj hp, hc.1⟩
    · obtain ⟨d, hd, g⟩ := h6 id hid tag hp
      exact ⟨d, List.mem_append_left _ hd, g⟩

theorem FreezeLaw.release {s : State} {id : Nat} (hid : id < 32)
    (hn : (s.surf id).pendingTag = none) (h : FreezeLaw s) : FreezeLaw (s.releaseSurface id) := by
  refine h.of_unused hn ?_ rfl fun j hj => ?_
  · rw [State.releaseSurface_surf s hid, if_pos rfl]; rfl
  · rw [State.releaseSurface_surf s hid, if_neg hj]

/-- The head of a queue that R44 holds of is applied as the statements spell it. -/
theorem FreezeLaw.applies {s : State} {c : Commit} (h : FreezeLaw s)
    (hc : s.commits.queue.head? = some c) (n : Word) : Applies s (s.applyCommit c n) [c] n := by
  have hm : c ∈ s.commits.queue := List.mem_of_mem_head? hc
  have hnd : c.surfaces.Nodup := by
    obtain ⟨l, r, e⟩ := List.append_of_mem hm
    have h2 := h.2.1
    rw [e, List.flatMap_append, List.flatMap_cons] at h2
    exact (h2.of_append_right).of_append_left
  refine s.applyCommit_applies c n hnd fun id hid => ?_
  obtain ⟨g1, -, g2⟩ := h.2.2.2.2.1 c hm id hid
  exact ⟨g1, g2⟩

theorem freezeLaw_resetBlocks (s : State) : FreezeLaw s.resetBlocks := by
  refine ⟨List.nodup_nil, List.nodup_nil, Nat.zero_le _, Nat.zero_le _, ?_, ?_⟩
  · intro c hc
    cases hc
  · intro id _ tag ht
    rw [State.surf_resetBlocks] at ht
    cases ht

theorem freezeLaw_kept : Kept FreezeLaw where
  same h hs := hs.of_eq (by rw [h.commits]) (fun id => by rw [h.surf])
    (fun id hd => by rw [h.surf]; exact hd)
  calm := by
    have of_state : ∀ {s t : State}, FreezeLaw s → t.commits = s.commits →
        (∀ id, (t.surf id).pendingTag = (s.surf id).pendingTag) →
        (∀ id, (t.surf id).state = (s.surf id).state) → FreezeLaw t :=
      fun h h1 h2 h3 => h.of_eq (by rw [h1]) h2 fun id hd => by rw [Surface.defined, h3]; exact hd
    intro s t h hs
    cases h with
    | quiet h => exact of_state hs h.commits (fun id => by rw [h.surf]) (fun id => by rw [h.surf])
    | palette | curve | nextTile | writeSlot =>
      exact of_state hs rfl (fun _ => rfl) (fun _ => rfl)
    | close | openSlot =>
      exact of_state hs rfl (State.surf_setSurf_keeps (s.setSlot _ _) Surface.pendingTag rfl)
        (State.surf_setSurf_keeps (s.setSlot _ _) Surface.state rfl)
    | tweak =>
      exact of_state hs rfl (State.surf_setSurf_keeps s Surface.pendingTag rfl)
        (State.surf_setSurf_keeps s Surface.state rfl)
    | queueJob | finishJob =>
      exact of_state hs rfl (State.surf_setSurf_keeps (s.withEngine _) Surface.pendingTag rfl)
        (State.surf_setSurf_keeps (s.withEngine _) Surface.state rfl)
    | touch h =>
      exact of_state hs h.commits (h.keeps Surface.pendingTag fun _ _ => rfl)
        (h.keeps Surface.state fun _ _ => rfl)
    | abandon hid =>
      exact of_state hs rfl (s.abandonWork_keeps hid Surface.pendingTag fun _ _ _ => rfl)
        (s.abandonWork_keeps hid Surface.state fun _ _ _ => rfl)
    | retire hid hl hu =>
      exact hs.of_unused hu.pending (by rw [State.surf_setSurf_self s hid]; exact hu.pending)
        rfl fun j hj => State.surf_setSurf_ne s (Ne.symm hj) _
    | release hid hl hu => exact hs.release hid hu.pending
    | accept h => exact hs.accept h
    | @cancel i c h =>
      have hsurf : ∀ id, (s.removeCommit i c).surf id = if id ∈ c.surfaces ∧ id < 32 then
          { s.surf id with pendingTag := none } else s.surf id := State.setTags_surf _ _ _
      refine hs.remove h ?_ (fun id hid => ?_) fun id hid hn hd => ?_
      · rw [State.removeCommit_eq, State.setTags_commits]; rfl
      · rw [hsurf]
        by_cases hc : id ∈ c.surfaces <;> simp [hc, hid]
      · rw [hsurf, if_neg (fun hc => hn hc.1)]; exact hd
  define := by
    intro s id w h banks hid hf _ _ hs
    refine hs.of_unused (id := id) (hs.no_tag hid (by simp [hf])) ?_ rfl fun j hj => ?_
    · rw [State.defineSurface_surf s hid, if_pos rfl]; rfl
    · rw [State.defineSurface_surf s hid, if_neg hj]
  apply := by
    intro s c n hc _ hs
    have ha : ∀ id < 32, (s.applyCommit c n).surf id =
        if id ∈ c.surfaces then (s.surf id).afterCommit c.carry else s.surf id := by
      intro id hid
      rw [(hs.applies hc n).1 id hid]
      by_cases h : id ∈ c.surfaces <;> simp [h]
    refine hs.remove (i := 0) (c := c) ?_ ?_ (fun id hid => ?_) fun id hid hn hd => ?_
    · rw [← List.head?_eq_getElem?]; exact hc
    · rw [State.applyCommit_commits, List.eraseIdx_zero]
    · rw [ha id hid]; split <;> rfl
    · rw [ha id hid, if_neg hn]; exact hd
  release := fun hid hr hs => hs.release hid (hs.no_tag hid (by simp [hr]))
  reset _ := freezeLaw_resetBlocks _

/-- Settles O56: a surface is frozen exactly while one pending commit names it, whatever move is
made. -/
theorem stepsKeepTheFreezeLaw : Obligations.StepsKeepTheFreezeLaw :=
  fun _ _ hs h => freezeLaw_kept.step hs h

/-! ### The output curves (R103) and the stores -/

theorem curveLaw_kept : Kept CurveLaw where
  same h hs := by rw [CurveLaw, h.colours]; exact hs
  calm := by
    intro s t h hs
    cases h with
    | quiet h => rw [CurveLaw, h.colours]; exact hs
    | touch h => rw [CurveLaw, h.colours]; exact hs
    | palette => exact hs
    | curve => intro h; cases h
    | accept => rw [CurveLaw, State.acceptCommit_eq, State.setTags_colours]; exact hs
    | cancel => rw [CurveLaw, State.removeCommit_eq, State.setTags_colours]; exact hs
    | _ => exact hs
  define := fun _ _ _ _ hs => hs
  apply := by
    intro s c n _ _ hs
    rw [CurveLaw, State.applyCommit_colours]
    split
    · unfold State.applyCurve
      split
      · exact fun _ => rfl
      · exact hs
    · exact hs
  release := fun _ _ hs => hs
  reset := fun _ _ => rfl

theorem StoreLaw.of_pool {s t : State} (h : StoreLaw s) (hc : t.colours = s.colours)
    (hp : s.pool.pixels.wf → t.pool.pixels.wf)
    (hw : StoreWf contentDefault s.pool.content → StoreWf contentDefault t.pool.content) :
    StoreLaw t := by
  obtain ⟨h1, h2, h3⟩ := h
  exact ⟨hp h1, hw h2, by rw [hc]; exact h3⟩

theorem StoreLaw.applyCurve {s : State} (h : StoreLaw s) : StoreLaw s.applyCurve := by
  unfold State.applyCurve
  split
  · obtain ⟨h1, h2, h3, -, h5⟩ := h
    exact ⟨h1, h2, h3, h5, h5⟩
  · exact h

theorem State.releaseSurface_pool (s : State) (id : Nat) : (s.releaseSurface id).pool =
    Pool.setContents { s.pool with free := s.pool.free ++ ((s.surf id).front ++ (s.surf id).back) }
      ((s.surf id).front ++ (s.surf id).back) .blank := rfl

theorem StoreLaw.release {s : State} (id : Nat) (h : StoreLaw s) : StoreLaw (s.releaseSurface id) := by
  refine h.of_pool rfl (fun h => ?_) fun h => ?_
  · rw [State.releaseSurface_pool, Pool.setContents_pixels]; exact h
  · rw [State.releaseSurface_pool]; refine Pool.setContents_wf ?_ _ _; exact h

theorem Pool.allocate_pixels (p : Pool) (n : Nat) : (p.allocate n).2.pixels = p.pixels :=
  Pool.setContents_pixels _ _ _

theorem Pool.allocate_wf {p : Pool} (h : StoreWf contentDefault p.content) (n : Nat) :
    StoreWf contentDefault (p.allocate n).2.content :=
  Pool.setContents_wf (p := { p with free := p.free.drop n }) h _ _

theorem StoreWf.nil {α : Type} [DecidableEq α] (d : Nat → α) : StoreWf d [] :=
  ⟨List.Pairwise.nil, fun e he => by cases he⟩

theorem StoreLaw.reset {s : State} (h : StoreLaw s) : StoreLaw s.resetBlocks := by
  obtain ⟨hp, -⟩ := h
  have hpool : s.resetBlocks.pool = ⟨freeListReset, [], s.pool.pixels⟩ := rfl
  have hcol : s.resetBlocks.colours = ⟨[], [], [], false⟩ := rfl
  unfold StoreLaw
  rw [hpool, hcol]
  exact ⟨hp, .nil _, .nil _, .nil _, .nil _⟩

theorem StoreLaw.calm {s t : State} (h : Calm s t) (hs : StoreLaw s) : StoreLaw t := by
  cases h with
  | quiet h =>
    exact hs.of_pool h.colours (fun g => by rw [h.pool]; exact g) (fun g => by rw [h.pool]; exact g)
  | touch h => exact hs.of_pool h.colours h.pixelsWf h.contentWf
  | palette =>
    obtain ⟨h1, h2, h3, h4, h5⟩ := hs
    exact ⟨h1, h2, StoreWf.write h3 _ _, h4, h5⟩
  | curve =>
    obtain ⟨h1, h2, h3, h4, h5⟩ := hs
    exact ⟨h1, h2, h3, h4, StoreWf.write h5 _ _⟩
  | accept =>
    rw [State.acceptCommit_eq]
    exact hs.of_pool (by simp) (fun g => by simpa using g) (fun g => by simpa using g)
  | cancel =>
    rw [State.removeCommit_eq]
    exact hs.of_pool (by simp) (fun g => by simpa using g) (fun g => by simpa using g)
  | abandon =>
    refine hs.of_pool rfl (fun g => ?_) fun g => Pool.setContents_wf g _ _
    exact (Pool.setContents_pixels s.pool _ .blank).symm ▸ g
  | release => exact hs.release _
  | _ => exact hs

theorem StoreLaw.define {s : State} (id w h banks : Nat) (hs : StoreLaw s) :
    StoreLaw (s.defineSurface id w h banks) := by
  unfold State.defineSurface
  refine hs.of_pool rfl (fun g => ?_) fun g => ?_
  · dsimp only [State.setSurf_pool, State.withPool]
    split
    · rw [Pool.allocate_pixels, Pool.allocate_pixels]; exact g
    · rw [Pool.allocate_pixels]; exact g
  · dsimp only [State.setSurf_pool, State.withPool]
    split
    · exact Pool.allocate_wf (Pool.allocate_wf g _) _
    · exact Pool.allocate_wf g _

theorem StoreLaw.apply {s : State} (c : Commit) (n : Word) (hs : StoreLaw s) :
    StoreLaw (s.applyCommit c n) := by
  obtain ⟨-, -, hcurve⟩ := hs.applyCurve
  obtain ⟨hcells, hcontent, hsame⟩ := hs
  refine ⟨by rw [State.applyCommit_pixels]; exact hcells, s.applyCommit_contentWf c n hcontent, ?_⟩
  rw [State.applyCommit_colours]
  split
  · exact hcurve
  · exact hsame

theorem storeLaw_kept : Kept StoreLaw where
  same h hs :=
    hs.of_pool h.colours (fun g => by rw [h.pool]; exact g) (fun g => by rw [h.pool]; exact g)
  calm h hs := StoreLaw.calm h hs
  define _ _ _ _ hs := hs.define _ _ _ _
  apply _ _ _ hs := StoreLaw.apply _ _ hs
  release _ _ hs := hs.release _
  reset hs := hs.reset

/-- Settles O57: only LOAD-CURVE parts the curves, setting the mark, and every write of a store keeps
its form. -/
theorem stepsKeepCurvesAndStores : Obligations.StepsKeepCurvesAndStores :=
  fun _ _ h => ⟨fun hs => curveLaw_kept.step hs h, fun hs => storeLaw_kept.step hs h⟩

end Sys2Proof.Machine
end

section
/-! PROOFS. The law of the tiles (R1, R22), kept by every move: a move changes one record's banks
against the free list, or swaps two banks of one record. -/

namespace Sys2Proof.Machine

/-! ### Where the tiles stand -/

/-- The tiles of both banks of a surface. -/
def Surface.tiles (f : Surface) : List Tile := f.front ++ f.back

theorem State.bankTiles_eq (s : State) : s.bankTiles = surfaceIds.flatMap (fun id => (s.surf id).tiles) :=
  rfl

theorem mem_surfaceIds {id : Nat} : id ∈ surfaceIds ↔ id < 32 := List.mem_range

theorem State.mem_bankTiles {s : State} {x : Tile} :
    x ∈ s.bankTiles ↔ ∃ id < 32, x ∈ (s.surf id).tiles := by
  simp only [State.bankTiles_eq, List.mem_flatMap, mem_surfaceIds]

/-- Surfaces that keep their tiles, in some order, keep the whole of the bank tiles. -/
theorem State.bankTiles_perm {s t : State}
    (h : ∀ id < 32, (t.surf id).tiles.Perm (s.surf id).tiles) : t.bankTiles.Perm s.bankTiles :=
  List.Perm.flatMap_left _ fun id hid => h id (mem_surfaceIds.1 hid)

/-- When one record alone changes, the bank tiles change by its tiles. -/
theorem State.bankTiles_perm_of_one {s t : State} {id : Nat} (hid : id < 32)
    (h : ∀ j, j ≠ id → t.surf j = s.surf j) :
    (t.bankTiles ++ (s.surf id).tiles).Perm (s.bankTiles ++ (t.surf id).tiles) := by
  obtain ⟨l, r, e⟩ := List.append_of_mem (mem_surfaceIds.2 hid)
  have hnd : (l ++ id :: r).Nodup := by rw [← e]; exact List.nodup_range
  rw [List.nodup_middle, List.nodup_cons, List.mem_append, not_or] at hnd
  obtain ⟨⟨hl, hr⟩, -⟩ := hnd
  have hcongr : ∀ m : List Nat, id ∉ m →
      m.flatMap (fun j => (t.surf j).tiles) = m.flatMap (fun j => (s.surf j).tiles) := by
    intro m hm
    exact List.flatMap_congr fun j hj => by rw [h j (by rintro rfl; exact hm hj)]
  rw [State.bankTiles_eq, State.bankTiles_eq, e]
  simp only [List.flatMap_append, List.flatMap_cons, hcongr l hl, hcongr r hr]
  rw [List.perm_iff_count]
  intro x
  simp only [List.count_append]
  omega

/-! ### The law's two parts -/

/-- R22 for one record: a FREE record has no bank lists, another has a tile for each position. -/
def Surface.banksFit (f : Surface) : Prop :=
  (f.state = .free → f.front = [] ∧ f.back = []) ∧
    (f.state ≠ .free → f.front.length = tileCount f.width f.height ∧
      f.back.length = if f.banks = 2 then tileCount f.width f.height else 0)

theorem tileLaw_iff (s : State) : TileLaw s ↔
    (s.pool.free ++ s.bankTiles).Perm (List.finRange 4096) ∧ ∀ id < 32, (s.surf id).banksFit :=
  Iff.rfl

/-- What R22 reads of a record. -/
def Surface.layout (f : Surface) : Nat × Nat × Nat × List Tile × List Tile × Prop :=
  (f.width, f.height, f.banks, f.front, f.back, f.state = .free)

theorem Surface.layout_inj {f g : Surface} (h : g.layout = f.layout) : g.width = f.width ∧
    g.height = f.height ∧ g.banks = f.banks ∧ g.front = f.front ∧ g.back = f.back ∧
    (g.state = .free ↔ f.state = .free) := by
  simpa [Surface.layout] using h

theorem Surface.banksFit_of_layout {f g : Surface} (h : g.layout = f.layout) (hf : f.banksFit) :
    g.banksFit := by
  obtain ⟨h1, h2, h3, h4, h5, h6⟩ := Surface.layout_inj h
  simpa only [Surface.banksFit, ne_eq, h1, h2, h3, h4, h5, h6] using hf

theorem Surface.tiles_of_layout {f g : Surface} (h : g.layout = f.layout) : g.tiles = f.tiles := by
  obtain ⟨-, -, -, h4, h5, -⟩ := Surface.layout_inj h
  rw [Surface.tiles, Surface.tiles, h4, h5]

theorem SameShape.banksFit {f g : Surface} (h : SameShape f g) (hf : f.banksFit) : g.banksFit := by
  obtain ⟨hfree, hother⟩ := hf
  unfold Surface.banksFit
  rw [h.width, h.height, h.banks, ne_eq, h.isFree]
  rcases h.places with ⟨h1, h2⟩ | ⟨h0, h1, h2⟩
  · rw [h1, h2]; exact ⟨hfree, hother⟩
  · rw [h1, h2, if_pos h0]
    rw [if_pos h0] at hother
    exact ⟨fun e => (hfree e).symm, fun e => (hother e).symm⟩

theorem SameShape.tiles {f g : Surface} (h : SameShape f g) : g.tiles.Perm f.tiles := by
  unfold Surface.tiles
  rcases h.places with ⟨h1, h2⟩ | ⟨-, h1, h2⟩
  · rw [h1, h2]
  · rw [h1, h2]; exact List.perm_append_comm

theorem TileLaw.of_layout {s t : State} (h : TileLaw s) (hf : t.pool.free = s.pool.free)
    (hl : ∀ id, (t.surf id).layout = (s.surf id).layout) : TileLaw t := by
  obtain ⟨hperm, hfit⟩ := h
  refine ⟨?_, fun id hid => Surface.banksFit_of_layout (hl id) (hfit id hid)⟩
  rw [hf]
  exact ((State.bankTiles_perm fun id _ => by rw [Surface.tiles_of_layout (hl id)]).append_left _).trans
    hperm

theorem TileLaw.of_sameShape {s t : State} (h : TileLaw s) (hf : t.pool.free = s.pool.free)
    (hl : ∀ id, SameShape (s.surf id) (t.surf id)) : TileLaw t := by
  obtain ⟨hperm, hfit⟩ := h
  refine ⟨?_, fun id hid => (hl id).banksFit (hfit id hid)⟩
  rw [hf]
  exact ((State.bankTiles_perm fun id _ => (hl id).tiles).append_left _).trans hperm

/-- Tiles move between the free list and the banks of one record. -/
theorem TileLaw.of_one {s t : State} {id : Nat} (h : TileLaw s) (hid : id < 32)
    (hother : ∀ j, j ≠ id → t.surf j = s.surf j) (hfit : (t.surf id).banksFit)
    (hmove : (t.pool.free ++ (t.surf id).tiles).Perm (s.pool.free ++ (s.surf id).tiles)) :
    TileLaw t := by
  obtain ⟨hperm, hfits⟩ := h
  refine ⟨?_, fun j hj => ?_⟩
  · refine List.Perm.trans ?_ hperm
    have hone := State.bankTiles_perm_of_one hid hother
    rw [List.perm_iff_count] at *
    intro x
    have h1 := hone x
    have h2 := hmove x
    simp only [List.count_append] at *
    omega
  · by_cases e : j = id
    · rw [e]; exact hfit
    · rw [hother j e]; exact hfits j hj

/-! ### The moves of tiles -/

theorem surfaceFree_banksFit : surfaceFree.banksFit :=
  ⟨fun _ => ⟨rfl, rfl⟩, fun h => absurd rfl h⟩

theorem TileLaw.release {s : State} {id : Nat} (hid : id < 32) (h : TileLaw s) :
    TileLaw (s.releaseSurface id) := by
  have hsurf := s.releaseSurface_surf hid
  refine h.of_one hid (fun j hj => by rw [hsurf, if_neg hj]) ?_ ?_
  · rw [hsurf, if_pos rfl]; exact surfaceFree_banksFit
  · rw [hsurf, if_pos rfl, State.releaseSurface_pool, Pool.setContents_free]
    exact List.Perm.of_eq (List.append_nil _)

/-- The free list after an allocation of one bank or two. -/
theorem State.defineSurface_free (s : State) (id w h banks : Nat) :
    (s.defineSurface id w h banks).pool.free = if banks = 2 then
      (s.pool.free.drop (tileCount w h)).drop (tileCount w h)
    else s.pool.free.drop (tileCount w h) := by
  unfold State.defineSurface
  dsimp only [State.setSurf_pool, State.withPool_pool]
  by_cases hb : banks = 2 <;> simp [hb, Pool.allocate]

theorem TileLaw.define {s : State} {id w h banks : Nat} (hid : id < 32)
    (hfree : (s.surf id).state = .free) (hb : banks = 1 ∨ banks = 2)
    (hroom : banks * tileCount w h ≤ s.pool.free.length) (hs : TileLaw s) :
    TileLaw (s.defineSurface id w h banks) := by
  have hsurf := s.defineSurface_surf hid w h banks
  have hnone : (s.surf id).tiles = [] := by
    obtain ⟨h1, h2⟩ := (hs.2 id hid).1 hfree
    rw [Surface.tiles, h1, h2]; rfl
  refine hs.of_one hid (fun j hj => by rw [hsurf, if_neg hj]) ?_ ?_
  · rw [hsurf, if_pos rfl]
    refine ⟨fun h => by simp [definedSurface] at h, fun _ => ?_⟩
    rcases hb with rfl | rfl <;> simp [definedSurface] <;> omega
  · rw [hsurf, if_pos rfl, hnone, State.defineSurface_free, List.append_nil]
    rcases hb with rfl | rfl
    · simp only [definedSurface, Surface.tiles, OfNat.one_ne_ofNat, if_false, List.append_nil]
      exact List.perm_append_comm.trans (List.Perm.of_eq (List.take_append_drop _ _))
    · simp only [definedSurface, Surface.tiles, if_true]
      refine List.perm_append_comm.trans (List.Perm.of_eq ?_)
      rw [List.append_assoc, List.take_append_drop, List.take_append_drop]

theorem tileLaw_resetBlocks (s : State) : TileLaw s.resetBlocks := by
  refine ⟨?_, fun id _ => ?_⟩
  · have hnone : s.resetBlocks.bankTiles = [] := by
      rw [State.bankTiles_eq, List.flatMap_eq_nil_iff]
      intro id _
      rw [State.surf_resetBlocks]; rfl
    have hpool : s.resetBlocks.pool = ⟨freeListReset, [], s.pool.pixels⟩ := rfl
    rw [hnone, hpool, List.append_nil, freeListReset]
  · have hfit := surfaceFree_banksFit
    rw [← State.surf_resetBlocks s id] at hfit
    exact hfit

theorem TileLaw.calm {s t : State} (h : Calm s t) (hs : TileLaw s) : TileLaw t := by
  cases h with
  | quiet h => exact hs.of_layout (by rw [h.pool]) fun id => by rw [h.surf]
  | palette | curve | nextTile | writeSlot => exact hs.of_layout rfl fun _ => rfl
  | close | openSlot =>
    exact hs.of_layout rfl (State.surf_setSurf_keeps (s.setSlot _ _) Surface.layout rfl)
  | tweak => exact hs.of_layout rfl (State.surf_setSurf_keeps s Surface.layout rfl)
  | touch h => exact hs.of_layout h.free (h.keeps Surface.layout fun _ _ => rfl)
  | queueJob | finishJob =>
    exact hs.of_layout rfl (State.surf_setSurf_keeps (s.withEngine _) Surface.layout rfl)
  | abandon hid =>
    exact hs.of_layout (Pool.setContents_free _ _ _)
      (s.abandonWork_keeps hid Surface.layout fun _ _ _ => rfl)
  | retire hid hl hu =>
    refine hs.of_layout rfl (State.surf_setSurf_keeps s Surface.layout ?_)
    simp [Surface.layout, hl]
  | release hid hl hu => exact hs.release hid
  | accept h =>
    rw [State.acceptCommit_eq]
    exact hs.of_layout (by simp) (State.setTags_keeps _ _ _ Surface.layout fun _ _ => rfl)
  | cancel h =>
    rw [State.removeCommit_eq]
    exact hs.of_layout (by simp) (State.setTags_keeps _ _ _ Surface.layout fun _ _ => rfl)

theorem tileLaw_kept : Kept TileLaw where
  same h hs := hs.of_layout (by rw [h.pool]) fun id => by rw [h.surf]
  calm h hs := TileLaw.calm h hs
  define hid hf hb hroom hs := TileLaw.define hid hf hb hroom hs
  apply n _ _ hs := hs.of_sameShape (State.applyCommit_free _ _ n) (State.applyCommit_sameShape _ _ n)
  release hid _ hs := hs.release hid
  reset _ := tileLaw_resetBlocks _

/-- Settles O53: tiles move from the free list into banks, back from banks to the free list, and
between the two banks of a surface, and in no other way. -/
theorem stepsKeepEveryTileInOnePlace : Obligations.StepsKeepEveryTileInOnePlace :=
  fun _ _ hs h => tileLaw_kept.step hs h

end Sys2Proof.Machine
end

section
/-! PROOFS. The law of the STALE tiles (R28), kept by every move together with the laws of the tiles
and of the freezes: a tile stands in one bank, so a change of its state is seen by one record. -/

namespace Sys2Proof.Machine

/-! ### A tile stands in one place -/

/-- Two surfaces that differ share no tile. -/
def State.Apart (s : State) (a b : Nat) : Prop :=
  a ≠ b → List.Disjoint (s.surf a).tiles (s.surf b).tiles

section
variable {s : State} (h : TileLaw s)
include h

theorem TileLaw.nodup : (s.pool.free ++ s.bankTiles).Nodup :=
  h.1.nodup_iff.2 (List.nodup_finRange 4096)

/-- A bank's tile is not free. -/
theorem TileLaw.not_free {id : Nat} (hid : id < 32) {x : Tile} (hx : x ∈ (s.surf id).tiles) :
    x ∉ s.pool.free := by
  intro hf
  exact (List.nodup_append.1 h.nodup).2.2 x hf x (State.mem_bankTiles.2 ⟨id, hid, hx⟩) rfl

/-- A tile is in the banks of one surface. -/
theorem TileLaw.owner {i j : Nat} (hi : i < 32) (hj : j < 32) {x : Tile}
    (hxi : x ∈ (s.surf i).tiles) (hxj : x ∈ (s.surf j).tiles) : i = j := by
  by_contra hne
  have hb : (surfaceIds.flatMap fun id => (s.surf id).tiles).Nodup :=
    (List.nodup_append.1 h.nodup).2.1
  have hdis := (List.nodup_flatMap.1 hb).2
  have h1 : surfaceIds.Pairwise s.Apart := hdis.imp (by intro a b g _; exact g)
  have h2 : surfaceIds.Pairwise (flip s.Apart) := hdis.imp (by intro a b g _; exact g.symm)
  have hall := List.Pairwise.forall_of_forall_of_flip (fun _ _ g => absurd rfl g) h1 h2
  exact hall (mem_surfaceIds.2 hi) (mem_surfaceIds.2 hj) hne hxi hxj

theorem TileLaw.nodup_tiles {id : Nat} (hid : id < 32) : (s.surf id).tiles.Nodup := by
  have hb : (surfaceIds.flatMap fun id => (s.surf id).tiles).Nodup :=
    (List.nodup_append.1 h.nodup).2.1
  exact (List.nodup_flatMap.1 hb).1 id (mem_surfaceIds.2 hid)

theorem TileLaw.nodup_back {id : Nat} (hid : id < 32) : (s.surf id).back.Nodup :=
  (List.nodup_append.1 (h.nodup_tiles hid)).2.1

/-- The tiles of one surface are no tiles of another's. -/
theorem TileLaw.not_other {i j : Nat} (hi : i < 32) (hj : j < 32) (hne : j ≠ i) {x : Tile}
    (hx : x ∈ (s.surf i).tiles) : x ∉ (s.surf j).tiles :=
  fun hxj => hne (h.owner hj hi hxj hx)
end

theorem Surface.mem_tiles_back {f : Surface} {x : Tile} (h : x ∈ f.back) : x ∈ f.tiles :=
  List.mem_append_right _ h

theorem Surface.mem_tiles_front {f : Surface} {x : Tile} (h : x ∈ f.front) : x ∈ f.tiles :=
  List.mem_append_left _ h

theorem Surface.mem_tiles_drawBank {f : Surface} {x : Tile} (h : x ∈ f.drawBank) : x ∈ f.tiles := by
  unfold Surface.drawBank at h
  split at h
  · exact Surface.mem_tiles_back h
  · exact Surface.mem_tiles_front h

theorem State.lt_of_mem_tiles {s : State} {id : Nat} {x : Tile} (h : x ∈ (s.surf id).tiles) :
    id < 32 := by
  by_contra hid
  rw [State.surf_of_le s (by omega)] at h
  simp [Surface.tiles, surfaceFree] at h

/-! ### Counting STALE tiles -/

/-- How many tiles of a bank are STALE. -/
def Pool.staleCount (p : Pool) (ts : List Tile) : Nat := ts.countP (fun t => p.contentOf t == .stale)

theorem Pool.staleCount_congr {p q : Pool} {ts : List Tile}
    (h : ∀ x ∈ ts, q.contentOf x = .stale ↔ p.contentOf x = .stale) :
    q.staleCount ts = p.staleCount ts :=
  List.countP_congr fun x hx => by simpa using h x hx

theorem Pool.staleCount_eq_zero {p : Pool} {ts : List Tile} (h : ∀ x ∈ ts, p.contentOf x ≠ .stale) :
    p.staleCount ts = 0 :=
  List.countP_eq_zero.2 fun x hx => by simpa using h x hx

theorem Pool.staleCount_eq_length {p : Pool} {ts : List Tile}
    (h : ∀ x ∈ ts, p.contentOf x = .stale) : p.staleCount ts = ts.length :=
  List.countP_eq_length.2 fun x hx => by simpa using h x hx

theorem Pool.not_stale_of_staleCount {p : Pool} {ts : List Tile} (h : p.staleCount ts = 0) :
    ∀ x ∈ ts, p.contentOf x ≠ .stale := by
  simpa [Pool.staleCount] using h

/-- One STALE tile of a bank changes its state. -/
theorem Pool.staleCount_of_one {p q : Pool} {ts : List Tile} (hnd : ts.Nodup) {x : Tile}
    (hx : x ∈ ts) (hp : p.contentOf x = .stale) (hq : q.contentOf x ≠ .stale)
    (h : ∀ y, y ≠ x → q.contentOf y = p.contentOf y) :
    q.staleCount ts = p.staleCount ts - 1 := by
  have hperm := List.perm_cons_erase hx
  have hrest : q.staleCount (ts.erase x) = p.staleCount (ts.erase x) :=
    Pool.staleCount_congr fun y hy => by
      rw [h y]
      rintro rfl
      exact hnd.not_mem_erase hy
  have e1 : p.staleCount ts = p.staleCount (ts.erase x) + 1 := by
    rw [Pool.staleCount, hperm.countP_eq, List.countP_cons_of_pos (by simpa using hp)]; rfl
  have e2 : q.staleCount ts = q.staleCount (ts.erase x) := by
    rw [Pool.staleCount, hperm.countP_eq, List.countP_cons_of_neg (by simpa using hq)]; rfl
  omega

theorem staleLaw_iff (s : State) : StaleLaw s ↔
    (∀ id < 32, (s.surf id).stale = s.pool.staleCount (s.surf id).back) ∧
    ∀ t : Tile, s.pool.contentOf t = .stale → ∃ id < 32, (s.surf id).banks = 2 ∧ t ∈ (s.surf id).back :=
  Iff.rfl

/-- What R28 reads of a record. -/
def Surface.staleView (f : Surface) : Nat × Nat × List Tile := (f.stale, f.banks, f.back)

theorem StaleLaw.of_view {s t : State} (h : StaleLaw s)
    (hc : ∀ x, t.pool.contentOf x = s.pool.contentOf x)
    (hv : ∀ id, (t.surf id).staleView = (s.surf id).staleView) : StaleLaw t := by
  have hv' : ∀ id, (t.surf id).stale = (s.surf id).stale ∧ (t.surf id).banks = (s.surf id).banks ∧
      (t.surf id).back = (s.surf id).back := fun id => by simpa [Surface.staleView] using hv id
  obtain ⟨h1, h2⟩ := h
  refine ⟨fun id hid => ?_, fun x hx => ?_⟩
  · obtain ⟨e1, -, e3⟩ := hv' id
    rw [e1, e3, h1 id hid]
    simp only [hc]
  · obtain ⟨id, hid, hb, hm⟩ := h2 x (by rw [← hc]; exact hx)
    obtain ⟨-, e2, e3⟩ := hv' id
    exact ⟨id, hid, e2.trans hb, by rw [e3]; exact hm⟩

/-- A change of one record and of tiles that are no other record's. -/
theorem StaleLaw.of_one {s t : State} {id : Nat} (h : StaleLaw s) (htile : TileLaw s)
    (hid : id < 32) (hother : ∀ j, j ≠ id → t.surf j = s.surf j)
    (hcount : (t.surf id).stale = t.pool.staleCount (t.surf id).back)
    (hnone : ∀ x, t.pool.contentOf x = .stale → x ∈ (s.surf id).tiles →
      (t.surf id).banks = 2 ∧ x ∈ (t.surf id).back)
    (hkeep : ∀ x, x ∉ (s.surf id).tiles →
      (t.pool.contentOf x = .stale ↔ s.pool.contentOf x = .stale)) : StaleLaw t := by
  obtain ⟨h1, h2⟩ := h
  refine ⟨fun j hj => ?_, fun x hx => ?_⟩
  · by_cases e : j = id
    · rw [e]; exact hcount
    · rw [hother j e, h1 j hj]
      refine (Pool.staleCount_congr fun x hx => hkeep x ?_).symm
      exact htile.not_other hj hid (Ne.symm e) (Surface.mem_tiles_back hx)
  · by_cases hm : x ∈ (s.surf id).tiles
    · exact ⟨id, hid, hnone x hx hm⟩
    · obtain ⟨j, hj, hb, hback⟩ := h2 x ((hkeep x hm).1 hx)
      have e : j ≠ id := by rintro rfl; exact hm (Surface.mem_tiles_back hback)
      exact ⟨j, hj, by rw [hother j e]; exact ⟨hb, hback⟩⟩

/-- A STALE tile of a surface stands in its back bank. -/
theorem StaleLaw.back_of_stale {s : State} (h : StaleLaw s) (htile : TileLaw s) {id : Nat}
    (hid : id < 32) {x : Tile} (hx : x ∈ (s.surf id).tiles) (hs : s.pool.contentOf x = .stale) :
    (s.surf id).banks = 2 ∧ x ∈ (s.surf id).back := by
  obtain ⟨j, hj, hb, hm⟩ := h.2 x hs
  rw [htile.owner hid hj hx (Surface.mem_tiles_back hm)]
  exact ⟨hb, hm⟩

/-! ### The moves of content states -/

theorem StaleLaw.touch {s t : State} {id : Nat} {x : Tile} (hs : StaleLaw s) (htile : TileLaw s)
    (h : Touches s t id x) : StaleLaw t := by
  obtain ⟨c, hc, hcont⟩ := h.content
  have hx : x ∈ (s.surf id).tiles :=
    h.drawn.elim Surface.mem_tiles_drawBank Surface.mem_tiles_back
  have hid : id < 32 := State.lt_of_mem_tiles hx
  by_cases hst : s.pool.contentOf x = .stale
  · obtain ⟨hb, hm⟩ := hs.back_of_stale htile hid hx hst
    have hsurf : t.surf id = { s.surf id with stale := (s.surf id).stale - 1 } := by
      rw [h.surf, if_pos ⟨hst, rfl, hid⟩]
    refine hs.of_one htile hid (fun j hj => by rw [h.surf, if_neg (by simp [hj])]) ?_ ?_ ?_
    · rw [hsurf]
      have hone := Pool.staleCount_of_one (p := s.pool) (q := t.pool) (htile.nodup_back hid) hm hst
        (by rw [hcont, if_pos rfl]; exact hc) (fun y hy => by rw [hcont, if_neg hy])
      rw [hone]
      exact congrArg (· - 1) (hs.1 id hid)
    · intro y hy hyt
      rw [hsurf]
      rw [hcont] at hy
      split at hy
      · exact absurd hy hc
      · exact hs.back_of_stale htile hid hyt hy
    · intro y hy
      rw [hcont, if_neg (by rintro rfl; exact hy hx)]
  · refine hs.of_one htile hid (fun j hj => by rw [h.surf, if_neg (by simp [hj])]) ?_ ?_ ?_
    · rw [h.surf, if_neg (by simp [hst]), hs.1 id hid]
      refine (Pool.staleCount_congr fun y _ => ?_).symm
      rw [hcont]
      split
      · rename_i e; rw [e]; exact iff_of_false hc hst
      · exact Iff.rfl
    · intro y hy hyt
      rw [h.surf, if_neg (by simp [hst])]
      rw [hcont] at hy
      split at hy
      · exact absurd hy hc
      · exact hs.back_of_stale htile hid hyt hy
    · intro y hy
      rw [hcont, if_neg (by rintro rfl; exact hy hx)]

theorem State.mem_copyTarget {s : State} {id : Nat} {x : Tile} (h : x ∈ s.copyTarget id) :
    x ∈ (s.surf id).back := by
  unfold State.copyTarget at h
  split at h
  · split at h
    · exact List.mem_of_getElem? (Option.mem_toList.1 h)
    · cases h
  · cases h
  · cases h

theorem State.abandonWork_contentOf (s : State) (id : Nat) (x : Tile) :
    (s.abandonWork id).1.pool.contentOf x =
      if x ∈ s.pool.staleIn (s.surf id).back ++ s.copyTarget id then .blank
      else s.pool.contentOf x :=
  Pool.contentOf_setContents _ _ _ _

theorem StaleLaw.abandon {s : State} {id : Nat} (hid : id < 32) (hs : StaleLaw s)
    (htile : TileLaw s) : StaleLaw (s.abandonWork id).1 := by
  have hcont := s.abandonWork_contentOf id
  have hnot : ∀ x ∈ (s.surf id).tiles, (s.abandonWork id).1.pool.contentOf x ≠ .stale := by
    intro x hx hst
    rw [hcont] at hst
    split at hst
    · cases hst
    · rename_i hn
      obtain ⟨-, hm⟩ := hs.back_of_stale htile hid hx hst
      exact hn (List.mem_append_left _ ((Pool.mem_staleIn _ _ _).2 ⟨hm, hst⟩))
  refine hs.of_one htile hid (fun j hj => by rw [s.abandonWork_surf hid, if_neg hj]) ?_
    (fun x hx hm => absurd hx (hnot x hm)) ?_
  · rw [s.abandonWork_surf hid, if_pos rfl]
    exact (Pool.staleCount_eq_zero fun x hx => hnot x (Surface.mem_tiles_back hx)).symm
  · intro x hx
    rw [hcont, if_neg]
    intro hm
    refine hx (Surface.mem_tiles_back ?_)
    rcases List.mem_append.1 hm with hm | hm
    · exact ((Pool.mem_staleIn _ _ _).1 hm).1
    · exact State.mem_copyTarget hm

theorem StaleLaw.release {s : State} {id : Nat} (hid : id < 32) (hs : StaleLaw s)
    (htile : TileLaw s) : StaleLaw (s.releaseSurface id) := by
  have hsurf := s.releaseSurface_surf hid
  have hcont : ∀ x, (s.releaseSurface id).pool.contentOf x =
      if x ∈ (s.surf id).tiles then .blank else s.pool.contentOf x := by
    intro x
    rw [State.releaseSurface_pool]
    exact Pool.contentOf_setContents _ _ _ _
  refine hs.of_one htile hid (fun j hj => by rw [hsurf, if_neg hj]) ?_ ?_ ?_
  · rw [hsurf, if_pos rfl]; rfl
  · intro x hx hm
    rw [hcont, if_pos hm] at hx
    cases hx
  · intro x hx
    rw [hcont, if_neg hx]

theorem Pool.allocate_contentOf (p : Pool) (n : Nat) (x : Tile) :
    (p.allocate n).2.contentOf x = if x ∈ p.free.take n then .blank else p.contentOf x :=
  Pool.contentOf_setContents _ _ _ _

theorem Pool.allocate_free (p : Pool) (n : Nat) : (p.allocate n).2.free = p.free.drop n :=
  Pool.setContents_free _ _ _

/-- DEFINE makes the allocated tiles, which were free, BLANK. -/
theorem State.defineSurface_contentOf (s : State) (id w h banks : Nat) (x : Tile) :
    (s.defineSurface id w h banks).pool.contentOf x =
      if x ∈ s.pool.free.take (tileCount w h) ∨
          banks = 2 ∧ x ∈ (s.pool.free.drop (tileCount w h)).take (tileCount w h) then .blank
      else s.pool.contentOf x := by
  unfold State.defineSurface
  dsimp only [State.setSurf_pool, State.withPool_pool]
  by_cases hb : banks = 2
  · rw [if_pos hb, Pool.allocate_contentOf, Pool.allocate_contentOf, Pool.allocate_free]
    by_cases h1 : x ∈ s.pool.free.take (tileCount w h) <;> simp [h1, hb]
  · rw [if_neg hb, Pool.allocate_contentOf]
    simp [hb]

theorem StaleLaw.not_free {s : State} (hs : StaleLaw s) (htile : TileLaw s) {x : Tile}
    (hx : x ∈ s.pool.free) : s.pool.contentOf x ≠ .stale := by
  intro hst
  obtain ⟨j, hj, -, hm⟩ := hs.2 x hst
  exact htile.not_free hj (Surface.mem_tiles_back hm) hx

theorem StaleLaw.define {s : State} {id w h banks : Nat} (hid : id < 32)
    (hfree : (s.surf id).state = .free) (hs : StaleLaw s) (htile : TileLaw s) :
    StaleLaw (s.defineSurface id w h banks) := by
  have hsurf := s.defineSurface_surf hid w h banks
  have hcont := s.defineSurface_contentOf id w h banks
  have hkeep : ∀ x, (s.defineSurface id w h banks).pool.contentOf x = .stale ↔
      s.pool.contentOf x = .stale := by
    intro x
    rw [hcont]
    split
    · rename_i hm
      refine iff_of_false (by decide) (hs.not_free htile ?_)
      rcases hm with hm | ⟨-, hm⟩
      · exact List.mem_of_mem_take hm
      · exact List.mem_of_mem_drop (List.mem_of_mem_take hm)
    · exact Iff.rfl
  have hnone : (s.surf id).tiles = [] := by
    obtain ⟨h1, h2⟩ := (htile.2 id hid).1 hfree
    rw [Surface.tiles, h1, h2]; rfl
  refine hs.of_one htile hid (fun j hj => by rw [hsurf, if_neg hj]) ?_ ?_ fun x _ => hkeep x
  · rw [hsurf, if_pos rfl]
    refine (Pool.staleCount_eq_zero fun x hx => ?_).symm
    rw [ne_eq, hkeep]
    refine hs.not_free htile ?_
    simp only [definedSurface] at hx
    split at hx
    · exact List.mem_of_mem_drop (List.mem_of_mem_take hx)
    · cases hx
  · intro x _ hx
    rw [hnone] at hx
    cases hx

theorem staleLaw_resetBlocks (s : State) : StaleLaw s.resetBlocks := by
  refine ⟨fun id _ => ?_, fun x hx => ?_⟩
  · rw [State.surf_resetBlocks]; rfl
  · have hpool : s.resetBlocks.pool = ⟨freeListReset, [], s.pool.pixels⟩ := rfl
    rw [hpool, Pool.contentOf] at hx
    cases hx

/-! ### The application of a commit -/

section
variable {s : State} {c : Commit} {n : Word}

/-- The records after the application of one commit. -/
theorem FreezeLaw.applyCommit_surf (h : FreezeLaw s) (hc : s.commits.queue.head? = some c) {id : Nat}
    (hid : id < 32) : (s.applyCommit c n).surf id =
      if id ∈ c.surfaces then (s.surf id).afterCommit c.carry else s.surf id := by
  rw [(h.applies hc n).1 id hid]
  by_cases hm : id ∈ c.surfaces <;> simp [hm]

theorem FreezeLaw.lt_of_head (h : FreezeLaw s) (hc : s.commits.queue.head? = some c) {id : Nat}
    (hm : id ∈ c.surfaces) : id < 32 :=
  (h.2.2.2.2.1 c (List.mem_of_mem_head? hc) id hm).1

/-- The tile that a carry of the commit marks STALE (R29). -/
def State.marks (s : State) (c : Commit) (x : Tile) : Prop :=
  c.carry = true ∧ ∃ id ∈ c.surfaces, (s.surf id).banks = 2 ∧ (s.surf id).dirty = true ∧
    x ∈ (s.surf id).front

theorem FreezeLaw.applyCommit_stale_iff (h : FreezeLaw s) (hc : s.commits.queue.head? = some c)
    (x : Tile) : (s.applyCommit c n).pool.contentOf x = .stale ↔
      s.marks c x ∨ s.pool.contentOf x = .stale := by
  have hcont := (h.applies hc n).2.1 x
  simp only [List.mem_singleton, exists_eq_left] at hcont
  rw [hcont]
  by_cases hm : s.marks c x
  · exact iff_of_true (if_pos hm) (.inl hm)
  · rw [State.marks] at hm ⊢
    rw [if_neg hm]
    exact ⟨.inr, fun g => g.resolve_left hm⟩

/-- A tile marked is in the front bank of its own surface. -/
theorem TileLaw.marks_iff (htile : TileLaw s) (hlt : ∀ id ∈ c.surfaces, id < 32) {id : Nat}
    (hid : id < 32) {x : Tile} (hx : x ∈ (s.surf id).tiles) : s.marks c x ↔
      c.carry = true ∧ id ∈ c.surfaces ∧ (s.surf id).banks = 2 ∧ (s.surf id).dirty = true ∧
        x ∈ (s.surf id).front := by
  constructor
  · rintro ⟨hcarry, j, hj, hrest⟩
    obtain rfl := htile.owner hid (hlt j hj) hx (Surface.mem_tiles_front hrest.2.2)
    exact ⟨hcarry, hj, hrest⟩
  · rintro ⟨hcarry, hj, hrest⟩
    exact ⟨hcarry, id, hj, hrest⟩

/-- No tile of a settled surface is STALE. -/
theorem StaleLaw.none_of_settled (hs : StaleLaw s) (htile : TileLaw s) {id : Nat} (hid : id < 32)
    (hset : (s.surf id).settled = true) {x : Tile} (hx : x ∈ (s.surf id).tiles) :
    s.pool.contentOf x ≠ .stale := by
  intro hst
  obtain ⟨-, hm⟩ := hs.back_of_stale htile hid hx hst
  simp only [Surface.settled, Bool.and_eq_true, beq_iff_eq] at hset
  have h0 := hs.1 id hid
  rw [hset.1] at h0
  exact Pool.not_stale_of_staleCount h0.symm x hm hst

/-- R12: the record of a surface whose banks change places, and of another. -/
theorem Surface.afterCommit_banks (f : Surface) (carry : Bool) :
    (f.afterCommit carry).banks = f.banks ∧
    (f.banks = 2 ∧ f.dirty = true → (f.afterCommit carry).back = f.front ∧
      (f.afterCommit carry).stale = if carry then tileCount f.width f.height else f.stale) ∧
    (¬ (f.banks = 2 ∧ f.dirty = true) → (f.afterCommit carry).back = f.back ∧
      (f.afterCommit carry).stale = f.stale) := by
  refine ⟨rfl, ?_, ?_⟩
  · rintro ⟨hb, hd⟩
    simp [Surface.afterCommit, hb, hd]
  · intro hn
    have hsw : (decide (f.banks = 2) && f.dirty) = false := by
      rw [Bool.eq_false_iff]; simpa using hn
    simp [Surface.afterCommit, hsw]

/-- R28 of a surface that the commit names: its banks have changed places or not, and the new back
bank is STALE throughout or nowhere. -/
theorem StaleLaw.count_named (hs : StaleLaw s) (htile : TileLaw s) (hfz : FreezeLaw s)
    (hc : s.commits.queue.head? = some c) {id : Nat} (hm : id ∈ c.surfaces)
    (hset : (s.surf id).settled = true) :
    ((s.surf id).afterCommit c.carry).stale =
      (s.applyCommit c n).pool.staleCount ((s.surf id).afterCommit c.carry).back := by
  have hid := hfz.lt_of_head hc hm
  have hlt : ∀ i ∈ c.surfaces, i < 32 := fun i hi => hfz.lt_of_head hc hi
  have hstale : ∀ x ∈ (s.surf id).tiles, (s.applyCommit c n).pool.contentOf x = .stale ↔
      c.carry = true ∧ (s.surf id).banks = 2 ∧ (s.surf id).dirty = true ∧
        x ∈ (s.surf id).front := by
    intro x hx
    rw [hfz.applyCommit_stale_iff hc, htile.marks_iff hlt hid hx]
    simp [hm, hs.none_of_settled htile hid hset hx]
  have h0 : (s.surf id).stale = 0 := by
    simp only [Surface.settled, Bool.and_eq_true, beq_iff_eq] at hset
    exact hset.1
  obtain ⟨-, hswap, hstay⟩ := (s.surf id).afterCommit_banks c.carry
  by_cases hb : (s.surf id).banks = 2 ∧ (s.surf id).dirty = true
  · obtain ⟨e1, e2⟩ := hswap hb
    rw [e1, e2]
    by_cases hcarry : c.carry = true
    · have hfit : (s.surf id).front.length = tileCount (s.surf id).width (s.surf id).height := by
        refine ((htile.2 id hid).2 fun hf => ?_).1
        have hd := (hfz.2.2.2.2.1 c (List.mem_of_mem_head? hc) id hm).2.2
        simp [Surface.defined, hf] at hd
      rw [if_pos hcarry, Pool.staleCount_eq_length, hfit]
      exact fun x hx =>
        (hstale x (Surface.mem_tiles_front hx)).2 ⟨hcarry, hb.1, hb.2, hx⟩
    · rw [if_neg hcarry, h0, Pool.staleCount_eq_zero]
      exact fun x hx hst => hcarry ((hstale x (Surface.mem_tiles_front hx)).1 hst).1
  · obtain ⟨e1, e2⟩ := hstay hb
    rw [e1, e2, h0, Pool.staleCount_eq_zero]
    intro x hx hst
    obtain ⟨-, h1, h2, -⟩ := (hstale x (Surface.mem_tiles_back hx)).1 hst
    exact hb ⟨h1, h2⟩

theorem StaleLaw.apply (hs : StaleLaw s) (htile : TileLaw s) (hfz : FreezeLaw s)
    (hc : s.commits.queue.head? = some c)
    (hset : ∀ id ∈ c.surfaces, (s.surf id).settled = true) : StaleLaw (s.applyCommit c n) := by
  have hlt : ∀ i ∈ c.surfaces, i < 32 := fun i hi => hfz.lt_of_head hc hi
  refine ⟨fun id hid => ?_, fun x hx => ?_⟩
  · change _ = (s.applyCommit c n).pool.staleCount _
    rw [hfz.applyCommit_surf hc hid]
    by_cases hm : id ∈ c.surfaces
    · rw [if_pos hm]
      exact hs.count_named htile hfz hc hm (hset id hm)
    · rw [if_neg hm, hs.1 id hid]
      refine (Pool.staleCount_congr fun x hx => ?_).symm
      rw [hfz.applyCommit_stale_iff hc, htile.marks_iff hlt hid (Surface.mem_tiles_back hx)]
      simp [hm]
  · rcases (hfz.applyCommit_stale_iff hc x).1 hx with ⟨-, id, hm, hb, hd, hfront⟩ | hst
    · obtain ⟨e0, hswap, -⟩ := (s.surf id).afterCommit_banks c.carry
      refine ⟨id, hlt id hm, ?_⟩
      rw [hfz.applyCommit_surf hc (hlt id hm), if_pos hm, e0, (hswap ⟨hb, hd⟩).1]
      exact ⟨hb, hfront⟩
    · obtain ⟨id, hid, hb, hback⟩ := hs.2 x hst
      have hm : id ∉ c.surfaces := fun hm =>
        hs.none_of_settled htile hid (hset id hm) (Surface.mem_tiles_back hback) hst
      refine ⟨id, hid, ?_⟩
      rw [hfz.applyCommit_surf hc hid, if_neg hm]
      exact ⟨hb, hback⟩
end

/-! ### The law kept -/

theorem StaleLaw.calm {s t : State} (h : Calm s t) (hs : StaleLaw s) (htile : TileLaw s) :
    StaleLaw t := by
  cases h with
  | quiet h => exact hs.of_view (fun x => by rw [h.pool]) fun id => by rw [h.surf]
  | palette | curve | nextTile | writeSlot => exact hs.of_view (fun _ => rfl) fun _ => rfl
  | close | openSlot =>
    exact hs.of_view (fun _ => rfl) (State.surf_setSurf_keeps (s.setSlot _ _) Surface.staleView rfl)
  | tweak => exact hs.of_view (fun _ => rfl) (State.surf_setSurf_keeps s Surface.staleView rfl)
  | touch h => exact hs.touch htile h
  | queueJob | finishJob =>
    exact hs.of_view (fun _ => rfl)
      (State.surf_setSurf_keeps (s.withEngine _) Surface.staleView rfl)
  | abandon hid => exact hs.abandon hid htile
  | retire hid hl hu =>
    exact hs.of_view (fun _ => rfl) (State.surf_setSurf_keeps s Surface.staleView rfl)
  | release hid hl hu => exact hs.release hid htile
  | accept h =>
    rw [State.acceptCommit_eq]
    exact hs.of_view (by simp) (State.setTags_keeps _ _ _ Surface.staleView fun _ _ => rfl)
  | cancel h =>
    rw [State.removeCommit_eq]
    exact hs.of_view (by simp) (State.setTags_keeps _ _ _ Surface.staleView fun _ _ => rfl)

/-- R22, R28 and R44 together. -/
def PoolLaw (s : State) : Prop := TileLaw s ∧ FreezeLaw s ∧ StaleLaw s

theorem poolLaw_kept : Kept PoolLaw where
  same := by
    rintro s t h ⟨h1, h2, h3⟩
    exact ⟨tileLaw_kept.same h h1, freezeLaw_kept.same h h2,
      h3.of_view (fun x => by rw [h.pool]) fun id => by rw [h.surf]⟩
  calm := by
    rintro s t h ⟨h1, h2, h3⟩
    exact ⟨tileLaw_kept.calm h h1, freezeLaw_kept.calm h h2, h3.calm h h1⟩
  define := by
    rintro s id w h banks hid hf hb hroom ⟨h1, h2, h3⟩
    exact ⟨tileLaw_kept.define hid hf hb hroom h1, freezeLaw_kept.define hid hf hb hroom h2,
      h3.define hid hf h1⟩
  apply := by
    rintro s c n hc hset ⟨h1, h2, h3⟩
    exact ⟨tileLaw_kept.apply n hc hset h1, freezeLaw_kept.apply n hc hset h2,
      h3.apply h1 h2 hc hset⟩
  release := by
    rintro s id hid hr ⟨h1, h2, h3⟩
    exact ⟨tileLaw_kept.release hid hr h1, freezeLaw_kept.release hid hr h2, h3.release hid h1⟩
  reset := by
    rintro s ⟨h1, h2, -⟩
    exact ⟨tileLaw_kept.reset h1, freezeLaw_kept.reset h2, staleLaw_resetBlocks s⟩

/-- Settles O54: a tile is marked STALE in a bank that has just become the back bank, and every
change of a STALE tile is counted on its own surface. -/
theorem stepsKeepTheStaleLaw : Obligations.StepsKeepTheStaleLaw := by
  intro s t htile hfz hs h
  exact (poolLaw_kept.step ⟨htile, hfz, hs⟩ h).2.2

end Sys2Proof.Machine
end

section
/-! PROOFS. What frames count: the frame counter itself (R133), and the fronts of double-banked
surfaces, which no move but a boundary changes. -/

namespace Sys2Proof.Machine

/-! ### The frame counter -/

/-- Commits applied at a boundary touch neither the counter nor the moment of the boundary nor FSY. -/
theorem State.applyReady_timing (n : Word) (q : List Commit) (s : State) :
    (State.applyReady n q s).1.timing.frame = s.timing.frame ∧
      (State.applyReady n q s).1.timing.lastBoundary = s.timing.lastBoundary ∧
      (State.applyReady n q s).1.timing.fsy = s.timing.fsy := by
  induction q generalizing s with
  | nil => exact ⟨rfl, rfl, rfl⟩
  | cons c q ih =>
    obtain ⟨h1, h2, h3⟩ := s.applyCommit_timing c n
    unfold State.applyReady
    split
    · dsimp only
      split
      · exact ⟨h1, h2, h3⟩
      · obtain ⟨g1, g2, g3⟩ := ih (s.applyCommit c n)
        exact ⟨g1.trans h1, g2.trans h2, g3.trans h3⟩
    · exact ⟨rfl, rfl, rfl⟩

/-- R133, R134: a boundary counts one frame, keeps its moment and raises FSY. -/
theorem State.boundary_counts (s : State) (lead sync : List Notice) :
    (s.boundary lead sync).timing.frame = s.timing.frame + 1 ∧
      (s.boundary lead sync).timing.lastBoundary = some s.now ∧
      (s.boundary lead sync).timing.fsy = true := by
  obtain ⟨g, hg, pick, m, e⟩ := State.boundary_form s lead sync
  have ht : (s.boundary lead sync).timing = g.timing := by
    rw [e, State.arbitrate_timing]; rfl
  rw [ht, hg, (State.beginFrame_blocks _).1, State.retireAll_timing]
  exact State.applyReady_timing (s.timing.frame + 1) s.commits.queue s.countBoundary

/-- What an effect makes of the frame counter. -/
theorem Effect.frame {s t : State} (h : Effect s t) : t.timing.frame = s.timing.frame ∨
    (t.timing.frame = s.timing.frame + 1 ∧ t.timing.lastBoundary = some s.now ∧
      t.timing.fsy = true) ∨
    (t.timing = timingReset ∧ (t.control.state = .held ∨ t.control.state = .starting)) := by
  cases h with
  | calm h => exact .inl h.sameFrame.frame
  | define hu _ _ _ _ ht => exact .inl (ht.frame.trans hu.frame)
  | boundary lead sync hu _ hb =>
    obtain ⟨h1, h2, h3⟩ := State.boundary_counts _ lead sync
    rw [hb, h1, h2, h3, hu.sameFrame.frame, hu.sameFrame.now]
    exact .inr (.inl ⟨rfl, rfl, rfl⟩)
  | stopped hu _ ht =>
    exact .inl (ht.frame.trans ((State.applyCommit_timing _ _ _).1.trans hu.sameFrame.frame))
  | reset _ ht hc => exact .inr (.inr ⟨ht, hc⟩)

/-- Settles O59: an effect other than a boundary and a reset keeps the counter. -/
theorem frameCounterCountsBoundaries : Obligations.FrameCounterCountsBoundaries := by
  intro s t h
  obtain ⟨q, h⟩ | rfl := step_effect h
  · exact h.frame
  · exact .inl rfl

/-! ### The front bank of a double-banked surface -/

/-- The surface `id` is double-banked and shows in `t` what it shows in `s`. -/
structure SameFront (s t : State) (id : Nat) : Prop where
  state : (t.surf id).state ≠ .free
  double : (t.surf id).banks = 2
  width : (t.surf id).width = (s.surf id).width
  front : (t.surf id).front = (s.surf id).front
  content : ∀ x ∈ (s.surf id).front, t.pool.contentOf x = s.pool.contentOf x
  cells : ∀ x ∈ (s.surf id).front, ∀ cell < 64,
    readCell t.pool.pixels x cell = readCell s.pool.pixels x cell

theorem SameFront.trans {s t u : State} {id : Nat} (h : SameFront s t id) (g : SameFront t u id) :
    SameFront s u id where
  state := g.state
  double := g.double
  width := g.width.trans h.width
  front := g.front.trans h.front
  content x hx := (g.content x (by rw [h.front]; exact hx)).trans (h.content x hx)
  cells x hx cell hc := (g.cells x (by rw [h.front]; exact hx) cell hc).trans (h.cells x hx cell hc)

theorem SameFront.readPixel {s t : State} {id : Nat} (h : SameFront s t id) (x y : Nat) :
    t.readPixel (t.surf id) (t.surf id).front x y = s.readPixel (s.surf id) (s.surf id).front x y := by
  have hc := cellOfPixel_lt x y
  unfold State.readPixel State.readTileCell
  rw [h.width, h.front]
  cases hx : (s.surf id).front[positionOfPixel (s.surf id).width x y]? with
  | none => rfl
  | some z =>
    have hz := List.mem_of_getElem? hx
    dsimp only
    rw [h.content z hz, h.cells z hz _ hc]

section
variable {s t : State} {id : Nat} (hb : (s.surf id).banks = 2) (hf : (s.surf id).state ≠ .free)
include hb hf

/-- A move that keeps the layout of the record, and the states and cells of the front tiles. -/
theorem SameFront.of_layout (hl : (t.surf id).layout = (s.surf id).layout)
    (hc : ∀ x ∈ (s.surf id).front, t.pool.contentOf x = s.pool.contentOf x ∧
      ∀ cell < 64, readCell t.pool.pixels x cell = readCell s.pool.pixels x cell) :
    SameFront s t id := by
  obtain ⟨h1, -, h3, h4, -, h6⟩ := Surface.layout_inj hl
  exact ⟨fun e => hf (h6.1 e), h3.trans hb, h1, h4, fun x hx => (hc x hx).1, fun x hx => (hc x hx).2⟩

theorem SameFront.of_pool (hp : t.pool = s.pool)
    (hl : (t.surf id).layout = (s.surf id).layout) : SameFront s t id :=
  SameFront.of_layout hb hf hl fun x _ => by rw [hp]; exact ⟨rfl, fun _ _ => rfl⟩
end

/-- A tile drawn in is not in the front bank of a double-banked surface. -/
theorem TileLaw.not_front {s : State} (h : TileLaw s) {id j : Nat} (hid : id < 32)
    (hb : (s.surf id).banks = 2) {x : Tile} (hx : x ∈ (s.surf j).drawBank ∨ x ∈ (s.surf j).back) :
    x ∉ (s.surf id).front := by
  intro hfront
  have hxj : x ∈ (s.surf j).tiles :=
    hx.elim Surface.mem_tiles_drawBank Surface.mem_tiles_back
  obtain rfl := h.owner hid (State.lt_of_mem_tiles hxj) (Surface.mem_tiles_front hfront) hxj
  have hback : x ∈ (s.surf id).back := by
    refine hx.elim (fun g => ?_) fun g => g
    rwa [Surface.drawBank, Surface.double, hb, beq_self_eq_true, if_pos rfl] at g
  exact (List.nodup_append.1 (h.nodup_tiles hid)).2.2 x hfront x hback rfl

theorem State.abandonWork_pixels (s : State) (id : Nat) :
    (s.abandonWork id).1.pool.pixels = s.pool.pixels := Pool.setContents_pixels _ _ _

/-- A FREE record stays FREE, and a double-banked surface that stays defined shows the same. -/
def KeepsFront (s t : State) (id : Nat) : Prop :=
  ((s.surf id).state = .free → (t.surf id).state = .free) ∧
  ((s.surf id).banks = 2 → (s.surf id).state ≠ .free → (t.surf id).state ≠ .free →
    SameFront s t id)

theorem KeepsFront.of_layout {s t : State} {id : Nat} (hp : t.pool = s.pool)
    (hl : ∀ j, (t.surf j).layout = (s.surf j).layout) : KeepsFront s t id :=
  ⟨(Surface.layout_inj (hl id)).2.2.2.2.2.2, fun hb hf _ => SameFront.of_pool hb hf hp (hl id)⟩

theorem KeepsFront.touch {s t : State} {id j : Nat} {x : Tile} (h : Touches s t j x)
    (htile : TileLaw s) (hid : id < 32) : KeepsFront s t id := by
  have hl := h.keeps Surface.layout (fun _ _ => rfl) id
  refine ⟨(Surface.layout_inj hl).2.2.2.2.2.2, fun hb hf _ => SameFront.of_layout hb hf hl ?_⟩
  intro y hy
  obtain ⟨c, -, hc⟩ := h.content
  have hne : y ≠ x := fun e => htile.not_front hid hb h.drawn (e ▸ hy)
  exact ⟨by rw [hc, if_neg hne], h.cells y hne⟩

theorem KeepsFront.abandon {s : State} {id j : Nat} (htile : TileLaw s) (hid : id < 32)
    (hj : j < 32) : KeepsFront s (s.abandonWork j).1 id := by
  have hl := s.abandonWork_keeps hj Surface.layout (fun _ _ _ => rfl) id
  refine ⟨(Surface.layout_inj hl).2.2.2.2.2.2, fun hb hf _ => SameFront.of_layout hb hf hl ?_⟩
  intro y hy
  refine ⟨?_, fun cell _ => by rw [State.abandonWork_pixels]⟩
  rw [State.abandonWork_contentOf, if_neg]
  intro hm
  refine htile.not_front (j := j) hid hb (.inr ?_) hy
  rcases List.mem_append.1 hm with hm | hm
  · exact ((Pool.mem_staleIn _ _ _).1 hm).1
  · exact State.mem_copyTarget hm

theorem KeepsFront.release {s : State} {id j : Nat} (htile : TileLaw s) (hid : id < 32)
    (hj : j < 32) : KeepsFront s (s.releaseSurface j) id := by
  have hsurf := s.releaseSurface_surf hj id
  by_cases e : id = j
  · rw [if_pos e] at hsurf
    rw [KeepsFront, hsurf]
    exact ⟨fun _ => rfl, fun _ _ h => absurd rfl h⟩
  · rw [if_neg e] at hsurf
    rw [KeepsFront, hsurf]
    refine ⟨fun h => h, fun hb hf _ => SameFront.of_layout hb hf (by rw [hsurf]) fun y hy => ?_⟩
    rw [State.releaseSurface_pool, Pool.contentOf_setContents, Pool.setContents_pixels]
    refine ⟨?_, fun _ _ => rfl⟩
    have hn := htile.not_other hid hj (Ne.symm e) (Surface.mem_tiles_front hy)
    rw [Surface.tiles] at hn
    rw [if_neg hn]
    rfl

theorem Calm.keepsFront {s t : State} (h : Calm s t) (htile : TileLaw s) {id : Nat} (hid : id < 32) :
    KeepsFront s t id := by
  cases h with
  | quiet h => exact .of_layout h.pool fun _ => by rw [h.surf]
  | palette | curve | nextTile | writeSlot => exact .of_layout rfl fun _ => rfl
  | close | openSlot =>
    exact .of_layout rfl (State.surf_setSurf_keeps (s.setSlot _ _) Surface.layout rfl)
  | tweak => exact .of_layout rfl (State.surf_setSurf_keeps s Surface.layout rfl)
  | queueJob | finishJob =>
    exact .of_layout rfl (State.surf_setSurf_keeps (s.withEngine _) Surface.layout rfl)
  | retire _ hl _ =>
    exact .of_layout rfl (State.surf_setSurf_keeps s Surface.layout (by simp [Surface.layout, hl]))
  | accept h =>
    rw [State.acceptCommit_eq]
    exact .of_layout (by simp) (State.setTags_keeps _ _ _ Surface.layout fun _ _ => rfl)
  | cancel h =>
    rw [State.removeCommit_eq]
    exact .of_layout (by simp) (State.setTags_keeps _ _ _ Surface.layout fun _ _ => rfl)
  | touch h => exact .touch h htile hid
  | abandon hj => exact .abandon htile hid hj
  | release hj hl hu => exact .release htile hid hj

theorem Calms.front {s t : State} (h : Calms s t) (htile : TileLaw s) {id : Nat} (hid : id < 32)
    (hb : (s.surf id).banks = 2) (hf : (s.surf id).state ≠ .free) :
    (t.surf id).state = .free ∨ SameFront s t id := by
  induction h with
  | refl => exact .inr (SameFront.of_pool hb hf rfl rfl)
  | @tail u v h hstep ih =>
    obtain ⟨hfree, hsame⟩ := hstep.keepsFront (tileLaw_kept.calms h htile) hid
    refine ih.elim (fun e => .inl (hfree e)) fun g => ?_
    by_cases e : (v.surf id).state = .free
    · exact .inl e
    · exact .inr (g.trans (hsame g.double g.state e))

theorem State.defineSurface_pixels (s : State) (id w h banks : Nat) :
    (s.defineSurface id w h banks).pool.pixels = s.pool.pixels := by
  unfold State.defineSurface
  dsimp only [State.setSurf_pool, State.withPool_pool]
  split
  · rw [Pool.allocate_pixels, Pool.allocate_pixels]
  · rw [Pool.allocate_pixels]

theorem defineSurface_front {s : State} {id j w h banks : Nat} (htile : TileLaw s) (hid : id < 32)
    (hj : j < 32) (hfree : (s.surf j).state = .free) (hb : (s.surf id).banks = 2)
    (hf : (s.surf id).state ≠ .free) : SameFront s (s.defineSurface j w h banks) id := by
  have hne : id ≠ j := by rintro rfl; exact hf hfree
  have hsurf := s.defineSurface_surf hj w h banks id
  rw [if_neg hne] at hsurf
  refine SameFront.of_layout hb hf (by rw [hsurf]) fun y hy => ?_
  have hn := htile.not_free hid (Surface.mem_tiles_front hy)
  refine ⟨?_, fun cell _ => ?_⟩
  · rw [State.defineSurface_contentOf, if_neg]
    rintro (hm | ⟨-, hm⟩)
    · exact hn (List.mem_of_mem_take hm)
    · exact hn (List.mem_of_mem_drop (List.mem_of_mem_take hm))
  · rw [State.defineSurface_pixels]

/-- While the clock runs, an effect that counts no frame shows the same or leaves the surface FREE. -/
theorem Effect.front {s t : State} (h : Effect s t) (htile : TileLaw s) (hrun : s.clockRuns)
    (hcount : t.timing.frame = s.timing.frame) {id : Nat} (hid : id < 32)
    (hb : (s.surf id).banks = 2) (hf : (s.surf id).state ≠ .free) (ht : (t.surf id).state ≠ .free) :
    SameFront s t id := by
  cases h with
  | calm h => exact (h.front htile hid hb hf).resolve_left ht
  | @define u _ j w h banks hu hj hfree _ _ hq =>
    have g := (hu.calms.front htile hid hb hf).resolve_left (by rw [hu.surf]; exact hf)
    have g' := defineSurface_front (w := w) (h := h) (banks := banks) (tileLaw_kept.quiet hu htile)
      hid hj hfree g.double g.state
    exact (g.trans g').trans (SameFront.of_pool g'.double g'.state hq.pool (by rw [hq.surf]))
  | boundary lead sync hu _ hbt =>
    rw [hbt, (State.boundary_counts _ lead sync).1, hu.sameFrame.frame] at hcount
    exact absurd hcount (by simp)
  | stopped hu hc _ =>
    exact absurd (hu.sameFrame.stopped.1 ((State.stoppedHead_iff _ _).1 hc).1) hrun
  | reset hr _ _ =>
    rw [hr.surf, State.surf_resetBlocks] at ht
    exact absurd rfl ht

/-- Settles O60: outside boundaries a tile of a front bank is neither drawn in, marked, blanked nor
allocated, and banks change places at the application of a commit alone. -/
theorem doubleBankedFrontsChangeOnlyAtBoundaries :
    Obligations.DoubleBankedFrontsChangeOnlyAtBoundaries := by
  intro s t id htile hrun h hcount hid hb hf ht
  have hfront : SameFront s t id := by
    obtain ⟨q, h⟩ | rfl := step_effect h
    · obtain ⟨h1, h2, h3, h4, h5, h6⟩ :=
        Effect.front (s := { s with pending := q }) h htile hrun hcount hid hb hf ht
      exact ⟨h1, h2, h3, h4, h5, h6⟩
    · exact SameFront.of_pool hb hf rfl rfl
  exact ⟨hfront.front, hfront.readPixel⟩

end Sys2Proof.Machine
end

section
/-! PROOFS. The link's bounds (R147, R150, R151), and a part that is HELD exactly while RSTN is low or
power is not good (R166). A block other than the link does no more to it than offer notices; the
commands of the link and of part control are taken one by one. -/

namespace Sys2Proof.Machine

/-! ### What a block does to the link, part control and the pins -/

/-- R147, R150, R151 for a link. -/
def Link.bounded (l : Link) : Prop :=
  l.held ≤ 8 ∧ l.notices ≤ 24 ∧ l.history.length ≤ 8 ∧ (l.history.map (·.seq)).Nodup

theorem Link.held_eq (l : Link) :
    l.held = l.inbound.length + l.executing.toList.length + l.replies := by
  unfold Link.held
  cases l.executing <;> rfl

/-- The link holds the same buffers and history, and its notices stay within their bound. -/
structure Link.Follows (l m : Link) : Prop where
  held : m.held = l.held
  notices : l.notices ≤ 24 → m.notices ≤ 24
  history : m.history = l.history

theorem Link.Follows.refl (l : Link) : l.Follows l := ⟨rfl, id, rfl⟩

theorem Link.Follows.trans {l m n : Link} (h : l.Follows m) (g : m.Follows n) : l.Follows n :=
  ⟨g.held.trans h.held, g.notices ∘ h.notices, g.history.trans h.history⟩

theorem Link.Follows.bounded {l m : Link} (h : l.Follows m) (hl : l.bounded) : m.bounded := by
  obtain ⟨h1, h2, h3, h4⟩ := hl
  exact ⟨h.held ▸ h1, h.notices h2, h.history ▸ h3, h.history ▸ h4⟩

theorem Link.follows_offer (l : Link) (n : Notice) : l.Follows (l.offer n) :=
  ⟨by simp, Link.offer_notices_le n, by simp⟩

theorem Link.follows_offerAll (l : Link) (ns : List Notice) : l.Follows (l.offerAll ns) :=
  ⟨by simp, Link.offerAll_notices_le ns, by simp⟩

/-- Part control and the pins of RSTN and power, as far as HELD reads them. -/
structure SamePart (s t : State) : Prop where
  held : t.control.state = .held ↔ s.control.state = .held
  rstn : t.pins.rstnHigh = s.pins.rstnHigh
  power : t.pins.powerGood = s.pins.powerGood

theorem SamePart.refl (s : State) : SamePart s s := ⟨Iff.rfl, rfl, rfl⟩

theorem SamePart.trans {s t u : State} (h : SamePart s t) (g : SamePart t u) : SamePart s u :=
  ⟨g.held.trans h.held, g.rstn.trans h.rstn, g.power.trans h.power⟩

theorem SamePart.of_eq {s t : State} (hc : t.control = s.control) (hp : t.pins = s.pins) :
    SamePart s t := ⟨by rw [hc], by rw [hp], by rw [hp]⟩

/-- What a block other than the link does. -/
structure Heeds (s t : State) : Prop where
  link : s.link.Follows t.link
  part : SamePart s t

theorem Heeds.refl (s : State) : Heeds s s := ⟨.refl _, .refl _⟩

theorem Heeds.trans {s t u : State} (h : Heeds s t) (g : Heeds t u) : Heeds s u :=
  ⟨h.link.trans g.link, h.part.trans g.part⟩

theorem Heeds.of_eq {s t : State} (hl : t.link = s.link) (hc : t.control = s.control)
    (hp : t.pins = s.pins) : Heeds s t := ⟨hl ▸ .refl _, .of_eq hc hp⟩

/-- What a WRITE does: nothing to the link at all. -/
structure Silent (s t : State) : Prop where
  link : t.link = s.link
  control : t.control = s.control
  pins : t.pins = s.pins

theorem Silent.refl (s : State) : Silent s s := ⟨rfl, rfl, rfl⟩

theorem Silent.trans {s t u : State} (h : Silent s t) (g : Silent t u) : Silent s u :=
  ⟨g.link.trans h.link, g.control.trans h.control, g.pins.trans h.pins⟩

theorem Silent.heeds {s t : State} (h : Silent s t) : Heeds s t := .of_eq h.link h.control h.pins

theorem heeds_offerAll (s : State) (ns : List Notice) : Heeds s (s.offerAll ns) :=
  ⟨s.link.follows_offerAll ns, .of_eq rfl rfl⟩

theorem heeds_arbitrate (s : State) : Heeds s s.arbitrate := .of_eq (by simp) (by simp) (by simp)

/-! ### Boundaries and engine steps -/

theorem heeds_applyCommit (s : State) (c : Commit) (n : Word) : Heeds s (s.applyCommit c n) :=
  .of_eq (by simp) (by simp) (by simp)

theorem heeds_applyReady (n : Word) (q : List Commit) (s : State) :
    Heeds s (State.applyReady n q s).1 := by
  induction q generalizing s with
  | nil => exact .refl s
  | cons c q ih =>
    unfold State.applyReady
    split
    · dsimp only
      split
      · exact heeds_applyCommit s c n
      · exact (heeds_applyCommit s c n).trans (ih _)
    · exact .refl s

theorem heeds_beginFrame (s : State) : Heeds s s.beginFrame := by
  unfold State.beginFrame
  split <;> exact .of_eq rfl rfl rfl

theorem heeds_boundary (s : State) (lead sync : List Notice) : Heeds s (s.boundary lead sync) := by
  obtain ⟨g, hg, pick, m, e⟩ := State.boundary_form s lead sync
  rw [e, hg]
  have hcount : Heeds s s.countBoundary := .of_eq rfl rfl rfl
  have happly := hcount.trans (heeds_applyReady (s.timing.frame + 1) s.commits.queue s.countBoundary)
  have hretire := happly.trans (.of_eq (State.retireAll_link _) (State.retireAll_control _)
    (State.retireAll_pins _))
  exact ((hretire.trans (heeds_beginFrame _)).trans (heeds_offerAll _ _)).trans (heeds_arbitrate _)

theorem heeds_decideStopped (s : State) (lead : List Notice) : Heeds s (s.decideStopped lead) := by
  unfold State.decideStopped
  split
  · exact heeds_offerAll s lead
  · split
    · exact ((heeds_applyCommit _ _ _).trans (heeds_offerAll _ _)).trans (heeds_arbitrate _)
    · exact heeds_boundary s lead []

theorem heeds_afterStep (s : State) (decide : Bool) (done : List Notice) :
    Heeds s (s.afterStep decide done) := by
  unfold State.afterStep
  split
  · split
    · exact (heeds_arbitrate s).trans (heeds_decideStopped _ _)
    · exact (heeds_decideStopped s done).trans (heeds_arbitrate _)
  · exact (heeds_offerAll s done).trans (heeds_arbitrate _)

theorem heeds_decideIfHeadChanged (s t : State) : Heeds t (s.decideIfHeadChanged t) := by
  unfold State.decideIfHeadChanged
  split
  · exact .refl t
  · exact heeds_decideStopped t []

theorem heeds_copyCompletes (s : State) (id pos : Nat) : Heeds s (s.copyCompletes id pos) := by
  have h : Heeds s (s.completeCopy id pos).endStep :=
    .of_eq (State.completeCopy_link s id pos) (State.completeCopy_control s id pos)
      (State.completeCopy_pins s id pos)
  exact h.trans (heeds_afterStep _ _ _)

theorem heeds_fillCompletes (s : State) (j : FillJob) (pos : Nat) (full : Bool) :
    Heeds s (s.fillCompletes j pos full) := by
  have h : Heeds s (s.fillTile j.surface pos full j.rect j.colour).endStep :=
    .of_eq (State.fillTile_link ..) (State.fillTile_control ..) (State.fillTile_pins ..)
  unfold State.fillCompletes
  dsimp only
  split
  · refine (h.trans ?_).trans (heeds_arbitrate _)
    exact .of_eq rfl rfl rfl
  · refine (h.trans ?_).trans (heeds_afterStep _ _ _)
    exact .of_eq rfl rfl rfl

/-! ### The requests -/

theorem heeds_setTags (s : State) (ids : List Nat) (p : Option Half) : Heeds s (s.setTags ids p) := by
  rw [State.setTags_eq]; exact .of_eq rfl rfl rfl

theorem heeds_setSurf (s : State) (id : Nat) (f : Surface) : Heeds s (s.setSurf id f) :=
  .of_eq rfl rfl rfl

theorem heeds_releaseSurface (s : State) (id : Nat) : Heeds s (s.releaseSurface id) :=
  .of_eq rfl rfl rfl

theorem heeds_acceptCommit (s : State) (c : Commit) : Heeds s (s.acceptCommit c) := by
  rw [State.acceptCommit_eq]
  refine Heeds.trans ?_ (heeds_setTags _ _ _)
  exact .of_eq rfl rfl rfl

theorem heeds_removeCommit (s : State) (i : Nat) (c : Commit) : Heeds s (s.removeCommit i c) := by
  rw [State.removeCommit_eq]
  refine Heeds.trans ?_ (heeds_setTags _ _ _)
  exact .of_eq rfl rfl rfl

theorem heeds_queueFill (s : State) (id : Nat) (r : Rect) (c : Rgb) :
    Heeds s (s.queueFill id r c) := by
  unfold State.queueFill
  refine Heeds.trans ?_ (heeds_arbitrate _)
  exact .of_eq rfl rfl rfl

theorem heeds_closeStreamOf (s : State) (id : Nat) : Heeds s (s.closeStreamOf id) := by
  unfold State.closeStreamOf
  split <;> exact .of_eq rfl rfl rfl

theorem heeds_abandonAll (s : State) (id : Nat) : Heeds s (s.abandonAll id).1 := by
  have h : Heeds (s.closeStreamOf id) ((s.closeStreamOf id).abandonWork id).1 := .of_eq rfl rfl rfl
  exact ((heeds_closeStreamOf s id).trans h).trans (heeds_offerAll _ _)

theorem silent_ingest (ps : List (List Byte)) (s : State) (st : Stream) (n : Nat) :
    Silent s (s.ingest ps st n).1 := by
  induction ps generalizing s st n with
  | nil => exact .refl s
  | cons p ps ih =>
    unfold State.ingest
    split
    · exact .refl s
    · refine Silent.trans ?_ (ih _ _ _)
      unfold State.ingestPixel
      dsimp only
      split <;> exact ⟨by simp, by simp, by simp⟩

theorem silent_takeWrite (s : State) (slot : Nat) (st : Stream) (payload : List Byte) :
    Silent s (s.takeWrite slot st payload).1 :=
  (silent_ingest _ s st 0).trans ⟨rfl, rfl, rfl⟩

theorem silent_handleWrite (body : List Byte) (s : State) : Silent s (handleWrite body s).1 := by
  unfold handleWrite
  dsimp only
  split
  · exact .refl s
  · split
    · exact .refl s
    · split
      · exact .refl s
      · split
        · exact .refl s
        · exact silent_takeWrite s _ _ _

theorem heeds_handleDestroy (body : List Byte) (s : State) : Heeds s (handleDestroy body s).1 := by
  have h : ∀ id, Heeds s (s.abandonAll id).1 := heeds_abandonAll s
  unfold handleDestroy
  dsimp only
  split
  · exact .refl s
  · split
    · exact .refl s
    · split
      · refine Heeds.trans ?_ (heeds_arbitrate _)
        exact (h (fieldAt body 0 1)).trans (heeds_releaseSurface _ _)
      · refine Heeds.trans ?_ (heeds_arbitrate _)
        exact (h (fieldAt body 0 1)).trans (heeds_setSurf _ _ _)

theorem heeds_handleOpen (body : List Byte) (s : State) : Heeds s (handleOpen body s).1 := by
  unfold handleOpen
  dsimp only
  split
  · exact .refl s
  · split
    · exact .refl s
    · split
      · split
        · exact .refl s
        · split
          · exact .refl s
          · split
            · exact .refl s
            · exact (heeds_closeStreamOf s _).trans (.of_eq rfl rfl rfl)
      · exact .refl s

theorem heeds_handleCommit (seq : Byte) (body : List Byte) (s : State) :
    Heeds s (handleCommit seq body s).1 := by
  unfold handleCommit
  dsimp only
  split
  · exact .refl s
  · split
    · exact .refl s
    · split
      · exact .refl s
      · exact heeds_acceptCommit s _

theorem heeds_handleCancel (body : List Byte) (s : State) : Heeds s (handleCancel body s).1 := by
  unfold handleCancel
  dsimp only
  split
  · exact heeds_removeCommit s _ _
  · split <;> exact .refl s

theorem heeds_handleFill (body : List Byte) (s : State) : Heeds s (handleFill body s).1 := by
  unfold handleFill
  dsimp only
  split
  · exact .refl s
  · split
    · exact .refl s
    · split
      · exact .refl s
      · split
        · exact .refl s
        · exact heeds_queueFill s _ _ _

/-- STATUS changes counters, no buffer, no notice and no history. -/
theorem heeds_handleStatus (body : List Byte) (s : State) : Heeds s (handleStatus body s).1 := by
  unfold handleStatus
  split
  · exact .refl s
  · split
    · exact ⟨⟨rfl, id, rfl⟩, .of_eq rfl rfl⟩
    · exact .refl s

theorem heeds_handleCanvas (body : List Byte) (s : State) : Heeds s (handleCanvas body s).1 := by
  unfold handleCanvas
  dsimp only
  split
  · exact .refl s
  · split <;> exact .of_eq rfl rfl rfl

theorem heeds_handleLoadCurve (body : List Byte) (s : State) : Heeds s (handleLoadCurve body s).1 := by
  unfold handleLoadCurve
  dsimp only
  split
  · exact .refl s
  · split
    · exact .refl s
    · split
      · exact .refl s
      · split <;> exact .of_eq rfl rfl rfl

theorem heeds_handleLoadPalette (body : List Byte) (s : State) :
    Heeds s (handleLoadPalette body s).1 := by
  unfold handleLoadPalette
  dsimp only
  split
  · exact .refl s
  · split <;> exact .of_eq rfl rfl rfl

theorem heeds_handleDefine (body : List Byte) (s : State) : Heeds s (handleDefine body s).1 := by
  unfold handleDefine
  dsimp only
  split
  · exact .refl s
  · split
    · exact .refl s
    · split
      · exact .refl s
      · split <;> exact .of_eq rfl rfl rfl

theorem heeds_handleSetAttr (body : List Byte) (s : State) : Heeds s (handleSetAttr body s).1 := by
  unfold handleSetAttr
  dsimp only
  split
  · exact .refl s
  · split
    · exact .refl s
    · split <;> exact .of_eq rfl rfl rfl

theorem heeds_handleQuery (body : List Byte) (s : State) : Heeds s (handleQuery body s).1 := by
  unfold handleQuery
  dsimp only
  split <;> exact .of_eq rfl rfl rfl

theorem heeds_handleClose (body : List Byte) (s : State) : Heeds s (handleClose body s).1 := by
  unfold handleClose
  dsimp only
  split
  · exact .refl s
  · split <;> exact .of_eq rfl rfl rfl

theorem heeds_handleRead (body : List Byte) (s : State) : Heeds s (handleRead body s).1 := by
  unfold handleRead
  dsimp only
  split
  · exact .refl s
  · split
    · exact .refl s
    · split
      · exact .refl s
      · split <;> exact .of_eq rfl rfl rfl

/-! ### The link's own steps -/

/-- The frame's buffer passes from WAITING to REPLY-QUEUED. -/
theorem Link.bounded.queueReply {l : Link} (f : Request) (r : Reply) (h : l.bounded)
    (hheld : l.inbound.length + l.replies < 8) : (l.queueReply f r).bounded := by
  obtain ⟨-, h2, h3, h4⟩ := h
  refine ⟨?_, ?_, enterHistory_length_le _ h3, enterHistory_nodup _ h4⟩
  · simp [Link.held_eq, Link.replies, Link.queueReply, List.countP_append, OutFrame.isNotice] at *
    omega
  · simpa [Link.notices, Link.queueReply, List.countP_append, OutFrame.isNotice] using h2

theorem Link.inbound_replies_le (l : Link) : l.inbound.length + l.replies ≤ l.held := by
  rw [Link.held_eq]; omega

/-- What a step of the part does: the bounds of the link, HELD and the pins of R166. -/
structure Within (s t : State) : Prop where
  bounded : s.link.bounded → t.link.bounded
  part : SamePart s t

theorem Within.refl (s : State) : Within s s := ⟨id, .refl s⟩

theorem Within.trans {s t u : State} (h : Within s t) (g : Within t u) : Within s u :=
  ⟨g.bounded ∘ h.bounded, h.part.trans g.part⟩

theorem Heeds.within {s t : State} (h : Heeds s t) : Within s t := ⟨h.link.bounded, h.part⟩

/-- A part that has taken its first WAITING frame holds one buffer less. -/
theorem State.takeRequest_held {s : State} {f : Request} (h : s.nextRequest = some f) :
    s.takeRequest.link.held + 1 = s.link.held := by
  obtain ⟨-, -, hin⟩ := State.nextRequest_eq_some.1 h
  obtain ⟨q, hq⟩ : ∃ q, s.link.inbound = f :: q := by
    cases hi : s.link.inbound with
    | nil => rw [hi] at hin; cases hin
    | cons g q => rw [hi] at hin; cases hin; exact ⟨q, rfl⟩
  simp only [State.takeRequest_link, Link.held, Link.replies, hq, List.tail_cons,
    List.length_cons]
  omega

theorem State.takeRequest_bounded {s : State} (h : s.link.bounded) : s.takeRequest.link.bounded := by
  obtain ⟨h1, h2, h3, h4⟩ := h
  refine ⟨le_trans ?_ h1, h2, h3, h4⟩
  simp only [State.takeRequest_link, Link.held_eq, Link.replies, List.length_tail]
  omega

/-- A frame taken and answered, whatever its block has done. -/
theorem State.answered_within {s t : State} {f : Request} (hf : s.nextRequest = some f)
    (h : Heeds s.takeRequest t) (r : Reply) : Within s (t.queueReply f r) where
  bounded hs := by
    refine Link.bounded.queueReply f r (h.link.bounded (State.takeRequest_bounded hs)) ?_
    have h1 := State.takeRequest_held hf
    have h2 := Link.inbound_replies_le t.link
    rw [h.link.held] at h2
    have h3 := hs.1
    omega
  part := ⟨h.part.held, h.part.rstn, h.part.power⟩

theorem State.serve_within (s : State) (k : Byte) (handle : List Byte → State → State × Answer)
    (h : ∀ body t, Heeds t (handle body t).1) : Within s (s.serve k handle) := by
  obtain ⟨f, hf, -, -, e⟩ | ⟨f, hf, -, -, e⟩ | e := s.serve_cases k handle
  · rw [e]; exact State.answered_within hf (h _ _) _
  · rw [e, ← State.take_queueReply s f ⟨.badLength, []⟩]
    exact State.answered_within hf (.refl _) _
  · rw [e]; exact .refl s

/-- RESET is taken by a RUNNING part, which does not become HELD. -/
theorem execReset_within {s t : State} (h : execReset s = .next t) : Within s t := by
  cases h
  obtain ⟨f, hf, -, -, e⟩ | ⟨f, hf, -, -, e⟩ | e := s.serve_cases 0x03 handleReset
  · rw [e]
    refine ⟨fun hs => ?_, ?_⟩
    · exact (State.answered_within hf (t := s.takeRequest.withLink s.takeRequest.link.dropPartial)
        ⟨⟨rfl, id, rfl⟩, .of_eq rfl rfl⟩ _).bounded hs
    · obtain ⟨hrun, -⟩ := State.nextRequest_eq_some.1 hf
      refine ⟨iff_of_false (fun h => ?_) (by rw [hrun]; decide), rfl, rfl⟩
      cases h
  · rw [e, ← State.take_queueReply s f ⟨.badLength, []⟩]
    exact State.answered_within hf (.refl _) _
  · rw [e]; exact .refl s

theorem execBadKind_within {s t : State} (h : execBadKind s = .next t) : Within s t := by
  cases h
  split
  · exact .refl s
  · rename_i f hf
    split
    · exact .refl s
    · exact State.answered_within hf (.refl _) _

theorem execWrite_within {s t : State} (h : execWrite s = .next t) : Within s t := by
  cases h
  split
  · exact .refl s
  · rename_i f hf
    split
    · refine ⟨fun hs => ?_, .of_eq rfl rfl⟩
      have h1 := State.takeRequest_held hf
      obtain ⟨hb1, hb⟩ := hs
      refine ⟨?_, hb⟩
      simp only [State.holdRequest, State.takeRequest_link, State.withLink_link, Link.held_eq,
        Link.replies, Option.toList_some, List.length_singleton] at h1 ⊢
      obtain ⟨-, hidle, -⟩ := State.nextRequest_eq_some.1 hf
      simp only [Link.held_eq, hidle, Option.toList_none, List.length_nil, Link.replies] at h1 hb1
      omega
    · exact State.serve_within s _ _ fun body t => (silent_handleWrite body t).heeds

theorem Link.inbound_replies_lt {l : Link} {e : Executing} (h : l.executing = some e) :
    l.inbound.length + l.replies < l.held := by
  simp [Link.held_eq, h]

/-- The buffer of a frame under execution goes over to its reply, or is freed. -/
theorem endHeld_within {s : State} {e : Executing} (he : s.link.executing = some e) (a : Answer) :
    Within s (s.endHeld e a) := by
  have hlt := Link.inbound_replies_lt he
  unfold State.endHeld
  split
  · refine ⟨fun hs => ⟨?_, hs.2⟩, .of_eq rfl rfl⟩
    have h8 := hs.1
    simp only [State.withLink_link, Link.held_eq, Link.replies, Option.toList_none,
      List.length_nil] at hlt h8 ⊢
    omega
  · exact ⟨fun hs => hs.queueReply _ _ (by have h8 := hs.1; omega), .of_eq rfl rfl⟩

theorem execWriteHoldEnd_within {s t : State} (h : execWriteHoldEnd s = .next t) : Within s t := by
  cases h
  split
  · exact .refl s
  · rename_i e he
    split
    · exact .refl s
    · have hq := silent_handleWrite e.request.body s
      refine Within.trans hq.heeds.within ?_
      have he' := he
      rw [← hq.link] at he'
      exact endHeld_within he' _

/-- A notice that the link counts and offers. -/
theorem Link.follows_discard (l : Link) (r : DiscardReason) (seq : Option Byte) :
    l.Follows (l.discard r seq) :=
  Link.Follows.trans (m := { l with counters := l.counters.discard r }) ⟨rfl, id, rfl⟩
    (Link.follows_offer _ _)

theorem Link.follows_dropPartial (l : Link) : l.Follows l.dropPartial := ⟨rfl, id, rfl⟩

theorem Link.follows_partialTo (l : Link) (st : FramerState) (bs : List Byte) (now : Time) :
    l.Follows (l.partialTo st bs now) := ⟨rfl, id, rfl⟩

/-- R145: a frame takes a buffer where one is free. -/
theorem Link.bounded.arrive {l : Link} (h : l.bounded) (f : Request) : (l.arrive f).bounded := by
  unfold Link.arrive
  split
  · exact h
  · split
    · rename_i hroom
      obtain ⟨-, h2, h3, h4⟩ := h
      split
      · refine ⟨?_, ?_, h3, h4⟩
        · simp [Link.held_eq, Link.replies, Link.countDuplicate, List.countP_append,
            OutFrame.isNotice] at *
          omega
        · simpa [Link.notices, Link.countDuplicate, List.countP_append, OutFrame.isNotice] using h2
      · refine ⟨?_, h2, h3, h4⟩
        simp [Link.held_eq, Link.replies] at *
        omega
    · exact (l.follows_discard _ _).bounded h

theorem Link.bounded.takeByte {l : Link} (h : l.bounded) (b : Byte) (now : Time) :
    (l.takeByte b now).bounded := by
  have hpart : ∀ st bs, (l.partialTo st bs now).bounded := fun _ _ => h
  have hdrop : l.dropPartial.bounded := h
  unfold Link.takeByte
  dsimp only
  split
  · split
    · exact hpart _ _
    · exact h
  · split
    · exact hpart _ _
    · split
      · exact (Link.follows_discard _ _ _).bounded hdrop
      · exact hpart _ _
  · split <;> exact hpart _ _
  · exact hpart _ _
  · split
    · exact hpart _ _
    · split
      · exact hdrop.arrive _
      · exact (Link.follows_discard _ _ _).bounded hdrop

theorem linkReset_bounded : linkReset.bounded := by
  refine ⟨?_, ?_, ?_, ?_⟩ <;> decide

/-- A BREAK leaves at most the frame under execution, which is an orphan then. -/
theorem Link.breakOff_bounded (l : Link) : l.breakOff.bounded := by
  refine (Link.follows_offer _ _).bounded ⟨?_, Nat.zero_le _, Nat.zero_le _, List.nodup_nil⟩
  rw [Link.held_eq]
  cases l.executing <;> simp [Link.replies]

theorem Link.bounded.begin {l : Link} (h : l.bounded) (f : OutFrame) (now : Time) :
    (l.begin f now).bounded := by
  obtain ⟨h1, h2, h3, h4⟩ := h
  have hsub : l.outbound.tail.Sublist l.outbound := List.tail_sublist _
  refine ⟨le_trans ?_ h1, le_trans hsub.countP_le h2, h3, h4⟩
  have hr : (l.begin f now).replies ≤ l.replies := hsub.countP_le
  rw [Link.held_eq, Link.held_eq]
  exact Nat.add_le_add_left hr _

theorem State.softReset_link_bounded (s : State) : s.softReset.link.bounded := linkReset_bounded

theorem State.softReset_not_held (s : State) : s.softReset.control.state ≠ .held := by
  simp [State.softReset, State.enterStarting]

/-! ### The events of the link and of part control -/

theorem execFinEdge_within {s t : State} {e : Edge} (h : execFinEdge e s = .next t) :
    Within s t := by
  cases h
  have hpins : Within s (s.withPins { s.pins with finHigh := e == .rise }) :=
    ⟨id, Iff.rfl, rfl, rfl⟩
  have htiming : ∀ (u : State) (x : Timing), Heeds u (u.withTiming x) := fun _ _ => .of_eq rfl rfl rfl
  dsimp only
  split
  · refine hpins.trans (Heeds.within ?_)
    split
    · unfold State.seekEdge
      split
      · split
        · unfold State.lock
          dsimp only
          split
          · exact (htiming _ _).trans (heeds_boundary _ _ _)
          · exact (htiming _ _).trans (heeds_offerAll _ [_])
        · exact htiming _ _
      · exact htiming _ _
    · unfold State.lockedEdge
      split
      · exact (htiming _ _).trans (heeds_boundary _ _ _)
      · exact htiming _ _
    · exact .refl _
    · exact .refl _
  · exact hpins

theorem execLossDeadline_within {s t : State} (h : execLossDeadline s = .next t) : Within s t := by
  cases h
  split
  · refine Heeds.within (Heeds.trans ?_ (heeds_boundary _ _ _))
    exact .of_eq rfl rfl rfl
  · exact .refl s

theorem execRxByte_within {s t : State} {c : Character} (h : execRxByte c s = .next t) :
    Within s t := by
  cases h
  split
  · exact ⟨fun hs => hs.takeByte _ _, .of_eq rfl rfl⟩
  · exact .refl s

theorem execTimeoutDiscard_within {s t : State} (h : execTimeoutDiscard s = .next t) :
    Within s t := by
  cases h
  split
  · exact ⟨((Link.follows_dropPartial _).trans (Link.follows_discard _ _ _)).bounded, .of_eq rfl rfl⟩
  · exact .refl s

theorem execTransmitStart_within {s t : State} (h : execTransmitStart s = .next t) :
    Within s t := by
  cases h
  split
  · exact .refl s
  · rename_i f hf
    have hcontrol : (s.control.onSend f s.now).state = .held ↔ s.control.state = .held := by
      unfold Control.onSend
      split
      · split
        · rename_i hst; rw [hst]; exact iff_of_false (by simp) (by decide)
        · exact Iff.rfl
      · exact Iff.rfl
    unfold State.startSend
    dsimp only
    split <;> exact ⟨fun hs => hs.begin _ _, hcontrol, rfl, rfl⟩

theorem execTransmitEnd_within {s t : State} (h : execTransmitEnd s = .next t) : Within s t := by
  cases h
  split
  · exact .refl s
  · unfold State.endSend
    dsimp only
    split
    · rename_i hreset
      refine ⟨fun _ => linkReset_bounded, ?_, rfl, rfl⟩
      exact iff_of_false (State.softReset_not_held _) (by rw [hreset.1]; decide)
    · exact ⟨id, .of_eq rfl rfl⟩

theorem execLinkBreak_within {s t : State} (h : execLinkBreak s = .next t) : Within s t := by
  cases h
  split
  · unfold State.doBreak
    dsimp only
    split
    · rename_i hreset
      refine ⟨fun _ => linkReset_bounded, ?_, rfl, rfl⟩
      exact iff_of_false (State.softReset_not_held _) (by rw [hreset]; decide)
    · exact ⟨fun _ => s.link.breakOff_bounded, Iff.rfl, rfl, rfl⟩
  · exact .refl s

theorem execHello_within {s t : State} (h : execHello s = .next t) : Within s t := by
  cases h
  split
  · exact (heeds_offerAll s [_]).within
  · exact .refl s

/-- The commands that RSTN and power give. -/
def isSupply : Instr → Bool
  | .pinReset | .powerFail | .rstnRelease | .powerGood => true
  | _ => false

/-- What every command but those of RSTN and power does. -/
theorem exec_within {i : Instr} (hi : isSupply i = false) {s t : State} (h : exec i s = .next t) :
    Within s t := by
  cases i with
  | identify => cases h; exact s.serve_within _ _ fun _ u => .refl u
  | status => cases h; exact s.serve_within _ _ heeds_handleStatus
  | reset => exact execReset_within h
  | notify => cases h; exact s.serve_within _ _ fun _ u => .of_eq rfl rfl rfl
  | canvas => cases h; exact s.serve_within _ _ heeds_handleCanvas
  | loadCurve => cases h; exact s.serve_within _ _ heeds_handleLoadCurve
  | loadPalette => cases h; exact s.serve_within _ _ heeds_handleLoadPalette
  | define => cases h; exact s.serve_within _ _ heeds_handleDefine
  | destroy => cases h; exact s.serve_within _ _ heeds_handleDestroy
  | setAttr => cases h; exact s.serve_within _ _ heeds_handleSetAttr
  | query => cases h; exact s.serve_within _ _ heeds_handleQuery
  | openStream => cases h; exact s.serve_within _ _ heeds_handleOpen
  | write => exact execWrite_within h
  | writeHoldEnd => exact execWriteHoldEnd_within h
  | closeStream => cases h; exact s.serve_within _ _ heeds_handleClose
  | read => cases h; exact s.serve_within _ _ heeds_handleRead
  | fill => cases h; exact s.serve_within _ _ heeds_handleFill
  | commit =>
    cases h
    exact (s.serve_within _ _ (heeds_handleCommit _)).trans (heeds_decideIfHeadChanged _ _).within
  | cancel =>
    cases h
    exact (s.serve_within _ _ heeds_handleCancel).trans (heeds_decideIfHeadChanged _ _).within
  | badKind => exact execBadKind_within h
  | internalTimerExpiry =>
    cases h
    split
    · exact (heeds_boundary s _ _).within
    · exact .refl s
  | fsyPulseEnd =>
    cases h
    split
    · exact ⟨id, .of_eq rfl rfl⟩
    · exact .refl s
  | finEdge e => exact execFinEdge_within h
  | lossDeadline => exact execLossDeadline_within h
  | lineSlotStart =>
    cases h
    split
    · exact .refl s
    · exact ⟨id, .of_eq rfl rfl⟩
  | copyStepComplete =>
    cases h
    split
    · exact .refl s
    · exact (heeds_copyCompletes s _ _).within
  | fillStepComplete =>
    cases h
    split
    · exact .refl s
    · exact (heeds_fillCompletes s _ _ _).within
  | rxByte c => exact execRxByte_within h
  | timeoutDiscard => exact execTimeoutDiscard_within h
  | linkBreak => exact execLinkBreak_within h
  | linkBreakEnd => cases h; exact ⟨id, Iff.rfl, rfl, rfl⟩
  | transmitStart => exact execTransmitStart_within h
  | transmitEnd => exact execTransmitEnd_within h
  | hello => exact execHello_within h
  | pinReset | powerFail | rstnRelease | powerGood => cases hi

/-! ### RSTN and power -/

theorem State.leaveHeld_link (s : State) : s.leaveHeld.link = s.link := by
  unfold State.leaveHeld
  split <;> rfl

theorem exec_bounded {i : Instr} {s t : State} (h : exec i s = .next t) (hs : s.link.bounded) :
    t.link.bounded := by
  by_cases hi : isSupply i = false
  · exact (exec_within hi h).bounded hs
  · cases i with
    | pinReset => cases h; exact linkReset_bounded
    | powerFail => cases h; exact linkReset_bounded
    | rstnRelease => cases h; rw [State.leaveHeld_link]; exact hs
    | powerGood =>
      cases h
      split
      · exact hs
      · rw [State.leaveHeld_link]; exact hs
    | _ => exact absurd rfl hi

/-- Settles O51: a notice is queued while room is left for it, a frame takes a buffer that is free,
and a reply takes the buffer of its request. -/
theorem stepsKeepTheLinkLaw : Obligations.StepsKeepTheLinkLaw := by
  intro s t hs h
  obtain ⟨i, q, h⟩ | rfl := step_cases h
  · exact exec_bounded (s := { s with pending := q }) h hs
  · exact hs

end Sys2Proof.Machine
end

section
/-! PROOFS. A HELD part stays at its reset values (R166): no command but those of RSTN and power finds
anything to do there. -/

namespace Sys2Proof.Machine

/-- The reset values of the blocks, as R166 has them in HELD. -/
def State.blocksReset (s : State) : Prop :=
  s.link = linkReset ∧ s.surfaces = Vector.replicate 32 surfaceFree ∧
    s.pool.free = freeListReset ∧ s.pool.content = [] ∧ s.streams = Vector.replicate 8 none ∧
    s.engine = engineReset ∧ s.commits = commitsReset ∧ s.colours = coloursReset ∧
    s.timing = timingReset ∧ s.scan = scanReset

theorem heldLaw_iff (s : State) : HeldLaw s ↔
    (s.control.state = .held ↔ ¬ (s.pins.rstnHigh = true ∧ s.pins.powerGood = true)) ∧
    (s.control.state = .held → s.blocksReset) := Iff.rfl

/-! ### No command finds anything to do -/

section
variable {s : State} (hheld : s.control.state = .held)
include hheld

theorem State.nextRequest_of_held : s.nextRequest = none := by simp [State.nextRequest, hheld]

theorem State.serve_of_held (k : Byte) (handle : List Byte → State → State × Answer) :
    s.serve k handle = s := by
  unfold State.serve
  rw [State.nextRequest_of_held hheld]

theorem State.receives_of_held : s.receives = false := by simp [State.receives, hheld]

theorem State.timeoutDue_of_held : s.timeoutDue = false := by simp [State.timeoutDue, hheld]

theorem State.takesBreak_of_held : s.takesBreak = false := by simp [State.takesBreak, hheld]

theorem State.nextToSend_of_held : s.nextToSend = none := by simp [State.nextToSend, hheld]

theorem State.mayHello_of_held : s.mayHello = false := by simp [State.mayHello, hheld]
end

section
variable {s : State} (h : s.blocksReset)
include h

theorem State.blocksReset.timing : s.timing = timingReset := by
  obtain ⟨-, -, -, -, -, -, -, -, h, -⟩ := h; exact h

theorem State.blocksReset.scan : s.scan = scanReset := by
  obtain ⟨-, -, -, -, -, -, -, -, -, h⟩ := h; exact h

theorem State.blocksReset.engine : s.engine = engineReset := by
  obtain ⟨-, -, -, -, -, h, -⟩ := h; exact h

theorem State.blocksReset.link : s.link = linkReset := h.1

theorem State.blocksReset.timerDue : s.timerDue = false := by
  simp [State.timerDue, h.timing, timingReset]

theorem State.blocksReset.fsyEndDue : s.fsyEndDue = false := by
  simp [State.fsyEndDue, h.timing, timingReset]

theorem State.blocksReset.lossDue : s.lossDue = false := by
  simp [State.lossDue, h.timing, timingReset]

theorem State.blocksReset.isFinEdge (e : Edge) : s.isFinEdge e = false := by
  simp [State.isFinEdge, h.scan, scanReset]

theorem State.blocksReset.dueLine : s.dueLine = none := by
  simp [State.dueLine, h.scan, scanReset]

theorem State.blocksReset.copyDue : s.copyDue = none := by
  simp [State.copyDue, h.engine, engineReset]

theorem State.blocksReset.fillDue : s.fillDue = none := by
  simp [State.fillDue, h.engine, engineReset]

theorem State.blocksReset.sentFrame : s.sentFrame = none := by
  simp [State.sentFrame, h.link, linkReset]
end

theorem State.decideIfHeadChanged_self (s : State) : s.decideIfHeadChanged s = s := if_pos rfl

/-- In HELD a command changes at most the level of a pin. -/
theorem exec_blocksReset {i : Instr} (hi : isSupply i = false) {s t : State}
    (h : exec i s = .next t) (hheld : s.control.state = .held) (hs : s.blocksReset) :
    t.blocksReset := by
  have hserve := State.serve_of_held hheld
  cases i with
  | identify | status | reset | notify | canvas | loadCurve | loadPalette | define | destroy
  | setAttr | query | openStream | closeStream | read | fill =>
    cases h
    rw [hserve]
    exact hs
  | commit | cancel =>
    cases h
    rw [hserve, State.decideIfHeadChanged_self]
    exact hs
  | write | badKind =>
    cases h
    rw [State.nextRequest_of_held hheld]
    exact hs
  | writeHoldEnd =>
    cases h
    rw [hs.link]
    exact hs
  | internalTimerExpiry =>
    cases h
    rw [hs.timerDue]
    exact hs
  | fsyPulseEnd =>
    cases h
    rw [hs.fsyEndDue]
    exact hs
  | finEdge e =>
    cases h
    have hedge : ∀ p, (s.withPins p).isFinEdge e = false :=
      fun p => State.blocksReset.isFinEdge (s := s.withPins p) hs e
    dsimp only
    rw [hedge]
    exact hs
  | lossDeadline =>
    cases h
    rw [hs.lossDue]
    exact hs
  | lineSlotStart =>
    cases h
    rw [hs.dueLine]
    exact hs
  | copyStepComplete =>
    cases h
    rw [hs.copyDue]
    exact hs
  | fillStepComplete =>
    cases h
    rw [hs.fillDue]
    exact hs
  | rxByte c =>
    cases h
    rw [State.receives_of_held hheld]
    exact hs
  | timeoutDiscard =>
    cases h
    rw [State.timeoutDue_of_held hheld]
    exact hs
  | linkBreak =>
    cases h
    rw [State.takesBreak_of_held hheld]
    exact hs
  | linkBreakEnd =>
    cases h
    obtain ⟨hl, hrest⟩ := hs
    refine ⟨?_, hrest⟩
    rw [State.withPins_link, State.withLink_link, hl]
    rfl
  | transmitStart =>
    cases h
    rw [State.nextToSend_of_held hheld]
    exact hs
  | transmitEnd =>
    cases h
    rw [hs.sentFrame]
    exact hs
  | hello =>
    cases h
    rw [State.mayHello_of_held hheld]
    exact hs
  | pinReset | powerFail | rstnRelease | powerGood => cases hi

/-! ### The law kept -/

theorem State.resetBlocks_blocksReset (s : State) : s.resetBlocks.blocksReset := by
  have hpool : s.resetBlocks.pool = ⟨freeListReset, [], s.pool.pixels⟩ := rfl
  unfold State.blocksReset
  rw [hpool]
  dsimp only
  exact ⟨rfl, rfl, rfl, rfl, rfl, rfl, rfl, rfl, rfl, rfl⟩

theorem HeldLaw.enterHeld {s : State} {p : Pins}
    (hp : ¬ (p.rstnHigh = true ∧ p.powerGood = true)) : HeldLaw (s.enterHeld.withPins p) :=
  ⟨iff_of_true rfl hp, fun _ => s.resetBlocks_blocksReset⟩

/-- A pin that comes true ends HELD when the other condition holds too. -/
theorem HeldLaw.leaveHeld {s u : State} (hs : HeldLaw s) (hc : u.control.state = s.control.state)
    (hb : s.blocksReset → u.blocksReset)
    (hone : s.control.state ≠ .held → u.pins.rstnHigh = true ∧ u.pins.powerGood = true) :
    HeldLaw u.leaveHeld := by
  unfold State.leaveHeld
  split
  · rename_i h
    exact ⟨iff_of_false (by simp [State.enterStarting]) (fun hn => hn h.2),
      fun e => by simp [State.enterStarting] at e⟩
  · rename_i hn
    by_cases hheld : s.control.state = .held
    · have hu : u.control.state = .held := hc.trans hheld
      exact ⟨iff_of_true hu fun hp => hn ⟨hu, hp⟩, fun _ => hb (hs.2 hheld)⟩
    · have hu : u.control.state ≠ .held := by rw [hc]; exact hheld
      exact ⟨iff_of_false hu fun hp => hp (hone hheld), fun e => absurd e hu⟩

theorem HeldLaw.pins {s : State} (hs : HeldLaw s) (h : s.control.state ≠ .held) :
    s.pins.rstnHigh = true ∧ s.pins.powerGood = true := by
  by_contra hp
  exact h (hs.1.2 hp)

theorem HeldLaw.exec {i : Instr} {s t : State} (hs : HeldLaw s) (h : exec i s = .next t) :
    HeldLaw t := by
  by_cases hi : isSupply i = false
  · obtain ⟨-, hheld, hr, hp⟩ := exec_within hi h
    obtain ⟨h1, h2⟩ := hs
    refine ⟨by rw [hheld, hr, hp]; exact h1, fun ht => ?_⟩
    have hs' := hheld.1 ht
    exact exec_blocksReset hi h hs' (h2 hs')
  · cases i with
    | pinReset => cases h; exact HeldLaw.enterHeld (by simp)
    | powerFail => cases h; exact HeldLaw.enterHeld (by simp)
    | rstnRelease =>
      cases h
      exact hs.leaveHeld rfl id fun hn => ⟨rfl, (hs.pins hn).2⟩
    | powerGood =>
      cases h
      split
      · exact hs
      · exact hs.leaveHeld rfl id fun hn => ⟨(hs.pins hn).1, rfl⟩
    | _ => exact absurd rfl hi

/-- Settles O58: RSTN and power alone end HELD and bring it about, and in HELD no other command finds
anything to do. -/
theorem stepsKeepAHeldPartReset : Obligations.StepsKeepAHeldPartReset := by
  intro s t hs h
  obtain ⟨i, q, h⟩ | rfl := step_cases h
  · exact HeldLaw.exec (s := { s with pending := q }) hs h
  · exact hs

end Sys2Proof.Machine
end

section
/-! PROOFS. Chapter 11 and the transmitter: resets, starting, HELLO, TRANSMIT_START and TRANSMIT_END,
BREAK, RESET and NOTIFY, and the laws at the reset state. -/

namespace Sys2Proof.Machine

/-! ### Steps and resets -/

/-- Settles O1: the queue's front decides. -/
theorem stepRunsFrontCommand : Obligations.StepRunsFrontCommand := by
  intro c rest s h
  unfold step
  rw [h]

theorem State.reset_eq : State.reset.resetBlocks = State.reset := rfl

/-- The ramp that every channel of the curve is after a reset fits its 12 bits (R102). -/
theorem curveDefault_toNat {c i : Nat} (hi : i < 256) :
    (curveDefault (256 * c + i)).toNat = (i * 4095 + 127) / 255 := by
  have hmod : (256 * c + i) % 256 = i := by omega
  rw [curveDefault, hmod, BitVec.toNat_ofNat]
  exact Nat.mod_eq_of_lt (by omega)

/-- Settles O2: the blocks of the reset state, read one after another. -/
theorem resetValuesByBlock : Obligations.ResetValuesByBlock := by
  refine ⟨rfl, fun id hid => ?_, ?_, fun _ => rfl, fun i _ => ?_, ⟨rfl, rfl, rfl⟩, ⟨rfl, rfl⟩,
    fun _ _ _ _ => rfl, fun c _ i hi => ?_, rfl, rfl, ⟨rfl, rfl, rfl, rfl, rfl⟩,
    ⟨rfl, rfl, rfl, rfl, rfl, rfl, rfl, rfl⟩,
    ⟨rfl, rfl, rfl, rfl, rfl, rfl, rfl, rfl, rfl, rfl⟩, rfl⟩
  · rw [← State.reset_eq, State.surf_resetBlocks]
  · rw [State.reset, freeListReset]
  · rw [← State.reset_eq, State.slotAt_resetBlocks]
  · exact curveDefault_toNat hi

/-- Settles O50: the reset state is one whose blocks have been reset. -/
theorem resetMeetsTheLaws : Obligations.ResetMeetsTheLaws := by
  have e := State.reset_eq
  have hstore : StoreLaw State.reset.resetBlocks := by
    refine StoreLaw.reset ⟨?_, .nil _, .nil _, .nil _, .nil _⟩
    exact ⟨List.Pairwise.nil, fun e he => by cases he⟩
  rw [Obligations.ResetMeetsTheLaws, ← e]
  refine ⟨linkReset_bounded, queueLaw_resetBlocks _, tileLaw_resetBlocks _, staleLaw_resetBlocks _,
    streamLaw_resetBlocks _, freezeLaw_resetBlocks _, fun _ => rfl, hstore, ?_⟩
  exact HeldLaw.enterHeld (s := State.reset) (p := pinsReset) (by decide)

theorem State.resetBlocks_eq (s : State) : s.resetBlocks =
    { now := s.now, pending := s.pending, pins := s.pins, control := s.control
      link := linkReset, surfaces := Vector.replicate 32 surfaceFree
      pool := ⟨List.finRange 4096, [], s.pool.pixels⟩, streams := Vector.replicate 8 none
      engine := engineReset, commits := commitsReset, colours := coloursReset
      timing := timingReset, scan := scanReset } := by
  rw [State.resetBlocks, freeListReset]

/-- Settles O3: both commands reset every block and leave the part HELD. -/
theorem pinResetAndPowerFailHoldThePart : Obligations.PinResetAndPowerFailHoldThePart := by
  intro s
  have hreset : ∀ p, s.enterHeld.withPins p = { s.resetBlocks with
      pins := p, control := { s.control with state := .held, softStart := false } } := fun _ => rfl
  refine ⟨?_, ?_⟩
  · rw [show exec .pinReset s = .next (s.enterHeld.withPins { s.pins with rstnHigh := false })
      from rfl, hreset, State.resetBlocks_eq]
  · rw [show exec .powerFail s = .next (s.enterHeld.withPins { s.pins with powerGood := false })
      from rfl, hreset, State.resetBlocks_eq]

/-- R166: the pin that makes both conditions true ends HELD. -/
theorem State.leaveHeld_of_both {s : State} (hc : s.control.state = .held)
    (hr : s.pins.rstnHigh = true) (hp : s.pins.powerGood = true) :
    s.leaveHeld = s.enterStarting false := if_pos ⟨hc, hr, hp⟩

theorem State.leaveHeld_of_one {s : State}
    (h : s.pins.rstnHigh = false ∨ s.pins.powerGood = false) : s.leaveHeld = s := by
  refine if_neg ?_
  rintro ⟨-, h1, h2⟩
  rcases h with h | h
  · rw [h] at h1; cases h1
  · rw [h] at h2; cases h2

theorem exec_rstnRelease (s : State) :
    exec .rstnRelease s = .next (s.withPins { s.pins with rstnHigh := true }).leaveHeld := rfl

theorem exec_powerGood {s : State} (h : s.pins.powerGood = false) : exec .powerGood s =
    .next ((s.withPins { s.pins with powerGood := true }).withControl
      { s.control with freshPower := true }).leaveHeld := by
  change Host.Outcome.next (if s.pins.powerGood then s else _) = _
  rw [h]
  rfl

/-- Settles O4: the second of the two conditions ends HELD, the first changes its pin. -/
theorem releaseAndPowerStartThePart : Obligations.ReleaseAndPowerStartThePart := by
  intro s hc
  refine ⟨fun hp => ?_, fun hp => ⟨?_, fun hr => ?_, fun hr => ?_⟩⟩
  · rw [exec_rstnRelease, State.leaveHeld_of_both (by exact hc) rfl (by exact hp)]
    rfl
  · rw [exec_rstnRelease, State.leaveHeld_of_one (.inr (by exact hp))]
    rfl
  · rw [exec_powerGood hp, State.leaveHeld_of_both (by exact hc) (by exact hr) rfl]
    rfl
  · rw [exec_powerGood hp, State.leaveHeld_of_one (.inl (by exact hr))]
    rfl

/-- Settles O5: HELLO may be offered, and the empty queue has room for it. -/
theorem helloIsOfferedInStarting : Obligations.HelloIsOfferedInStarting := by
  intro s hc ho hl hnow
  have hmay : s.mayHello = true := by
    simp only [State.mayHello, hc, ho, beq_self_eq_true, List.isEmpty_nil, Bool.true_and]
    exact decide_eq_true hnow
  have hn : s.link.notices < 24 := by simp [Link.notices, ho]
  have hreason : s.control.helloReason.code =
      if s.control.softStart then 2 else if s.control.freshPower then 0 else 1 := by
    unfold Control.helloReason
    cases s.control.softStart <;> cases s.control.freshPower <;> rfl
  change Host.Outcome.next (if s.mayHello then s.offer (noticeHello s.control.helloReason) else s) = _
  rw [hmay, if_pos rfl, State.offer, Link.offer_of_room _ hl hn, ← hreason, ho]
  rfl

/-! ### Transmission -/

theorem State.nextToSend_of_idle {s : State} {f : OutFrame} {rest : List OutFrame}
    (hs : s.link.sending = none) (hp : s.link.paused = false) (ho : s.link.outbound = f :: rest)
    (hc : s.control.state ≠ .held) : s.nextToSend = some f := by
  unfold State.nextToSend
  rw [hs, hp, ho]
  cases h : s.control.state <;> simp_all

theorem exec_transmitStart {s : State} {f : OutFrame} (h : s.nextToSend = some f) :
    exec .transmitStart s = .next (s.startSend f) := by
  change Host.Outcome.next (match s.nextToSend with | none => s | some f => s.startSend f) = _
  rw [h]

/-- R148, R152: the head leaves the queue with the credits of the buffers still held. -/
theorem Link.begin_eq {l : Link} {f : OutFrame} {rest : List OutFrame}
    (ho : l.outbound = f :: rest) (now : Time) : l.begin f now = { l with
      outbound := rest
      sending := some ⟨f, f.wire (BitVec.ofNat 8 (8 - (l.inbound.length +
        (if l.executing.isSome then 1 else 0) + rest.countP (fun g => !g.isNotice)))), now⟩ } := by
  simp only [Link.begin, ho, List.tail_cons, Link.credits, Link.held, Link.replies]

/-- Settles O6: the head is sent with the credits of that moment; HELLO in STARTING makes the part
RUNNING. -/
theorem transmissionStartsAtTheHead : Obligations.TransmissionStartsAtTheHead := by
  intro s f rest hs hp ho
  refine ⟨fun hc => ?_, fun hc hf => ?_⟩
  · have hne : s.control.state ≠ .starting := by rcases hc with h | h <;> rw [h] <;> decide
    have hnh : s.control.state ≠ .held := by rcases hc with h | h <;> rw [h] <;> decide
    have hcontrol : s.control.onSend f s.now =
        { s.control with freshPower := if f.isHello then false else s.control.freshPower } := by
      unfold Control.onSend
      rw [if_neg hne]
      split <;> rfl
    rw [exec_transmitStart (State.nextToSend_of_idle hs hp ho hnh), State.startSend,
      if_neg (fun h => hne h.1), hcontrol, Link.begin_eq ho]
    rfl
  · have hcontrol : s.control.onSend f s.now =
        { s.control with state := .running, runningSince := s.now, freshPower := false } := by
      unfold Control.onSend
      rw [if_pos hf, if_pos hc]
    rw [exec_transmitStart (State.nextToSend_of_idle hs hp ho (by rw [hc]; decide)),
      State.startSend, if_pos ⟨hc, hf⟩, hcontrol, Link.begin_eq ho]
    rfl

/-- The ten bits of a byte on the line: start, data, stop (R139, R152). -/
theorem characterOf_bit (b : Byte) {k : Nat} (hk : k < 10) :
    (characterOf b).getLsbD k = if k = 0 then false else if k = 9 then true else b.getLsbD (k - 1) := by
  unfold characterOf
  interval_cases k <;> simp

/-- A bit of the transmission: the byte it belongs to, and its place there. -/
theorem bits_getElem? (bytes : List Byte) {n k : Nat} {b : Byte} (hb : bytes[n]? = some b)
    (hk : k < 10) :
    (bytes.flatMap fun b => (List.range 10).map (characterOf b).getLsbD)[10 * n + k]? =
      some ((characterOf b).getLsbD k) := by
  induction bytes generalizing n with
  | nil => simp at hb
  | cons c bytes ih =>
    rw [List.flatMap_cons]
    cases n with
    | zero =>
      obtain rfl : c = b := by simpa using hb
      rw [List.getElem?_append_left (by simp; omega)]
      simp [hk]
    | succ n =>
      rw [List.getElem?_append_right (by simp; omega)]
      have e : 10 * (n + 1) + k - ((List.range 10).map (characterOf c).getLsbD).length =
          10 * n + k := by simp; omega
      rw [e]
      exact ih (by simpa using hb)

theorem LinkRate.mbit_pos (r : LinkRate) : 0 < r.mbit := by cases r <;> decide

/-- HTX in the bit-time `i` of a transmission. -/
theorem State.htxHigh_of_bit {s : State} {x : Sending} {i : Nat} {v : Bool}
    (hx : s.link.sending = some x) (hbit : x.bits[i]? = some v)
    (h1 : 24 * i + s.control.rate.mbit * x.since ≤ s.control.rate.mbit * s.now)
    (h2 : s.control.rate.mbit * s.now < 24 * (i + 1) + s.control.rate.mbit * x.since) :
    s.htxHigh = v := by
  have hi : (s.now - x.since) * s.control.rate.mbit / 24 = i := by
    have e : (s.now - x.since) * s.control.rate.mbit =
        s.control.rate.mbit * s.now - s.control.rate.mbit * x.since := by
      rw [Nat.mul_comm, Nat.mul_sub]
    rw [e]
    generalize s.control.rate.mbit * s.now = a at *
    generalize s.control.rate.mbit * x.since = c at *
    exact (Nat.div_eq_iff (by decide)).2 ⟨by omega, by omega⟩
  unfold State.htxHigh
  rw [hx]
  dsimp only
  rw [hi, List.getD_eq_getElem?_getD, hbit]
  rfl

theorem exec_transmitEnd {s : State} {x : Sending} (hx : s.link.sending = some x)
    (h : 240 * x.bytes.length + s.control.rate.mbit * x.since ≤ s.control.rate.mbit * s.now) :
    exec .transmitEnd s = .next (s.endSend x.frame) := by
  have hsent : s.sentFrame = some x.frame := by
    unfold State.sentFrame
    rw [hx]
    exact if_pos (decide_eq_true h)
  change Host.Outcome.next (match s.sentFrame with | none => s | some f => s.endSend f) = _
  rw [hsent]

/-- R170: all that a soft reset changes. -/
theorem State.softReset_eq (s : State) : s.softReset =
    { now := s.now, pending := s.pending, pins := s.pins
      control := { s.control with
        state := .starting, startingSince := s.now, softStart := true
        rate := strapRate s.pins }
      link := { linkReset with paused := s.link.paused }
      surfaces := Vector.replicate 32 surfaceFree
      pool := ⟨List.finRange 4096, [], s.pool.pixels⟩, streams := Vector.replicate 8 none
      engine := engineReset, commits := commitsReset, colours := coloursReset
      timing := timingReset, scan := scanReset } := by
  rw [State.softReset, State.resetBlocks_eq]
  rfl

/-- Settles O7: the bit that the rate has reached, and the end of the last byte. -/
theorem transmissionEndsAndSoftResets : Obligations.TransmissionEndsAndSoftResets := by
  refine ⟨fun s => ⟨fun h => ?_, fun x n k b hx hb hk h1 h2 => ?_⟩, fun s x hx h => ⟨fun hn => ?_,
    fun hc hf => ?_⟩⟩
  · rw [State.htxHigh, h]
  · rw [← characterOf_bit b hk]
    exact State.htxHigh_of_bit hx (bits_getElem? x.bytes hb hk) h1 h2
  · rw [exec_transmitEnd hx h, State.endSend, if_neg hn]
    rfl
  · rw [exec_transmitEnd hx h, State.endSend, if_pos ⟨hc, hf⟩, State.softReset_eq]
    rfl

/-! ### BREAK -/

theorem State.takesBreak_of_due {s : State} (hb : s.pins.breakTaken = false)
    (hnow : s.control.runningSince + 24 * 200 ≤ s.now)
    (hc : s.control.state = .running ∨ s.control.state = .resetPending) : s.takesBreak = true := by
  simp only [State.takesBreak, Bool.and_eq_true, Bool.or_eq_true, beq_iff_eq, Bool.not_eq_true']
  exact ⟨⟨hc, hb⟩, decide_eq_true hnow⟩

theorem exec_linkBreak {s : State} (h : s.takesBreak = true) :
    exec .linkBreak s = .next s.doBreak := by
  change Host.Outcome.next (if s.takesBreak then s.doBreak else s) = _
  rw [if_pos h]

theorem Link.breakOff_paused (l : Link) : l.breakOff.paused = true := Link.offer_paused _ _

/-- Settles O12: the link is cleared around the frame under execution; in RESET-PENDING the soft reset
follows. -/
theorem breakClearsTheLink : Obligations.BreakClearsTheLink := by
  intro s
  refine ⟨fun hb hnow => ⟨fun hc => ?_, fun hc => ?_⟩, rfl⟩
  · rw [exec_linkBreak (State.takesBreak_of_due hb hnow (.inl hc)), State.doBreak,
      if_neg (by rw [hc]; decide)]
    rfl
  · rw [exec_linkBreak (State.takesBreak_of_due hb hnow (.inr hc)), State.doBreak, if_pos hc,
      State.softReset_eq]
    simp only [State.withPins_link, State.withLink_link, Link.breakOff_paused]
    rfl

/-! ### RESET and NOTIFY -/

/-- Settles O17: RESET drops the partial frame and is answered. -/
theorem resetRequestIsPending : Obligations.ResetRequestIsPending := by
  intro s f ha
  change Host.Outcome.next (s.serve 0x03 handleReset) = _
  rw [State.serve_of_asks ha rfl]
  rfl

/-- Settles O18: NOTIFY reports the interval that it replaces. -/
theorem notifySetsTheInterval : Obligations.NotifySetsTheInterval := by
  intro s f k ha
  change Host.Outcome.next (s.serve 0x04 handleNotify) = _
  rw [State.serve_of_asks ha rfl]
  rfl

end Sys2Proof.Machine
end

section
/-! PROOFS. The receive framer (R140, R141): what each character comes to, a whole host frame, and the
arrival of a frame (R143 to R145). -/

namespace Sys2Proof.Machine

/-! ### Fields of a body that goes on -/

/-- A field inside the first part of a body. -/
theorem fieldAt_append_left {xs ys : List Byte} {off n : Nat} (h : off + n ≤ xs.length) :
    fieldAt (xs ++ ys) off n = fieldAt xs off n := by
  simp only [fieldAt]
  rw [List.drop_append_of_le_length (by omega), List.take_append_of_le_length (by simp; omega)]

/-- The LEN of a partial frame stands in its first two bytes. -/
theorem partialLength_append {xs ys : List Byte} (h : 2 ≤ xs.length) :
    partialLength (xs ++ ys) = partialLength xs := fieldAt_append_left (by simpa using h)

/-! ### One character -/

theorem exec_rxByte_of_off {s : State} {c : Character}
    (h : (s.receives && characterIsByte c) = false) : exec (.rxByte c) s = .next s := by
  change Host.Outcome.next (if s.receives && characterIsByte c then _ else s) = _
  rw [h]
  rfl

theorem State.receives_of_running {s : State} (hc : s.control.state = .running)
    (hp : s.pins.hrxLow = false) : s.receives = true := by
  simp [State.receives, hc, hp]

theorem exec_rxByte {s : State} (h : s.receives = true) (b : Byte) :
    exec (.rxByte (characterOf b)) s = .next (s.withLink (s.link.takeByte b s.now)) := by
  change Host.Outcome.next (if s.receives && characterIsByte (characterOf b) then
    s.withLink (s.link.takeByte (characterByte (characterOf b)) s.now) else s) = _
  rw [h, characterIsByte_characterOf, characterByte_characterOf]
  rfl

section
variable {l : Link} (b : Byte) (now : Time)

theorem Link.takeByte_sync (h : l.framer.state = .hunt) :
    l.takeByte hostSync now = l.partialTo .length [] now := by
  unfold Link.takeByte
  rw [h]
  rfl

theorem Link.takeByte_hunt (h : l.framer.state = .hunt) (hb : b ≠ hostSync) :
    l.takeByte b now = l := by
  unfold Link.takeByte
  rw [h]
  exact if_neg hb

theorem Link.takeByte_length_first (h : l.framer.state = .length) (hl : l.framer.bytes.length = 0) :
    l.takeByte b now = l.partialTo .length (l.framer.bytes ++ [b]) now := by
  unfold Link.takeByte
  rw [h]
  exact if_pos (by simp [hl])

theorem Link.takeByte_length_last (h : l.framer.state = .length) (hl : l.framer.bytes.length = 1) :
    l.takeByte b now = if 1024 < partialLength (l.framer.bytes ++ [b])
      then l.dropPartial.discard .length none
      else l.partialTo .header (l.framer.bytes ++ [b]) now := by
  unfold Link.takeByte
  rw [h]
  exact if_neg (by simp [hl])

theorem Link.takeByte_header_first (h : l.framer.state = .header)
    (hl : l.framer.bytes.length = 2) :
    l.takeByte b now = l.partialTo .header (l.framer.bytes ++ [b]) now := by
  unfold Link.takeByte
  rw [h]
  exact if_pos (by simp [hl])

theorem Link.takeByte_header_last (h : l.framer.state = .header)
    (hl : l.framer.bytes.length = 3) :
    l.takeByte b now = l.partialTo (if partialLength l.framer.bytes = 0 then .check else .body)
      (l.framer.bytes ++ [b]) now := by
  unfold Link.takeByte
  rw [h, ← partialLength_append (ys := [b]) (by omega : 2 ≤ l.framer.bytes.length)]
  exact if_neg (by simp [hl])

theorem Link.takeByte_body (h : l.framer.state = .body) (hl : 4 ≤ l.framer.bytes.length) :
    l.takeByte b now = l.partialTo
      (if l.framer.bytes.length + 1 < 4 + partialLength l.framer.bytes then .body else .check)
      (l.framer.bytes ++ [b]) now := by
  unfold Link.takeByte
  rw [h, ← partialLength_append (ys := [b]) (by omega : 2 ≤ l.framer.bytes.length)]
  simp

theorem Link.takeByte_check_first (h : l.framer.state = .check)
    (hl : l.framer.bytes.length = 4 + partialLength l.framer.bytes) :
    l.takeByte b now = l.partialTo .check (l.framer.bytes ++ [b]) now := by
  unfold Link.takeByte
  rw [h]
  refine if_pos ?_
  rw [partialLength_append (by omega), List.length_append, List.length_singleton]
  omega

theorem Link.takeByte_check_last (h : l.framer.state = .check)
    (hl : l.framer.bytes.length = 5 + partialLength l.framer.bytes) :
    l.takeByte b now = if partialCrcOk (l.framer.bytes ++ [b])
      then l.dropPartial.arrive (partialRequest (l.framer.bytes ++ [b]))
      else l.dropPartial.discard .crc (partialSeq (l.framer.bytes ++ [b])) := by
  unfold Link.takeByte
  rw [h]
  refine if_neg ?_
  rw [partialLength_append (by omega), List.length_append, List.length_singleton]
  omega
end

/-- Settles O11: the framer's stages, each with its last byte. -/
theorem charactersReachTheFramer : Obligations.CharactersReachTheFramer := by
  intro s c b
  refine ⟨fun h => exec_rxByte_of_off ?_, fun hc hp => ?_⟩
  · rcases h with h | h | h
    · simp only [characterIsByte, h, Bool.and_false]
    · simp [State.receives, h]
    · simp [State.receives, h]
  have hr := State.receives_of_running hc hp
  refine ⟨fun h hb => ?_, fun h => ?_, fun h hl => ?_, fun h hl hlen => ?_, fun h hl => ?_,
    fun h hl => ?_, fun h hl hlt => ?_, fun h hl => ?_⟩
  · rw [exec_rxByte hr, Link.takeByte_hunt _ _ h hb]
    rfl
  · rw [exec_rxByte hr]
    exact congrArg (fun l => Host.Outcome.next (s.withLink l)) (Link.takeByte_sync _ h)
  · rw [exec_rxByte hr, Link.takeByte_length_first _ _ h hl]
    rfl
  · rw [exec_rxByte hr, Link.takeByte_length_last _ _ h hl, if_neg (show ¬ 1024 < partialLength _ from Nat.not_lt.2 hlen)]
    rfl
  · rw [exec_rxByte hr, Link.takeByte_header_first _ _ h hl]
    rfl
  · rw [exec_rxByte hr, Link.takeByte_header_last _ _ h hl]
    rfl
  · have hstage : (if s.link.framer.bytes.length + 1 < 4 + partialLength s.link.framer.bytes
        then FramerState.body else .check) =
        if s.link.framer.bytes.length + 1 = 4 + fieldAt s.link.framer.bytes 0 2
        then .check else .body := by
      unfold partialLength
      by_cases e : s.link.framer.bytes.length + 1 = 4 + fieldAt s.link.framer.bytes 0 2
      · rw [if_pos e, if_neg (by omega)]
      · rw [if_neg e, if_pos (by omega)]
    rw [exec_rxByte hr, Link.takeByte_body _ _ h hl, hstage]
    rfl
  · rw [exec_rxByte hr, Link.takeByte_check_first _ _ h hl]
    rfl

/-! ### A whole frame -/

/-- Bytes taken one after another at one moment. -/
def Link.takeBytes (l : Link) (bs : List Byte) (now : Time) : Link :=
  bs.foldl (fun l b => l.takeByte b now) l

theorem Link.takeBytes_append (l : Link) (bs cs : List Byte) (now : Time) :
    l.takeBytes (bs ++ cs) now = (l.takeBytes bs now).takeBytes cs now := List.foldl_append

theorem receive_eq {s : State} (h : s.receives = true) (bs : List Byte) :
    receive bs s = .next (s.withLink (s.link.takeBytes bs s.now)) := by
  induction bs generalizing s with
  | nil => rfl
  | cons b bs ih =>
    rw [receive, exec_rxByte h]
    exact ih (s := s.withLink (s.link.takeByte b s.now)) h

/-- The body of a frame, taken to its end. -/
theorem Link.takeBytes_body {l : Link} {now : Time} (body : List Byte) (hne : body ≠ [])
    {bs : List Byte} (h4 : 4 ≤ bs.length)
    (hlen : bs.length + body.length = 4 + partialLength bs) :
    (l.partialTo .body bs now).takeBytes body now = l.partialTo .check (bs ++ body) now := by
  induction body generalizing bs with
  | nil => exact absurd rfl hne
  | cons b body ih =>
    rw [List.length_cons] at hlen
    have hstep := Link.takeByte_body (l := l.partialTo .body bs now) b now rfl h4
    change ((l.partialTo .body bs now).takeByte b now).takeBytes body now = _
    rw [hstep]
    change (l.partialTo (if bs.length + 1 < 4 + partialLength bs then .body else .check)
      (bs ++ [b]) now).takeBytes body now = _
    cases body with
    | nil =>
      rw [if_neg (by rw [List.length_nil] at hlen; omega)]
      rfl
    | cons c body =>
      rw [if_pos (by rw [List.length_cons] at hlen; omega), ih (by simp) (by simp; omega)]
      · rw [List.append_assoc, List.singleton_append]
      · rw [partialLength_append (by omega), List.length_append, List.length_singleton]
        omega

/-- The bytes that the CRC of a host frame covers. -/
def coveredBytes (seq kind : Byte) (body : List Byte) : List Byte :=
  bytesOf 2 body.length ++ [seq, kind] ++ body

section
variable {seq kind : Byte} {body : List Byte} (hb : body.length ≤ 1024)
include hb

theorem partialLength_bytesOf (ys : List Byte) :
    partialLength (bytesOf 2 body.length ++ ys) = body.length := by
  rw [partialLength, fieldAt_bytesOf]
  exact Nat.mod_eq_of_lt (by omega)

/-- The frame up to its CRC. -/
theorem Link.takeBytes_covered {l : Link} (now : Time) (h : l.framer.state = .hunt) :
    l.takeBytes (hostSync :: coveredBytes seq kind body) now =
      l.partialTo .check (coveredBytes seq kind body) now := by
  obtain ⟨lo, hi, hlen⟩ : ∃ lo hi, bytesOf 2 body.length = [lo, hi] := ⟨_, _, rfl⟩
  have hpart := partialLength_bytesOf hb
  rw [hlen] at hpart
  have hsync : l.takeBytes [hostSync] now = l.partialTo .length [] now :=
    Link.takeByte_sync now h
  have hlo : (l.partialTo .length [] now).takeBytes [lo] now = l.partialTo .length [lo] now :=
    Link.takeByte_length_first (l := l.partialTo .length [] now) lo now rfl rfl
  have hhi : (l.partialTo .length [lo] now).takeBytes [hi] now = l.partialTo .header [lo, hi] now := by
    refine (Link.takeByte_length_last (l := l.partialTo .length [lo] now) hi now rfl rfl).trans (if_neg ?_)
    exact Nat.not_lt.2 ((hpart []).le.trans hb)
  have hseq : (l.partialTo .header [lo, hi] now).takeBytes [seq] now =
      l.partialTo .header [lo, hi, seq] now := 
    Link.takeByte_header_first (l := l.partialTo .header [lo, hi] now) seq now rfl rfl
  have hkind : (l.partialTo .header [lo, hi, seq] now).takeBytes [kind] now =
      l.partialTo (if body.length = 0 then .check else .body) [lo, hi, seq, kind] now := by
    rw [← hpart [seq]]
    exact Link.takeByte_header_last (l := l.partialTo .header [lo, hi, seq] now) kind now rfl rfl
  have hhead : l.takeBytes (hostSync :: [lo, hi, seq, kind]) now =
      l.partialTo (if body.length = 0 then .check else .body) [lo, hi, seq, kind] now := by
    rw [← hkind, ← hseq, ← hhi, ← hlo, ← hsync]
    rfl
  have hsplit : hostSync :: coveredBytes seq kind body =
      (hostSync :: [lo, hi, seq, kind]) ++ body := by
    rw [coveredBytes, hlen]
    rfl
  have hcov : coveredBytes seq kind body = [lo, hi, seq, kind] ++ body := by
    rw [coveredBytes, hlen]
    rfl
  rw [hsplit, Link.takeBytes_append, hhead, hcov]
  by_cases hnil : body = []
  · rw [hnil]
    rfl
  · rw [if_neg (by simpa using hnil)]
    refine Link.takeBytes_body body hnil (by simp) ?_
    rw [show [lo, hi, seq, kind] = [lo, hi] ++ [seq, kind] from rfl, hpart]
    simp

omit hb in
theorem length_coveredBytes : (coveredBytes seq kind body).length = 4 + body.length := by
  simp [coveredBytes]; omega

theorem partialLength_coveredBytes (ys : List Byte) :
    partialLength (coveredBytes seq kind body ++ ys) = body.length := by
  rw [coveredBytes, List.append_assoc, List.append_assoc]
  exact partialLength_bytesOf hb _

/-- The complete partial frame is the host's frame. -/
theorem partialRequest_coveredBytes : partialRequest (coveredBytes seq kind body ++
    bytesOf 2 (crcOf (coveredBytes seq kind body)).toNat) = frameOf seq kind body := by
  have hcrc : fieldAt (coveredBytes seq kind body ++
      bytesOf 2 (crcOf (coveredBytes seq kind body)).toNat) (4 + body.length) 2 =
      (crcOf (coveredBytes seq kind body)).toNat := by
    rw [fieldAt_append (by rw [length_coveredBytes]), length_coveredBytes, Nat.sub_self,
      fieldAt_bytesOf_nil]
    exact Nat.mod_eq_of_lt (BitVec.isLt _)
  have hbody : ((coveredBytes seq kind body ++
      bytesOf 2 (crcOf (coveredBytes seq kind body)).toNat).drop 4).take body.length = body := by
    rw [show coveredBytes seq kind body ++ bytesOf 2 (crcOf (coveredBytes seq kind body)).toNat =
      (bytesOf 2 body.length ++ [seq, kind]) ++ (body ++
        bytesOf 2 (crcOf (coveredBytes seq kind body)).toNat) by simp [coveredBytes]]
    rw [List.drop_left' (by simp), List.take_left' rfl]
  unfold partialRequest
  dsimp only
  rw [partialLength_coveredBytes hb, hcrc, hbody, BitVec.ofNat_toNat, BitVec.setWidth_eq]
  rfl

theorem partialCrcOk_coveredBytes : partialCrcOk (coveredBytes seq kind body ++
    bytesOf 2 (crcOf (coveredBytes seq kind body)).toNat) = true := by
  unfold partialCrcOk
  rw [partialRequest_coveredBytes hb, partialLength_coveredBytes hb,
    List.take_left' (length_coveredBytes), beq_iff_eq]
  rfl

/-- R140, R143: a whole host frame arrives. -/
theorem receive_hostFrame {s : State} (hr : s.receives = true) (h : s.link.framer.state = .hunt) :
    receive (hostFrameBytes seq kind body) s = .next (s.withLink (Link.arrive
      { s.link with framer := ⟨.hunt, [], s.now⟩ } (frameOf seq kind body))) := by
  have hframe : hostFrameBytes seq kind body = (hostSync :: coveredBytes seq kind body) ++
      bytesOf 2 (crcOf (coveredBytes seq kind body)).toNat := rfl
  have hcrc := partialCrcOk_coveredBytes (seq := seq) (kind := kind) hb
  have hreq := partialRequest_coveredBytes (seq := seq) (kind := kind) hb
  have hlen := length_coveredBytes (seq := seq) (kind := kind) (body := body)
  have hpart := partialLength_coveredBytes (seq := seq) (kind := kind) hb
  rw [receive_eq hr, hframe, Link.takeBytes_append, Link.takeBytes_covered hb s.now h]
  generalize coveredBytes seq kind body = cov at *
  obtain ⟨c0, c1, hc⟩ : ∃ c0 c1, bytesOf 2 (crcOf cov).toNat = [c0, c1] := ⟨_, _, rfl⟩
  rw [hc] at hcrc hreq ⊢
  have hfirst : (s.link.partialTo .check cov s.now).takeBytes [c0] s.now =
      s.link.partialTo .check (cov ++ [c0]) s.now := by
    refine Link.takeByte_check_first (l := s.link.partialTo .check cov s.now) c0 s.now rfl ?_
    have := hpart []
    rw [List.append_nil] at this
    exact hlen.trans (by rw [← this]; rfl)
  have hlast : (s.link.partialTo .check (cov ++ [c0]) s.now).takeBytes [c1] s.now =
      (s.link.partialTo .check (cov ++ [c0]) s.now).dropPartial.arrive (frameOf seq kind body) := by
    refine (Link.takeByte_check_last (l := s.link.partialTo .check (cov ++ [c0]) s.now) c1 s.now rfl ?_).trans ?_
    · change (cov ++ [c0]).length = 5 + partialLength (cov ++ [c0])
      rw [hpart, List.length_append, hlen, List.length_singleton]
      omega
    · change (if partialCrcOk (cov ++ [c0] ++ [c1]) then
        Link.arrive _ (partialRequest (cov ++ [c0] ++ [c1])) else _) = _
      rw [List.append_assoc, List.singleton_append, hcrc, hreq, if_pos rfl]
  rw [show ([c0, c1] : List Byte) = [c0] ++ [c1] from rfl, Link.takeBytes_append, hfirst, hlast]
  rfl
end

/-! ### Arrival -/

section
variable {l : Link} {f : Request}

theorem Link.arrive_inHand (h : l.inHand f = true) : l.arrive f = l.countDuplicate := if_pos h

theorem Link.arrive_recall {e : HistoryEntry} (h : l.inHand f = false) (hroom : l.held < 8)
    (hr : l.recall f = some e) :
    l.arrive f = { l.countDuplicate with outbound := l.outbound ++ [.reply f e.built true] } := by
  rw [Link.arrive, h, if_neg (by decide), if_pos hroom, hr]

theorem Link.arrive_new (h : l.inHand f = false) (hroom : l.held < 8) (hr : l.recall f = none) :
    l.arrive f = { l with inbound := l.inbound ++ [f] } := by
  rw [Link.arrive, h, if_neg (by decide), if_pos hroom, hr]

theorem Link.arrive_overrun (h : l.inHand f = false) (hroom : 8 ≤ l.held) :
    l.arrive f = l.discard .overrun (some f.seq) := by
  rw [Link.arrive, h, if_neg (by decide), if_neg (Nat.not_lt.2 hroom)]
end

/-- Settles O8: the whole frame arrives, and is new. -/
theorem hostFrameArrivesAsEncoded : Obligations.HostFrameArrivesAsEncoded := by
  intro s seq kind body hb hc hp hf _ hin hrec hroom
  rw [receive_hostFrame hb (State.receives_of_running hc hp) hf,
    Link.arrive_new (by exact hin) (by exact hroom) (by exact hrec)]
  rfl

/-! ### The history (R150) -/

theorem any_seq_eq_false {h : List HistoryEntry} {e : HistoryEntry} (hn : ∀ x ∈ h, x.seq ≠ e.seq) :
    h.any (·.seq == e.seq) = false := by
  rw [List.any_eq_false]
  exact fun x hx => by simpa using hn x hx

theorem enterHistory_same {older newer : List HistoryEntry} {d e : HistoryEntry}
    (hd : d.seq = e.seq) (hn : ∀ x ∈ older ++ newer, x.seq ≠ e.seq) :
    enterHistory (older ++ d :: newer) e = older ++ newer ++ [e] := by
  have hany : (older ++ d :: newer).any (·.seq == e.seq) = true := by simp [hd]
  have hkeep : ∀ xs : List HistoryEntry, (∀ x ∈ xs, x.seq ≠ e.seq) →
      xs.filter (·.seq != e.seq) = xs := fun xs h =>
    List.filter_eq_self.2 fun x hx => by simpa using h x hx
  rw [enterHistory, if_pos hany, List.filter_append, List.filter_cons_of_neg (by simp [hd]),
    hkeep older fun x hx => hn x (List.mem_append_left _ hx),
    hkeep newer fun x hx => hn x (List.mem_append_right _ hx)]

/-- Settles O9: the whole frame arrives, and is a copy or finds no buffer. -/
theorem duplicateAndOverrunArrivals : Obligations.DuplicateAndOverrunArrivals := by
  refine ⟨fun s seq kind body hb hc hp hf _ => ⟨fun hin => ?_, fun e he hin hroom => ?_,
    fun hin hfull => ?_⟩, fun h e => ⟨fun older newer d hh hd hn => ?_, fun hn => ⟨fun hl => ?_,
    fun hl => ?_⟩⟩⟩
  · rw [receive_hostFrame hb (State.receives_of_running hc hp) hf,
      Link.arrive_inHand (by exact hin)]
    rfl
  · rw [receive_hostFrame hb (State.receives_of_running hc hp) hf,
      Link.arrive_recall (e := e) (by exact hin) (by exact hroom) (by exact he)]
    rfl
  · rw [receive_hostFrame hb (State.receives_of_running hc hp) hf,
      Link.arrive_overrun (by exact hin) (by exact hfull)]
    rfl
  · rw [hh]
    exact enterHistory_same hd hn
  · rw [enterHistory, any_seq_eq_false hn, if_neg (by decide), if_pos hl]
  · rw [enterHistory, any_seq_eq_false hn, if_neg (by decide), if_neg (by omega), hl]
    simp

/-! ### Discards -/

theorem partialSeq_eq {bs : List Byte} (h : 2 < bs.length) :
    partialSeq bs = some (byteAt bs 2) := by
  simp [partialSeq, byteAt, h]

theorem noticeDiscard_partialSeq (r : DiscardReason) (bs : List Byte) :
    noticeDiscard r (partialSeq bs) =
      ⟨0x66, r.code :: [if 2 < bs.length then 1 else 0, byteAt bs 2]⟩ := by
  by_cases h : 2 < bs.length
  · rw [partialSeq_eq h, if_pos h]
    rfl
  · have hnone : bs[2]? = none := by simpa using h
    rw [partialSeq, hnone, if_neg h, byteAt, List.getD_eq_getElem?_getD, hnone]
    rfl

theorem exec_timeoutDiscard {s : State} (h : s.timeoutDue = true) : exec .timeoutDiscard s =
    .next (s.withLink (s.link.dropPartial.discard .timeout (partialSeq s.link.framer.bytes))) := by
  change Host.Outcome.next (if s.timeoutDue then _ else s) = _
  rw [if_pos h]

theorem saturate16_eq (n : Half) : saturate16 n = if n = 65535 then 65535 else n + 1 := by
  by_cases h : n = 65535
  · rw [if_pos h, h]; rfl
  · rw [if_neg h]; exact if_neg h

/-- Settles O10: the discard of each stage, and the three ways of an offered notice. -/
theorem framerDiscardsPartialFrames : Obligations.FramerDiscardsPartialFrames := by
  refine ⟨fun s hc => ⟨fun b hp hf hl hlen => ?_, fun b hp hf hl hcrc => ?_, fun hf hnow => ?_⟩,
    fun l n ns => ⟨fun h0 hq => ?_, fun h0 hq => ?_, fun hor => ?_, rfl, rfl⟩⟩
  · rw [exec_rxByte (State.receives_of_running hc hp), Link.takeByte_length_last _ _ hf hl,
      if_pos (show 1024 < partialLength _ from hlen)]
    rfl
  · have hbad : ¬ partialCrcOk (s.link.framer.bytes ++ [b]) = true := by
      have hpart : partialLength (s.link.framer.bytes ++ [b]) = fieldAt s.link.framer.bytes 0 2 :=
        partialLength_append (by omega)
      rw [partialCrcOk, partialRequest, hpart, beq_iff_eq,
        List.take_append_of_le_length (by omega)]
      exact hcrc
    rw [exec_rxByte (State.receives_of_running hc hp), Link.takeByte_check_last _ _ hf hl,
      if_neg hbad, Link.discard, noticeDiscard_partialSeq, if_pos (by simp; omega), byteAt,
      List.getD_append _ _ _ _ (by omega)]
    rfl
  · have hdue : s.timeoutDue = true := by
      simp only [State.timeoutDue, hc, beq_self_eq_true, Bool.true_and, Bool.and_eq_true,
        bne_iff_ne]
      exact ⟨hf, decide_eq_true hnow⟩
    rw [exec_timeoutDiscard hdue, Link.discard, noticeDiscard_partialSeq]
    rfl
  · exact Link.offer_of_room n h0 hq
  · rw [Link.offer, if_neg (fun h => h0 h.1), if_pos ⟨h0, hq⟩]
    simp [Link.enqueue, noticeLost, add_assoc]
  · rw [Link.offer, if_neg, if_neg, saturate16_eq]
    · rintro ⟨h1, h2⟩
      rcases hor with ⟨g1, -⟩ | ⟨-, g2⟩
      · exact h1 g1
      · exact absurd h2 (Nat.not_lt.2 g2)
    · rintro ⟨h1, h2⟩
      rcases hor with ⟨-, g2⟩ | ⟨g1, -⟩
      · exact absurd h2 (Nat.not_lt.2 g2)
      · exact g1 h1

end Sys2Proof.Machine
end

section
/-! PROOFS. Requests in general: the row of each KIND, frames that cannot be decoded (R160), refusals
(R161), the surface checks (R4), and STATUS (R169). -/

namespace Sys2Proof.Machine

/-! ### The rows of the requests -/

section
variable {s : State} {f : Request} {k : Byte} {body : List Byte} {i : Instr}
  {handle : List Byte → State → State × Answer}

/-- A request that its block answers without an effect. -/
theorem exec_answer (hi : exec i s = .next (s.serve k handle)) (ha : Asks s f k body)
    (hl : lengthOk k body = true) {st : Status} {b : List Byte}
    (hh : handle body s.takeRequest = (s.takeRequest, ⟨st, b⟩)) :
    exec i s = .next (s.answer f st b) := by
  rw [hi, State.serve_answer ha hl hh]

/-- A request with an effect. -/
theorem exec_effect_of_handle (hi : exec i s = .next (s.serve k handle)) (ha : Asks s f k body)
    (hl : lengthOk k body = true) {t : State} {a : Answer}
    (hh : handle body s.takeRequest = (t, a)) :
    exec i s = .next (t.queueReply f (replyTo f a)) := by
  rw [hi, State.serve_of_asks ha hl, hh]
end

/-! ### Refusals (R161) -/

/-- A block's outcome that changes nothing when it is a refusal. -/
def Clean (s : State) (r : State × Answer) : Prop :=
  r.2.status ≠ .ok → r.2.status ≠ .accepted → r.1 = s

theorem clean_refuse (s : State) (st : Status) (b : List Byte) : Clean s (refuse s st b) :=
  fun _ _ => rfl

theorem clean_of_ok {s : State} {r : State × Answer} (h : r.2.status = .ok) : Clean s r :=
  fun hn => absurd h hn

theorem clean_of_accepted {s : State} {r : State × Answer} (h : r.2.status = .accepted) :
    Clean s r := fun _ hn => absurd h hn

section
variable (body : List Byte) (s : State)

theorem handleStatus_clean : Clean s (handleStatus body s) := by
  unfold handleStatus
  split
  · exact clean_of_ok rfl
  · split
    · exact clean_of_ok rfl
    · exact clean_refuse _ _ _

theorem handleCanvas_clean : Clean s (handleCanvas body s) := by
  unfold handleCanvas
  dsimp only
  split
  · exact clean_refuse _ _ _
  · split
    · exact clean_refuse _ _ _
    · exact clean_of_ok rfl

theorem handleLoadCurve_clean : Clean s (handleLoadCurve body s) := by
  unfold handleLoadCurve
  dsimp only
  split
  · exact clean_refuse _ _ _
  · split
    · exact clean_refuse _ _ _
    · split
      · exact clean_refuse _ _ _
      · split
        · exact clean_refuse _ _ _
        · exact clean_of_ok rfl

theorem handleLoadPalette_clean : Clean s (handleLoadPalette body s) := by
  unfold handleLoadPalette
  dsimp only
  split
  · exact clean_refuse _ _ _
  · split
    · exact clean_refuse _ _ _
    · exact clean_of_ok rfl

theorem handleDefine_clean : Clean s (handleDefine body s) := by
  unfold handleDefine
  dsimp only
  split
  · exact clean_refuse _ _ _
  · split
    · exact clean_refuse _ _ _
    · split
      · exact clean_refuse _ _ _
      · split
        · exact clean_refuse _ _ _
        · exact clean_of_ok rfl

theorem handleDestroy_clean : Clean s (handleDestroy body s) := by
  unfold handleDestroy
  dsimp only
  split
  · exact clean_refuse _ _ _
  · split
    · exact clean_refuse _ _ _
    · split <;> exact clean_of_ok rfl

theorem handleSetAttr_clean : Clean s (handleSetAttr body s) := by
  unfold handleSetAttr
  dsimp only
  split
  · exact clean_refuse _ _ _
  · split
    · exact clean_refuse _ _ _
    · split
      · exact clean_refuse _ _ _
      · exact clean_of_ok rfl

theorem handleQuery_clean : Clean s (handleQuery body s) := by
  unfold handleQuery
  dsimp only
  split
  · exact clean_refuse _ _ _
  · exact clean_of_ok rfl

theorem handleOpen_clean : Clean s (handleOpen body s) := by
  unfold handleOpen
  dsimp only
  split
  · exact clean_refuse _ _ _
  · split
    · exact clean_refuse _ _ _
    · split
      · split
        · exact clean_refuse _ _ _
        · split
          · exact clean_refuse _ _ _
          · split
            · exact clean_refuse _ _ _
            · exact clean_of_ok rfl
      · exact clean_refuse _ _ _

theorem handleWrite_clean : Clean s (handleWrite body s) := by
  unfold handleWrite
  dsimp only
  split
  · exact clean_refuse _ _ _
  · split
    · exact clean_refuse _ _ _
    · split
      · exact clean_refuse _ _ _
      · split
        · exact clean_refuse _ _ _
        · exact clean_of_ok rfl

theorem handleClose_clean : Clean s (handleClose body s) := by
  unfold handleClose
  dsimp only
  split
  · exact clean_refuse _ _ _
  · split
    · exact clean_refuse _ _ _
    · exact clean_of_ok rfl

theorem handleRead_clean : Clean s (handleRead body s) := by
  unfold handleRead
  dsimp only
  split
  · exact clean_refuse _ _ _
  · split
    · exact clean_refuse _ _ _
    · split
      · exact clean_refuse _ _ _
      · split
        · exact clean_refuse _ _ _
        · exact clean_of_ok rfl

theorem handleFill_clean : Clean s (handleFill body s) := by
  unfold handleFill
  dsimp only
  split
  · exact clean_refuse _ _ _
  · split
    · exact clean_refuse _ _ _
    · split
      · exact clean_refuse _ _ _
      · split
        · exact clean_refuse _ _ _
        · exact clean_of_accepted rfl

theorem handleCommit_clean (seq : Byte) : Clean s (handleCommit seq body s) := by
  unfold handleCommit
  dsimp only
  split
  · exact clean_refuse _ _ _
  · split
    · exact clean_refuse _ _ _
    · split
      · exact clean_refuse _ _ _
      · exact clean_of_ok rfl

theorem handleCancel_clean : Clean s (handleCancel body s) := by
  unfold handleCancel
  dsimp only
  split
  · exact clean_of_ok rfl
  · split
    · exact clean_refuse _ _ _
    · exact clean_refuse _ _ _
end

/-- A block that answers every refusal without an effect. -/
def RefusesCleanly (handle : List Byte → State → State × Answer) : Prop :=
  ∀ body s, Clean s (handle body s)

/-- A row of the command table is a block served: a WRITE may be held instead, and behind a COMMIT or
CANCEL that has changed the queue's head a STOPPED part decides on it. -/
theorem exec_rowOfKind {s : State} {f : Request} (hk : isRequestKind f.kind = true)
    (hf : s.nextRequest = some f) :
    (∃ handle, RefusesCleanly handle ∧
      (exec (rowOfKind f.kind) s = .next (s.serve f.kind handle) ∨
        exec (rowOfKind f.kind) s = .next (s.decideIfHeadChanged (s.serve f.kind handle)))) ∨
    lengthOk f.kind f.body = true ∧ exec (rowOfKind f.kind) s = .next (s.holdRequest f) := by
  have hmem : f.kind ∈ requestKinds := List.contains_iff_mem.1 hk
  have hwrite : f.kind = 0x31 → ¬ (lengthOk f.kind f.body = true ∧ s.holdsWrite f.body = true) →
      exec .write s = .next (s.serve 0x31 handleWrite) := by
    intro hkind hn
    change Host.Outcome.next (match s.nextRequest with | none => s | some f => _) = _
    rw [hf]
    exact congrArg Host.Outcome.next (if_neg fun h => hn h.2)
  simp only [requestKinds, List.mem_cons, List.not_mem_nil, or_false] at hmem
  rcases hmem with h | h | h | h | h | h | h | h | h | h | h | h | h | h | h | h | h | h <;> rw [h]
  · exact .inl ⟨handleIdentify, fun _ _ => clean_of_ok rfl, .inl rfl⟩
  · exact .inl ⟨handleStatus, handleStatus_clean, .inl rfl⟩
  · exact .inl ⟨handleReset, fun _ _ => clean_of_ok rfl, .inl rfl⟩
  · exact .inl ⟨handleNotify, fun _ _ => clean_of_ok rfl, .inl rfl⟩
  · exact .inl ⟨handleCanvas, handleCanvas_clean, .inl rfl⟩
  · exact .inl ⟨handleLoadCurve, handleLoadCurve_clean, .inl rfl⟩
  · exact .inl ⟨handleLoadPalette, handleLoadPalette_clean, .inl rfl⟩
  · exact .inl ⟨handleDefine, handleDefine_clean, .inl rfl⟩
  · exact .inl ⟨handleDestroy, handleDestroy_clean, .inl rfl⟩
  · exact .inl ⟨handleSetAttr, handleSetAttr_clean, .inl rfl⟩
  · exact .inl ⟨handleQuery, handleQuery_clean, .inl rfl⟩
  · exact .inl ⟨handleOpen, handleOpen_clean, .inl rfl⟩
  · by_cases hh : lengthOk f.kind f.body = true ∧ s.holdsWrite f.body = true
    · rw [h] at hh
      refine .inr ⟨hh.1, ?_⟩
      change Host.Outcome.next (match s.nextRequest with | none => s | some f => _) = _
      rw [hf]
      exact congrArg Host.Outcome.next (if_pos ⟨h, by rw [h]; exact hh.1, hh.2⟩)
    · exact .inl ⟨handleWrite, handleWrite_clean, .inl (hwrite h hh)⟩
  · exact .inl ⟨handleClose, handleClose_clean, .inl rfl⟩
  · exact .inl ⟨handleRead, handleRead_clean, .inl rfl⟩
  · exact .inl ⟨handleFill, handleFill_clean, .inl rfl⟩
  · exact .inl ⟨handleCommit s.nextSeq, fun _ _ => handleCommit_clean _ _ _, .inr rfl⟩
  · exact .inl ⟨handleCancel, handleCancel_clean, .inr rfl⟩

theorem State.decideIfHeadChanged_answer (s : State) (f : Request) (st : Status) (b : List Byte) :
    s.decideIfHeadChanged (s.answer f st b) = s.answer f st b := if_pos rfl

/-- Settles O13: an unknown KIND and a wrong length are answered before any block is asked. -/
theorem undecodableFramesAreRefused : Obligations.UndecodableFramesAreRefused := by
  intro s f ha
  refine ⟨fun hk => ?_, fun hk hl => ?_⟩
  · have hnext := ha.next
    obtain ⟨-, hidle, -⟩ := ha
    change Host.Outcome.next (match s.nextRequest with | none => s | some f => _) = _
    rw [hnext]
    dsimp only
    rw [hk, if_neg (by decide), State.queueReply, Link.queueReply, State.takeRequest_link]
    dsimp only
    rw [← hidle]
    rfl
  · obtain ⟨handle, -, h | h⟩ | ⟨hl', -⟩ := exec_rowOfKind hk ha.next
    · rw [h, State.serve_badLength ha hl]
    · rw [h, State.serve_badLength ha hl, State.decideIfHeadChanged_answer]
    · rw [hl] at hl'
      cases hl'

/-! ### The last reply of a refused request -/

theorem Link.offer_getLast {l : Link} {n : Notice} {f : Request} {r : Reply} {d : Bool}
    (h : (l.offer n).outbound.getLast? = some (.reply f r d)) :
    l.outbound.getLast? = some (.reply f r d) := by
  obtain ⟨-, -, e⟩ | ⟨-, -, e⟩ | e := l.offer_cases n
  · rw [e] at h; simp at h
  · rw [e] at h; simp at h
  · rw [e] at h; exact h

/-- Notices offered behind a reply that is the last frame have all been lost. -/
theorem Link.offerAll_getLast {l : Link} {ns : List Notice} {f : Request} {r : Reply} {d : Bool}
    (h : (l.offerAll ns).outbound.getLast? = some (.reply f r d)) :
    l.outbound.getLast? = some (.reply f r d) := by
  induction ns generalizing l with
  | nil => exact h
  | cons n ns ih => exact Link.offer_getLast (ih h)

theorem State.applyReady_link (n : Word) (q : List Commit) (s : State) :
    (State.applyReady n q s).1.link = s.link := by
  induction q generalizing s with
  | nil => rfl
  | cons c q ih =>
    unfold State.applyReady
    split
    · dsimp only
      split
      · exact State.applyCommit_link s c n
      · exact (ih _).trans (State.applyCommit_link s c n)
    · rfl

/-- A boundary does nothing to the link but offer notices. -/
theorem State.boundary_link (s : State) (lead sync : List Notice) :
    ∃ ns, (s.boundary lead sync).link = s.link.offerAll ns := by
  obtain ⟨g, hg, pick, m, e⟩ := State.boundary_form s lead sync
  have hlink : g.link = s.link := by
    rw [hg, (State.beginFrame_blocks _).2.2.1, State.retireAll_link, State.applyReady_link]
    rfl
  rw [e, State.arbitrate_link, State.offerAll_link, hlink]
  exact ⟨_, rfl⟩

theorem State.decideStopped_link (s : State) (lead : List Notice) :
    ∃ ns, (s.decideStopped lead).link = s.link.offerAll ns := by
  unfold State.decideStopped
  split
  · exact ⟨lead, rfl⟩
  · rename_i c _
    split
    · refine ⟨lead ++ [commitDone s c s.timing.frame], ?_⟩
      rw [State.arbitrate_link, State.offerAll_link, State.applyCommit_link]
    · exact s.boundary_link lead []

theorem State.decideIfHeadChanged_link (s t : State) :
    ∃ ns, (s.decideIfHeadChanged t).link = t.link.offerAll ns := by
  unfold State.decideIfHeadChanged
  split
  · exact ⟨[], rfl⟩
  · exact t.decideStopped_link []

/-- The reply that a served request queues, and the state behind a refusal. -/
theorem State.serve_last {s : State} {f : Request} (ha : Asks s f f.kind f.body)
    {handle : List Byte → State → State × Answer} (hc : RefusesCleanly handle) :
    ∃ a, (s.serve f.kind handle).link.outbound.getLast? = some (.reply f (replyTo f a) false) ∧
      (a.status ≠ .ok → a.status ≠ .accepted →
        s.serve f.kind handle = s.answer f a.status a.body) := by
  cases hl : lengthOk f.kind f.body with
  | true =>
    rw [State.serve_of_asks ha hl]
    refine ⟨(handle f.body s.takeRequest).2, by simp [State.queueReply, Link.queueReply], ?_⟩
    intro h1 h2
    rw [hc f.body s.takeRequest h1 h2]
    rfl
  | false =>
    rw [State.serve_badLength ha hl]
    exact ⟨⟨.badLength, []⟩, by simp [State.answer, Link.answered, replyTo], fun _ _ => rfl⟩

/-- Settles O14: the last frame queued is the reply to the request, and behind a refusal there is no
commit that a STOPPED part might apply. -/
theorem refusedRequestChangesNothing : Obligations.RefusedRequestChangesNothing := by
  intro s t f r ha hk h hidle hlast h1 h2
  obtain ⟨handle, hc, e⟩ | ⟨-, e⟩ := exec_rowOfKind hk ha.next
  · obtain ⟨a, hreply, hsame⟩ := State.serve_last ha hc
    have hr : t.link.outbound.getLast? = some (.reply f r false) →
        (s.serve f.kind handle).link.outbound.getLast? = some (.reply f r false) := by
      intro hlast
      rcases e with e | e
      · rw [e] at h
        cases h
        exact hlast
      · rw [e] at h
        cases h
        obtain ⟨ns, hns⟩ := s.decideIfHeadChanged_link (s.serve f.kind handle)
        rw [hns] at hlast
        exact Link.offerAll_getLast hlast
    have hra := hr hlast
    rw [hreply] at hra
    simp only [Option.some.injEq, OutFrame.reply.injEq, true_and, and_true] at hra
    subst hra
    have hserve := hsame h1 h2
    rcases e with e | e
    · rw [e, hserve] at h
      cases h
      rfl
    · rw [e, hserve, State.decideIfHeadChanged_answer] at h
      cases h
      rfl
  · rw [e] at h
    cases h
    cases hidle

/-! ### The surface checks (R4) -/

/-- A block that makes the surface checks of R4 first. -/
def ChecksSurface (handle : List Byte → State → State × Answer) : Prop :=
  ∀ body s st, surfaceCheck s (fieldAt body 0 1) = some st → handle body s = (s, ⟨st, []⟩)

theorem handleDestroy_checks : ChecksSurface handleDestroy := by
  intro body s st h
  unfold handleDestroy
  dsimp only
  rw [h]
  rfl

theorem handleSetAttr_checks : ChecksSurface handleSetAttr := by
  intro body s st h
  unfold handleSetAttr
  dsimp only
  rw [h]
  rfl

theorem handleOpen_checks : ChecksSurface handleOpen := by
  intro body s st h
  unfold handleOpen
  dsimp only
  rw [h]
  rfl

theorem handleRead_checks : ChecksSurface handleRead := by
  intro body s st h
  unfold handleRead
  dsimp only
  rw [h]
  rfl

theorem handleFill_checks : ChecksSurface handleFill := by
  intro body s st h
  unfold handleFill
  dsimp only
  rw [h]
  rfl

section
variable {s : State} {id : Nat}

theorem surfaceCheck_of_gt (h : 31 < id) : surfaceCheck s id = some .badField := if_pos h

theorem surfaceCheck_of_free (h : id ≤ 31) (hs : (s.surf id).state = .free) :
    surfaceCheck s id = some .noSurface := by
  rw [surfaceCheck, if_neg (Nat.not_lt.2 h), hs]

theorem surfaceCheck_of_retiring (h : id ≤ 31) (hs : (s.surf id).state = .retiring) :
    surfaceCheck s id = some .retiring := by
  rw [surfaceCheck, if_neg (Nat.not_lt.2 h), hs]
end

theorem exec_of_surfaceCheck {i : Instr} {s : State} {f : Request}
    {handle : List Byte → State → State × Answer} (hc : ChecksSurface handle)
    (hi : exec i s = .next (s.serve f.kind handle)) (ha : Asks s f f.kind f.body)
    (hl : lengthOk f.kind f.body = true) {st : Status}
    (h : surfaceCheck s (byteAt f.body 0).toNat = some st) :
    exec i s = .next (s.answer f st []) :=
  exec_answer hi ha hl (hc f.body s.takeRequest st (by rw [fieldAt_one]; exact h))

/-- Settles O22: each of the five blocks looks at the surface first. -/
theorem surfaceChecksComeFirst : Obligations.SurfaceChecksComeFirst := by
  intro s f i ha hl hi
  have hrow : ∃ handle, ChecksSurface handle ∧ exec i s = .next (s.serve f.kind handle) := by
    rcases hi with ⟨hk, rfl⟩ | ⟨hk, rfl⟩ | ⟨hk, rfl⟩ | ⟨hk, rfl⟩ | ⟨hk, rfl⟩ <;> rw [hk]
    · exact ⟨handleDestroy, handleDestroy_checks, rfl⟩
    · exact ⟨handleSetAttr, handleSetAttr_checks, rfl⟩
    · exact ⟨handleOpen, handleOpen_checks, rfl⟩
    · exact ⟨handleRead, handleRead_checks, rfl⟩
    · exact ⟨handleFill, handleFill_checks, rfl⟩
  obtain ⟨handle, hc, he⟩ := hrow
  exact ⟨fun h => exec_of_surfaceCheck hc he ha hl (surfaceCheck_of_gt h),
    fun h hs => exec_of_surfaceCheck hc he ha hl (surfaceCheck_of_free h hs),
    fun h hs => exec_of_surfaceCheck hc he ha hl (surfaceCheck_of_retiring h hs)⟩

/-! ### STATUS -/

theorem slotStatus_eq (o : Option Stream) : slotStatus o = match o with
    | none => [0, 0]
    | some st => [if st.full then 2 else 1, BitVec.ofNat 8 st.surface] := by
  cases o <;> rfl

/-- Table 10-12: the length of the STATUS reply. -/
theorem length_statusBody (s : State) : (statusBody s).length =
    39 + 2 * s.commits.queue.length + 4 * s.engine.jobs.length := by
  have hcommits : (s.commits.queue.flatMap fun c => bytesOf 2 c.tag.toNat).length =
      2 * s.commits.queue.length := by
    simp [List.length_flatMap]; omega
  have hjobs : (s.engine.jobs.flatMap jobStatus).length = 4 * s.engine.jobs.length := by
    simp [List.length_flatMap, jobStatus]; omega
  have hslots : (slotNumbers.flatMap fun i => slotStatus (s.slotAt i)).length = 16 := by
    simp [List.length_flatMap, slotStatus, slotNumbers]
  unfold statusBody
  simp only [List.length_append, hcommits, hjobs, hslots, length_bytesOf, List.length_singleton]
  omega

/-- Settles O16: the three outcomes of STATUS by its clear flag. -/
theorem statusReportsAndClears : Obligations.StatusReportsAndClears := by
  intro s f clear ha body
  have hbody : body = statusBody s := by
    unfold statusBody
    simp only [slotStatus_eq]
    rfl
  rw [hbody]
  have hi : exec .status s = .next (s.serve 0x02 handleStatus) := rfl
  refine ⟨length_statusBody s, fun h => ?_, fun h => ?_, fun h0 h1 => ?_⟩
  · subst h
    exact exec_answer hi ha rfl rfl
  · subst h
    rw [exec_effect_of_handle hi ha rfl rfl]
    rfl
  · refine exec_answer hi ha rfl ?_
    have e : byteAt [clear] 0 = clear := rfl
    rw [handleStatus, e, if_neg h0, if_neg h1]
    rfl

end Sys2Proof.Machine
end

section
/-! PROOFS. Bodies with a mask (R162): what CANVAS and SET-ATTR read back of the fields that a host
puts in, and what they stage of them. -/

namespace Sys2Proof.Machine

/-! ### Masks -/

/-- The mask whose bits are these, bit 0 first. -/
def maskOf : List Bool → Nat
  | [] => 0
  | b :: bs => b.toNat + 2 * maskOf bs

theorem maskBit_maskOf (bs : List Bool) (i : Nat) : maskBit (maskOf bs) i = bs.getD i false := by
  unfold maskBit
  induction bs generalizing i with
  | nil => simp [maskOf]
  | cons b bs ih =>
    rw [maskOf]
    cases i with
    | zero => cases b <;> simp [Nat.testBit_zero]
    | succ i =>
      have e : (b.toNat + 2 * maskOf bs) / 2 = maskOf bs := by cases b <;> simp; omega
      rw [Nat.testBit_succ, e, ih]
      rfl

theorem maskOf_lt (bs : List Bool) : maskOf bs < 2 ^ bs.length := by
  induction bs with
  | nil => simp [maskOf]
  | cons b bs ih =>
    have hb : b.toNat ≤ 1 := Bool.toNat_le b
    rw [maskOf, List.length_cons, Nat.pow_succ]
    omega

/-! ### Optional fields -/

section
variable {α : Type} (o : Option α) (bytes : α → List Byte)

@[simp] theorem presentBytes_none : presentBytes none bytes = [] := rfl
@[simp] theorem presentBytes_some (v : α) : presentBytes (some v) bytes = bytes v := rfl

theorem presentBytes_map {β : Type} (g : β → α) (o : Option β) :
    presentBytes (o.map g) bytes = presentBytes o (fun v => bytes (g v)) := by cases o <;> rfl

variable {bytes} {k : Nat} (h : ∀ v, (bytes v).length = k)
include h

theorem length_presentBytes : (presentBytes o bytes).length = if o.isSome then k else 0 := by
  cases o with
  | none => rfl
  | some v => exact h v

/-- A field that its mask bit marks is taken whole; one that is absent leaves the bytes alone. -/
theorem takeField_present (rest : List Byte) :
    takeField o.isSome k (presentBytes o bytes ++ rest) = (o.map bytes, rest) := by
  cases o with
  | none => rfl
  | some v =>
    rw [presentBytes_some, Option.isSome_some, takeField, if_pos rfl, List.take_left' (h v),
      List.drop_left' (h v)]
    rfl

theorem takeField_last : (takeField o.isSome k (presentBytes o bytes)).1 = o.map bytes := by
  have := takeField_present o h []
  rw [List.append_nil] at this
  rw [this]
end

/-- A number that fits its field is read back. -/
theorem map_numberOf_bytesOf {o : Option Nat} {k : Nat} (h : ∀ v ∈ o, v < 256 ^ k) :
    (o.map (bytesOf k)).map numberOf = o := by
  cases o with
  | none => rfl
  | some v => exact congrArg some (numberOf_bytesOf_of_lt (h v rfl))

theorem map_numberOf_bytesOf_one {o : Option Nat} (h : ∀ v ∈ o, v < 256) :
    (o.map (bytesOf 1)).map numberOf = o := map_numberOf_bytesOf h

theorem map_numberOf_bytesOf_two {o : Option Nat} (h : ∀ v ∈ o, v < 65536) :
    (o.map (bytesOf 2)).map numberOf = o := map_numberOf_bytesOf h

theorem map_signedOf_signedBytes {o : Option Int} (h : ∀ v ∈ o, -32768 ≤ v ∧ v < 32768) :
    (o.map signedBytes).map signedOf = o := by
  cases o with
  | none => rfl
  | some v =>
    obtain ⟨h1, h2⟩ := h v rfl
    exact congrArg some (signedOf_signedBytes h1 (by omega))

theorem map_colourOf_colourBytes (o : Option Rgb) : (o.map colourBytes).map colourOf = o := by
  cases o <;> rfl

theorem map_byteAt_singleton (o : Option Byte) :
    (o.map (fun v => [v])).map (byteAt · 0) = o := by cases o <;> rfl

theorem bitSize_maskOf (bs : List Bool) (i k : Nat) :
    bitSize (maskOf bs) i k = if bs.getD i false then k else 0 := by
  rw [bitSize, maskBit_maskOf]

/-! ### CANVAS -/

/-- Which fields a CANVAS request carries, by their mask bits. -/
def CanvasFields.bits (g : CanvasFields) : List Bool :=
  [g.width.isSome, g.height.isSome, g.background.isSome, g.mode.isSome, g.period.isSome,
    g.edge.isSome]

/-- The fields of a CANVAS request behind its mask. -/
def CanvasFields.bytes (g : CanvasFields) : List Byte :=
  presentBytes g.width (bytesOf 2) ++ (presentBytes g.height (bytesOf 2) ++
    (presentBytes g.background colourBytes ++ (presentBytes g.mode (bytesOf 1) ++
      (presentBytes g.period (bytesOf 2) ++ presentBytes g.edge (bytesOf 1)))))

theorem canvasBodyRaw_eq (g : CanvasFields) :
    canvasBodyRaw g = bytesOf 1 (maskOf g.bits) ++ g.bytes := by
  have hmask : g.width.isSome.toNat + 2 * g.height.isSome.toNat + 4 * g.background.isSome.toNat +
      8 * g.mode.isSome.toNat + 16 * g.period.isSome.toNat + 32 * g.edge.isSome.toNat =
      maskOf g.bits := by
    simp only [CanvasFields.bits, maskOf]
    omega
  rw [canvasBodyRaw, hmask, CanvasFields.bytes]
  simp only [List.append_assoc]

theorem fieldAt_canvasBodyRaw (g : CanvasFields) :
    fieldAt (canvasBodyRaw g) 0 1 = maskOf g.bits := by
  have hlt := maskOf_lt g.bits
  rw [show g.bits.length = 6 from rfl] at hlt
  rw [canvasBodyRaw_eq, fieldAt_bytesOf]
  exact Nat.mod_eq_of_lt (by omega)

theorem lengthOk_canvas (body : List Byte) : lengthOk 0x10 body =
    decide (1 ≤ body.length ∧ body.length = 1 + canvasFieldsSize (fieldAt body 0 1)) := rfl

theorem lengthOk_canvasBodyRaw (g : CanvasFields) : lengthOk 0x10 (canvasBodyRaw g) = true := by
  have hsize : g.bytes.length = canvasFieldsSize (maskOf g.bits) := by
    simp only [CanvasFields.bytes, canvasFieldsSize, bitSize_maskOf, CanvasFields.bits,
      List.length_append, length_presentBytes _ (length_bytesOf _),
      length_presentBytes _ length_colourBytes, List.getD_cons_zero, List.getD_cons_succ]
    omega
  have hlen : (canvasBodyRaw g).length = 1 + canvasFieldsSize (fieldAt (canvasBodyRaw g) 0 1) := by
    rw [fieldAt_canvasBodyRaw, canvasBodyRaw_eq, List.length_append, hsize, length_bytesOf]
  rw [lengthOk_canvas]
  exact decide_eq_true ⟨by omega, hlen⟩

/-- Each number of a CANVAS request fits its bytes. -/
def CanvasFields.fits (g : CanvasFields) : Prop :=
  (∀ v ∈ g.width, v < 65536) ∧ (∀ v ∈ g.height, v < 65536) ∧ (∀ v ∈ g.mode, v < 256) ∧
    (∀ v ∈ g.period, v < 65536) ∧ (∀ v ∈ g.edge, v < 256)

/-- A CANVAS body reads back as the fields that the host put in. -/
theorem canvasFieldsOf_canvasBodyRaw {g : CanvasFields} (h : g.fits) :
    canvasFieldsOf (canvasBodyRaw g) = { g with undefinedBits := false } := by
  obtain ⟨hw, hh, hm, hp, he⟩ := h
  have hlt := maskOf_lt g.bits
  rw [show g.bits.length = 6 from rfl] at hlt
  have hdrop : (canvasBodyRaw g).drop 1 = g.bytes := by
    rw [canvasBodyRaw_eq]; exact List.drop_left' (length_bytesOf 1 _)
  have hbits : decide (2 ^ 6 ≤ maskOf g.bits) = false := decide_eq_false (by omega)
  unfold canvasFieldsOf
  rw [fieldAt_canvasBodyRaw, hdrop]
  dsimp only
  rw [hbits]
  simp only [maskBit_maskOf, CanvasFields.bits, CanvasFields.bytes, List.getD_cons_zero,
    List.getD_cons_succ, takeField_present _ (length_bytesOf _),
    takeField_present _ length_colourBytes, takeField_last _ (length_bytesOf _),
    map_numberOf_bytesOf_two hw, map_numberOf_bytesOf_two hh, map_numberOf_bytesOf_one hm,
    map_numberOf_bytesOf_two hp, map_numberOf_bytesOf_one he, map_colourOf_colourBytes]

/-- The numbers that a staged canvas is sent as. -/
def StagedCanvas.fields (g : StagedCanvas) : CanvasFields :=
  ⟨g.width, g.height, g.background, g.mode.map (·.code.toNat), g.period,
    g.edge.map (fun e => (edgeCode e).toNat), false⟩

theorem canvasBody_eq (g : StagedCanvas) : canvasBody g = canvasBodyRaw g.fields := by
  have hm : ∀ m : SyncMode, bytesOf 1 m.code.toNat = [m.code] := by intro m; cases m <;> rfl
  have he : ∀ e : Edge, bytesOf 1 (edgeCode e).toNat = [edgeCode e] := by intro e; cases e <;> rfl
  simp only [canvasBody, canvasBodyRaw, StagedCanvas.fields, presentBytes_map, hm, he,
    Option.isSome_map]

theorem bind_syncModeOf (o : Option SyncMode) :
    (o.map (·.code.toNat)).bind syncModeOf = o := by
  rcases o with _ | m
  · rfl
  · cases m <;> rfl

theorem bind_edgeOf (o : Option Edge) : (o.map fun e => (edgeCode e).toNat).bind edgeOf = o := by
  rcases o with _ | e
  · rfl
  · cases e <;> rfl

theorem stageCanvas_fields (g old : StagedCanvas) : stageCanvas old g.fields = g.over old := by
  simp only [stageCanvas, StagedCanvas.fields, bind_syncModeOf, bind_edgeOf, StagedCanvas.over]

theorem absentOrIn_iff {o : Option Nat} {lo hi : Nat} :
    absentOrIn o lo hi = true ↔ ∀ v ∈ o, lo ≤ v ∧ v ≤ hi := by
  cases o <;> simp [absentOrIn]

theorem positionOk_iff {o : Option Int} :
    positionOk o = true ↔ ∀ v ∈ o, -1024 ≤ v ∧ v ≤ 1023 := by
  cases o <;> simp [positionOk]

/-- Table 7-2: every value carried is in its range. -/
theorem canvasFieldsOk_iff (c : CanvasFields) : canvasFieldsOk c = true ↔
    c.undefinedBits = false ∧ (∀ v ∈ c.width, 8 ≤ v ∧ v ≤ 512) ∧ (∀ v ∈ c.height, 8 ≤ v ∧ v ≤ 256) ∧
    (∀ v ∈ c.mode, 0 ≤ v ∧ v ≤ 2) ∧ (∀ v ∈ c.period, 4000 ≤ v ∧ v ≤ 50000) ∧
    (∀ v ∈ c.edge, 0 ≤ v ∧ v ≤ 1) := by
  simp only [canvasFieldsOk, Bool.and_eq_true, Bool.not_eq_true', absentOrIn_iff, and_assoc]

theorem StagedCanvas.fields_ok {g : StagedCanvas} (h : g.inRange) :
    g.fields.fits ∧ canvasFieldsOk g.fields = true := by
  obtain ⟨hw, hh, hp⟩ := h
  have hmode : ∀ v ∈ g.fields.mode, v ≤ 2 := by
    intro v hv
    obtain ⟨m, -, rfl⟩ := Option.map_eq_some_iff.1 hv
    cases m <;> decide
  have hedge : ∀ v ∈ g.fields.edge, v ≤ 1 := by
    intro v hv
    obtain ⟨e, -, rfl⟩ := Option.map_eq_some_iff.1 hv
    cases e <;> decide
  refine ⟨⟨fun v hv => ?_, fun v hv => ?_, fun v hv => ?_, fun v hv => ?_, fun v hv => ?_⟩,
    (canvasFieldsOk_iff _).2 ⟨rfl, hw, hh, fun v hv => ⟨Nat.zero_le v, hmode v hv⟩, hp,
      fun v hv => ⟨Nat.zero_le v, hedge v hv⟩⟩⟩
  · have := hw v hv; omega
  · have := hh v hv; omega
  · have := hmode v hv; omega
  · have := hp v hv; omega
  · have := hedge v hv; omega

theorem canvasFieldsOk_of_outOfRange {g : CanvasFields} (h : g.outOfRange) :
    canvasFieldsOk { g with undefinedBits := false } = false := by
  obtain ⟨-, hbad⟩ := h
  rw [Bool.eq_false_iff, ne_eq, canvasFieldsOk_iff]
  rintro ⟨-, hw, hh, hm, hp, he⟩
  rcases hbad with ⟨v, hv, hb⟩ | ⟨v, hv, hb⟩ | ⟨v, hv, hb⟩ | ⟨v, hv, hb⟩ | ⟨v, hv, hb⟩
  · have := hw v hv; omega
  · have := hh v hv; omega
  · have := hm v hv; omega
  · have := hp v hv; omega
  · have := he v hv; omega

theorem handleCanvas_frozen {s : State} (h : s.commits.canvasFrozen = true) (body : List Byte) :
    handleCanvas body s = (s, ⟨.frozen, []⟩) := if_pos h

theorem handleCanvas_bad {s : State} (h : s.commits.canvasFrozen = false) {body : List Byte}
    (hb : canvasFieldsOk (canvasFieldsOf body) = false) :
    handleCanvas body s = (s, ⟨.badField, []⟩) := by
  simp only [handleCanvas, h, hb, Bool.not_false, if_true, Bool.false_eq_true, if_false]
  rfl

theorem handleCanvas_ok {s : State} (h : s.commits.canvasFrozen = false) {body : List Byte}
    (hb : canvasFieldsOk (canvasFieldsOf body) = true) :
    handleCanvas body s =
      (s.withScan { s.scan with staged := stageCanvas s.scan.staged (canvasFieldsOf body) },
        ⟨.ok, bytesOf 1 (stageCanvas s.scan.staged (canvasFieldsOf body)).count⟩) := by
  simp only [handleCanvas, h, hb, Bool.not_true, Bool.false_eq_true, if_false]

theorem exec_canvas (s : State) : exec .canvas s = .next (s.serve 0x10 handleCanvas) := rfl

/-- Settles O19: the freeze, the mask and the ranges, and the fields read back. -/
theorem canvasStagesItsFields : Obligations.CanvasStagesItsFields := by
  intro s f
  refine ⟨fun body hl ha hfrozen => ?_, fun hfree => ⟨fun g hg ha => ?_, fun body hl ha hmask => ?_,
    fun g hg ha => ?_⟩⟩
  · obtain ⟨c, hc, hcan⟩ := hfrozen
    have hany : s.takeRequest.commits.canvasFrozen = true := List.any_eq_true.2 ⟨c, hc, hcan⟩
    exact exec_answer (exec_canvas s) ha hl (handleCanvas_frozen hany body)
  all_goals
    have hnot : s.takeRequest.commits.canvasFrozen = false :=
      List.any_eq_false.2 fun c hc => by rw [hfree c hc]; decide
  · obtain ⟨hfits, hok⟩ := StagedCanvas.fields_ok hg
    have hread : canvasFieldsOf (canvasBody g) = g.fields := by
      rw [canvasBody_eq, canvasFieldsOf_canvasBodyRaw hfits]
      rfl
    have hl : lengthOk 0x10 (canvasBody g) = true := by
      rw [canvasBody_eq]; exact lengthOk_canvasBodyRaw _
    rw [exec_effect_of_handle (exec_canvas s) ha hl
      (handleCanvas_ok hnot (by rw [hread]; exact hok)), hread, stageCanvas_fields]
    rfl
  · refine exec_answer (exec_canvas s) ha hl (handleCanvas_bad hnot ?_)
    have hbits : (canvasFieldsOf body).undefinedBits = true := by
      refine decide_eq_true ?_
      rw [fieldAt_one]
      exact hmask
    simp only [canvasFieldsOk, hbits, Bool.not_true, Bool.false_and]
  · refine exec_answer (exec_canvas s) ha (lengthOk_canvasBodyRaw g) (handleCanvas_bad hnot ?_)
    rw [canvasFieldsOf_canvasBodyRaw hg.1]
    exact canvasFieldsOk_of_outOfRange hg

/-! ### SET-ATTR -/

/-- Which attributes a SET-ATTR request carries, by their mask bits. -/
def AttrFields.bits (g : AttrFields) : List Bool :=
  [g.x.isSome, g.y.isSome, g.z.isSome, g.opacity.isSome, g.visible.isSome, g.vx.isSome, g.vy.isSome,
    g.vw.isSome, g.vh.isSome, g.keySet.isSome, g.keyClear]

/-- The attributes of a SET-ATTR request behind its mask. -/
def AttrFields.bytes (g : AttrFields) : List Byte :=
  presentBytes g.x signedBytes ++ (presentBytes g.y signedBytes ++
    (presentBytes g.z (fun v => [v]) ++ (presentBytes g.opacity (fun v => [v]) ++
      (presentBytes g.visible (bytesOf 1) ++ (presentBytes g.vx (bytesOf 2) ++
        (presentBytes g.vy (bytesOf 2) ++ (presentBytes g.vw (bytesOf 2) ++
          (presentBytes g.vh (bytesOf 2) ++ presentBytes g.keySet colourBytes))))))))

theorem setAttrBodyRaw_eq (id : Nat) (g : AttrFields) :
    setAttrBodyRaw id g = bytesOf 1 id ++ (bytesOf 2 (maskOf g.bits) ++ g.bytes) := by
  have hmask : g.x.isSome.toNat + 2 * g.y.isSome.toNat + 4 * g.z.isSome.toNat +
      8 * g.opacity.isSome.toNat + 16 * g.visible.isSome.toNat + 32 * g.vx.isSome.toNat +
      64 * g.vy.isSome.toNat + 128 * g.vw.isSome.toNat + 256 * g.vh.isSome.toNat +
      512 * g.keySet.isSome.toNat + 1024 * g.keyClear.toNat = maskOf g.bits := by
    simp only [AttrFields.bits, maskOf]
    omega
  rw [setAttrBodyRaw, hmask, AttrFields.bytes]
  simp only [List.append_assoc]

theorem maskOf_attr_lt (g : AttrFields) : maskOf g.bits < 2048 := by
  have hlt := maskOf_lt g.bits
  rw [show g.bits.length = 11 from rfl] at hlt
  omega

theorem fieldAt_mask_setAttrBodyRaw (id : Nat) (g : AttrFields) :
    fieldAt (setAttrBodyRaw id g) 1 2 = maskOf g.bits := by
  have hlt := maskOf_attr_lt g
  rw [setAttrBodyRaw_eq, fieldAt_append (by simp), length_bytesOf, Nat.sub_self, fieldAt_bytesOf]
  exact Nat.mod_eq_of_lt (by omega)

theorem fieldAt_id_setAttrBodyRaw {id : Nat} (h : id < 32) (g : AttrFields) :
    fieldAt (setAttrBodyRaw id g) 0 1 = id := by
  rw [setAttrBodyRaw_eq, fieldAt_bytesOf]
  exact Nat.mod_eq_of_lt (by omega)

theorem length_singleton_byte (v : Byte) : [v].length = 1 := rfl

theorem lengthOk_setAttr (body : List Byte) : lengthOk 0x22 body =
    decide (3 ≤ body.length ∧ body.length = 3 + attrFieldsSize (fieldAt body 1 2)) := rfl

theorem lengthOk_setAttrBodyRaw (id : Nat) (g : AttrFields) :
    lengthOk 0x22 (setAttrBodyRaw id g) = true := by
  have hsize : g.bytes.length = attrFieldsSize (maskOf g.bits) := by
    simp only [AttrFields.bytes, attrFieldsSize, bitSize_maskOf, AttrFields.bits,
      List.length_append, length_presentBytes _ (length_bytesOf _),
      length_presentBytes _ length_signedBytes, length_presentBytes _ length_singleton_byte,
      length_presentBytes _ length_colourBytes, List.getD_cons_zero, List.getD_cons_succ]
    omega
  have hlen : (setAttrBodyRaw id g).length =
      3 + attrFieldsSize (fieldAt (setAttrBodyRaw id g) 1 2) := by
    rw [fieldAt_mask_setAttrBodyRaw, setAttrBodyRaw_eq, List.length_append, List.length_append,
      hsize, length_bytesOf, length_bytesOf]
    omega
  rw [lengthOk_setAttr]
  exact decide_eq_true ⟨by omega, hlen⟩

/-- Each number of a SET-ATTR request fits its bytes. -/
def AttrFields.fits (g : AttrFields) : Prop :=
  (∀ v ∈ g.x, -32768 ≤ v ∧ v < 32768) ∧ (∀ v ∈ g.y, -32768 ≤ v ∧ v < 32768) ∧
    (∀ v ∈ g.visible, v < 256) ∧ (∀ v ∈ g.vx, v < 65536) ∧ (∀ v ∈ g.vy, v < 65536) ∧
    (∀ v ∈ g.vw, v < 65536) ∧ (∀ v ∈ g.vh, v < 65536)

/-- A SET-ATTR body reads back as the attributes that the host put in. -/
theorem attrFieldsOf_setAttrBodyRaw (id : Nat) {g : AttrFields} (h : g.fits) :
    attrFieldsOf (setAttrBodyRaw id g) = { g with undefinedBits := false } := by
  obtain ⟨hx, hy, hvis, hvx, hvy, hvw, hvh⟩ := h
  have hlt := maskOf_attr_lt g
  have hdrop : (setAttrBodyRaw id g).drop 3 = g.bytes := by
    rw [setAttrBodyRaw_eq, ← List.append_assoc]
    exact List.drop_left' (by simp)
  have hbits : decide (2 ^ 11 ≤ maskOf g.bits) = false := decide_eq_false (by omega)
  unfold attrFieldsOf
  rw [fieldAt_mask_setAttrBodyRaw, hdrop]
  dsimp only
  rw [hbits]
  simp only [maskBit_maskOf, AttrFields.bits, AttrFields.bytes, List.getD_cons_zero,
    List.getD_cons_succ, takeField_present _ (length_bytesOf _),
    takeField_present _ length_signedBytes, takeField_present _ length_singleton_byte,
    takeField_last _ length_colourBytes, map_signedOf_signedBytes hx, map_signedOf_signedBytes hy,
    map_numberOf_bytesOf_one hvis, map_numberOf_bytesOf_two hvx, map_numberOf_bytesOf_two hvy,
    map_numberOf_bytesOf_two hvw, map_numberOf_bytesOf_two hvh, map_colourOf_colourBytes,
    map_byteAt_singleton]

/-- The numbers that staged attributes are sent as. -/
def StagedAttrs.fields (g : StagedAttrs) : AttrFields :=
  ⟨g.x, g.y, g.z, g.opacity, g.visible.map Bool.toNat, g.vx, g.vy, g.vw, g.vh,
    match g.key with
    | some (.setTo c) => some c
    | some .clear | none => none,
    g.key == some .clear, false⟩

theorem setAttrBody_eq (id : Nat) (g : StagedAttrs) : setAttrBody id g = setAttrBodyRaw id g.fields := by
  have hflag : ∀ b : Bool, bytesOf 1 b.toNat = [flagByte b] := by intro b; cases b <;> rfl
  unfold setAttrBody setAttrBodyRaw StagedAttrs.mask
  rcases hk : g.key with _ | c | _ <;>
    simp only [StagedAttrs.fields, hk, presentBytes_map, hflag, Option.isSome_map] <;> rfl

theorem stageAttrs_fields (g old : StagedAttrs) : stageAttrs old g.fields = g.over old := by
  have hvis : ((g.visible.map Bool.toNat).map (· == 1)) = g.visible := by
    rcases g.visible with _ | b
    · rfl
    · cases b <;> rfl
  have hkey : stagedKeyOf g.fields = g.key := by
    rcases hk : g.key with _ | c | _ <;> simp [stagedKeyOf, StagedAttrs.fields, hk]
  rw [stageAttrs, hkey]
  simp only [StagedAttrs.fields, hvis, StagedAttrs.over]

/-- Table 1-4: each of the attributes carried is in its range. -/
theorem attrFieldsOk_iff (a : AttrFields) (w h : Nat) : attrFieldsOk a w h = true ↔
    a.undefinedBits = false ∧ (a.keySet.isSome && a.keyClear) = false ∧
    (∀ v ∈ a.x, -1024 ≤ v ∧ v ≤ 1023) ∧ (∀ v ∈ a.y, -1024 ≤ v ∧ v ≤ 1023) ∧
    (∀ v ∈ a.visible, 0 ≤ v ∧ v ≤ 1) ∧ (∀ v ∈ a.vx, 0 ≤ v ∧ v ≤ w - 1) ∧
    (∀ v ∈ a.vy, 0 ≤ v ∧ v ≤ h - 1) ∧ (∀ v ∈ a.vw, 1 ≤ v ∧ v ≤ w) ∧
    (∀ v ∈ a.vh, 1 ≤ v ∧ v ≤ h) := by
  simp only [attrFieldsOk, Bool.and_eq_true, Bool.not_eq_true', absentOrIn_iff, positionOk_iff,
    and_assoc]

theorem StagedAttrs.fields_ok {g : StagedAttrs} {w h : Nat} (hw : w ≤ 512) (hh : h ≤ 256)
    (hg : g.inRange w h) : g.fields.fits ∧ attrFieldsOk g.fields w h = true := by
  obtain ⟨hx, hy, hvx, hvy, hvw, hvh⟩ := hg
  have hvis : ∀ v ∈ g.fields.visible, v ≤ 1 := by
    intro v hv
    obtain ⟨b, -, rfl⟩ := Option.map_eq_some_iff.1 hv
    exact Bool.toNat_le b
  have hkey : (g.fields.keySet.isSome && g.fields.keyClear) = false := by
    rcases hk : g.key with _ | c | _ <;> simp [StagedAttrs.fields, hk]
  refine ⟨⟨fun v hv => ?_, fun v hv => ?_, fun v hv => ?_, fun v hv => ?_, fun v hv => ?_,
    fun v hv => ?_, fun v hv => ?_⟩, (attrFieldsOk_iff _ _ _).2 ⟨rfl, hkey, hx, hy,
      fun v hv => ⟨Nat.zero_le v, hvis v hv⟩, fun v hv => ⟨Nat.zero_le v, ?_⟩,
      fun v hv => ⟨Nat.zero_le v, ?_⟩, hvw, hvh⟩⟩
  · have := hx v hv; omega
  · have := hy v hv; omega
  · have := hvis v hv; omega
  · have := hvx v hv; omega
  · have := hvy v hv; omega
  · have := hvw v hv; omega
  · have := hvh v hv; omega
  · have := hvx v hv; omega
  · have := hvy v hv; omega

theorem attrFieldsOk_of_outOfRange {g : AttrFields} {w h : Nat} (hw : 1 ≤ w) (hh : 1 ≤ h)
    (hg : g.outOfRange w h) : attrFieldsOk { g with undefinedBits := false } w h = false := by
  obtain ⟨-, hbad⟩ := hg
  rw [Bool.eq_false_iff, ne_eq, attrFieldsOk_iff]
  rintro ⟨-, hkey, hx, hy, hvis, hvx, hvy, hvw, hvh⟩
  rcases hbad with ⟨v, hv, hb⟩ | ⟨v, hv, hb⟩ | ⟨v, hv, hb⟩ | ⟨v, hv, hb⟩ | ⟨v, hv, hb⟩ |
    ⟨v, hv, hb⟩ | ⟨v, hv, hb⟩ | ⟨hset, hclear⟩
  · have := hx v hv; omega
  · have := hy v hv; omega
  · have := hvis v hv; omega
  · have := hvx v hv; omega
  · have := hvy v hv; omega
  · have := hvw v hv; omega
  · have := hvh v hv; omega
  · rw [hclear, Bool.and_true] at hkey
    exact hset (Option.isSome_eq_false_iff.1 hkey |> Option.isNone_iff_eq_none.1)

section
variable {s : State} {body : List Byte} {id : Nat} (hid : fieldAt body 0 1 = id) (hlt : id < 32)
  (hd : (s.surf id).defined)
include hid hlt hd

theorem handleSetAttr_frozen (h : (s.surf id).pendingTag ≠ none) :
    handleSetAttr body s = (s, ⟨.frozen, []⟩) := by
  have hcheck : surfaceCheck s id = none := surfaceCheck_eq_none.2 ⟨by omega, hd⟩
  have hfrozen : (s.surf id).frozen = true := Option.isSome_iff_ne_none.2 h
  simp only [handleSetAttr, hid, hcheck, hfrozen, if_true]
  rfl

theorem handleSetAttr_bad (h : (s.surf id).pendingTag = none)
    (hb : attrFieldsOk (attrFieldsOf body) (s.surf id).width (s.surf id).height = false) :
    handleSetAttr body s = (s, ⟨.badField, []⟩) := by
  have hcheck : surfaceCheck s id = none := surfaceCheck_eq_none.2 ⟨by omega, hd⟩
  have hfrozen : (s.surf id).frozen = false := by rw [Surface.frozen, h]; rfl
  simp only [handleSetAttr, hid, hcheck, hfrozen, hb, Bool.not_false, if_true, Bool.false_eq_true,
    if_false]
  rfl

theorem handleSetAttr_ok (h : (s.surf id).pendingTag = none)
    (hb : attrFieldsOk (attrFieldsOf body) (s.surf id).width (s.surf id).height = true) :
    handleSetAttr body s =
      (s.setSurf id { s.surf id with staged := stageAttrs (s.surf id).staged (attrFieldsOf body) },
        ⟨.ok, bytesOf 1 (stageAttrs (s.surf id).staged (attrFieldsOf body)).count⟩) := by
  have hcheck : surfaceCheck s id = none := surfaceCheck_eq_none.2 ⟨by omega, hd⟩
  have hfrozen : (s.surf id).frozen = false := by rw [Surface.frozen, h]; rfl
  simp only [handleSetAttr, hid, hcheck, hfrozen, hb, Bool.not_true, Bool.false_eq_true, if_false]
end

theorem exec_setAttr (s : State) : exec .setAttr s = .next (s.serve 0x22 handleSetAttr) := rfl

/-- Settles O26: the freeze, the mask and the ranges, and the attributes read back. -/
theorem setAttrStagesAttributes : Obligations.SetAttrStagesAttributes := by
  intro s f id hlt hd hw hh
  refine ⟨fun body hl hid ha hp => ?_, fun hp => ⟨fun g hg ha => ?_, fun body hl hid ha hmask => ?_,
    fun hw1 hh1 g hg ha => ?_⟩⟩
  · rw [← fieldAt_one] at hid
    exact exec_answer (exec_setAttr s) ha hl (handleSetAttr_frozen hid hlt (by exact hd) (by exact hp))
  · obtain ⟨hfits, hok⟩ := StagedAttrs.fields_ok hw hh hg
    have hread : attrFieldsOf (setAttrBody id g) = g.fields := by
      rw [setAttrBody_eq, attrFieldsOf_setAttrBodyRaw id hfits]
      rfl
    have hl : lengthOk 0x22 (setAttrBody id g) = true := by
      rw [setAttrBody_eq]; exact lengthOk_setAttrBodyRaw id _
    have hid : fieldAt (setAttrBody id g) 0 1 = id := by
      rw [setAttrBody_eq]; exact fieldAt_id_setAttrBodyRaw hlt _
    rw [exec_effect_of_handle (exec_setAttr s) ha hl (handleSetAttr_ok (s := s.takeRequest) hid hlt
      (by exact hd) (by exact hp) (by rw [hread]; exact hok)), hread, stageAttrs_fields]
    rfl
  · rw [← fieldAt_one] at hid
    refine exec_answer (exec_setAttr s) ha hl
      (handleSetAttr_bad hid hlt (by exact hd) (by exact hp) ?_)
    have hbits : (attrFieldsOf body).undefinedBits = true := decide_eq_true hmask
    simp only [attrFieldsOk, hbits, Bool.not_true, Bool.false_and]
  · refine exec_answer (exec_setAttr s) ha (lengthOk_setAttrBodyRaw id g)
      (handleSetAttr_bad (fieldAt_id_setAttrBodyRaw hlt g) hlt (by exact hd) (by exact hp) ?_)
    rw [attrFieldsOf_setAttrBodyRaw id hg.1]
    exact attrFieldsOk_of_outOfRange hw1 hh1 hg

end Sys2Proof.Machine
end

section
/-! PROOFS. LOAD-PALETTE and LOAD-CURVE (R101, R104, R105), and the conversions of pixels (R97 to
R99). -/

namespace Sys2Proof.Machine

/-! ### A run of entries of one table -/

/-- A run inside one table of 256 entries touches no other table. -/
theorem storeRead_run {α : Type} [DecidableEq α] {d : Nat → α} (m : Store α) (v : α) {t first : Nat}
    {vs : List α} (hrun : first + vs.length ≤ 256) (c i : Nat) (hi : i < 256) :
    storeRead d (storeWrite d m (256 * t + first) vs) (256 * c + i) =
      if c = t ∧ first ≤ i ∧ i < first + vs.length then vs.getD (i - first) v
      else storeRead d m (256 * c + i) := by
  rw [storeRead_storeWrite]
  by_cases h : c = t ∧ first ≤ i ∧ i < first + vs.length
  · obtain ⟨rfl, h1, h2⟩ := h
    have e : 256 * c + i - (256 * c + first) = i - first := by omega
    rw [dif_pos (by omega), if_pos ⟨rfl, h1, h2⟩, List.getD_eq_getElem _ _ (by omega)]
    simp only [e]
  · rw [dif_neg, if_neg h]
    intro hin
    have hc : c = t := by omega
    exact h ⟨hc, by omega, by omega⟩

/-! ### The bodies -/

/-- A body of two number bytes and a list of entries of one size. -/
def runBody {α : Type} (table first : Nat) (xs : List α) (bytes : α → List Byte) : List Byte :=
  bytesOf 1 table ++ bytesOf 1 first ++ xs.flatMap bytes

section
variable {α : Type} {table first k : Nat} {xs : List α} {bytes : α → List Byte}
  (hk : ∀ x, (bytes x).length = k)

theorem fieldAt_table_runBody (h : table < 256) : fieldAt (runBody table first xs bytes) 0 1 = table := by
  rw [runBody, List.append_assoc, fieldAt_bytesOf]
  exact Nat.mod_eq_of_lt h

theorem fieldAt_first_runBody (h : first < 256) : fieldAt (runBody table first xs bytes) 1 1 = first := by
  rw [runBody, List.append_assoc, fieldAt_append (by simp), length_bytesOf, Nat.sub_self,
    fieldAt_bytesOf]
  exact Nat.mod_eq_of_lt h

include hk

theorem length_runBody : (runBody table first xs bytes).length = 2 + k * xs.length := by
  have hlen : (xs.flatMap bytes).length = k * xs.length := by
    simp [List.length_flatMap, hk, mul_comm]
  rw [runBody, List.length_append, List.length_append, length_bytesOf, length_bytesOf, hlen]

theorem groupsOf_runBody (hpos : 0 < k) :
    groupsOf k (((runBody table first xs bytes).length - 2) / k)
      ((runBody table first xs bytes).drop 2) = xs.map bytes := by
  have hn : ((runBody table first xs bytes).length - 2) / k = xs.length := by
    rw [length_runBody hk, Nat.add_sub_cancel_left, Nat.mul_div_cancel_left _ hpos]
  rw [hn, runBody, List.drop_left' (by simp)]
  exact groupsOf_flatMap k xs bytes fun x _ => hk x
end

theorem curveEntriesOf_runBody {table first : Nat} (codes : List (BitVec 12)) :
    curveEntriesOf (runBody table first codes fun v => bytesOf 2 v.toNat) =
      codes.map BitVec.toNat := by
  unfold curveEntriesOf
  rw [groupsOf_runBody (fun v => length_bytesOf 2 _) (by decide), List.map_map]
  refine List.map_congr_left fun v _ => ?_
  have hlt := v.isLt
  exact numberOf_bytesOf_of_lt (by omega)

theorem paletteEntriesOf_runBody {table first : Nat} (entries : List Rgb) :
    paletteEntriesOf (runBody table first entries colourBytes) = entries := by
  unfold paletteEntriesOf
  rw [groupsOf_runBody length_colourBytes (by decide), List.map_map]
  exact List.map_id _

/-! ### LOAD-CURVE -/

theorem length_groupsOf (k n : Nat) (bs : List Byte) : (groupsOf k n bs).length = n := by
  induction n generalizing bs with
  | zero => rfl
  | succ n ih => rw [groupsOf, List.length_cons, ih]

theorem groupsOf_getElem? {k n : Nat} {bs : List Byte} {i : Nat} (h : i < n) :
    (groupsOf k n bs)[i]? = some ((bs.drop (k * i)).take k) := by
  induction n generalizing bs i with
  | zero => omega
  | succ n ih =>
    cases i with
    | zero => rfl
    | succ i =>
      rw [groupsOf, List.getElem?_cons_succ, ih (by omega), List.drop_drop]
      rw [show k + k * i = k * (i + 1) by ring]

theorem length_curveEntriesOf (body : List Byte) :
    (curveEntriesOf body).length = (body.length - 2) / 2 := by
  rw [curveEntriesOf, List.length_map, length_groupsOf]

theorem length_paletteEntriesOf (body : List Byte) :
    (paletteEntriesOf body).length = (body.length - 2) / 3 := by
  rw [paletteEntriesOf, List.length_map, length_groupsOf]

/-- A code of a LOAD-CURVE body, by its place. -/
theorem mem_curveEntriesOf {body : List Byte} {i : Nat} (h : i < (body.length - 2) / 2) :
    fieldAt body (2 + 2 * i) 2 ∈ curveEntriesOf body := by
  refine List.mem_of_getElem? (i := i) ?_
  rw [curveEntriesOf, List.getElem?_map, groupsOf_getElem? h, List.drop_drop]
  rfl

theorem exec_loadCurve (s : State) : exec .loadCurve s = .next (s.serve 0x11 handleLoadCurve) := rfl

section
variable {s : State} {body : List Byte}

theorem handleLoadCurve_frozen (h : s.commits.curveFrozen = true) :
    handleLoadCurve body s = (s, ⟨.frozen, []⟩) := if_pos h

theorem handleLoadCurve_bad (h : s.commits.curveFrozen = false)
    (hb : 2 < fieldAt body 0 1 ∨ 256 < fieldAt body 1 1 + (curveEntriesOf body).length ∨
      (curveEntriesOf body).any (fun v => decide (4095 < v)) = true) :
    handleLoadCurve body s = (s, ⟨.badField, []⟩) := by
  simp only [handleLoadCurve, h, Bool.false_eq_true, if_false]
  by_cases h1 : 2 < fieldAt body 0 1
  · exact if_pos h1
  rw [if_neg h1]
  by_cases h2 : 256 < fieldAt body 1 1 + (curveEntriesOf body).length
  · exact if_pos h2
  rw [if_neg h2]
  exact if_pos ((hb.resolve_left h1).resolve_left h2)

theorem handleLoadCurve_ok (h : s.commits.curveFrozen = false) (h1 : fieldAt body 0 1 ≤ 2)
    (h2 : fieldAt body 1 1 + (curveEntriesOf body).length ≤ 256)
    (h3 : (curveEntriesOf body).any (fun v => decide (4095 < v)) = false) :
    handleLoadCurve body s = (s.withColours (s.colours.loadCurve (fieldAt body 0 1)
        (fieldAt body 1 1) (curveEntriesOf body)),
      ⟨.ok, bytesOf 1 (fieldAt body 0 1) ++ bytesOf 1 (fieldAt body 1 1) ++
        bytesOf 2 (curveEntriesOf body).length⟩) := by
  simp only [handleLoadCurve, h, Bool.false_eq_true, if_false, if_neg (Nat.not_lt.2 h1),
    if_neg (Nat.not_lt.2 h2), h3]
end

theorem lengthOk_loadCurve (body : List Byte) : lengthOk 0x11 body =
    decide (body.length % 2 = 0 ∧ 4 ≤ body.length ∧ body.length ≤ 514) := rfl

theorem map_ofNat_toNat (codes : List (BitVec 12)) :
    (codes.map BitVec.toNat).map (BitVec.ofNat 12) = codes := by
  rw [List.map_map]
  conv_rhs => rw [← List.map_id codes]
  exact List.map_congr_left fun v _ => by simp

/-- LOAD-CURVE of a run that lies inside its channel. -/
theorem exec_loadCurve_of_run {s : State} {f : Request} {channel first : Nat}
    {codes : List (BitVec 12)} (hch : channel < 3) (hne : 1 ≤ codes.length)
    (hrun : first + codes.length ≤ 256) (hfree : ∀ c ∈ s.commits.queue, c.curve = false)
    (ha : Asks s f 0x11 (runBody channel first codes fun v => bytesOf 2 v.toNat)) :
    exec .loadCurve s = .next { s.answer f .ok
        (bytesOf 1 channel ++ bytesOf 1 first ++ bytesOf 2 codes.length) with
      colours := { s.colours with
        stagedCurve := storeWrite curveDefault s.colours.stagedCurve (256 * channel + first) codes
        modified := true } } := by
  have hnot : s.takeRequest.commits.curveFrozen = false :=
    List.any_eq_false.2 fun c hc => by rw [hfree c hc]; decide
  have htable : fieldAt (runBody channel first codes fun v => bytesOf 2 v.toNat) 0 1 = channel :=
    fieldAt_table_runBody (by omega)
  have hfirst : fieldAt (runBody channel first codes fun v => bytesOf 2 v.toNat) 1 1 = first :=
    fieldAt_first_runBody (by omega)
  have hentries := curveEntriesOf_runBody (table := channel) (first := first) codes
  have hsmall : (curveEntriesOf (runBody channel first codes fun v => bytesOf 2 v.toNat)).any
      (fun v => decide (4095 < v)) = false := by
    rw [hentries, List.any_eq_false]
    intro v hv
    obtain ⟨c, -, rfl⟩ := List.mem_map.1 hv
    have := c.isLt
    simp; omega
  have hl : lengthOk 0x11 (runBody channel first codes fun v => bytesOf 2 v.toNat) = true := by
    rw [lengthOk_loadCurve, length_runBody fun v => length_bytesOf 2 _]
    exact decide_eq_true ⟨by omega, by omega, by omega⟩
  have hok := handleLoadCurve_ok hnot (by omega)
    (by rw [hfirst, hentries, List.length_map]; exact hrun) hsmall
  rw [htable, hfirst, hentries, List.length_map] at hok
  rw [exec_effect_of_handle (exec_loadCurve s) ha hl hok, Colours.loadCurve, map_ofNat_toNat]
  rfl

/-! ### LOAD-PALETTE -/

theorem exec_loadPalette (s : State) :
    exec .loadPalette s = .next (s.serve 0x12 handleLoadPalette) := rfl

theorem handleLoadPalette_bad {s : State} {body : List Byte}
    (hb : 3 < fieldAt body 0 1 ∨ 256 < fieldAt body 1 1 + (paletteEntriesOf body).length) :
    handleLoadPalette body s = (s, ⟨.badField, []⟩) := by
  unfold handleLoadPalette
  dsimp only
  by_cases h1 : 3 < fieldAt body 0 1
  · exact if_pos h1
  rw [if_neg h1]
  exact if_pos (hb.resolve_left h1)

theorem handleLoadPalette_ok {s : State} {body : List Byte} (h1 : fieldAt body 0 1 ≤ 3)
    (h2 : fieldAt body 1 1 + (paletteEntriesOf body).length ≤ 256) :
    handleLoadPalette body s = (s.withColours (s.colours.loadPalette (fieldAt body 0 1)
        (fieldAt body 1 1) (paletteEntriesOf body)),
      ⟨.ok, bytesOf 1 (fieldAt body 0 1) ++ bytesOf 1 (fieldAt body 1 1) ++
        bytesOf 2 (paletteEntriesOf body).length⟩) := by
  simp only [handleLoadPalette, if_neg (Nat.not_lt.2 h1), if_neg (Nat.not_lt.2 h2)]

theorem lengthOk_loadPalette (body : List Byte) : lengthOk 0x12 body =
    decide ((body.length - 2) % 3 = 0 ∧ 5 ≤ body.length ∧ body.length ≤ 770) := rfl

/-- LOAD-PALETTE of a run that lies inside its palette. -/
theorem exec_loadPalette_of_run {s : State} {f : Request} {palette first : Nat}
    {entries : List Rgb} (hp : palette < 4) (hne : 1 ≤ entries.length)
    (hrun : first + entries.length ≤ 256)
    (ha : Asks s f 0x12 (runBody palette first entries colourBytes)) :
    exec .loadPalette s = .next { s.answer f .ok
        (bytesOf 1 palette ++ bytesOf 1 first ++ bytesOf 2 entries.length) with
      colours := { s.colours with
        palettes := storeWrite paletteDefault s.colours.palettes (256 * palette + first)
          entries } } := by
  have htable : fieldAt (runBody palette first entries colourBytes) 0 1 = palette :=
    fieldAt_table_runBody (by omega)
  have hfirst : fieldAt (runBody palette first entries colourBytes) 1 1 = first :=
    fieldAt_first_runBody (by omega)
  have hentries := paletteEntriesOf_runBody (table := palette) (first := first) entries
  have hl : lengthOk 0x12 (runBody palette first entries colourBytes) = true := by
    rw [lengthOk_loadPalette, length_runBody length_colourBytes]
    exact decide_eq_true ⟨by omega, by omega, by omega⟩
  have hok := handleLoadPalette_ok (s := s.takeRequest) (body := runBody palette first entries colourBytes)
    (by omega) (by rw [hfirst, hentries]; exact hrun)
  rw [htable, hfirst, hentries] at hok
  rw [exec_effect_of_handle (exec_loadPalette s) ha hl hok]
  rfl

/-- Settles O20: a run inside one table, and the checks that keep it there. -/
theorem colourTableLoadsWriteTheirRuns : Obligations.ColourTableLoadsWriteTheirRuns := by
  refine ⟨fun s f => ⟨fun body hl ha => ⟨fun hfrozen => ?_, fun hfree hbad => ?_⟩,
    fun channel first codes hch hne hrun hfree ha => ?_⟩, fun s f => ⟨fun body hl ha hbad => ?_,
    fun palette first entries hp hne hrun ha => ?_⟩⟩
  · obtain ⟨c, hc, hcur⟩ := hfrozen
    have hany : s.takeRequest.commits.curveFrozen = true := List.any_eq_true.2 ⟨c, hc, hcur⟩
    exact exec_answer (exec_loadCurve s) ha hl (handleLoadCurve_frozen hany)
  · have hnot : s.takeRequest.commits.curveFrozen = false :=
      List.any_eq_false.2 fun c hc => by rw [hfree c hc]; decide
    refine exec_answer (exec_loadCurve s) ha hl (handleLoadCurve_bad hnot ?_)
    rw [fieldAt_one, fieldAt_one, length_curveEntriesOf]
    refine hbad.imp id (Or.imp id ?_)
    rintro ⟨i, hi, hv⟩
    exact List.any_eq_true.2 ⟨_, mem_curveEntriesOf hi, decide_eq_true hv⟩
  · exact ⟨_, exec_loadCurve_of_run hch hne hrun hfree ha,
      fun c i hi => storeRead_run s.colours.stagedCurve 0 hrun c i hi⟩
  · refine exec_answer (exec_loadPalette s) ha hl (handleLoadPalette_bad ?_)
    rw [fieldAt_one, fieldAt_one, length_paletteEntriesOf]
    exact hbad
  · exact ⟨_, exec_loadPalette_of_run hp hne hrun ha,
      fun p i hi => storeRead_run s.colours.palettes black hrun p i hi⟩

/-- Settles O21: the equations of Table 6-2, and the bounds under which no level overflows a byte. -/
theorem pixelConversions : Obligations.PixelConversions := by
  intro colours palette p a b c
  have ha := a.isLt
  have hb := b.isLt
  refine ⟨⟨rfl, ?_, ?_, ?_, ?_⟩, rfl, rfl, rfl, rfl⟩ <;> omega

end Sys2Proof.Machine
end

section
/-! PROOFS. A WRITE behind the fills of its surface (O31, O32): what it waits for, and that a WRITE
reads and changes nothing of the link, so that it may be taken late. -/

namespace Sys2Proof.Machine

/-! ### A WRITE and the link -/

section
variable (s : State) (l : Link)

theorem State.makeData_withLink (id : Nat) (t : Tile) (m : Memory) :
    (s.withLink l).makeData id t m = (s.makeData id t m).withLink l := by
  unfold State.makeData
  rw [show (s.withLink l).pool = s.pool from rfl]
  dsimp only
  split <;> rfl

theorem State.resolveTile_withLink (id pos : Nat) (t : Tile) :
    (s.withLink l).resolveTile id pos t = (s.resolveTile id pos t).withLink l := by
  unfold State.resolveTile
  rw [show (s.withLink l).pool = s.pool from rfl]
  cases s.pool.contentOf t
  · exact s.makeData_withLink l _ _ _
  · rfl
  · exact s.makeData_withLink l _ _ _

theorem State.writePixel_withLink (id x y : Nat) (c : Rgb) :
    (s.withLink l).writePixel id x y c = (s.writePixel id x y c).withLink l := by
  unfold State.writePixel
  rw [show (s.withLink l).surf id = s.surf id from rfl]
  dsimp only
  cases (s.surf id).drawBank[positionOfPixel (s.surf id).width x y]? with
  | none => rfl
  | some t => dsimp only; rw [State.resolveTile_withLink]; rfl

theorem State.ingestPixel_withLink (st : Stream) (bs : List Byte) :
    (s.withLink l).ingestPixel st bs = (s.ingestPixel st bs).withLink l := by
  unfold State.ingestPixel
  rw [show (s.withLink l).colours = s.colours from rfl]
  dsimp only
  rw [State.writePixel_withLink, show ∀ t : State, (t.withLink l).surf st.surface =
    t.surf st.surface from fun _ => rfl]
  split <;> rfl

theorem State.ingest_withLink (ps : List (List Byte)) (st : Stream) (n : Nat) :
    (s.withLink l).ingest ps st n = ((s.ingest ps st n).1.withLink l, (s.ingest ps st n).2) := by
  induction ps generalizing s st n with
  | nil => rfl
  | cons p ps ih =>
    unfold State.ingest
    split
    · rfl
    · rw [State.ingestPixel_withLink, ih]

theorem State.takeWrite_withLink (slot : Nat) (st : Stream) (payload : List Byte) :
    (s.withLink l).takeWrite slot st payload =
      ((s.takeWrite slot st payload).1.withLink l, (s.takeWrite slot st payload).2) := by
  unfold State.takeWrite
  dsimp only
  rw [State.ingest_withLink]
  rfl

/-- What a WRITE comes to depends on no part of the link, and leaves it as it stands. -/
theorem handleWrite_withLink (body : List Byte) :
    handleWrite body (s.withLink l) =
      ((handleWrite body s).1.withLink l, (handleWrite body s).2) := by
  unfold handleWrite
  dsimp only
  rw [show (s.withLink l).slotAt (fieldAt body 0 1) = s.slotAt (fieldAt body 0 1) from rfl]
  cases s.slotAt (fieldAt body 0 1) with
  | none => split_ifs <;> rfl
  | some st =>
    dsimp only
    rw [State.takeWrite_withLink]
    split_ifs <;> rfl

end

/-! ### When a WRITE waits (R93) -/

theorem State.holdsWrite_eq_true {s : State} {body : List Byte} :
    s.holdsWrite body = true ↔
      ∃ st, s.slotAt (byteAt body 0).toNat = some st ∧ 0 < (s.surf st.surface).fills := by
  unfold State.holdsWrite
  rw [fieldAt_one]
  cases s.slotAt (byteAt body 0).toNat with
  | none => simp
  | some st => simp

theorem State.holdsWrite_eq_false {s : State} {body : List Byte}
    (h : ∀ st, s.slotAt (byteAt body 0).toNat = some st → (s.surf st.surface).fills = 0) :
    s.holdsWrite body = false := by
  rw [Bool.eq_false_iff]
  intro hh
  obtain ⟨st, hst, hpos⟩ := State.holdsWrite_eq_true.1 hh
  rw [h st hst] at hpos
  exact absurd hpos (lt_irrefl 0)

theorem exec_write (s : State) : exec .write s = execWrite s := rfl
theorem exec_writeHoldEnd (s : State) : exec .writeHoldEnd s = execWriteHoldEnd s := rfl

theorem lengthOk_write (body : List Byte) :
    lengthOk 0x31 body = decide (4 ≤ body.length ∧ body.length ≤ 1024) := rfl

/-- A WRITE of the right length that is not held is served like any request. -/
theorem exec_write_of_asks {s : State} {f : Request} {body : List Byte}
    (ha : Asks s f 0x31 body) (hh : s.holdsWrite body = false) :
    exec .write s = .next (s.serve 0x31 handleWrite) := by
  obtain ⟨-, -, -, -, rfl⟩ := id ha
  simp [exec_write, execWrite, ha.next, hh]

/-- Settles O31: the frame leaves the WAITING frames and becomes the frame under execution. -/
theorem writeIsHeldBehindFills : Obligations.WriteIsHeldBehindFills := by
  intro s f st h4 h1024 hslot hfills ha
  have hl : lengthOk f.kind f.body = true := by
    rw [ha.2.2.2.1, lengthOk_write]
    exact decide_eq_true ⟨h4, h1024⟩
  have hhold : s.holdsWrite f.body = true := State.holdsWrite_eq_true.2 ⟨st, hslot, hfills⟩
  simp only [exec_write, execWrite, ha.next]
  rw [if_pos ⟨ha.2.2.2.1, hl, hhold⟩]
  rfl

/-- Settles O32: the same handler runs in both cases, and the link it leaves is the link it found. -/
theorem heldWriteIsExecuted : Obligations.HeldWriteIsExecuted := by
  intro s e hrun hexec hkind hl hfills
  have hfree : s.holdsWrite e.request.body = false := State.holdsWrite_eq_false hfills
  have ha : Asks (s.withLink { s.link with
      executing := none, inbound := e.request :: s.link.inbound }) e.request 0x31 e.request.body :=
    ⟨hrun, rfl, rfl, hkind, rfl⟩
  have hnow : exec .writeHoldEnd s =
      .next ((handleWrite e.request.body s).1.endHeld e (handleWrite e.request.body s).2) := by
    simp only [exec_writeHoldEnd, execWriteHoldEnd, hexec, hfree]
    rfl
  have hlink : (handleWrite e.request.body s).1.link = s.link := (silent_handleWrite _ _).link
  have hwrite : exec .write (s.withLink { s.link with
      executing := none, inbound := e.request :: s.link.inbound }) =
      .next ((handleWrite e.request.body s).1.withLink (s.link.queueReply e.request
        (replyTo e.request (handleWrite e.request.body s).2))) := by
    rw [exec_write_of_asks ha hfree, State.serve_of_asks ha hl, State.takeRequest,
      show ∀ k l, (s.withLink k).withLink l = s.withLink l from fun _ _ => rfl,
      handleWrite_withLink]
    rfl
  refine ⟨_, hwrite, fun horphan => ?_, fun horphan => ?_⟩ <;> rw [hnow]
  · simp only [State.endHeld, horphan, Bool.false_eq_true, if_false, State.queueReply, hlink]
  · simp only [State.endHeld, horphan, if_true, hlink]
    rfl

end Sys2Proof.Machine
end

section
/-! PROOFS. The surface records (O23, O27): what DEFINE allocates and writes, and where QUERY puts
each field. -/

namespace Sys2Proof.Machine

/-! ### DEFINE -/

/-- The body of a DEFINE request. -/
def defineBody (id w h banks : Nat) : List Byte :=
  bytesOf 1 id ++ bytesOf 2 w ++ bytesOf 2 h ++ bytesOf 1 banks

theorem defineBody_eq (id w h banks : Nat) : defineBody id w h banks =
    bytesOf 1 id ++ (bytesOf 2 w ++ (bytesOf 2 h ++ bytesOf 1 banks)) := by
  simp only [defineBody, List.append_assoc]

theorem lengthOk_define (body : List Byte) : lengthOk 0x20 body = decide (body.length = 6) := rfl

theorem lengthOk_defineBody (id w h banks : Nat) : lengthOk 0x20 (defineBody id w h banks) = true := by
  rw [lengthOk_define, defineBody_eq]
  simp

theorem defineBody_fields {id w h banks : Nat} (hid : id < 256) (hw : w < 65536) (hh : h < 65536)
    (hb : banks < 256) :
    fieldAt (defineBody id w h banks) 0 1 = id ∧ fieldAt (defineBody id w h banks) 1 2 = w ∧
      fieldAt (defineBody id w h banks) 3 2 = h ∧ fieldAt (defineBody id w h banks) 5 1 = banks := by
  rw [defineBody_eq]
  refine ⟨?_, ?_, ?_, ?_⟩ <;> simp [fieldAt_append, fieldAt_bytesOf, fieldAt_bytesOf_nil] <;> omega

/-- The state behind an accepted DEFINE, block by block. -/
theorem State.defineSurface_eq (s : State) {id w h banks : Nat} (hb : banks = 1 ∨ banks = 2) :
    s.defineSurface id w h banks = { s with
      surfaces := s.surfaces.setIfInBounds id (definedSurface w h banks
        (s.pool.free.take (tileCount w h))
        (if banks = 2 then (s.pool.free.drop (tileCount w h)).take (tileCount w h) else []))
      pool := ⟨s.pool.free.drop (banks * tileCount w h),
        (s.defineSurface id w h banks).pool.content, s.pool.pixels⟩ } := by
  have hfree : (s.defineSurface id w h banks).pool.free =
      s.pool.free.drop (banks * tileCount w h) := by
    rw [State.defineSurface_free]
    rcases hb with rfl | rfl
    · simp
    · rw [if_pos rfl, List.drop_drop, Nat.two_mul]
  rw [← hfree, ← State.defineSurface_pixels s id w h banks]
  rcases hb with rfl | rfl
  · rfl
  · rw [← Pool.allocate_free]; rfl

/-- The tiles that DEFINE allocates are the first of the free list. -/
theorem mem_allocated {free : List Tile} {banks n : Nat} (hb : banks = 1 ∨ banks = 2) (x : Tile) :
    (x ∈ free.take n ∨ banks = 2 ∧ x ∈ (free.drop n).take n) ↔ x ∈ free.take (banks * n) := by
  rcases hb with rfl | rfl
  · simp
  · simp [Nat.two_mul, List.take_add]

/-- The dimensions and the bank count that DEFINE takes. -/
def dimensionsOk (id w h banks : Nat) : Prop :=
  ¬ (31 < id ∨ w < 1 ∨ 512 < w ∨ h < 1 ∨ 256 < h ∨ (banks ≠ 1 ∧ banks ≠ 2))

section
variable {s : State} {body : List Byte} {id w h banks : Nat}
  (hf : fieldAt body 0 1 = id ∧ fieldAt body 1 2 = w ∧ fieldAt body 3 2 = h ∧
    fieldAt body 5 1 = banks)
include hf

theorem handleDefine_bad (hbad : ¬ dimensionsOk id w h banks) :
    handleDefine body s = (s, ⟨.badField, []⟩) := by
  obtain ⟨rfl, rfl, rfl, rfl⟩ := hf
  exact if_pos (not_not.1 hbad)

theorem handleDefine_inUse (hok : dimensionsOk id w h banks) (hst : (s.surf id).defined) :
    handleDefine body s = (s, ⟨.idInUse, []⟩) := by
  obtain ⟨rfl, rfl, rfl, rfl⟩ := hf
  exact (if_neg hok).trans (if_pos hst)

theorem handleDefine_retiring (hok : dimensionsOk id w h banks)
    (hst : (s.surf id).state = .retiring) :
    handleDefine body s = (s, ⟨.retiring, []⟩) := by
  obtain ⟨rfl, rfl, rfl, rfl⟩ := hf
  refine (if_neg hok).trans ((if_neg ?_).trans (if_pos hst))
  rw [hst]; decide

theorem handleDefine_free (hok : dimensionsOk id w h banks) (hst : (s.surf id).state = .free) :
    handleDefine body s =
      if s.pool.free.length < banks * tileCount w h then
        (s, ⟨.noSpace, bytesOf 2 s.pool.free.length⟩)
      else (s.defineSurface id w h banks, ⟨.ok, bytesOf 2 (tileCount w h) ++
        bytesOf 2 (s.defineSurface id w h banks).pool.free.length⟩) := by
  obtain ⟨rfl, rfl, rfl, rfl⟩ := hf
  refine (if_neg hok).trans ((if_neg ?_).trans (if_neg ?_)) <;> rw [hst] <;> decide

end

theorem exec_define (s : State) : exec .define s = .next (s.serve 0x20 handleDefine) := rfl

/-- Settles O23: the checks in the order of Table 1-3, and the banks off the head of the free list. -/
theorem defineAllocatesFromTheFreeList : Obligations.DefineAllocatesFromTheFreeList := by
  intro s f id w h banks n hid hw hh hb hn ha
  obtain rfl : n = tileCount w h := hn
  have hf := defineBody_fields hid hw hh hb
  have hl := lengthOk_defineBody id w h banks
  refine ⟨fun hbad => ?_, fun h1 h2 h3 h4 h5 h6 => ?_⟩
  · exact exec_answer (exec_define s) ha hl (handleDefine_bad hf (not_not.2 hbad))
  have hok : dimensionsOk id w h banks := by unfold dimensionsOk; omega
  refine ⟨fun hst => ?_, fun hst => ?_, fun hst hroom => ?_, fun hst hroom => ?_⟩
  · exact exec_answer (exec_define s) ha hl (handleDefine_inUse hf hok hst)
  · exact exec_answer (exec_define s) ha hl (handleDefine_retiring hf hok hst)
  · exact exec_answer (exec_define s) ha hl
      ((handleDefine_free (s := s.takeRequest) hf hok hst).trans (if_pos hroom))
  · have heq := s.takeRequest.defineSurface_eq (id := id) (w := w) (h := h) h6
    refine ⟨(s.takeRequest.defineSurface id w h banks).pool.content, ?_, fun t => ?_⟩
    · rw [exec_effect_of_handle (exec_define s) ha hl
        ((handleDefine_free (s := s.takeRequest) hf hok hst).trans (if_neg (Nat.not_lt.2 hroom))), heq,
        List.length_drop]
      rfl
    · exact (State.defineSurface_contentOf s.takeRequest id w h banks t).trans
        (if_congr (mem_allocated h6 t) rfl rfl)

/-! ### QUERY -/

theorem drop_append_of_length_le {xs ys : List Byte} {off : Nat} (h : xs.length ≤ off) :
    (xs ++ ys).drop off = ys.drop (off - xs.length) := by
  rw [List.drop_append, List.drop_eq_nil_of_le h, List.nil_append]

theorem take_signedBytes (v : Int) (ys : List Byte) :
    (signedBytes v ++ ys).take 2 = signedBytes v := List.take_left' (length_signedBytes v)

theorem byteAt_singleton_append (b : Byte) (ys : List Byte) : byteAt ([b] ++ ys) 0 = b := rfl

theorem byteAt_singleton (b : Byte) : byteAt [b] 0 = b := rfl

theorem colourOf_take_optionalColour (o : Option Rgb) (ys : List Byte) :
    colourOf ((optionalColour o ++ ys).take 3) = o.getD black := colourOf_take _ ys

/-- The slot byte of a QUERY reply. -/
def slotBytes (o : Option Nat) : List Byte :=
  match o with
  | some i => bytesOf 1 i
  | none => [0xFF]

@[simp] theorem length_slotBytes (o : Option Nat) : (slotBytes o).length = 1 := by cases o <;> rfl

theorem fieldAt_slotBytes (o : Option Nat) (ys : List Byte) :
    fieldAt (slotBytes o ++ ys) 0 1 = match o with
      | some i => i % 256
      | none => 0xFF := by
  cases o with
  | none => rfl
  | some i => exact fieldAt_bytesOf 1 i ys

/-- The key byte triple of a QUERY reply's staged set. -/
def stagedKeyColour (o : Option StagedKey) : Option Rgb :=
  match o with
  | some (.setTo c) => some c
  | some .clear | none => none

theorem length_optionalColour (o : Option Rgb) : (optionalColour o).length = 3 :=
  length_colourBytes _

/-- The layout of Table 10-11, each field ahead of the rest. -/
theorem queryBody_eq (r : Surface) : queryBody r =
    [r.state.code] ++ (bytesOf 2 r.width ++ (bytesOf 2 r.height ++ (bytesOf 1 r.banks ++
    (signedBytes r.live.x ++ (signedBytes r.live.y ++ ([r.live.z] ++ ([r.live.opacity] ++
    ([flagByte r.live.visible] ++ (bytesOf 2 r.live.vx ++ (bytesOf 2 r.live.vy ++
    (bytesOf 2 r.live.vw ++ (bytesOf 2 r.live.vh ++ ([flagByte r.live.key.isSome] ++
    (optionalColour r.live.key ++ (bytesOf 2 r.staged.mask ++ (signedBytes (r.staged.x.getD 0) ++
    (signedBytes (r.staged.y.getD 0) ++ ([r.staged.z.getD 0] ++ ([r.staged.opacity.getD 0] ++
    ([flagByte (r.staged.visible.getD false)] ++ (bytesOf 2 (r.staged.vx.getD 0) ++
    (bytesOf 2 (r.staged.vy.getD 0) ++ (bytesOf 2 (r.staged.vw.getD 0) ++
    (bytesOf 2 (r.staged.vh.getD 0) ++ (optionalColour (stagedKeyColour r.staged.key) ++
    (slotBytes r.stream ++ ([flagByte r.pendingTag.isSome] ++
    (bytesOf 2 (r.pendingTag.getD 0).toNat ++ (bytesOf 2 r.stale ++ (bytesOf 1 r.fills ++
    [flagByte r.dirty])))))))))))))))))))))))))))))) := by
  unfold queryBody
  cases r.stream <;> rcases r.staged.key with _ | (c | _) <;>
    simp only [List.append_assoc, List.cons_append, List.nil_append, slotBytes, stagedKeyColour]

theorem exec_query (s : State) : exec .query s = .next (s.serve 0x23 handleQuery) := rfl

theorem lengthOk_query (id : Byte) : lengthOk 0x23 [id] = true := rfl

theorem StagedAttrs.mask_lt (g : StagedAttrs) : g.mask < 65536 := by
  have h1 : ∀ b : Bool, b.toNat ≤ 1 := Bool.toNat_le
  have hx := h1 g.x.isSome
  have hy := h1 g.y.isSome
  have hz := h1 g.z.isSome
  have ho := h1 g.opacity.isSome
  have hv := h1 g.visible.isSome
  have hvx := h1 g.vx.isSome
  have hvy := h1 g.vy.isSome
  have hvw := h1 g.vw.isSome
  have hvh := h1 g.vh.isSome
  unfold StagedAttrs.mask
  split <;> omega

/-- Settles O27: each field found behind the fields ahead of it. -/
theorem queryReportsTheRecord : Obligations.QueryReportsTheRecord := by
  intro s f id ha
  have hid : fieldAt [id] 0 1 = id.toNat := fieldAt_one _ _
  refine ⟨fun hgt => ?_, ?_⟩
  · refine exec_answer (exec_query s) ha (lengthOk_query id) (if_pos ?_)
    rw [hid]; exact hgt
  rintro r rfl hle
  have hq : handleQuery [id] s.takeRequest = (s.takeRequest, ⟨.ok, queryBody (s.surf id.toNat)⟩) := by
    unfold handleQuery
    rw [hid]
    exact if_neg (Nat.not_lt.2 hle)
  refine ⟨queryBody (s.surf id.toNat), exec_answer (exec_query s) ha (lengthOk_query id) hq, ?_⟩
  generalize s.surf id.toNat = r
  rw [queryBody_eq]
  simp only [fieldAt_append, byteAt_append, drop_append_of_length_le, length_bytesOf,
    length_signedBytes, length_slotBytes, length_optionalColour, List.length_singleton,
    Nat.reduceLeDiff, Nat.reduceSub, fieldAt_bytesOf, byteAt_singleton_append, byteAt_singleton,
    take_signedBytes, colourOf_take_optionalColour, fieldAt_slotBytes, Nat.reducePow, List.drop_zero,
    List.length_append, Nat.reduceAdd, true_and, and_true]
  have hpos : ∀ v : Int, -1024 ≤ v ∧ v ≤ 1023 → signedOf (signedBytes v) = v :=
    fun v h => signedOf_signedBytes (by omega) (by omega)
  refine ⟨by omega, by omega, by omega, hpos _, hpos _, by omega, by omega, by omega, by omega,
    Nat.mod_eq_of_lt r.staged.mask_lt, fun v hv => ?_, fun v hv => ?_, by omega, by omega, by omega,
    by omega, fun c hc => ?_, fun i hi hlt => ?_, fun hi => ?_,
    Nat.mod_eq_of_lt (r.pendingTag.getD 0).isLt, by omega, by omega⟩
  · rw [hv]; exact hpos v
  · rw [hv]; exact hpos v
  · rw [hc]; rfl
  · rw [hi]; exact Nat.mod_eq_of_lt (by omega)
  · rw [hi]

end Sys2Proof.Machine
end

section
/-! PROOFS. DESTROY (O24, O25): the work that it abandons, and what becomes of the record. -/

namespace Sys2Proof.Machine

/-! ### Notices offered ahead of a reply -/

theorem Link.offer_withInbound (l : Link) (fs : List Request) (n : Notice) :
    ({ l with inbound := fs }).offer n = { l.offer n with inbound := fs } := by
  have hnotices : ({ l with inbound := fs }).notices = l.notices := rfl
  unfold Link.offer
  rw [hnotices]
  by_cases h1 : l.lost = 0 ∧ l.notices < 24
  · rw [if_pos h1, if_pos h1]; rfl
  · by_cases h2 : l.lost ≠ 0 ∧ l.notices < 23
    · rw [if_neg h1, if_neg h1, if_pos h2, if_pos h2]; rfl
    · rw [if_neg h1, if_neg h1, if_neg h2, if_neg h2]

theorem Link.offerAll_withInbound (l : Link) (fs : List Request) (ns : List Notice) :
    ({ l with inbound := fs }).offerAll ns = { l.offerAll ns with inbound := fs } := by
  induction ns generalizing l with
  | nil => rfl
  | cons n ns ih => rw [Link.offerAll_cons, Link.offer_withInbound, ih, Link.offerAll_cons]

/-- A request taken, notices offered, and the reply behind them. -/
theorem Link.take_offerAll_queueReply (l : Link) (ns : List Notice) (f : Request) (a : Answer) :
    (({ l with inbound := l.inbound.tail }).offerAll ns).queueReply f (replyTo f a) =
      (l.offerAll ns).answered f a.status a.body := by
  rw [Link.offerAll_withInbound]
  simp only [Link.answered, Link.offerAll_inbound]
  rfl

/-! ### The records as a vector -/

/-- Records that agree with a vector's but at one id are that vector with the one replaced. -/
theorem State.surfaces_eq_of_surf {s t : State} {id : Nat} {r : Surface}
    (h : ∀ j, t.surf j = if j = id then r else s.surf j) :
    t.surfaces = s.surfaces.setIfInBounds id r := by
  apply Vector.ext
  intro j hj
  have ht : t.surfaces[j] = t.surf j := by simp [State.surf, hj]
  have hs : s.surfaces[j] = s.surf j := by simp [State.surf, hj]
  rw [ht, h j, Vector.getElem_setIfInBounds, hs]
  by_cases e : j = id
  · rw [if_pos e, if_pos e.symm]
  · rw [if_neg e, if_neg (Ne.symm e)]

/-! ### The work abandoned (R18) -/

theorem State.mem_copyTarget_iff {s : State} {id : Nat} {x : Tile} : x ∈ s.copyTarget id ↔
    ∃ pos < (s.surf id).back.length,
      s.engine.step = .copy id pos ∧ (s.surf id).back[pos]? = some x := by
  unfold State.copyTarget
  cases hstep : s.engine.step with
  | idle => simp
  | fill n p => simp
  | copy i pos =>
    dsimp only
    by_cases hi : i = id
    · rw [if_pos hi, Option.mem_toList]
      refine ⟨fun hx => ⟨pos, (List.getElem?_eq_some_iff.1 hx).1, by rw [hi], hx⟩, ?_⟩
      rintro ⟨p, -, hp, hx⟩
      cases hp
      exact hx
    · rw [if_neg hi]
      refine iff_of_false List.not_mem_nil ?_
      rintro ⟨p, -, hp, -⟩
      cases hp
      exact hi rfl

/-- The content states behind an abandonment: the STALE tiles of the back bank, and the tile of a
COPY in progress, are BLANK. -/
theorem State.abandonAll_contentOf (s : State) (id : Nat) (x : Tile) :
    (s.abandonAll id).1.pool.contentOf x =
      if x ∈ (s.surf id).back ∧ s.pool.contentOf x = .stale ∨
          (∃ pos < (s.surf id).back.length,
            s.engine.step = .copy id pos ∧ (s.surf id).back[pos]? = some x)
        then .blank else s.pool.contentOf x := by
  have hback : ((s.closeStreamOf id).surf id).back = (s.surf id).back := by
    rw [State.closeStreamOf_surf, if_pos rfl]
  have hwork := (s.closeStreamOf id).abandonWork_contentOf id x
  rw [State.closeStreamOf_pool, hback] at hwork
  refine hwork.trans (if_congr ?_ rfl rfl)
  rw [List.mem_append, Pool.mem_staleIn, State.mem_copyTarget_iff, hback, State.closeStreamOf_engine]

theorem State.abandonAll_free (s : State) (id : Nat) :
    (s.abandonAll id).1.pool.free = s.pool.free := by
  have h : (s.abandonAll id).1.pool.free = (s.closeStreamOf id).pool.free :=
    Pool.setContents_free _ _ _
  rw [h, State.closeStreamOf_pool]

theorem State.abandonAll_pixels (s : State) (id : Nat) :
    (s.abandonAll id).1.pool.pixels = s.pool.pixels := by
  have h : (s.abandonAll id).1.pool.pixels = (s.closeStreamOf id).pool.pixels :=
    Pool.setContents_pixels _ _ _
  rw [h, State.closeStreamOf_pool]

theorem State.abandonAll_engine (s : State) (id : Nat) : (s.abandonAll id).1.engine =
    { s.engine with
      jobs := s.engine.jobs.filter (·.surface != id)
      step := if s.engine.stepSurface = some id then .idle else s.engine.step } := by
  have h : (s.abandonAll id).1.engine = { (s.closeStreamOf id).engine with
      jobs := (s.closeStreamOf id).engine.jobs.filter (·.surface != id)
      step := if (s.closeStreamOf id).engine.stepSurface = some id then .idle
        else (s.closeStreamOf id).engine.step } := rfl
  rw [h, State.closeStreamOf_engine]

theorem State.abandonAll_removed (s : State) (id : Nat) :
    (s.abandonAll id).2 = s.engine.jobs.filter (·.surface == id) := by
  have h : (s.abandonAll id).2 = (s.closeStreamOf id).engine.jobs.filter (·.surface == id) := rfl
  rw [h, State.closeStreamOf_engine]

/-- An abandonment leaves every block as it stands but the records, the pool, the streams, the engine
and the link. -/
theorem State.abandonAll_eq (s : State) (id : Nat) : (s.abandonAll id).1 = { s with
    surfaces := (s.abandonAll id).1.surfaces
    pool := (s.abandonAll id).1.pool
    streams := (s.closeStreamOf id).streams
    engine := (s.abandonAll id).1.engine
    link := s.link.offerAll ((s.engine.jobs.filter (fun j => j.surface == id)).map
      (fun j => noticeFillDone j.number id true)) } := by
  have h : (s.abandonAll id).1 = { (s.closeStreamOf id) with
      surfaces := (s.abandonAll id).1.surfaces
      pool := (s.abandonAll id).1.pool
      engine := (s.abandonAll id).1.engine
      link := (s.closeStreamOf id).link.offerAll ((s.abandonAll id).2.map
        (fun j => noticeFillDone j.number id true)) } := rfl
  rw [State.abandonAll_removed, State.closeStreamOf_link] at h
  exact h.trans (by rw [s.closeStreamOf_eq id])

/-! ### The answer to DESTROY -/

/-- What the answer to an accepted DESTROY leaves in every block, whatever it makes of the record and
of the pool. -/
theorem destroyed_blocks {s x : State} {f : Request} {a : Answer} {id : Nat}
    (hx : x = { (s.takeRequest.abandonAll id).1 with surfaces := x.surfaces, pool := x.pool }) :
    let t := x.arbitrate.queueReply f (replyTo f a)
    t.surfaces = x.surfaces ∧ t.pool = x.pool ∧
      t.link = (s.link.offerAll ((s.engine.jobs.filter (fun j => j.surface == id)).map
          (fun j => noticeFillDone j.number id true))).answered f a.status a.body ∧
      (∀ i < 8, t.slotAt i = if (s.surf id).stream = some i then none else s.slotAt i) ∧
      t.engine.jobs = s.engine.jobs.filter (fun j => j.surface != id) ∧
      t.engine.counter = s.engine.counter ∧
      (s.engine.step ≠ .idle → s.engine.stepSurface ≠ some id →
        t.engine.step = s.engine.step ∧ t.engine.since = s.engine.since) ∧
      (s.engine.step = .idle ∨ s.engine.stepSurface = some id → t.engine.step = t.choice) ∧
      t.commits = s.commits ∧ t.colours = s.colours ∧ t.timing = s.timing ∧ t.scan = s.scan ∧
      t.control = s.control ∧ t.pins = s.pins ∧ t.now = s.now ∧ t.pending = s.pending := by
  have heng : x.engine = { s.engine with
      jobs := s.engine.jobs.filter (·.surface != id)
      step := if s.engine.stepSurface = some id then .idle else s.engine.step } := by
    rw [hx]; exact s.takeRequest.abandonAll_engine id
  rw [State.abandonAll_eq] at hx
  have hlink : x.link = ({ s.link with inbound := s.link.inbound.tail }).offerAll
      ((s.engine.jobs.filter (fun j : FillJob => j.surface == id)).map
        (fun j : FillJob => noticeFillDone j.number id true)) := by rw [hx]; rfl
  have hslot : ∀ i, x.slotAt i = if (s.surf id).stream = some i then none else s.slotAt i := by
    intro i
    rw [hx]
    exact s.takeRequest.closeStreamOf_slotAt id i
  refine ⟨x.arbitrate_surfaces, x.arbitrate_pool, ?_, fun i _ => (x.arbitrate_slotAt i).trans (hslot i),
    ?_, ?_, fun hbusy hother => ?_, fun hfree => ?_, ?_⟩
  · rw [State.queueReply, State.withLink_link, State.arbitrate_link, hlink]
    exact Link.take_offerAll_queueReply _ _ _ _
  · rw [State.queueReply, State.withLink_engine, State.arbitrate_jobs, heng]
  · rw [State.queueReply, State.withLink_engine, State.arbitrate_counter, heng]
  · have hstep : x.engine.step = s.engine.step := by rw [heng]; exact if_neg hother
    have hsame : x.arbitrate = x := by
      unfold State.arbitrate
      exact if_neg fun h => hbusy (hstep.symm.trans h.1)
    rw [State.queueReply, State.withLink_engine, hsame]
    exact ⟨hstep, by rw [heng]⟩
  · have hidle : x.engine.step = .idle := by
      rw [heng]
      dsimp only
      split
      · rfl
      · exact hfree.resolve_right ‹_›
    have hchoice : (x.arbitrate.queueReply f (replyTo f a)).choice = x.choice :=
      State.choice_congr x.arbitrate_surfaces x.arbitrate_pool x.arbitrate_jobs
    rw [hchoice, State.queueReply, State.withLink_engine, State.arbitrate_step, if_pos hidle]
  · simp only [State.queueReply, State.withLink_commits, State.withLink_colours,
      State.withLink_timing, State.withLink_scan, State.withLink_control, State.withLink_pins,
      State.withLink_now, State.withLink_pending, State.arbitrate_commits, State.arbitrate_colours,
      State.arbitrate_timing, State.arbitrate_scan, State.arbitrate_control, State.arbitrate_pins,
      State.arbitrate_now, State.arbitrate_pending]
    rw [hx]
    exact ⟨rfl, rfl, rfl, rfl, rfl, rfl, rfl, rfl⟩

section
variable {s : State} {id : Nat} {body : List Byte} (hb : fieldAt body 0 1 = id) (hid : id < 32)
include hb hid

theorem handleDestroy_frozen (hdef : (s.surf id).defined) (hp : (s.surf id).pendingTag ≠ none) :
    handleDestroy body s = (s, ⟨.inCommit, []⟩) := by
  have hcheck : surfaceCheck s id = none := surfaceCheck_eq_none.2 ⟨by omega, hdef⟩
  unfold handleDestroy
  dsimp only
  rw [hb, hcheck]
  exact if_pos (Option.isSome_iff_ne_none.2 hp)

theorem handleDestroy_staged (hst : (s.surf id).state = .staged)
    (hp : (s.surf id).pendingTag = none) :
    handleDestroy body s = (((s.abandonAll id).1.releaseSurface id).arbitrate,
      ⟨.ok, [0] ++ bytesOf 1 (s.engine.jobs.filter (·.surface == id)).length⟩) := by
  have hcheck : surfaceCheck s id = none := surfaceCheck_eq_none.2 ⟨by omega, .inl hst⟩
  unfold handleDestroy
  dsimp only
  rw [hb, hcheck]
  dsimp only
  rw [if_neg (by simp [Surface.frozen, hp]), if_pos hst, State.abandonAll_removed]
  rfl

theorem handleDestroy_live (hst : (s.surf id).state = .live) (hp : (s.surf id).pendingTag = none) :
    handleDestroy body s = (((s.abandonAll id).1.setSurf id { s.surf id with
        state := .retiring, staged := stagedNone, stream := none, stale := 0, fills := 0 }).arbitrate,
      ⟨.ok, [3] ++ bytesOf 1 (s.engine.jobs.filter (·.surface == id)).length⟩) := by
  have hcheck : surfaceCheck s id = none := surfaceCheck_eq_none.2 ⟨by omega, .inr hst⟩
  unfold handleDestroy
  dsimp only
  rw [hb, hcheck]
  dsimp only
  rw [if_neg (by simp [Surface.frozen, hp]), if_neg (by simp [hst]), State.abandonAll_removed,
    State.abandonAll_surf s hid, if_pos rfl]
  rfl

end

theorem exec_destroy (s : State) : exec .destroy s = .next (s.serve 0x21 handleDestroy) := rfl

theorem lengthOk_destroy (id : Nat) : lengthOk 0x21 (bytesOf 1 id) = true := rfl

theorem fieldAt_id {id : Nat} (hid : id < 32) : fieldAt (bytesOf 1 id) 0 1 = id := by
  rw [fieldAt_bytesOf_nil]
  exact Nat.mod_eq_of_lt (by omega)

/-- Settles O24: the abandonment, and the record that keeps its banks and live attributes. -/
theorem destroyRetiresALiveSurface : Obligations.DestroyRetiresALiveSurface := by
  refine ⟨fun s f id hid hdef hp ha => ?_, fun s f id hid hst hp ha => ?_⟩
  · exact exec_answer (exec_destroy s) ha (lengthOk_destroy id)
      (handleDestroy_frozen (fieldAt_id hid) hid hdef hp)
  have hexec := exec_effect_of_handle (exec_destroy s) ha (lengthOk_destroy id)
    (handleDestroy_live (s := s.takeRequest) (fieldAt_id hid) hid hst hp)
  obtain ⟨hsurfaces, hpool, hlink, hslot, hrest⟩ := destroyed_blocks (s := s) (id := id) (f := f)
    (a := ⟨.ok, [3] ++ bytesOf 1 (s.engine.jobs.filter (·.surface == id)).length⟩)
    (x := (s.takeRequest.abandonAll id).1.setSurf id { s.surf id with
        state := .retiring, staged := stagedNone, stream := none, stale := 0, fills := 0 }) rfl
  refine ⟨_, hexec, hsurfaces.trans (State.surfaces_eq_of_surf fun j => ?_), hlink, hslot, ?_, ?_,
    fun x => ?_, hrest⟩
  · rw [State.surf_setSurf_of_lt hid, State.abandonAll_surf _ hid]
    by_cases h : j = id <;> simp [h]
  · exact (congrArg Pool.free hpool).trans (s.takeRequest.abandonAll_free id)
  · exact (congrArg Pool.pixels hpool).trans (s.takeRequest.abandonAll_pixels id)
  · exact (congrArg (Pool.contentOf · x) hpool).trans (s.takeRequest.abandonAll_contentOf id x)

/-- Settles O25: the abandonment, and the tiles that join the tail of the free list. -/
theorem destroyFreesAStagedSurface : Obligations.DestroyFreesAStagedSurface := by
  intro s f id hid hst hp ha
  have hexec := exec_effect_of_handle (exec_destroy s) ha (lengthOk_destroy id)
    (handleDestroy_staged (s := s.takeRequest) (fieldAt_id hid) hid hst hp)
  rw [State.takeRequest_engine] at hexec
  obtain ⟨hsurfaces, hpool, hlink, hslot, hrest⟩ := destroyed_blocks (s := s) (id := id) (f := f)
    (a := ⟨.ok, [0] ++ bytesOf 1 (s.engine.jobs.filter (·.surface == id)).length⟩)
    (x := (s.takeRequest.abandonAll id).1.releaseSurface id) rfl
  have hbanks : ((s.takeRequest.abandonAll id).1.surf id).front = (s.surf id).front ∧
      ((s.takeRequest.abandonAll id).1.surf id).back = (s.surf id).back := by
    rw [State.abandonAll_surf _ hid, if_pos rfl]
    exact ⟨rfl, rfl⟩
  rw [State.releaseSurface_pool, hbanks.1, hbanks.2] at hpool
  refine ⟨_, hexec, hsurfaces.trans (State.surfaces_eq_of_surf fun j => ?_), hlink, hslot, ?_, ?_,
    fun x => ?_, hrest⟩
  · rw [State.releaseSurface_surf _ hid, State.abandonAll_surf _ hid]
    by_cases h : j = id <;> simp [h]
  · rw [hpool, Pool.setContents_free, State.abandonAll_free, List.append_assoc]
    rfl
  · rw [hpool, Pool.setContents_pixels]
    exact s.takeRequest.abandonAll_pixels id
  · rw [hpool, Pool.contentOf_setContents]
    split
    · rfl
    · rename_i hx
      refine (s.takeRequest.abandonAll_contentOf id x).trans (if_neg ?_)
      rintro (⟨hback, -⟩ | ⟨pos, -, -, hback⟩)
      · exact hx (List.mem_append_right _ hback)
      · exact hx (List.mem_append_right _ (List.mem_of_getElem? hback))

end Sys2Proof.Machine
end

section
/-! PROOFS. FILL (O35, O36): the tile sequence of a rectangle, the checks of Table 5-3, and the
choice of the arbiter. -/

namespace Sys2Proof.Machine

/-! ### The tile sequence (R84) -/

/-- The cover of a touched tile: every content pixel of the tile lies in the rectangle. -/
theorem Rect.coversTile_iff {r : Rect} {w h col row : Nat} (hw : 8 * col < w) (hh : 8 * row < h) :
    r.coversTile w h col row = true ↔
      ∀ px py, px < w → py < h → px / 8 = col → py / 8 = row → r.covers px py = true := by
  simp only [Rect.coversTile, Rect.covers, decide_eq_true_eq]
  constructor
  · rintro ⟨hx, hxw, hy, hyh⟩ px py hpx hpy rfl rfl
    omega
  · intro hall
    obtain ⟨hx, -, hy, -⟩ := hall (8 * col) (8 * row) hw hh (by omega) (by omega)
    obtain ⟨-, hxw, -, hyh⟩ := hall (min (8 * col + 8) w - 1) (min (8 * row + 8) h - 1)
      (by omega) (by omega) (by omega) (by omega)
    omega

section
variable {w h : Nat} {r : Rect}

theorem mem_tileSequence (pos : Nat) (full : Bool) : (pos, full) ∈ tileSequence w h r ↔
    ∃ row col, r.y / 8 ≤ row ∧ row < r.y / 8 + ((r.y + r.height - 1) / 8 + 1 - r.y / 8) ∧
      r.x / 8 ≤ col ∧ col < r.x / 8 + ((r.x + r.width - 1) / 8 + 1 - r.x / 8) ∧
      pos = row * tilesAcross w + col ∧ full = r.coversTile w h col row := by
  simp only [tileSequence, List.mem_flatMap, List.mem_map, List.mem_range, Prod.mk.injEq]
  constructor
  · rintro ⟨dr, hdr, dc, hdc, hpos, hfull⟩
    exact ⟨r.y / 8 + dr, r.x / 8 + dc, by omega, by omega, by omega, by omega, hpos.symm,
      hfull.symm⟩
  · rintro ⟨row, col, h1, h2, h3, h4, hpos, hfull⟩
    have hrow : r.y / 8 + (row - r.y / 8) = row := by omega
    have hcol : r.x / 8 + (col - r.x / 8) = col := by omega
    exact ⟨row - r.y / 8, by omega, col - r.x / 8, by omega, by rw [hrow, hcol, hpos],
      by rw [hrow, hcol, hfull]⟩

theorem length_tileSequence : (tileSequence w h r).length =
    ((r.y + r.height - 1) / 8 + 1 - r.y / 8) * ((r.x + r.width - 1) / 8 + 1 - r.x / 8) := by
  simp [tileSequence, List.length_flatMap]

/-- Positions rise along a row, and every row ends before the next begins. -/
theorem tileSequence_ascending (hcols : r.x + r.width ≤ w) (hw : 1 ≤ r.width) :
    ((tileSequence w h r).map Prod.fst).Pairwise (· < ·) := by
  have hlast : (r.x + r.width - 1) / 8 < tilesAcross w := by unfold tilesAcross; omega
  rw [List.pairwise_map, tileSequence, List.pairwise_flatMap]
  refine ⟨fun dr _ => ?_, List.pairwise_lt_range.imp fun {dr dr'} hlt => ?_⟩
  · rw [List.pairwise_map]
    exact List.pairwise_lt_range.imp fun {dc dc'} hlt => by dsimp only; omega
  · intro a ha b hb
    obtain ⟨dc, hdc, rfl⟩ := List.mem_map.1 ha
    obtain ⟨dc', -, rfl⟩ := List.mem_map.1 hb
    rw [List.mem_range] at hdc
    calc (r.y / 8 + dr) * tilesAcross w + (r.x / 8 + dc)
        < (r.y / 8 + dr) * tilesAcross w + tilesAcross w := by omega
      _ = (r.y / 8 + dr + 1) * tilesAcross w := (Nat.succ_mul _ _).symm
      _ ≤ (r.y / 8 + dr') * tilesAcross w := Nat.mul_le_mul_right _ (by omega)
      _ ≤ _ := Nat.le_add_right _ _

end

/-- Settles O35: rows of ascending columns, and the cover of each tile. -/
theorem tileSequenceOfARectangle : Obligations.TileSequenceOfARectangle := by
  intro w h r h1 h2 hw hh
  refine ⟨tileSequence_ascending hw h1, ?_, fun pos full => ?_⟩
  · rw [length_tileSequence, Nat.mul_comm]
    congr 1 <;> omega
  rw [mem_tileSequence]
  constructor
  · rintro ⟨row, col, hr1, hr2, hc1, hc2, hpos, rfl⟩
    exact ⟨row, col, hr1, by omega, hc1, by omega, hpos,
      Rect.coversTile_iff (by omega) (by omega)⟩
  · rintro ⟨row, col, hr1, hr2, hc1, hc2, hpos, hfull⟩
    refine ⟨row, col, hr1, by omega, hc1, by omega, hpos, ?_⟩
    rw [Bool.eq_iff_iff, Rect.coversTile_iff (by omega) (by omega)]
    exact hfull

/-! ### The arbiter's choice (R87) -/

theorem State.sweepSurface_eq_some {s : State} {id : Nat} (hid : id < 32)
    (hstale : 0 < (s.surf id).stale) (hlow : ∀ i < id, (s.surf i).stale = 0) :
    s.sweepSurface = some id := by
  unfold State.sweepSurface surfaceIds
  rw [List.find?_range_eq_some]
  refine ⟨decide_eq_true hstale, List.mem_range.2 hid, fun i hi => ?_⟩
  simp [hlow i hi]

theorem State.sweepSurface_eq_none {s : State} (h : ∀ id < 32, (s.surf id).stale = 0) :
    s.sweepSurface = none := by
  unfold State.sweepSurface surfaceIds
  rw [List.find?_eq_none]
  intro id hid
  simp [h id (List.mem_range.1 hid)]

theorem Pool.lowestStale_eq_some {p : Pool} {bank : List Tile} {pos : Nat} {x : Tile}
    (hx : bank[pos]? = some x) (hst : p.contentOf x = .stale)
    (hlow : ∀ i < pos, ∀ z, bank[i]? = some z → p.contentOf z ≠ .stale) :
    p.lowestStale bank = some pos := by
  obtain ⟨hlt, rfl⟩ := List.getElem?_eq_some_iff.1 hx
  unfold Pool.lowestStale
  rw [List.findIdx?_eq_some_iff_getElem]
  refine ⟨hlt, beq_iff_eq.2 hst, fun i hi => ?_⟩
  rw [beq_iff_eq]
  exact hlow i hi _ (List.getElem?_eq_getElem _)

/-- A sweep that is owed comes first. -/
theorem State.choice_copy {s : State} {id pos : Nat} (h : s.dueCopy = some (.copy id pos)) :
    s.choice = .copy id pos := by
  unfold State.choice
  rw [h]
  rfl

theorem State.choice_of_no_sweep {s : State} (h : ∀ id < 32, (s.surf id).stale = 0) :
    s.choice = s.dueFill.getD .idle := by
  unfold State.choice State.dueCopy
  rw [State.sweepSurface_eq_none h]
  rfl

theorem State.dueFill_of_head {s : State} {j : FillJob} {js : List FillJob} {e : Nat × Bool}
    (hj : s.engine.jobs = j :: js) (he : j.tiles[j.progress]? = some e) :
    s.dueFill = some (.fill j.number e.1) := by
  unfold State.dueFill
  rw [hj]
  dsimp only
  rw [he]
  rfl

/-- An engine with a fill to do is given something. -/
theorem State.choice_ne_idle {s : State} {j : FillJob} {js : List FillJob} {e : Nat × Bool}
    (hj : s.engine.jobs = j :: js) (he : j.tiles[j.progress]? = some e) : s.choice ≠ .idle := by
  have hcopy : ∀ c ∈ s.dueCopy, c ≠ .idle := by
    intro c hc
    unfold State.dueCopy at hc
    split at hc
    · cases hc
    · obtain ⟨pos, -, rfl⟩ := Option.map_eq_some_iff.1 hc
      exact EngineStep.noConfusion
  unfold State.choice
  rw [State.dueFill_of_head hj he]
  cases h : s.dueCopy with
  | none => exact EngineStep.noConfusion
  | some c => exact hcopy c h

/-! ### FILL -/

/-- The body of a FILL request. -/
def fillBody (id : Nat) (r : Rect) (c : Rgb) : List Byte :=
  bytesOf 1 id ++ bytesOf 2 r.x ++ bytesOf 2 r.y ++ bytesOf 2 r.width ++ bytesOf 2 r.height ++
    colourBytes c

theorem fillBody_eq (id : Nat) (r : Rect) (c : Rgb) : fillBody id r c =
    bytesOf 1 id ++ (bytesOf 2 r.x ++ (bytesOf 2 r.y ++ (bytesOf 2 r.width ++ (bytesOf 2 r.height ++
      colourBytes c)))) := by
  simp only [fillBody, List.append_assoc]

theorem lengthOk_fill (body : List Byte) : lengthOk 0x34 body = decide (body.length = 12) := rfl

theorem lengthOk_fillBody (id : Nat) (r : Rect) (c : Rgb) : lengthOk 0x34 (fillBody id r c) = true := by
  rw [lengthOk_fill, fillBody_eq]
  simp

/-- The rectangle of a FILL request. -/
def fillRect (body : List Byte) : Rect :=
  ⟨fieldAt body 1 2, fieldAt body 3 2, fieldAt body 5 2, fieldAt body 7 2⟩

theorem fillBody_fields {id : Nat} {r : Rect} {c : Rgb} (hid : id < 32) (hx : r.x < 65536)
    (hy : r.y < 65536) (hw : r.width < 65536) (hh : r.height < 65536) :
    fieldAt (fillBody id r c) 0 1 = id ∧ fillRect (fillBody id r c) = r ∧
      colourOf ((fillBody id r c).drop 9) = c := by
  rw [fillBody_eq]
  refine ⟨?_, ?_, ?_⟩
  · rw [fieldAt_bytesOf]; exact Nat.mod_eq_of_lt (by omega)
  · unfold fillRect
    simp only [fieldAt_append, length_bytesOf, Nat.reduceLeDiff, Nat.reduceSub, fieldAt_bytesOf,
      Nat.reducePow, Nat.mod_eq_of_lt hx, Nat.mod_eq_of_lt hy, Nat.mod_eq_of_lt hw,
      Nat.mod_eq_of_lt hh]
  · simp only [drop_append_of_length_le, length_bytesOf, Nat.reduceLeDiff, Nat.reduceSub,
      List.drop_zero, colourOf_colourBytes]

/-- The rectangle has pixels, and all of them in the content. -/
def Rect.fits (r : Rect) (w h : Nat) : Prop :=
  ¬ (r.width = 0 ∨ r.height = 0 ∨ w < r.x + r.width ∨ h < r.y + r.height)

section
variable {s : State} {body : List Byte} {id : Nat} {r : Rect}
  (hb : fieldAt body 0 1 = id) (hr : fillRect body = r) (hid : id < 32) (hdef : (s.surf id).defined)
include hb hr hid hdef

/-- The checks of FILL behind those of the surface. -/
theorem handleFill_defined : handleFill body s =
    if r.width = 0 ∨ r.height = 0 ∨ (s.surf id).width < r.x + r.width ∨
        (s.surf id).height < r.y + r.height then (s, ⟨.badField, []⟩)
    else if (s.surf id).double && (s.surf id).frozen then (s, ⟨.frozen, []⟩)
    else if 4 ≤ s.engine.jobs.length then (s, ⟨.engineFull, []⟩)
    else (s.queueFill id r (colourOf (body.drop 9)),
      ⟨.accepted, [s.engine.counter] ++ bytesOf 1 s.engine.jobs.length ++
        bytesOf 2 (tileSequence (s.surf id).width (s.surf id).height r).length ++
          bytesOf 1 ((s.surf id).fills + 1)⟩) := by
  subst hb hr
  have hcheck : surfaceCheck s (fieldAt body 0 1) = none :=
    surfaceCheck_eq_none.2 ⟨by omega, hdef⟩
  unfold handleFill
  dsimp only
  rw [hcheck]
  rfl

theorem handleFill_bad (h : ¬ r.fits (s.surf id).width (s.surf id).height) :
    handleFill body s = (s, ⟨.badField, []⟩) :=
  (handleFill_defined hb hr hid hdef).trans (if_pos (not_not.1 h))

variable (hfits : r.fits (s.surf id).width (s.surf id).height)
include hfits

theorem handleFill_frozen (h : ((s.surf id).double && (s.surf id).frozen) = true) :
    handleFill body s = (s, ⟨.frozen, []⟩) :=
  (handleFill_defined hb hr hid hdef).trans ((if_neg hfits).trans (if_pos h))

variable (hopen : ¬ ((s.surf id).double && (s.surf id).frozen) = true)
include hopen

theorem handleFill_full (h : 4 ≤ s.engine.jobs.length) :
    handleFill body s = (s, ⟨.engineFull, []⟩) :=
  (handleFill_defined hb hr hid hdef).trans
    ((if_neg hfits).trans ((if_neg hopen).trans (if_pos h)))

theorem handleFill_ok (h : s.engine.jobs.length < 4) : handleFill body s =
    (s.queueFill id r (colourOf (body.drop 9)),
      ⟨.accepted, [s.engine.counter] ++ bytesOf 1 s.engine.jobs.length ++
        bytesOf 2 (tileSequence (s.surf id).width (s.surf id).height r).length ++
          bytesOf 1 ((s.surf id).fills + 1)⟩) :=
  (handleFill_defined hb hr hid hdef).trans
    ((if_neg hfits).trans ((if_neg hopen).trans (if_neg (Nat.not_le.2 h))))

end

theorem double_and_frozen {r : Surface} :
    (r.double && r.frozen) = true ↔ r.banks = 2 ∧ r.pendingTag ≠ none := by
  simp [Surface.double, Surface.frozen, Option.isSome_iff_ne_none]

theorem exec_fill (s : State) : exec .fill s = .next (s.serve 0x34 handleFill) := rfl

/-- The job of an accepted FILL. -/
def State.newJob (s : State) (id : Nat) (r : Rect) (c : Rgb) : FillJob :=
  { number := s.engine.counter, surface := id, x := r.x, y := r.y, width := r.width
    height := r.height, colour := c
    tiles := tileSequence (s.surf id).width (s.surf id).height r, progress := 0 }

/-- A FILL queued, before the arbiter chooses. -/
def State.joinedFill (s : State) (id : Nat) (r : Rect) (c : Rgb) : State :=
  (s.withEngine { s.engine with
      jobs := s.engine.jobs ++ [s.newJob id r c], counter := s.engine.counter + 1 }).setSurf id
    { s.surf id with
      fills := (s.surf id).fills + 1
      dirty := (s.surf id).dirty || decide ((s.surf id).banks = 2) }

theorem State.queueFill_eq (s : State) (id : Nat) (r : Rect) (c : Rgb) :
    s.queueFill id r c = (s.joinedFill id r c).arbitrate := by
  have hd : (s.surf id).double = decide ((s.surf id).banks = 2) := by
    rw [Bool.eq_iff_iff]; simp [Surface.double]
  unfold State.queueFill State.joinedFill
  rw [← hd]
  rfl

/-- The first tile of a rectangle that fits. -/
theorem tileSequence_head {w h : Nat} {r : Rect} (hfits : r.fits w h) :
    ∃ e, (tileSequence w h r)[0]? = some e := by
  obtain ⟨h1, h2⟩ : 1 ≤ r.width ∧ 1 ≤ r.height := by unfold Rect.fits at hfits; omega
  refine ⟨_, List.getElem?_eq_getElem ?_⟩
  rw [length_tileSequence]
  exact Nat.mul_pos (by omega) (by omega)

/-- What the reply to an accepted FILL leaves in every block. -/
theorem State.joinedFill_arbitrated (s : State) (f : Request) (id : Nat) (r : Rect) (c : Rgb)
    (a : Answer) (hfits : r.fits (s.surf id).width (s.surf id).height) :
    let t := (s.takeRequest.joinedFill id r c).arbitrate.queueReply f (replyTo f a)
    t.engine.jobs = s.engine.jobs ++ [s.newJob id r c] ∧
      t.engine.counter = s.engine.counter + 1 ∧
      (s.engine.step ≠ .idle → t.engine.step = s.engine.step ∧ t.engine.since = s.engine.since) ∧
      (s.engine.step = .idle → t.engine.step = t.choice) ∧
      (s.engine.step = .idle → s.engine.jobs = [] →
        t.engine.step ≠ .idle ∧ t.engine.since = s.now) ∧
      t.surfaces = s.surfaces.setIfInBounds id { s.surf id with
        fills := (s.surf id).fills + 1
        dirty := (s.surf id).dirty || decide ((s.surf id).banks = 2) } ∧
      t.link = s.link.answered f a.status a.body ∧
      t.pool = s.pool ∧ t.streams = s.streams ∧ t.commits = s.commits ∧ t.colours = s.colours ∧
      t.timing = s.timing ∧ t.scan = s.scan ∧ t.control = s.control ∧ t.pins = s.pins ∧
      t.now = s.now ∧ t.pending = s.pending := by
  set x := s.takeRequest.joinedFill id r c with hx
  have hstep : x.engine.step = s.engine.step := rfl
  have hchoice : (x.arbitrate.queueReply f (replyTo f a)).choice = x.choice :=
    State.choice_congr x.arbitrate_surfaces x.arbitrate_pool x.arbitrate_jobs
  refine ⟨x.arbitrate_jobs, x.arbitrate_counter, fun hbusy => ?_, fun hidle => ?_,
    fun hidle hnone => ?_, x.arbitrate_surfaces, ?_, x.arbitrate_pool, x.arbitrate_streams,
    x.arbitrate_commits, x.arbitrate_colours, x.arbitrate_timing, x.arbitrate_scan,
    x.arbitrate_control, x.arbitrate_pins, x.arbitrate_now, x.arbitrate_pending⟩
  · have hsame : x.arbitrate = x := if_neg fun h => hbusy (hstep.symm.trans h.1)
    rw [State.queueReply, State.withLink_engine, hsame]
    exact ⟨hstep, rfl⟩
  · rw [hchoice, State.queueReply, State.withLink_engine, State.arbitrate_step,
      if_pos (hstep.trans hidle)]
  · obtain ⟨e, he⟩ := tileSequence_head hfits
    have hjobs : x.engine.jobs = s.newJob id r c :: [] :=
      (congrArg (· ++ [s.newJob id r c]) hnone : s.engine.jobs ++ _ = _)
    have hne : x.choice ≠ .idle := State.choice_ne_idle hjobs he
    have hgo : x.arbitrate = x.withEngine { x.engine with step := x.choice, since := x.now } :=
      if_pos ⟨hstep.trans hidle, hne⟩
    rw [State.queueReply, State.withLink_engine, hgo]
    exact ⟨hne, rfl⟩
  · rw [State.queueReply, State.withLink_link, State.arbitrate_link]
    rfl

theorem exec_fill_ok {s : State} {f : Request} {id : Nat} {r : Rect} {c : Rgb} {body : List Byte}
    (ha : Asks s f 0x34 body) (hl : lengthOk 0x34 body = true) (hb : fieldAt body 0 1 = id)
    (hr : fillRect body = r) (hc : colourOf (body.drop 9) = c) (hid : id < 32)
    (hdef : (s.surf id).defined) (hfits : r.fits (s.surf id).width (s.surf id).height)
    (hopen : ¬ ((s.surf id).double && (s.surf id).frozen) = true)
    (h4 : s.engine.jobs.length < 4) :
    exec .fill s = .next ((s.takeRequest.joinedFill id r c).arbitrate.queueReply f
      (replyTo f ⟨.accepted, [s.engine.counter] ++ bytesOf 1 s.engine.jobs.length ++
        bytesOf 2 (tileSequence (s.surf id).width (s.surf id).height r).length ++
          bytesOf 1 ((s.surf id).fills + 1)⟩)) := by
  rw [exec_effect_of_handle (exec_fill s) ha hl
    (handleFill_ok (s := s.takeRequest) hb hr hid hdef hfits hopen h4), State.queueFill_eq, hc]
  rfl

/-- Settles O36: the checks, the job at the tail, and the arbiter's order. -/
theorem fillQueuesAJob : Obligations.FillQueuesAJob := by
  refine ⟨fun s f id x y w h c hid hdef hx hy hw hh ha => ?_, fun u => ⟨?_, fun hnone => ⟨?_, ?_⟩⟩⟩
  · obtain ⟨hb, hr, hc⟩ := fillBody_fields (r := ⟨x, y, w, h⟩) (c := c) hid hx hy hw hh
    have hl := lengthOk_fillBody id ⟨x, y, w, h⟩ c
    refine ⟨fun hbad => ?_, fun h1 h2 h3 h4 => ?_⟩
    · exact exec_answer (exec_fill s) ha hl
        (handleFill_bad (s := s.takeRequest) hb hr hid hdef (not_not.2 hbad))
    have hfits : Rect.fits ⟨x, y, w, h⟩ (s.surf id).width (s.surf id).height := by
      unfold Rect.fits; dsimp only; omega
    refine ⟨fun hfrozen => ?_, fun hopen hfull => ?_, fun hopen hroom => ?_⟩
    · exact exec_answer (exec_fill s) ha hl
        (handleFill_frozen (s := s.takeRequest) hb hr hid hdef hfits (double_and_frozen.2 hfrozen))
    · exact exec_answer (exec_fill s) ha hl (handleFill_full (s := s.takeRequest) hb hr hid hdef hfits
        (mt double_and_frozen.1 hopen) hfull)
    · refine ⟨_, exec_fill_ok ha hl hb hr hc hid hdef hfits (mt double_and_frozen.1 hopen) hroom,
        State.joinedFill_arbitrated s f id ⟨x, y, w, h⟩ c _ hfits⟩
  · intro id pos x hid hstale hlow hx hst hfirst
    refine State.choice_copy ?_
    unfold State.dueCopy
    rw [State.sweepSurface_eq_some hid hstale hlow]
    dsimp only
    rw [Pool.lowestStale_eq_some hx hst hfirst]
    rfl
  · intro j rest pos full hj he
    rw [State.choice_of_no_sweep hnone, State.dueFill_of_head hj he]
    rfl
  · intro hj
    rw [State.choice_of_no_sweep hnone]
    unfold State.dueFill
    rw [hj]
    rfl

end Sys2Proof.Machine
end

section
/-! PROOFS. The engine's step completions (O37, O38): what one does to its tile, and what follows in
the same event. -/

namespace Sys2Proof.Machine

/-! ### What follows a completion -/

/-- The records of the commits named may go on to be applied after a change that keeps the queue and
leaves every named record defined. -/
theorem FreezeLaw.applicable_of_defined {s u : State} (h : FreezeLaw s)
    (hq : u.commits = s.commits)
    (hdef : ∀ id, (s.surf id).defined → (u.surf id).defined) : Applicable u u.commits.queue := by
  rw [hq]
  obtain ⟨nd, can, cur, ok⟩ := h.applicable
  exact ⟨nd, can, cur, fun c hc id hid => ⟨(ok c hc id hid).1, hdef id (ok c hc id hid).2⟩⟩

theorem State.headNames_iff {s : State} {id : Nat} :
    s.headNames id = true ↔ ∃ c ∈ s.commits.queue.head?, id ∈ c.surfaces := by
  unfold State.headNames
  cases s.commits.queue <;> simp

/-- A completion that is no moment for readiness, or finds no head due. -/
theorem State.afterStep_goes_on {u : State} {d : Bool} (lead : List Notice)
    (h : d = false ∨ ¬ u.headIsDue) :
    u.afterStep d lead = { u with
        engine := (u.afterStep d lead).engine, link := u.link.offerAll lead } ∧
      EngineGoesOn u (u.afterStep d lead) := by
  rw [State.afterStep_of_not_due u d lead h]
  exact ⟨(u.offerAll lead).arbitrate_eq, engineGoesOn_arbitrate u (u.offerAll lead) rfl rfl⟩

theorem State.arbitrate_goes_on (u : State) :
    u.arbitrate = { u with engine := u.arbitrate.engine } ∧ EngineGoesOn u u.arbitrate :=
  ⟨u.arbitrate_eq, engineGoesOn_arbitrate u u rfl rfl⟩

/-! ### A carry copy (R32) -/

section
variable {s : State} {id pos : Nat} {x y : Tile}

theorem State.completeCopy_of_not_stale (hx : (s.surf id).back[pos]? = some x)
    (hst : s.pool.contentOf x ≠ .stale) : s.completeCopy id pos = s := by
  unfold State.completeCopy
  dsimp only
  rw [hx]
  exact if_neg hst

/-- A STALE tile over a front tile: its surface's stale count falls, and the pool alone changes
besides. -/
theorem State.completeCopy_of_stale (hx : (s.surf id).back[pos]? = some x)
    (hy : (s.surf id).front[pos]? = some y) (hst : s.pool.contentOf x = .stale) :
    s.completeCopy id pos = ((s.withPool ⟨s.pool.free, (s.completeCopy id pos).pool.content,
      (s.completeCopy id pos).pool.pixels⟩).setSurf id
        { s.surf id with stale := (s.surf id).stale - 1 }) := by
  unfold State.completeCopy
  dsimp only
  rw [hx, hy]
  dsimp only
  rw [if_pos hst]
  split
  · unfold State.makeData
    dsimp only
    rw [if_pos hst]
    rfl
  · rfl

/-- R32: the copied tile takes its front tile's state. -/
theorem State.completeCopy_contentOf (hx : (s.surf id).back[pos]? = some x)
    (hy : (s.surf id).front[pos]? = some y) (hyst : s.pool.contentOf y ≠ .stale) (z : Tile) :
    (s.completeCopy id pos).pool.contentOf z =
      if z = x ∧ s.pool.contentOf x = .stale then s.pool.contentOf y else s.pool.contentOf z := by
  by_cases hst : s.pool.contentOf x = .stale
  · unfold State.completeCopy
    dsimp only
    rw [hx, hy]
    dsimp only
    rw [if_pos hst, if_congr (and_iff_left hst) rfl rfl]
    by_cases hd : s.pool.contentOf y = .data
    · rw [if_pos hd, State.makeData_contentOf, hd]
    · have hblank : s.pool.contentOf y = .blank := by
        cases h : s.pool.contentOf y with
        | blank => rfl
        | data => exact absurd h hd
        | stale => exact absurd h hyst
      rw [if_neg hd, hblank]
      exact Pool.contentOf_setContent _ _ _ _
  · rw [State.completeCopy_of_not_stale hx hst, if_neg fun h => hst h.2]

/-- R32: the copied tile takes the cells of a DATA front tile; no other cell is written. -/
theorem State.completeCopy_readCell (hx : (s.surf id).back[pos]? = some x)
    (hy : (s.surf id).front[pos]? = some y) (z : Tile) {cell : Nat} (hc : cell < 64) :
    readCell (s.completeCopy id pos).pool.pixels z cell =
      if z = x ∧ s.pool.contentOf x = .stale ∧ s.pool.contentOf y = .data then
        readCell s.pool.pixels y cell
      else readCell s.pool.pixels z cell := by
  by_cases hst : s.pool.contentOf x = .stale
  · unfold State.completeCopy
    dsimp only
    rw [hx, hy]
    dsimp only
    rw [if_pos hst]
    by_cases hd : s.pool.contentOf y = .data
    · rw [if_pos hd, State.makeData_pixels, readCell_copyTile _ _ _ _ _ hc]
      exact if_congr (by simp [hst, hd]) rfl rfl
    · rw [if_neg hd, if_neg fun h => hd h.2.2]
      rfl
  · rw [State.completeCopy_of_not_stale hx hst, if_neg fun h => hst h.2.1]

end

theorem exec_copyStepComplete {s : State} {id pos : Nat} (hstep : s.engine.step = .copy id pos)
    (hdue : s.engine.since + 24 ≤ s.now) :
    exec .copyStepComplete s = .next (s.copyCompletes id pos) := by
  have hd : s.copyDue = some (id, pos) := by
    unfold State.copyDue
    rw [hstep]
    exact if_pos hdue
  change Host.Outcome.next (match s.copyDue with
    | none => s
    | some (id, pos) => s.copyCompletes id pos) = _
  rw [hd]

/-- The moment for readiness at a carry copy: the last STALE tile of a surface that the head names. -/
theorem State.copyCompletes_decides {s : State} {id pos : Nat} {x y : Tile} (hid : id < 32)
    (hx : (s.surf id).back[pos]? = some x) (hy : (s.surf id).front[pos]? = some y) :
    (decide (0 < (s.surf id).stale) && ((s.completeCopy id pos).endStep.surf id).stale == 0 &&
        (s.completeCopy id pos).endStep.headNames id) = true ↔
      s.pool.contentOf x = .stale ∧ (s.surf id).stale = 1 ∧
        ∃ c ∈ s.commits.queue.head?, id ∈ c.surfaces := by
  have hsurf : (s.completeCopy id pos).endStep.surf id = (s.completeCopy id pos).surf id := rfl
  have hq : (s.completeCopy id pos).endStep.commits = s.commits := State.completeCopy_commits s id pos
  rw [Bool.and_eq_true, Bool.and_eq_true, State.headNames_iff, hq, hsurf, decide_eq_true_iff,
    beq_iff_eq, ← and_assoc]
  refine and_congr ?_ Iff.rfl
  by_cases hst : s.pool.contentOf x = .stale
  · rw [State.completeCopy_of_stale hx hy hst, State.surf_setSurf_self _ hid]
    dsimp only
    rw [and_iff_right hst]
    omega
  · rw [State.completeCopy_of_not_stale hx hst]
    refine iff_of_false (by omega) fun h => hst h.1

/-- Settles O37: the copy, and the moment it may be for a STOPPED part's head. -/
theorem carryCopyCompletes : Obligations.CarryCopyCompletes := by
  intro s id pos x y hstep hdue hid hfreeze hx hy _ hyst
  have hdecides := State.copyCompletes_decides hid hx hy
  have hexec := exec_copyStepComplete hstep hdue
  unfold State.copyCompletes at hexec
  dsimp only at hexec
  set u := (s.completeCopy id pos).endStep with hu
  have hcommits : u.commits = s.commits := State.completeCopy_commits s id pos
  refine ⟨u, _, hexec, ?_, State.completeCopy_contentOf hx hy hyst, fun hst hd cell hc => ?_,
    fun z hz cell hc => ?_, fun hnot => ?_, fun hst hone hhead hready => ?_⟩
  · by_cases hst : s.pool.contentOf x = .stale
    · rw [if_pos hst, hu, State.completeCopy_of_stale hx hy hst]
      rfl
    · rw [if_neg hst, hu, State.completeCopy_of_not_stale hx hst]
      rfl
  · exact (State.completeCopy_readCell hx hy x hc).trans (if_pos ⟨rfl, hst, hd⟩)
  · refine (State.completeCopy_readCell hx hy z hc).trans (if_neg ?_)
    rintro ⟨rfl, hst, -⟩
    exact hz.elim (· rfl) (· hst)
  · refine State.afterStep_goes_on [] ?_
    rw [← Bool.not_eq_true, hdecides]
    by_contra hcon
    rw [not_or, not_not, not_not] at hcon
    obtain ⟨⟨hst, hone, hhead⟩, hready⟩ := hcon
    exact hnot ⟨hst, hone, hhead, hready⟩
  · rw [hdecides.2 ⟨hst, hone, hhead⟩]
    refine State.afterStep_applies u [] (hfreeze.applicable_of_defined hcommits fun j hj => ?_) hready
      rfl
    have hj' : u.surf j = (s.completeCopy id pos).surf j := rfl
    rw [hj', State.completeCopy_of_stale hx hy hst, State.surf_setSurf_of_lt hid]
    split
    · rename_i e; rw [e] at hj; exact hj
    · exact hj

/-! ### A fill step (R31) -/

section
variable {s : State} {id pos : Nat} {x : Tile} {full : Bool} {r : Rect} {c : Rgb}
  (hx : (s.surf id).drawBank[pos]? = some x) (hst : s.pool.contentOf x ≠ .stale)
include hx hst

/-- A fill step on a tile that is not STALE changes the pool alone. -/
theorem State.fillTile_eq : s.fillTile id pos full r c = s.withPool
    ⟨s.pool.free, (s.fillTile id pos full r c).pool.content,
      (s.fillTile id pos full r c).pool.pixels⟩ := by
  have hmake : ∀ m, s.makeData id x m = s.withPool
      ⟨s.pool.free, (s.makeData id x m).pool.content, (s.makeData id x m).pool.pixels⟩ := by
    intro m
    unfold State.makeData
    dsimp only
    rw [if_neg hst]
    rfl
  have hresolve : s.resolveTile id pos x = s.withPool
      ⟨s.pool.free, (s.resolveTile id pos x).pool.content, (s.resolveTile id pos x).pool.pixels⟩ := by
    unfold State.resolveTile
    cases hc : s.pool.contentOf x with
    | data => rfl
    | blank => exact hmake _
    | stale => exact absurd hc hst
  unfold State.fillTile
  dsimp only
  rw [hx]
  dsimp only
  cases full
  · simp only [Bool.false_eq_true, if_false]
    rw [hresolve]
    rfl
  · exact hmake _

omit hst in
theorem State.fillTile_contentOf (z : Tile) : (s.fillTile id pos full r c).pool.contentOf z =
    if z = x then .data else s.pool.contentOf z := by
  unfold State.fillTile
  dsimp only
  rw [hx]
  cases full
  · exact State.resolveTile_contentOf s id pos x z
  · exact State.makeData_contentOf s id x _ z

theorem State.fillTile_readCell (z : Tile) {cell : Nat} (hc : cell < 64) :
    readCell (s.fillTile id pos full r c).pool.pixels z cell =
      if z = x then
        if full = true ∨ cell ∈ r.cellsIn (s.surf id).width pos then c
        else if s.pool.contentOf x = .blank then black else readCell s.pool.pixels x cell
      else readCell s.pool.pixels z cell := by
  unfold State.fillTile
  dsimp only
  rw [hx]
  cases full
  · have hcells := readCell_writeCells (s.resolveTile id pos x).pool.pixels x z
      (r.cellsIn (s.surf id).width pos) cell c (Rect.cellsIn_lt r _ pos) hc
    refine hcells.trans ?_
    rw [State.resolveTile_readCell s id pos x z cell hc]
    by_cases hz : z = x
    · rw [if_pos hz, if_pos hz]
      refine if_congr (by simp [hz]) rfl ?_
      cases h : s.pool.contentOf x with
      | data => rfl
      | blank => rfl
      | stale => exact absurd h hst
    · rw [if_neg hz, if_neg hz, if_neg fun h => hz h.1]
  · refine (congrArg (readCell · z cell) (State.makeData_pixels s id x _)).trans ?_
    rw [readCell_paintTile _ _ _ _ _ hc]
    exact if_congr Iff.rfl (if_pos (.inl rfl)).symm rfl

end

theorem exec_fillStepComplete {s : State} {j : FillJob} {rest : List FillJob} {pos : Nat} {full : Bool}
    (hstep : s.engine.step = .fill j.number pos) (hdue : s.engine.since + 12 ≤ s.now)
    (hjobs : s.engine.jobs = j :: rest) (htile : j.tiles[j.progress]? = some (pos, full)) :
    exec .fillStepComplete s = .next (s.fillCompletes j pos full) := by
  have hd : s.fillDue = some (j, pos, full) := by
    unfold State.fillDue
    rw [hstep, hjobs]
    dsimp only
    rw [if_pos ⟨rfl, hdue⟩, htile]
    rfl
  change Host.Outcome.next (match s.fillDue with
    | none => s
    | some (j, pos, full) => s.fillCompletes j pos full) = _
  rw [hd]

/-- The state behind a fill step, before anything follows it. -/
def State.filled (s : State) (j : FillJob) (pos : Nat) (full : Bool) : State :=
  (s.fillTile j.surface pos full j.rect j.colour).endStep

/-- The state behind a fill step on an earlier entry: the progress has risen. -/
def State.progressed (s : State) (j : FillJob) (pos : Nat) (full : Bool) : State :=
  (s.filled j pos full).withEngine { (s.filled j pos full).engine with
    jobs := { j with progress := j.progress + 1 } :: (s.filled j pos full).engine.jobs.tail }

theorem State.fillCompletes_eq (s : State) (j : FillJob) (pos : Nat) (full : Bool) :
    s.fillCompletes j pos full =
      if j.progress + 1 < j.tiles.length then (s.progressed j pos full).arbitrate
      else ((s.filled j pos full).finishJob j).afterStep ((s.filled j pos full).headNames j.surface)
        [noticeFillDone j.number j.surface false] := rfl

theorem Link.offerAll_singleton (l : Link) (n : Notice) : l.offerAll [n] = l.offer n := by
  rw [Link.offerAll_cons, Link.offerAll_nil]

theorem noticeFillDone_done (number : Byte) (id : Nat) :
    noticeFillDone number id false = ⟨0x62, [number] ++ bytesOf 1 id ++ [0]⟩ := rfl

section
variable {s : State} {j : FillJob} {rest : List FillJob} {pos : Nat} {x : Tile} {full : Bool}
  (hjobs : s.engine.jobs = j :: rest) (hx : (s.surf j.surface).drawBank[pos]? = some x)
  (hst : s.pool.contentOf x ≠ .stale)
include hx hst

theorem State.filled_eq : s.filled j pos full = { s with
    engine := { s.engine with step := .idle }
    pool := ⟨s.pool.free, (s.filled j pos full).pool.content, (s.filled j pos full).pool.pixels⟩ } := by
  have heq := State.fillTile_eq (full := full) (r := j.rect) (c := j.colour) hx hst
  unfold State.filled State.endStep
  rw [heq]
  rfl

omit hst in
theorem State.filled_contentOf (z : Tile) : (s.filled j pos full).pool.contentOf z =
    if z = x then .data else s.pool.contentOf z := State.fillTile_contentOf hx z

theorem State.filled_readCell (z : Tile) {cell : Nat} (hc : cell < 64) :
    readCell (s.filled j pos full).pool.pixels z cell =
      if z = x then
        if full = true ∨ cell ∈ j.rect.cellsIn (s.surf j.surface).width pos then j.colour
        else if s.pool.contentOf x = .blank then black else readCell s.pool.pixels x cell
      else readCell s.pool.pixels z cell := State.fillTile_readCell hx hst z hc

include hjobs

theorem State.finishJob_filled_eq : (s.filled j pos full).finishJob j = { s with
    engine := { s.engine with step := .idle, jobs := rest }
    surfaces := s.surfaces.setIfInBounds j.surface { s.surf j.surface with
      fills := (s.surf j.surface).fills - 1 }
    pool := ⟨s.pool.free, (s.filled j pos full).pool.content, (s.filled j pos full).pool.pixels⟩ } := by
  rw [show rest = s.engine.jobs.tail by rw [hjobs]; rfl]
  unfold State.finishJob
  rw [State.filled_eq hx hst]
  rfl

theorem State.progressed_eq : s.progressed j pos full = { s with
    engine := { s.engine with
      step := .idle, jobs := { j with progress := j.progress + 1 } :: rest }
    pool := ⟨s.pool.free, (s.filled j pos full).pool.content, (s.filled j pos full).pool.pixels⟩ } := by
  rw [show rest = s.engine.jobs.tail by rw [hjobs]; rfl]
  unfold State.progressed
  rw [State.filled_eq hx hst]
  rfl

end

/-- What follows the last step of a job whose surface the head names, or does not. -/
theorem State.finishJob_follows {s u : State} {id : Nat} {d : Bool} {done : Notice}
    (hfreeze : FreezeLaw s) (hcommits : u.commits = s.commits) (hlink : u.link = s.link)
    (hidle : u.engine.step = .idle)
    (hdef : ∀ i, (s.surf i).defined → (u.surf i).defined)
    (hd : d = true ↔ ∃ c ∈ s.commits.queue.head?, id ∈ c.surfaces) :
    (¬ ((∃ c ∈ s.commits.queue.head?, id ∈ c.surfaces) ∧ u.headIsDue) →
      u.afterStep d [done] = { u with
          engine := (u.afterStep d [done]).engine, link := s.link.offer done } ∧
        EngineGoesOn u (u.afterStep d [done])) ∧
    ((∃ c ∈ s.commits.queue.head?, id ∈ c.surfaces) → u.headIsDue →
      AppliesStopped u (u.afterStep d [done]) [done] ∧
        EngineGoesOnEither u (u.afterStep d [done])) := by
  refine ⟨fun hnot => ?_, fun hnamed hready => ?_⟩
  · rw [← hlink, ← Link.offerAll_singleton]
    refine State.afterStep_goes_on [done] ?_
    by_contra hcon
    rw [not_or, Bool.not_eq_false, not_not, hd] at hcon
    exact hnot hcon
  · rw [hd.2 hnamed]
    exact State.afterStep_applies _ _ (hfreeze.applicable_of_defined hcommits hdef) hready hidle

/-- Settles O38: the tile, the job's progress or end, and the moment that an end may be. -/
theorem fillStepCompletes : Obligations.FillStepCompletes := by
  intro s j rest pos full x hstep hdue hfreeze hjobs htile hid hx hst
  dsimp only
  have hexec := exec_fillStepComplete hstep hdue hjobs htile
  rw [State.fillCompletes_eq, noticeFillDone_done] at hexec
  generalize (⟨0x62, [j.number] ++ bytesOf 1 j.surface ++ [0]⟩ : Notice) = done at hexec ⊢
  have hlt : j.progress < j.tiles.length := (List.getElem?_eq_some_iff.1 htile).1
  have hfilled := State.filled_eq (full := full) hx hst
  have hcontent := State.filled_contentOf (full := full) hx
  have hown := fun cell hc =>
    (State.filled_readCell (full := full) hx hst x (cell := cell) hc).trans (if_pos rfl)
  have hother := fun z (hz : z ≠ x) cell hc =>
    (State.filled_readCell (full := full) hx hst z (cell := cell) hc).trans (if_neg hz)
  by_cases hlast : j.progress + 1 = j.tiles.length
  · rw [if_neg (by omega)] at hexec
    have hu := State.finishJob_filled_eq (full := full) hjobs hx hst
    have hdef : ∀ i, (s.surf i).defined → (((s.filled j pos full).finishJob j).surf i).defined := by
      intro i hi
      have hsurf : ((s.filled j pos full).finishJob j).surf i = if i = j.surface then
          { s.surf j.surface with fills := (s.surf j.surface).fills - 1 } else s.surf i := by
        rw [hu]
        exact State.surf_setSurf_of_lt hid _ i
      rw [hsurf]
      split
      · rename_i e; rw [e] at hi; exact hi
      · exact hi
    have hhead : (s.filled j pos full).headNames j.surface = true ↔
        ∃ c ∈ s.commits.queue.head?, j.surface ∈ c.surfaces := by
      rw [State.headNames_iff, hfilled]
    obtain ⟨hgoes, happlies⟩ := State.finishJob_follows (done := done) hfreeze
      (by rw [hu]) (by rw [hu]) (by rw [hu]) hdef hhead
    refine ⟨(s.filled j pos full).finishJob j, _, hexec, ?_, hcontent, hown, hother, fun hnot => absurd hlast hnot, fun _ => hgoes,
      fun _ => happlies⟩
    rw [if_pos hlast, if_pos hlast]
    exact hu
  · rw [if_pos (by omega)] at hexec
    refine ⟨s.progressed j pos full, _, hexec, ?_, hcontent, hown, hother, fun _ => State.arbitrate_goes_on _,
      fun hl => absurd hl hlast, fun hl => absurd hl hlast⟩
    rw [if_neg hlast, if_neg hlast]
    exact State.progressed_eq hjobs hx hst

end Sys2Proof.Machine
end

section
/-! PROOFS. The frame clock (O42 to O46): the moments of the internal timer, of the loss deadline and
of the FIN edges, and the boundaries that they make. -/

namespace Sys2Proof.Machine

/-! ### Moments -/

section
variable {s : State} {c : Canvas} {b : Time}

theorem State.period_eq (hc : s.scan.live = some c) : s.period = c.period := by
  unfold State.period
  rw [hc]
  rfl

theorem State.sinceBoundary_iff (hb : s.timing.lastBoundary = some b) (span : Time) :
    s.sinceBoundary span = true ↔ b + span ≤ s.now := by
  unfold State.sinceBoundary
  rw [hb]
  exact decide_eq_true_iff

theorem State.sinceBoundary_eq_false (hb : s.timing.lastBoundary = some b) {span : Time}
    (h : s.now < b + span) : s.sinceBoundary span = false := by
  rw [Bool.eq_false_iff, ne_eq, State.sinceBoundary_iff hb]
  exact Nat.not_le.2 h

theorem State.timerDue_of (hrun : s.timing.state = .freeRun ∨ s.timing.state = .seeking)
    (hc : s.scan.live = some c) (hb : s.timing.lastBoundary = some b)
    (hdue : b + 24 * c.period ≤ s.now) : s.timerDue = true := by
  unfold State.timerDue
  rw [State.period_eq hc, Bool.and_eq_true]
  refine ⟨?_, (State.sinceBoundary_iff hb _).2 hdue⟩
  rcases hrun with h | h <;> rw [h] <;> rfl

theorem State.lossDue_of (hlock : s.timing.state = .locked) (hc : s.scan.live = some c)
    (hb : s.timing.lastBoundary = some b) (hdue : b + 30 * c.period ≤ s.now) : s.lossDue = true := by
  unfold State.lossDue
  rw [State.period_eq hc, Bool.and_eq_true]
  exact ⟨by rw [hlock]; rfl, (State.sinceBoundary_iff hb _).2 hdue⟩

theorem State.goodInterval_iff {e : Time} (hc : s.scan.live = some c)
    (he : s.timing.lastEdge = some e) : s.goodInterval = true ↔
      e + 21 * c.period ≤ s.now ∧ s.now ≤ e + 27 * c.period := by
  unfold State.goodInterval
  rw [State.period_eq hc, he]
  exact decide_eq_true_iff

theorem State.goodInterval_eq_false (hc : s.scan.live = some c)
    (h : ∀ e ∈ s.timing.lastEdge, s.now < e + 21 * c.period ∨ e + 27 * c.period < s.now) :
    s.goodInterval = false := by
  rw [Bool.eq_false_iff]
  intro hgood
  cases he : s.timing.lastEdge with
  | none =>
    unfold State.goodInterval at hgood
    rw [he] at hgood
    cases hgood
  | some e =>
    obtain ⟨h1, h2⟩ := (State.goodInterval_iff hc he).1 hgood
    exact (h e he).elim (fun h => Nat.not_le.2 h h1) (fun h => Nat.not_le.2 h h2)

end

theorem exec_internalTimerExpiry {s : State} (h : s.timerDue = true) :
    exec .internalTimerExpiry s = .next (s.boundary [] []) := by
  change Host.Outcome.next (if s.timerDue then s.boundary [] [] else s) = _
  rw [if_pos h]

theorem exec_lossDeadline {s : State} (h : s.lossDue = true) :
    exec .lossDeadline s = .next s.loseLock := by
  change Host.Outcome.next (if s.lossDue then s.loseLock else s) = _
  rw [if_pos h]

/-! ### Transitions of FIN -/

/-- The level of FIN after a transition. -/
def State.finTo (s : State) (d : Edge) : State :=
  s.withPins { s.pins with finHigh := d == .rise }

section
variable {s : State} {c : Canvas} (hc : s.scan.live = some c)
include hc

/-- What a transition in the direction of the live edge field comes to, by the timing state. -/
theorem exec_finEdge_edge : exec (.finEdge c.edge) s = .next (match s.timing.state with
    | .seeking => (s.finTo c.edge).seekEdge
    | .locked => (s.finTo c.edge).lockedEdge
    | .stopped | .freeRun => s.finTo c.edge) := by
  have hedge : (s.finTo c.edge).isFinEdge c.edge = true := by
    unfold State.isFinEdge
    rw [show (s.finTo c.edge).scan.live = some c from hc]
    exact beq_self_eq_true _
  change Host.Outcome.next (if (s.finTo c.edge).isFinEdge c.edge then _ else _) = _
  rw [if_pos hedge]
  rfl

theorem exec_finEdge_seeking (hst : s.timing.state = .seeking) :
    exec (.finEdge c.edge) s = .next (s.finTo c.edge).seekEdge := by
  rw [exec_finEdge_edge hc, hst]

theorem exec_finEdge_locked (hst : s.timing.state = .locked) :
    exec (.finEdge c.edge) s = .next (s.finTo c.edge).lockedEdge := by
  rw [exec_finEdge_edge hc, hst]

theorem exec_finEdge_idle {d : Edge}
    (h : d ≠ c.edge ∨ s.timing.state = .stopped ∨ s.timing.state = .freeRun) :
    exec (.finEdge d) s = .next (s.finTo d) := by
  by_cases hd : d = c.edge
  · subst hd
    rw [exec_finEdge_edge hc]
    rcases h.resolve_left (not_not.2 rfl) with h | h <;> rw [h]
  · have hedge : ¬ (s.finTo d).isFinEdge d = true := by
      unfold State.isFinEdge
      rw [show (s.finTo d).scan.live = some c from hc]
      intro h
      exact hd (beq_iff_eq.1 h).symm
    change Host.Outcome.next (if (s.finTo d).isFinEdge d then _ else _) = _
    rw [if_neg hedge]
    rfl

end

section
variable {s : State}

theorem State.seekEdge_bad (h : s.goodInterval = false) : s.seekEdge =
    s.withTiming { s.timing with good := 0, lastEdge := some s.now } := by
  unfold State.seekEdge
  rw [h]
  rfl

theorem State.seekEdge_first (h : s.goodInterval = true) (hg : s.timing.good = 0) : s.seekEdge =
    s.withTiming { s.timing with good := 1, lastEdge := some s.now } := by
  unfold State.seekEdge
  rw [if_pos h, if_neg (by omega), hg]

theorem State.seekEdge_second (h : s.goodInterval = true) (hg : s.timing.good = 1) :
    s.seekEdge = s.lock := by
  unfold State.seekEdge
  rw [if_pos h, if_pos (by omega)]

/-- A lock, its moment taken. -/
def State.locked (s : State) : State :=
  s.withTiming { s.timing with state := .locked, good := 0, lastEdge := some s.now }

theorem State.lock_far (h : s.sinceBoundary (12 * s.period) = true) :
    s.lock = s.locked.boundary [] [noticeSyncLocked (s.timing.frame + 1) true] := if_pos h

theorem State.lock_near (h : s.sinceBoundary (12 * s.period) = false) :
    s.lock = s.locked.offer (noticeSyncLocked s.timing.frame false) :=
  if_neg (Bool.eq_false_iff.1 h)

/-- An edge in LOCKED, its moment taken. -/
def State.edgeTaken (s : State) : State :=
  s.withTiming { s.timing with lastEdge := some s.now }

theorem State.lockedEdge_far (h : s.sinceBoundary (21 * s.period) = true) :
    s.lockedEdge = s.edgeTaken.boundary [] [] := if_pos h

theorem State.lockedEdge_near (h : s.sinceBoundary (21 * s.period) = false) :
    s.lockedEdge = s.withTiming { s.timing with
      lastEdge := some s.now, glitches := saturate16 s.timing.glitches } :=
  if_neg (Bool.eq_false_iff.1 h)

/-- The lock lost, before its boundary. -/
def State.lost (s : State) : State :=
  s.withTiming { s.timing with state := .seeking, good := 0 }

theorem State.loseLock_eq (s : State) : s.loseLock =
    s.lost.boundary [] [noticeSyncLost (s.timing.frame + 1) s.timing.glitches] := rfl

end

/-! ### A boundary with nothing to apply and nothing to release -/

/-- R124, R136: such a boundary counts the frame, begins a scan and offers its notices. -/
theorem State.boundary_quiet {s : State} {c : Canvas} (sync : List Notice)
    (hc : s.scan.live = some c) (hrun : s.clockRuns) (hq : s.commits.queue = [])
    (hr : s.noneRetiring) (hbusy : s.engineBusy) :
    s.boundary [] sync = { s with
      timing := { s.timing with
        frame := s.timing.frame + 1, lastBoundary := some s.now, fsy := true }
      scan := { s.scan with
        scanning := true, nextLine := some 0, slot := some ⟨7 * c.period, 8 * c.height⟩
        driven := none }
      link := s.link.offerAll (sync ++
        s.frameNoticeDue (s.timing.frame + 1) s.timing.state) } := by
  have hretire : s.countBoundary.retireAll = s.countBoundary := State.retireAll_of_none hr
  have hbegin : s.countBoundary.beginFrame = s.countBoundary.withScan { s.scan with
      scanning := true, nextLine := some 0, slot := some ⟨7 * c.period, 8 * c.height⟩
      driven := none } := by
    unfold State.beginFrame
    rw [show s.countBoundary.scan = s.scan from rfl, hc,
      show s.countBoundary.timing.state = s.timing.state from rfl]
    cases hst : s.timing.state with
    | stopped => exact absurd hst hrun
    | freeRun => rfl
    | seeking => rfl
    | locked => rfl
  rw [State.boundary_of_empty sync hq, hretire, hbegin]
  exact State.arbitrate_of_busy hbusy

theorem Link.offerAll_ite (l : Link) {p : Prop} [Decidable p] (n : Notice) :
    l.offerAll (if p then [n] else []) = if p then l.offer n else l := by
  split
  · rfl
  · rfl

/-- Settles O42: the pulse's end, and the timer's boundary. -/
theorem timerExpiryIsABoundary : Obligations.TimerExpiryIsABoundary := by
  refine ⟨fun s b hb hfsy => ?_, fun s c b hrun hc hb hdue hq hr hbusy => ?_⟩
  · have hexec : exec .fsyPulseEnd s = .next (if s.sinceBoundary fsyTime then
        s.withTiming { s.timing with fsy := false } else s) := by
      change Host.Outcome.next (if s.fsyEndDue then _ else s) = _
      rw [State.fsyEndDue, hfsy, Bool.true_and]
    refine ⟨fun hdue => ?_, fun hearly => ?_⟩
    · rw [hexec, if_pos ((State.sinceBoundary_iff hb fsyTime).2 hdue)]
      rfl
    · have hnot : s.sinceBoundary fsyTime = false := State.sinceBoundary_eq_false hb hearly
      rw [hexec, hnot]
      rfl
  · have hruns : s.clockRuns := by
      unfold State.clockRuns
      rcases hrun with h | h <;> rw [h] <;> decide
    rw [exec_internalTimerExpiry (State.timerDue_of hrun hc hb hdue),
      State.boundary_quiet [] hc hruns hq hr hbusy, List.nil_append, State.frameNoticeDue,
      Link.offerAll_ite]

/-- Settles O44: a boundary with no commit pending applies none, and begins the next frame. -/
theorem boundaryRetiresSurfaces : Obligations.BoundaryRetiresSurfaces := by
  intro s c b hrun hc hb hdue hq
  have happ : Applicable s s.commits.queue := by
    rw [hq]
    exact ⟨List.nodup_nil, Nat.zero_le _, Nat.zero_le _, fun c hc => absurd hc List.not_mem_nil⟩
  obtain ⟨⟨cs, rest, u, order, ⟨hcs, -⟩, happlies, hbegins, -⟩, -⟩ := State.boundary_passes s [] [] happ
  obtain rfl : cs = [] := (List.append_eq_nil_iff.1 (hcs.symm.trans hq)).1
  obtain ⟨husurf, hucontent, hufree, hupixels, -⟩ := happlies
  obtain ⟨hsurf, hfree, hcontent, hpixels, -⟩ := hbegins
  have hsame : ∀ id, u.surf id = s.surf id := by
    intro id
    by_cases hid : id < 32
    · exact husurf id hid
    · rw [State.surf_of_le u (by omega), State.surf_of_le s (by omega)]
  have hucontent' : ∀ x, u.pool.contentOf x = s.pool.contentOf x := by
    intro x
    rw [hucontent x, if_neg]
    rintro ⟨c, hc, -⟩
    exact List.not_mem_nil hc
  refine ⟨_, exec_internalTimerExpiry (State.timerDue_of hrun hc hb hdue), fun id hid => ?_, ?_,
    hpixels.trans hupixels, fun x => ?_⟩
  · rw [hsurf id hid, hsame id]
  · simp only [hfree, hufree, hsame]
  · simp only [hcontent x, hucontent' x, hsame]

/-- Settles O45: the level of the pin, and what the timing generator makes of the edge. -/
theorem finEdgesWithoutABoundary : Obligations.FinEdgesWithoutABoundary := by
  intro s c d b hc hb hle
  refine ⟨fun h => exec_finEdge_idle hc h, ?_, ?_, ?_⟩
  · rintro rfl hst hbad
    have hgood : (s.finTo c.edge).goodInterval = false := State.goodInterval_eq_false hc hbad
    rw [exec_finEdge_seeking hc hst, State.seekEdge_bad hgood]
    rfl
  · rintro e rfl hst he h1 h2
    have hgood : (s.finTo c.edge).goodInterval = true := (State.goodInterval_iff hc he).2 ⟨h1, h2⟩
    refine ⟨fun hg => ?_, fun hg hnear => ?_⟩
    · rw [exec_finEdge_seeking hc hst, State.seekEdge_first hgood hg]
      rfl
    · have hfar : (s.finTo c.edge).sinceBoundary (12 * (s.finTo c.edge).period) = false := by
        rw [State.period_eq (s := s.finTo c.edge) hc]
        exact State.sinceBoundary_eq_false (s := s.finTo c.edge) hb hnear
      rw [exec_finEdge_seeking hc hst, State.seekEdge_second hgood hg, State.lock_near hfar]
      rfl
  · rintro rfl hst hnear
    have hfar : (s.finTo c.edge).sinceBoundary (21 * (s.finTo c.edge).period) = false := by
      rw [State.period_eq (s := s.finTo c.edge) hc]
      exact State.sinceBoundary_eq_false (s := s.finTo c.edge) hb hnear
    rw [exec_finEdge_locked hc hst, State.lockedEdge_near hfar, saturate16_eq]
    rfl

/-! ### The edges and the loss that make a boundary -/

section
variable {s : State} {c : Canvas} {b : Time} (hc : s.scan.live = some c)
  (hb : s.timing.lastBoundary = some b)
include hc hb

theorem exec_lockingEdge {e : Time} (hst : s.timing.state = .seeking) (hg : s.timing.good = 1)
    (he : s.timing.lastEdge = some e) (h1 : e + 21 * c.period ≤ s.now)
    (h2 : s.now ≤ e + 27 * c.period) (h3 : b + 12 * c.period ≤ s.now) :
    exec (.finEdge c.edge) s = .next ((s.finTo c.edge).locked.boundary []
      [noticeSyncLocked (s.timing.frame + 1) true]) := by
  have hgood : (s.finTo c.edge).goodInterval = true := (State.goodInterval_iff hc he).2 ⟨h1, h2⟩
  have hfar : (s.finTo c.edge).sinceBoundary (12 * (s.finTo c.edge).period) = true := by
    rw [State.period_eq (s := s.finTo c.edge) hc]
    exact (State.sinceBoundary_iff (s := s.finTo c.edge) hb _).2 h3
  rw [exec_finEdge_seeking hc hst, State.seekEdge_second hgood hg, State.lock_far hfar]
  rfl

theorem exec_acceptedEdge (hst : s.timing.state = .locked) (h : b + 21 * c.period ≤ s.now) :
    exec (.finEdge c.edge) s = .next ((s.finTo c.edge).edgeTaken.boundary [] []) := by
  have hfar : (s.finTo c.edge).sinceBoundary (21 * (s.finTo c.edge).period) = true := by
    rw [State.period_eq (s := s.finTo c.edge) hc]
    exact (State.sinceBoundary_iff (s := s.finTo c.edge) hb _).2 h
  rw [exec_finEdge_locked hc hst, State.lockedEdge_far hfar]

theorem exec_loss (hst : s.timing.state = .locked) (h : b + 30 * c.period ≤ s.now) :
    exec .lossDeadline s = .next (s.lost.boundary []
      [noticeSyncLost (s.timing.frame + 1) s.timing.glitches]) :=
  (exec_lossDeadline (State.lossDue_of hst hc hb h)).trans (by rw [State.loseLock_eq])

end

/-- Settles O46: the three boundaries, each a quiet one of the state that its cause leaves. -/
theorem lockingLossAndAcceptedEdgeBoundaries : Obligations.LockingLossAndAcceptedEdgeBoundaries := by
  intro s c b hc hb hq hr hbusy
  refine ⟨fun e hst hg he h1 h2 h3 => ?_, fun hst h => ?_, fun hst h => ?_⟩
  · rw [exec_lockingEdge hc hb hst hg he h1 h2 h3]
    exact congrArg Host.Outcome.next (State.boundary_quiet (s := (s.finTo c.edge).locked) _ hc
      (by decide : TimingState.locked ≠ .stopped) hq hr hbusy)
  · rw [exec_acceptedEdge hc hb hst h, State.boundary_quiet (s := (s.finTo c.edge).edgeTaken) [] hc
      (fun h => absurd (hst.symm.trans h) (by decide)) hq hr hbusy, List.nil_append]
    rw [show (s.finTo c.edge).edgeTaken.timing.state = .locked from hst]
    rfl
  · rw [exec_loss hc hb hst h]
    exact congrArg Host.Outcome.next (State.boundary_quiet (s := s.lost) _ hc
      (by decide : TimingState.seeking ≠ .stopped) hq hr hbusy)

/-- Settles O43: each cause's boundary, of the state that the cause leaves. -/
theorem boundaryAppliesTheReadyCommit : Obligations.BoundaryAppliesTheReadyCommit := by
  intro s c b hfreeze hc hb
  refine ⟨fun hrun hdue => ?_, fun hst h => ?_, fun hst h => ?_, fun e hst hg he h1 h2 h3 => ?_⟩
  · exact ⟨_, exec_internalTimerExpiry (State.timerDue_of hrun hc hb hdue),
      State.boundary_passes s [] [] hfreeze.applicable⟩
  · exact ⟨s.lost, _, exec_loss hc hb hst h, rfl,
      State.boundary_passes s.lost [] _ (FreezeLaw.applicable (s := s.lost) hfreeze)⟩
  · exact ⟨(s.finTo c.edge).edgeTaken, _, exec_acceptedEdge hc hb hst h, rfl,
      State.boundary_passes _ [] [] (FreezeLaw.applicable (s := (s.finTo c.edge).edgeTaken) hfreeze)⟩
  · exact ⟨(s.finTo c.edge).locked, _, exec_lockingEdge hc hb hst hg he h1 h2 h3, rfl,
      State.boundary_passes _ [] _ (FreezeLaw.applicable (s := (s.finTo c.edge).locked) hfreeze)⟩

end Sys2Proof.Machine
end

section
/-! PROOFS. The body of a COMMIT request (Table 10-8), and checks 3 to 12 of Table 3-2 one at a
time. -/

namespace Sys2Proof.Machine

/-! ### The body -/

/-- The flag bits of a commit record. -/
def Commit.bits (c : Commit) : List Bool := [c.carry, c.canvas, c.curve, c.target.isSome]

/-- The target field of a COMMIT body. -/
def Commit.targetBytes (c : Commit) : List Byte := presentBytes c.target (fun t => bytesOf 4 t.toNat)

theorem commitBody_eq (c : Commit) : commitBody c =
    bytesOf 2 c.tag.toNat ++ (bytesOf 1 (maskOf c.bits) ++ (c.targetBytes ++
      (bytesOf 1 c.surfaces.length ++ c.surfaces.map (BitVec.ofNat 8)))) := by
  have hflags : c.carry.toNat + 2 * c.canvas.toNat + 4 * c.curve.toNat + 8 * c.target.isSome.toNat =
      maskOf c.bits := by
    simp only [Commit.bits, maskOf]
    omega
  rw [commitBody, hflags, Commit.targetBytes]
  simp only [List.append_assoc]

theorem Commit.maskOf_bits_lt (c : Commit) : maskOf c.bits < 16 := maskOf_lt c.bits

theorem length_targetBytes (c : Commit) :
    c.targetBytes.length = if c.target.isSome then 4 else 0 :=
  length_presentBytes _ fun _ => length_bytesOf 4 _

theorem fieldAt_drop (bs : List Byte) (k off n : Nat) :
    fieldAt (bs.drop k) off n = fieldAt bs (k + off) n := by
  simp only [fieldAt, List.drop_drop]

theorem lengthOk_commit (body : List Byte) : lengthOk 0x40 body =
    decide (commitCountOffset body < body.length ∧
      body.length = commitCountOffset body + 1 + fieldAt body (commitCountOffset body) 1) := rfl

section
variable (c : Commit)

theorem fieldAt_tag_commitBody : fieldAt (commitBody c) 0 2 = c.tag.toNat := by
  rw [commitBody_eq, fieldAt_bytesOf]
  exact Nat.mod_eq_of_lt c.tag.isLt

theorem fieldAt_flags_commitBody : fieldAt (commitBody c) 2 1 = maskOf c.bits := by
  have hlt := c.maskOf_bits_lt
  rw [commitBody_eq, fieldAt_append (by simp), length_bytesOf, Nat.sub_self, fieldAt_bytesOf]
  exact Nat.mod_eq_of_lt (by omega)

theorem commitCountOffset_commitBody :
    commitCountOffset (commitBody c) = 3 + c.targetBytes.length := by
  rw [commitCountOffset, fieldAt_flags_commitBody, maskBit_maskOf, length_targetBytes]
  cases h : c.target <;> simp [Commit.bits, h]

/-- The bytes of a COMMIT body behind its target field. -/
theorem drop_commitBody : (commitBody c).drop (3 + c.targetBytes.length) =
    bytesOf 1 c.surfaces.length ++ c.surfaces.map (BitVec.ofNat 8) := by
  rw [commitBody_eq, drop_append_of_length_le (by simp; omega), drop_append_of_length_le (by simp; omega),
    drop_append_of_length_le (by simp; omega), length_bytesOf, length_bytesOf,
    show 3 + c.targetBytes.length - 2 - 1 - c.targetBytes.length = 0 by omega, List.drop_zero]

variable (hids : ∀ id ∈ c.surfaces, id < 256) (hlen : c.surfaces.length < 256)

include hlen in
theorem lengthOk_commitBody : lengthOk 0x40 (commitBody c) = true := by
  have hcount : fieldAt (commitBody c) (3 + c.targetBytes.length) 1 = c.surfaces.length := by
    rw [← Nat.add_zero (3 + c.targetBytes.length), ← fieldAt_drop, drop_commitBody, fieldAt_bytesOf]
    exact Nat.mod_eq_of_lt hlen
  have hlength : (commitBody c).length = 3 + c.targetBytes.length + 1 + c.surfaces.length := by
    rw [commitBody_eq]
    simp
    omega
  rw [lengthOk_commit, commitCountOffset_commitBody, hcount, hlength]
  exact decide_eq_true ⟨by omega, rfl⟩

theorem fieldAt_target_commitBody {t : Word} (ht : c.target = some t) :
    fieldAt (commitBody c) 3 4 = t.toNat := by
  rw [commitBody_eq, fieldAt_append (by simp), fieldAt_append (by simp), length_bytesOf,
    length_bytesOf, Commit.targetBytes, ht, presentBytes_some, fieldAt_bytesOf]
  exact Nat.mod_eq_of_lt t.isLt

include hids in
theorem ids_commitBody : (commitFieldsOf (commitBody c)).ids = c.surfaces := by
  have hids' : ∀ id ∈ c.surfaces, ((fun b : Byte => b.toNat) ∘ BitVec.ofNat 8) id = id := by
    intro id hid
    simp only [Function.comp_apply, BitVec.toNat_ofNat]
    exact Nat.mod_eq_of_lt (hids id hid)
  change ((commitBody c).drop (commitCountOffset (commitBody c) + 1)).map (fun b => b.toNat) = _
  rw [commitCountOffset_commitBody, ← List.drop_drop, drop_commitBody,
    List.drop_left' (length_bytesOf 1 _), List.map_map]
  exact (List.map_congr_left hids').trans (List.map_id' _)

include hids in
/-- A COMMIT body reads back as the record that it carries. -/
theorem record_commitBody : (commitFieldsOf (commitBody c)).record = c := by
  have htag : (commitFieldsOf (commitBody c)).tag = c.tag := by
    change BitVec.ofNat 16 (fieldAt (commitBody c) 0 2) = c.tag
    rw [fieldAt_tag_commitBody, BitVec.ofNat_toNat, BitVec.setWidth_eq]
  have hflags : (commitFieldsOf (commitBody c)).flags = maskOf c.bits := fieldAt_flags_commitBody c
  have htarget : (commitFieldsOf (commitBody c)).target = c.target := by
    change (if maskBit (fieldAt (commitBody c) 2 1) 3 then
      some (BitVec.ofNat 32 (fieldAt (commitBody c) 3 4)) else none) = c.target
    rw [fieldAt_flags_commitBody, maskBit_maskOf]
    cases h : c.target with
    | none => simp [Commit.bits, h]
    | some t =>
      rw [fieldAt_target_commitBody c h, BitVec.ofNat_toNat, BitVec.setWidth_eq]
      simp [Commit.bits, h]
  simp only [CommitFields.record, htag, hflags, htarget, ids_commitBody c hids, maskBit_maskOf]
  rfl

end

/-! ### Checks 3 to 12 (Table 3-2) -/

section
variable (s : State) (c : Commit) (seq : Byte)

/-- Check 3. -/
def State.checkRoom : Option Answer :=
  if 4 ≤ s.commits.queue.length then some ⟨.queueFull, []⟩ else none

/-- Check 4. -/
def State.checkTag : Option Answer :=
  (firstCommit (fun d => d.tag == c.tag) s.commits.queue).map fun x => ⟨.tagInUse, bytesOf 1 x.1⟩

/-- Check 5. -/
def State.checkRunning : Option Answer :=
  if s.timing.state = .stopped ∧ ¬ c.canvas then some ⟨.notRunning, []⟩ else none

/-- Check 6. -/
def State.checkCanvas : Option Answer :=
  if c.canvas && s.scan.lacksField then some ⟨.noCanvas, []⟩ else none

/-- Check 7. -/
def State.checkHolder : Option Answer :=
  (s.flagHolder c seq).map fun x => ⟨.inCommit, [x.1, 0xFF] ++ bytesOf 2 x.2.toNat⟩

/-- Check 8. -/
def Commit.checkRepeat : Option Answer :=
  (firstRepeat [] c.surfaces).map fun id => ⟨.duplicateId, bytesOf 1 id⟩

/-- Check 9. -/
def State.checkState : Option Answer :=
  (c.surfaces.find? fun id => (s.surf id).state == .free || (s.surf id).state == .retiring).map
    fun id => ⟨if (s.surf id).state = .free then .noSurface else .retiring, bytesOf 1 id⟩

/-- Check 10. -/
def State.checkFrozen : Option Answer :=
  (c.surfaces.find? fun id => (s.surf id).frozen).map
    fun id => ⟨.inCommit, [2] ++ bytesOf 1 id ++ bytesOf 2 ((s.surf id).pendingTag.getD 0).toNat⟩

/-- Check 11. -/
def State.checkStream : Option Answer :=
  (c.surfaces.find? fun id => (s.surf id).double && (s.surf id).stream.isSome).map
    fun id => ⟨.streamOpen, bytesOf 1 id ++ bytesOf 1 ((s.surf id).stream.getD 0)⟩

/-- Check 12. -/
def State.checkTarget : Option Answer :=
  c.target.bind fun t =>
    if 65535 < (t - s.timing.frame).toNat then some ⟨.tooFar, bytesOf 4 s.timing.frame.toNat⟩
    else none

/-- Checks 8 to 12, on the list of surfaces and the target. -/
def State.checkList : Option Answer :=
  c.checkRepeat.or ((s.checkState c).or ((s.checkFrozen c).or ((s.checkStream c).or
    (s.checkTarget c))))

/-- The first check that fails decides. -/
theorem State.commitRefusal_eq : s.commitRefusal c seq =
    s.checkRoom.or ((s.checkTag c).or ((s.checkRunning c).or ((s.checkCanvas c).or
      ((s.checkHolder c seq).or (s.checkList c))))) := by
  unfold State.commitRefusal State.checkRoom State.checkTag State.checkRunning State.checkCanvas
    State.checkHolder State.checkList Commit.checkRepeat State.checkState State.checkFrozen
    State.checkStream State.checkTarget
  dsimp only
  by_cases hroom : 4 ≤ s.commits.queue.length
  · rw [if_pos hroom, if_pos hroom]; rfl
  rw [if_neg hroom, if_neg hroom, Option.none_or]
  cases firstCommit (fun d => d.tag == c.tag) s.commits.queue with
  | some _ => rfl
  | none =>
  by_cases hrun : s.timing.state = .stopped ∧ ¬ c.canvas
  · rw [if_pos hrun, if_pos hrun]; rfl
  rw [if_neg hrun, if_neg hrun]
  by_cases hcanvas : (c.canvas && s.scan.lacksField) = true
  · rw [if_pos hcanvas, if_pos hcanvas]; rfl
  rw [if_neg hcanvas, if_neg hcanvas]
  cases s.flagHolder c seq with
  | some _ => rfl
  | none =>
  cases firstRepeat [] c.surfaces with
  | some _ => rfl
  | none =>
  cases c.surfaces.find? fun id => (s.surf id).state == .free || (s.surf id).state == .retiring with
  | some _ => rfl
  | none =>
  cases c.surfaces.find? fun id => (s.surf id).frozen with
  | some _ => rfl
  | none =>
  cases c.surfaces.find? fun id => (s.surf id).double && (s.surf id).stream.isSome with
  | some _ => rfl
  | none => cases c.target <;> rfl

end

/-! ### When each check fails, and when it passes -/

/-- The first item of a list that satisfies a test: one behind items that do not. -/
theorem find?_of_split {α : Type} {p : α → Bool} {pre post : List α} {a : α}
    (hpre : ∀ b ∈ pre, p b = false) (ha : p a = true) : (pre ++ a :: post).find? p = some a := by
  rw [List.find?_append, List.find?_eq_none.2 fun b hb => by rw [hpre b hb]; decide,
    List.find?_cons_of_pos ha]
  rfl

/-- The first id that stands earlier in the list too. -/
theorem firstRepeat_of_split {seen pre post : List Nat} {id : Nat} (hnd : pre.Nodup)
    (hseen : ∀ i ∈ pre, i ∉ seen) (hid : id ∈ pre ∨ id ∈ seen) :
    firstRepeat seen (pre ++ id :: post) = some id := by
  induction pre generalizing seen with
  | nil =>
    have hmem : id ∈ seen := hid.resolve_left List.not_mem_nil
    simp [firstRepeat, hmem]
  | cons i pre ih =>
    obtain ⟨hi, hnd⟩ := List.nodup_cons.1 hnd
    have hnot : i ∉ seen := hseen i List.mem_cons_self
    rw [List.cons_append, firstRepeat, if_neg (by simpa using hnot)]
    refine ih hnd (fun j hj => ?_) ?_
    · rw [List.mem_cons, not_or]
      exact ⟨fun e => hi (e ▸ hj), hseen j (List.mem_cons_of_mem _ hj)⟩
    · rw [List.mem_cons] at hid ⊢
      tauto

section
variable {s : State} {c : Commit} {seq : Byte}

theorem State.checkRoom_none (h : s.commits.queue.length < 4) : s.checkRoom = none :=
  if_neg (Nat.not_le.2 h)

theorem State.checkTag_none (h : ∀ d ∈ s.commits.queue, d.tag ≠ c.tag) : s.checkTag c = none := by
  unfold State.checkTag
  rw [firstCommit_eq_none.2 fun d hd => beq_false_of_ne (h d hd)]
  rfl

theorem State.checkTag_some {i : Nat} {d : Commit} (hd : s.commits.queue[i]? = some d)
    (htag : d.tag = c.tag)
    (hfirst : ∀ k < i, ∀ e, s.commits.queue[k]? = some e → e.tag ≠ c.tag) :
    s.checkTag c = some ⟨.tagInUse, bytesOf 1 i⟩ := by
  have hfound : firstCommit (fun d => d.tag == c.tag) s.commits.queue = some (i, d) :=
    firstCommit_eq_some.2
      ⟨hd, beq_iff_eq.2 htag, fun k hk e he => beq_false_of_ne (hfirst k hk e he)⟩
  unfold State.checkTag
  rw [hfound]
  rfl

theorem State.checkRunning_none (h : s.timing.state = .stopped → c.canvas = true) :
    s.checkRunning c = none := if_neg fun hn => hn.2 (h hn.1)

theorem State.checkRunning_some (h1 : s.timing.state = .stopped) (h2 : c.canvas = false) :
    s.checkRunning c = some ⟨.notRunning, []⟩ := if_pos ⟨h1, by rw [h2]; decide⟩

theorem lacksField_iff {sc : Scan} : sc.lacksField = true ↔ sc.lacksRequired := by
  simp [Scan.lacksField, Scan.lacksRequired, or_assoc]

theorem State.checkCanvas_none (h : c.canvas = true → ¬ s.scan.lacksRequired) :
    s.checkCanvas c = none := by
  refine if_neg ?_
  rw [Bool.and_eq_true, lacksField_iff]
  exact fun hn => h hn.1 hn.2

theorem State.checkCanvas_some (h1 : c.canvas = true) (h2 : s.scan.lacksRequired) :
    s.checkCanvas c = some ⟨.noCanvas, []⟩ := by
  refine if_pos ?_
  rw [Bool.and_eq_true, lacksField_iff]
  exact ⟨h1, h2⟩

theorem State.checkHolder_none (hcan : c.canvas = true → ∀ d ∈ s.commits.queue, d.canvas = false)
    (hcur : c.curve = true → ∀ d ∈ s.commits.queue, d.curve = false) :
    s.checkHolder c seq = none := by
  unfold State.checkHolder
  rw [State.flagHolder_eq_none.2 ⟨hcan, hcur⟩]
  rfl

theorem Commit.checkRepeat_none (h : c.surfaces.Nodup) : c.checkRepeat = none := by
  unfold Commit.checkRepeat
  rw [firstRepeat_eq_none.2 ⟨h, fun _ _ => List.not_mem_nil⟩]
  rfl

theorem Commit.checkRepeat_some {pre post : List Nat} {id : Nat} (hs : c.surfaces = pre ++ id :: post)
    (hnd : pre.Nodup) (hid : id ∈ pre) : c.checkRepeat = some ⟨.duplicateId, bytesOf 1 id⟩ := by
  unfold Commit.checkRepeat
  rw [hs, firstRepeat_of_split hnd (fun _ _ => List.not_mem_nil) (.inl hid)]
  rfl

/-- A defined surface is neither FREE nor RETIRING. -/
theorem not_vacant_of_defined {r : Surface} (h : r.defined) :
    (r.state == .free || r.state == .retiring) = false := by
  rcases h with h | h <;> rw [h] <;> rfl

theorem State.checkState_none (h : ∀ id ∈ c.surfaces, (s.surf id).defined) :
    s.checkState c = none := by
  unfold State.checkState
  rw [List.find?_eq_none.2 fun id hid => by rw [not_vacant_of_defined (h id hid)]; decide]
  rfl

theorem State.checkState_some {pre post : List Nat} {id : Nat} (hs : c.surfaces = pre ++ id :: post)
    (hpre : ∀ i ∈ pre, (s.surf i).defined)
    (hid : (s.surf id).state = .free ∨ (s.surf id).state = .retiring) : s.checkState c =
      some ⟨if (s.surf id).state = .free then .noSurface else .retiring, bytesOf 1 id⟩ := by
  unfold State.checkState
  rw [hs, find?_of_split (fun i hi => not_vacant_of_defined (hpre i hi))
    (by rcases hid with h | h <;> rw [h] <;> rfl)]
  rfl

theorem State.checkFrozen_none (h : ∀ id ∈ c.surfaces, (s.surf id).pendingTag = none) :
    s.checkFrozen c = none := by
  unfold State.checkFrozen
  rw [List.find?_eq_none.2 fun id hid => by rw [Surface.frozen, h id hid]; decide]
  rfl

theorem State.checkFrozen_some {pre post : List Nat} {id : Nat} {tag : Half}
    (hs : c.surfaces = pre ++ id :: post) (hpre : ∀ i ∈ pre, (s.surf i).pendingTag = none)
    (hid : (s.surf id).pendingTag = some tag) : s.checkFrozen c =
      some ⟨.inCommit, [2] ++ bytesOf 1 id ++ bytesOf 2 tag.toNat⟩ := by
  unfold State.checkFrozen
  rw [hs, find?_of_split (fun i hi => by rw [Surface.frozen, hpre i hi]; rfl)
    (by rw [Surface.frozen, hid]; rfl)]
  simp only [Option.map_some, hid, Option.getD_some]

theorem double_and_stream {r : Surface} :
    (r.double && r.stream.isSome) = true ↔ r.banks = 2 ∧ r.stream ≠ none := by
  simp [Surface.double, Option.isSome_iff_ne_none]

theorem State.checkStream_none
    (h : ∀ id ∈ c.surfaces, ¬ ((s.surf id).banks = 2 ∧ (s.surf id).stream ≠ none)) :
    s.checkStream c = none := by
  unfold State.checkStream
  rw [List.find?_eq_none.2 fun id hid => mt double_and_stream.1 (h id hid)]
  rfl

theorem State.checkStream_some {pre post : List Nat} {id slot : Nat}
    (hs : c.surfaces = pre ++ id :: post)
    (hpre : ∀ i ∈ pre, ¬ ((s.surf i).banks = 2 ∧ (s.surf i).stream ≠ none))
    (hbanks : (s.surf id).banks = 2) (hslot : (s.surf id).stream = some slot) : s.checkStream c =
      some ⟨.streamOpen, bytesOf 1 id ++ bytesOf 1 slot⟩ := by
  have hid : ((s.surf id).double && (s.surf id).stream.isSome) = true :=
    double_and_stream.2 ⟨hbanks, by rw [hslot]; exact Option.some_ne_none _⟩
  unfold State.checkStream
  rw [hs, find?_of_split
    (fun i hi => Bool.eq_false_iff.2 (mt double_and_stream.1 (hpre i hi))) hid]
  simp only [Option.map_some, hslot, Option.getD_some]

theorem State.checkTarget_none (h : ∀ t ∈ c.target, (t - s.timing.frame).toNat ≤ 65535) :
    s.checkTarget c = none := by
  unfold State.checkTarget
  cases ht : c.target with
  | none => rfl
  | some t => exact if_neg (Nat.not_lt.2 (h t ht))

theorem State.checkTarget_some {t : Word} (ht : t ∈ c.target)
    (h : 65535 < (t - s.timing.frame).toNat) :
    s.checkTarget c = some ⟨.tooFar, bytesOf 4 s.timing.frame.toNat⟩ := by
  unfold State.checkTarget
  rw [Option.mem_def.1 ht]
  exact if_pos h

/-! ### Which holder check 7 names -/

/-- At most one pending commit holds a flag, so that the first is the one. -/
theorem firstCommit_of_held_once {p : Commit → Bool} {q : List Commit} {d : Commit}
    (h : q.countP p ≤ 1) (hd : d ∈ q) (hp : p d = true) : ∃ i, firstCommit p q = some (i, d) := by
  induction q with
  | nil => exact absurd hd List.not_mem_nil
  | cons x q ih =>
    rcases List.mem_cons.1 hd with rfl | hd
    · exact ⟨0, firstCommit_eq_some.2 ⟨rfl, hp, fun k hk => absurd hk (Nat.not_lt_zero k)⟩⟩
    · have hx : p x = false := by
        rw [Bool.eq_false_iff]
        intro hx
        rw [flag_held_once p h hx d hd] at hp
        cases hp
      rw [List.countP_cons_of_neg (by rw [hx]; decide)] at h
      obtain ⟨i, hi⟩ := ih h hd
      obtain ⟨hget, -, hfirst⟩ := firstCommit_eq_some.1 hi
      refine ⟨i + 1, firstCommit_eq_some.2 ⟨hget, hp, fun k hk e he => ?_⟩⟩
      cases k with
      | zero => rw [← Option.some.inj he]; exact hx
      | succ k => exact hfirst k (by omega) e he

/-- The one commit that holds a flag against another that carries it. -/
theorem holder_of_held_once {b : Bool} {p : Commit → Bool} {q : List Commit} {d : Commit}
    (h : q.countP p ≤ 1) (hb : b = true) (hd : d ∈ q) (hp : p d = true) :
    ∃ i, (if b then firstCommit p q else none) = some (i, d) := by
  rw [if_pos hb]
  exact firstCommit_of_held_once h hd hp

theorem holder_none {b : Bool} {p : Commit → Bool} {q : List Commit}
    (h : b = true → ∀ d ∈ q, p d = false) : (if b then firstCommit p q else none) = none := by
  cases b with
  | false => rfl
  | true => exact firstCommit_eq_none.2 (h rfl)

theorem State.checkHolder_canvas (hf : FreezeLaw s) {d : Commit} (hd : d ∈ s.commits.queue)
    (hc : c.canvas = true) (hdc : d.canvas = true)
    (hcur : c.curve = true → ∀ e ∈ s.commits.queue, e.curve = false) :
    s.checkHolder c seq = some ⟨.inCommit, [0, 0xFF] ++ bytesOf 2 d.tag.toNat⟩ := by
  obtain ⟨i, hi⟩ := holder_of_held_once (p := (·.canvas)) hf.applicable.can hc hd hdc
  unfold State.checkHolder State.flagHolder
  dsimp only
  rw [hi, holder_none hcur]
  rfl

theorem State.checkHolder_curve (hf : FreezeLaw s) {e : Commit} (he : e ∈ s.commits.queue)
    (hc : c.curve = true) (hec : e.curve = true)
    (hcan : c.canvas = true → ∀ d ∈ s.commits.queue, d.canvas = false) :
    s.checkHolder c seq = some ⟨.inCommit, [1, 0xFF] ++ bytesOf 2 e.tag.toNat⟩ := by
  obtain ⟨i, hi⟩ := holder_of_held_once (p := (·.curve)) hf.applicable.cur hc he hec
  unfold State.checkHolder State.flagHolder
  dsimp only
  rw [hi, holder_none hcan]
  rfl

/-- Where both flags are held against a commit, the configuration says which holder is named. -/
theorem State.checkHolder_both (hf : FreezeLaw s) {d e : Commit} (hd : d ∈ s.commits.queue)
    (he : e ∈ s.commits.queue) (hc : c.canvas = true) (hdc : d.canvas = true) (hcc : c.curve = true)
    (hec : e.curve = true) :
    s.checkHolder c seq = some ⟨.inCommit, [0, 0xFF] ++ bytesOf 2 d.tag.toNat⟩ ∨
      s.checkHolder c seq = some ⟨.inCommit, [1, 0xFF] ++ bytesOf 2 e.tag.toNat⟩ := by
  obtain ⟨i, hi⟩ := holder_of_held_once (p := (·.canvas)) hf.applicable.can hc hd hdc
  obtain ⟨j, hj⟩ := holder_of_held_once (p := (·.curve)) hf.applicable.cur hcc he hec
  unfold State.checkHolder State.flagHolder
  dsimp only
  rw [hi, hj]
  dsimp only
  split
  · exact .inl rfl
  · exact .inr rfl

end

end Sys2Proof.Machine
end

section
/-! PROOFS. COMMIT and CANCEL (O39 to O41): the checks in their order, what an accepted one does to
the queue and to the records, and the head that a STOPPED part applies behind the reply. -/

namespace Sys2Proof.Machine

/-! ### COMMIT refused -/

theorem exec_commit (s : State) : exec .commit s =
    .next (s.decideIfHeadChanged (s.serve 0x40 (handleCommit s.nextSeq))) := rfl

theorem State.takeRequest_commitRefusal (s : State) (c : Commit) (seq : Byte) :
    s.takeRequest.commitRefusal c seq = s.commitRefusal c seq := rfl

theorem exec_commit_refused {s : State} {f : Request} {body : List Byte} {st : Status}
    {b : List Byte} (ha : Asks s f 0x40 body) (hl : lengthOk 0x40 body = true)
    (h : handleCommit s.nextSeq body s.takeRequest = (s.takeRequest, ⟨st, b⟩)) :
    exec .commit s = .next (s.answer f st b) := by
  rw [exec_commit, State.serve_answer ha hl h, State.decideIfHeadChanged_answer]

/-- The ids and flags of a record are in range (checks 1 and 2). -/
def Commit.wellFormed (c : Commit) : Prop :=
  ¬ (32 < c.surfaces.length ∨ ∃ id ∈ c.surfaces, 31 < id) ∧
    (c.surfaces ≠ [] ∨ c.canvas = true ∨ c.curve = true)

section
variable {s : State} {c : Commit} (seq : Byte) (hids : ∀ id ∈ c.surfaces, id < 256)
include hids

/-- COMMIT on the body of a record. -/
theorem handleCommit_commitBody : handleCommit seq (commitBody c) s =
    if 32 < c.surfaces.length ∨ c.surfaces.any (fun id => decide (31 < id)) then
      (s, ⟨.badField, []⟩)
    else if c.surfaces.isEmpty && !c.canvas && !c.curve then (s, ⟨.badField, []⟩)
    else match s.commitRefusal c seq with
      | some r => (s, ⟨r.status, r.body⟩)
      | none => (s.acceptCommit c, ⟨.ok, bytesOf 2 c.tag.toNat ++
          bytesOf 1 s.commits.queue.length ++ bytesOf 1 (s.commits.queue.length + 1)⟩) := by
  have hflags : ¬ 16 ≤ (commitFieldsOf (commitBody c)).flags := by
    have hlt := c.maskOf_bits_lt
    rw [show (commitFieldsOf (commitBody c)).flags = maskOf c.bits from fieldAt_flags_commitBody c]
    omega
  unfold handleCommit
  dsimp only
  rw [record_commitBody c hids, ids_commitBody c hids, if_congr (or_iff_right hflags) rfl rfl]
  rfl

theorem handleCommit_badField (h : ¬ c.wellFormed) :
    handleCommit seq (commitBody c) s = (s, ⟨.badField, []⟩) := by
  rw [handleCommit_commitBody seq hids]
  by_cases hlist : 32 < c.surfaces.length ∨ c.surfaces.any (fun id => decide (31 < id)) = true
  · rw [if_pos hlist]
  · rw [if_neg hlist, if_pos]
    have hin : ¬ (32 < c.surfaces.length ∨ ∃ id ∈ c.surfaces, 31 < id) := by
      simpa [List.any_eq_true] using hlist
    unfold Commit.wellFormed at h
    rw [not_and] at h
    have hnone := h hin
    rw [not_or, not_or, not_not] at hnone
    obtain ⟨h1, h2, h3⟩ := hnone
    simp [h1, h2, h3]

variable (hwf : c.wellFormed)
include hwf

theorem handleCommit_wellFormed : handleCommit seq (commitBody c) s =
    match s.commitRefusal c seq with
      | some r => (s, ⟨r.status, r.body⟩)
      | none => (s.acceptCommit c, ⟨.ok, bytesOf 2 c.tag.toNat ++
          bytesOf 1 s.commits.queue.length ++ bytesOf 1 (s.commits.queue.length + 1)⟩) := by
  obtain ⟨hin, hsome⟩ := hwf
  have hlist : ¬ (32 < c.surfaces.length ∨ c.surfaces.any (fun id => decide (31 < id)) = true) := by
    simpa [List.any_eq_true] using hin
  have hnonempty : ¬ (c.surfaces.isEmpty && !c.canvas && !c.curve) = true := by
    rcases hsome with h | h | h <;> simp [h]
  rw [handleCommit_commitBody seq hids, if_neg hlist, if_neg hnonempty]

theorem handleCommit_refused {st : Status} {b : List Byte}
    (h : s.commitRefusal c seq = some ⟨st, b⟩) :
    handleCommit seq (commitBody c) s = (s, ⟨st, b⟩) := by
  rw [handleCommit_wellFormed seq hids hwf, h]

theorem handleCommit_accepted (h : s.commitRefusal c seq = none) :
    handleCommit seq (commitBody c) s = (s.acceptCommit c, ⟨.ok, bytesOf 2 c.tag.toNat ++
      bytesOf 1 s.commits.queue.length ++ bytesOf 1 (s.commits.queue.length + 1)⟩) := by
  rw [handleCommit_wellFormed seq hids hwf, h]

end

/-! ### COMMIT accepted -/

theorem State.commitRefusal_of_accepts {s : State} {c : Commit} (seq : Byte)
    (h : s.acceptsCommit c) : s.commitRefusal c seq = none := by
  obtain ⟨hroom, htag, -, hrun, hcanvas, hcan, hcur, hnd, hids, htarget⟩ := h
  rw [State.commitRefusal_eq, State.checkRoom_none hroom, State.checkTag_none htag,
    State.checkRunning_none hrun, State.checkCanvas_none hcanvas, State.checkHolder_none hcan hcur,
    State.checkList, Commit.checkRepeat_none hnd, State.checkState_none fun id hid => (hids id hid).2.1,
    State.checkFrozen_none fun id hid => (hids id hid).2.2.1,
    State.checkStream_none fun id hid => (hids id hid).2.2.2, State.checkTarget_none htarget]
  rfl

/-- A list of distinct ids of surfaces has at most 32 of them. -/
theorem length_le_of_nodup_lt {ids : List Nat} {n : Nat} (hnd : ids.Nodup) (hlt : ∀ id ∈ ids, id < n) :
    ids.length ≤ n := by
  have hsub := (hnd.subperm fun id hid => List.mem_range.2 (hlt id hid) : ids.Subperm (List.range n))
  simpa using hsub.length_le

section
variable {s : State} {c : Commit} {seq : Byte}

/-- Checks 3 and 4 passed. -/
theorem State.commitRefusal_past_tag (h4 : s.commits.queue.length < 4)
    (htags : ∀ d ∈ s.commits.queue, d.tag ≠ c.tag) : s.commitRefusal c seq =
      (s.checkRunning c).or ((s.checkCanvas c).or ((s.checkHolder c seq).or (s.checkList c))) := by
  rw [State.commitRefusal_eq, State.checkRoom_none h4, State.checkTag_none htags, Option.none_or,
    Option.none_or]

variable (h : s.commitRefusal c seq =
  (s.checkRunning c).or ((s.checkCanvas c).or ((s.checkHolder c seq).or (s.checkList c))))
  (hrun : s.timing.state = .stopped → c.canvas = true)
include h hrun

/-- Check 5 passed. -/
theorem State.commitRefusal_past_running : s.commitRefusal c seq =
    (s.checkCanvas c).or ((s.checkHolder c seq).or (s.checkList c)) := by
  rw [h, State.checkRunning_none hrun, Option.none_or]

variable (hcanvas : c.canvas = true → ¬ s.scan.lacksRequired)
include hcanvas

/-- Check 6 passed. -/
theorem State.commitRefusal_past_canvas : s.commitRefusal c seq =
    (s.checkHolder c seq).or (s.checkList c) := by
  rw [State.commitRefusal_past_running h hrun, State.checkCanvas_none hcanvas, Option.none_or]

/-- A refusal by check 7. -/
theorem State.commitRefusal_holder {a : Answer} (ha : s.checkHolder c seq = some a) :
    s.commitRefusal c seq = some a := by
  rw [State.commitRefusal_past_canvas h hrun hcanvas, ha, Option.some_or]

end

/-- The state that an accepted COMMIT leaves ahead of any application. -/
def State.committed (s : State) (f : Request) (c : Commit) : State :=
  (s.takeRequest.acceptCommit c).queueReply f (replyTo f ⟨.ok, bytesOf 2 c.tag.toNat ++
    bytesOf 1 s.commits.queue.length ++ bytesOf 1 (s.commits.queue.length + 1)⟩)

section
variable {s : State} {f : Request} {c : Commit}

theorem State.committed_accepts : Accepts s (s.committed f c) f c := by
  refine ⟨?_, fun id hid => ?_⟩
  · unfold State.committed
    rw [State.acceptCommit_eq, State.setTags_eq]
    rfl
  · have h : (s.committed f c).surf id = (s.takeRequest.acceptCommit c).surf id := rfl
    rw [h, State.acceptCommit_eq, State.setTags_surf, if_congr (and_iff_left hid) rfl rfl]
    rfl

theorem State.committed_defined (id : Nat) (h : (s.surf id).defined) :
    ((s.committed f c).surf id).defined := by
  have e : (s.committed f c).surf id = (s.takeRequest.acceptCommit c).surf id := rfl
  rw [e, State.acceptCommit_eq, State.setTags_surf]
  split <;> exact h

/-- The tags of the surfaces count for no readiness. -/
theorem Accepts.isReady_iff {t : State} (h : Accepts s t f c) (hids : ∀ id ∈ c.surfaces, id < 32)
    (n : Word) : t.isReady n c ↔ s.isReady n c := by
  refine and_congr (forall₂_congr fun id hid => ?_) Iff.rfl
  rw [h.2 id (hids id hid), if_pos hid]

theorem Accepts.stoppedFrame_eq {t : State} (h : Accepts s t f c) :
    t.stoppedFrame = s.stoppedFrame := by
  rw [h.1]
  rfl

theorem Accepts.queue_eq {t : State} (h : Accepts s t f c) :
    t.commits.queue = s.commits.queue ++ [c] := by
  rw [h.1]

theorem Accepts.timing_eq {t : State} (h : Accepts s t f c) : t.timing = s.timing := by
  rw [h.1]
  rfl

theorem Accepts.scan_eq {t : State} (h : Accepts s t f c) : t.scan = s.scan := by
  rw [h.1]
  rfl

variable (hacc : s.acceptsCommit c) (ha : Asks s f 0x40 (commitBody c))
include hacc ha

theorem exec_commit_accepted : exec .commit s =
    .next (s.decideIfHeadChanged (s.committed f c)) := by
  have hids : ∀ id ∈ c.surfaces, id < 32 := fun id hid => (hacc.2.2.2.2.2.2.2.2.1 id hid).1
  have hlen : c.surfaces.length ≤ 32 := length_le_of_nodup_lt hacc.2.2.2.2.2.2.2.1 hids
  have hids' : ∀ id ∈ c.surfaces, id < 256 := fun id hid => by have := hids id hid; omega
  have hwf : c.wellFormed := by
    refine ⟨?_, hacc.2.2.1⟩
    rintro (h | ⟨id, hid, h⟩)
    · omega
    · have := hids id hid; omega
  have hrefusal : s.takeRequest.commitRefusal c s.nextSeq = none :=
    State.commitRefusal_of_accepts s.nextSeq hacc
  rw [exec_commit, State.serve_of_asks ha (lengthOk_commitBody c (by omega)),
    handleCommit_accepted s.nextSeq hids' hwf hrefusal]
  rfl

end

/-- An accepted COMMIT that is not the head, or not due, waits. -/
theorem State.decideIfHeadChanged_committed {s : State} {f : Request} {c : Commit}
    (hacc : s.acceptsCommit c)
    (h : s.clockRuns ∨ s.commits.queue ≠ [] ∨ ¬ s.isReady s.stoppedFrame c) :
    s.decideIfHeadChanged (s.committed f c) = s.committed f c := by
  have haccepts : Accepts s (s.committed f c) f c := State.committed_accepts
  have hids : ∀ id ∈ c.surfaces, id < 32 := fun id hid => (hacc.2.2.2.2.2.2.2.2.1 id hid).1
  unfold State.decideIfHeadChanged
  split
  · rfl
  rename_i hhead
  rw [haccepts.queue_eq] at hhead
  cases hq : s.commits.queue with
  | cons d ds =>
    rw [hq] at hhead
    exact absurd rfl hhead
  | nil =>
    refine (State.decideStopped_of_not_due _ [] ?_).trans rfl
    rintro ⟨hst, d, hd, -, hready⟩
    rw [haccepts.queue_eq, hq] at hd
    obtain rfl : c = d := Option.some.inj hd
    rw [haccepts.isReady_iff hids, haccepts.stoppedFrame_eq] at hready
    rw [haccepts.timing_eq] at hst
    rcases h with h | h | h
    · exact h hst
    · exact h hq
    · exact h hready

/-- Settles O39: the checks in their order, and the commit that joins the queue. -/
theorem commitJoinsTheQueue : Obligations.CommitJoinsTheQueue := by
  refine ⟨fun s f body hl ha hflags => ?_, fun s f c ha hlen hids => ?_⟩
  · exact exec_commit_refused ha hl (if_pos (.inl hflags))
  have hl := lengthOk_commitBody c hlen
  have hbad : ¬ c.wellFormed → exec .commit s = .next (s.answer f .badField []) := fun h =>
    exec_commit_refused ha hl (handleCommit_badField s.nextSeq hids h)
  refine ⟨fun h => hbad ?_, fun hlt hle hsome => ?_, fun hacc hquiet => ?_⟩
  · rintro ⟨h1, h2⟩
    rcases h with ⟨id, hid, h⟩ | h | ⟨hnone, hcan, hcur⟩
    · exact h1 (.inr ⟨id, hid, h⟩)
    · exact h1 (.inl h)
    · rw [hcan, hcur] at h2
      exact h2.elim (· hnone) (Or.elim · Bool.noConfusion Bool.noConfusion)
  · have hwf : c.wellFormed := by
      refine ⟨?_, hsome⟩
      rintro (h | ⟨id, hid, h⟩)
      · omega
      · have := hlt id hid; omega
    have hrefused : ∀ st b, s.commitRefusal c s.nextSeq = some ⟨st, b⟩ →
        exec .commit s = .next (s.answer f st b) := fun st b h =>
      exec_commit_refused ha hl (handleCommit_refused s.nextSeq hids hwf h)
    refine ⟨fun h4 => hrefused _ _ ?_, fun h4 => ⟨fun i d hd htag hfirst => hrefused _ _ ?_,
      fun htags => ?_⟩⟩
    · rw [State.commitRefusal_eq]
      unfold State.checkRoom
      rw [if_pos h4, Option.some_or]
    · rw [State.commitRefusal_eq, State.checkRoom_none h4, State.checkTag_some hd htag hfirst]
      rfl
    have h5 : s.commitRefusal c s.nextSeq = _ := State.commitRefusal_past_tag h4 htags
    refine ⟨fun hst hcan => hrefused _ _ ?_, fun hcan hlack => hrefused _ _ ?_,
      fun hrun hcanvas => ?_⟩
    · rw [h5, State.checkRunning_some hst hcan, Option.some_or]
    · rw [State.commitRefusal_past_running h5 (fun _ => hcan), State.checkCanvas_some hcan hlack,
        Option.some_or]
    have h7 : ∀ st b, s.checkHolder c s.nextSeq = some ⟨st, b⟩ →
        exec .commit s = .next (s.answer f st b) := fun st b h =>
      hrefused st b (State.commitRefusal_holder h5 hrun hcanvas h)
    refine ⟨fun hf d hd hcc hdc => ⟨fun hcur => h7 _ _ (State.checkHolder_canvas hf hd hcc hdc hcur),
        fun e he hcur hec => (State.checkHolder_both hf hd he hcc hdc hcur hec).imp (h7 _ _) (h7 _ _)⟩,
      fun hf hcan e he hcur hec => h7 _ _ (State.checkHolder_curve hf he hcur hec hcan),
      fun hcan hcur => ?_⟩
    have h8 : s.commitRefusal c s.nextSeq = s.checkList c := by
      rw [State.commitRefusal_past_canvas h5 hrun hcanvas, State.checkHolder_none hcan hcur,
        Option.none_or]
    unfold State.checkList at h8
    refine ⟨fun pre id post hs hnd hid => hrefused _ _ ?_, fun hnd => ?_⟩
    · rw [h8, Commit.checkRepeat_some hs hnd hid, Option.some_or]
    rw [Commit.checkRepeat_none hnd, Option.none_or] at h8
    refine ⟨fun pre id post hs hpre => ⟨fun hst => hrefused _ _ ?_, fun hst => hrefused _ _ ?_⟩,
      fun hdef => ?_⟩
    · rw [h8, State.checkState_some hs hpre (.inl hst), if_pos hst, Option.some_or]
    · rw [h8, State.checkState_some hs hpre (.inr hst), if_neg (by rw [hst]; decide), Option.some_or]
    rw [State.checkState_none hdef, Option.none_or] at h8
    refine ⟨fun pre id post tag hs hpre htag => hrefused _ _ ?_, fun hfree => ?_⟩
    · rw [h8, State.checkFrozen_some hs hpre htag, Option.some_or]
    rw [State.checkFrozen_none hfree, Option.none_or] at h8
    refine ⟨fun pre id post slot hs hpre hbanks hslot => hrefused _ _ ?_,
      fun hclosed t ht hfar => hrefused _ _ ?_⟩
    · rw [h8, State.checkStream_some hs hpre hbanks hslot, Option.some_or]
    · rw [h8, State.checkStream_none hclosed, Option.none_or, State.checkTarget_some ht hfar]
  · exact ⟨s.committed f c, (exec_commit_accepted hacc ha).trans (congrArg Host.Outcome.next
      (State.decideIfHeadChanged_committed hacc hquiet)), State.committed_accepts⟩

/-! ### A COMMIT that starts the frame clock (R54, R55) -/

section
variable {s u : State} {f : Request} {c : Commit}

/-- The queue of one accepted commit may be applied. -/
theorem applicable_single (hq : u.commits.queue = [c]) (hnd : c.surfaces.Nodup)
    (hok : ∀ id ∈ c.surfaces, id < 32 ∧ (u.surf id).defined) : Applicable u u.commits.queue := by
  rw [hq]
  refine ⟨by simpa using hnd, ?_, ?_, fun d hd id hid => ?_⟩
  · exact List.countP_le_length
  · exact List.countP_le_length
  · rw [List.mem_singleton.1 hd] at hid
    exact hok id hid

/-- A boundary at which the one pending commit is ready applies that commit. -/
theorem DueCommits.eq_singleton {n : Word} {cs rest : List Commit} (h : DueCommits u n cs rest)
    (hq : u.commits.queue = [c]) (hready : u.isReady n c) : cs = [c] := by
  obtain ⟨heq, -, -, hend⟩ := h
  rw [hq] at heq
  cases cs with
  | nil =>
    obtain rfl : rest = [c] := heq.symm
    rcases hend with hend | ⟨hend, -⟩ | ⟨d, hd, hend⟩
    · cases hend
    · exact absurd rfl hend
    · obtain rfl : c = d := Option.some.inj hd
      exact absurd hready hend
  | cons d cs =>
    obtain ⟨rfl, hnil⟩ := List.cons.inj heq
    rw [(List.append_eq_nil_iff.1 hnil.symm).1]

/-- What a boundary leaves of the timing generator, its commits applied. -/
theorem PassesBoundary.timing_eq {t : State} {lead sync : List Notice}
    (h : PassesBoundary u t lead sync) (hq : u.commits.queue = [c])
    (hready : u.isReady (u.timing.frame + 1) c) : t.timing = { u.timingAfter [c] with
      frame := u.timing.frame + 1, lastBoundary := some u.now, fsy := true } := by
  obtain ⟨cs, rest, v, order, hdue, happ, hbegins, -⟩ := h
  rw [hdue.eq_singleton hq hready] at happ
  obtain ⟨-, -, -, -, -, -, -, -, htiming, -, -, -, -, -, hnow, -⟩ := happ
  obtain ⟨-, -, -, -, hbegin, -⟩ := hbegins
  rw [hbegin, htiming, hnow, (State.timingAfter_frame u [c]).1]

/-- A CANVAS commit that turns the mode on starts the timing generator. -/
theorem State.timingAfter_starts (hcan : c.canvas = true) (hmode : u.scan.canvasAfter.mode ≠ .off)
    (hlive : u.scan.live = none ∨ ∃ g ∈ u.scan.live, g.mode = .off) :
    (u.timingAfter [c]).state =
      if u.scan.canvasAfter.mode = .internal then .freeRun else .seeking := by
  have hmoves : u.clockMoves [c] := by
    refine ⟨⟨c, List.mem_singleton_self c, hcan⟩, fun g hg heq => ?_⟩
    rcases hlive with h | ⟨g', hg', h⟩
    · rw [h] at hg; cases hg
    · obtain rfl : g = g' := Option.some.inj (hg.symm.trans hg')
      exact hmode ((congrArg Prod.fst heq).symm.trans h)
  unfold State.timingAfter
  rw [if_pos hmoves]
  cases hm : u.scan.canvasAfter.mode with
  | off => exact absurd hm hmode
  | internal => rfl
  | external => rfl

/-- A CANVAS commit that leaves the mode OFF leaves a STOPPED part STOPPED. -/
theorem State.timingAfter_stays (hst : u.timing.state = .stopped)
    (hmode : u.scan.canvasAfter.mode = .off) :
    (u.timingAfter [c]).state = .stopped := by
  unfold State.timingAfter
  split
  · rw [hmode]
  · exact hst

end

/-- Settles O40: the head that a STOPPED part applies behind the reply. -/
theorem commitStartsTheFrameClock : Obligations.CommitStartsTheFrameClock := by
  intro s f c hst hq hacc hready ha
  have haccepts : Accepts s (s.committed f c) f c := State.committed_accepts
  have hexec := exec_commit_accepted hacc ha
  obtain ⟨-, -, -, hrun, -, -, -, hnd, hids, -⟩ := hacc
  have hcan := hrun hst
  generalize hu : s.committed f c = u at haccepts hexec
  have hqueue : u.commits.queue = [c] := by rw [haccepts.queue_eq, hq]; rfl
  have hready' := (haccepts.isReady_iff (fun id hid => (hids id hid).1) _).2 hready
  have hdue : u.headIsDue := by
    refine ⟨by rw [haccepts.timing_eq]; exact hst, c, by rw [hqueue]; rfl, hcan, ?_⟩
    rw [haccepts.stoppedFrame_eq]
    exact hready'
  have hdecide : s.decideIfHeadChanged u = u.decideStopped [] := by
    refine if_neg ?_
    rw [hqueue, hq]
    exact Option.some_ne_none c
  obtain ⟨⟨hoff, hon⟩, hgoes⟩ := State.decideStopped_applies u [] (applicable_single hqueue hnd
    fun id hid => ⟨(hids id hid).1, hu ▸ State.committed_defined id (hids id hid).2.1⟩) hdue
  rw [hdecide] at hexec
  refine ⟨u, _, hexec, haccepts, fun hmode => ?_, fun hmode => ?_, hgoes⟩
  · have hpass := hon (by rw [haccepts.scan_eq]; exact hmode)
    have hframe : s.stoppedFrame = u.timing.frame + 1 := by
      rw [haccepts.timing_eq]; exact if_neg hmode
    have htiming := hpass.timing_eq hqueue (hframe ▸ hready')
    refine ⟨hpass, by rw [htiming, haccepts.timing_eq], fun hlive => ?_⟩
    rw [htiming, ← haccepts.scan_eq] at *
    exact State.timingAfter_starts hcan hmode hlive
  · obtain ⟨d, hd, v, happ, ht⟩ := hoff (by rw [haccepts.scan_eq]; exact hmode)
    rw [hqueue] at hd
    obtain rfl : c = d := Option.some.inj hd
    rw [List.nil_append, Link.offerAll_singleton] at ht
    rw [haccepts.timing_eq] at happ ht
    have htiming : (u.decideStopped []).timing = u.timingAfter [c] := by
      rw [ht]
      obtain ⟨-, -, -, -, -, -, -, -, htiming, -⟩ := happ
      exact htiming
    refine ⟨v, happ, ht, ?_, ?_⟩
    · rw [htiming, (State.timingAfter_frame u [c]).1, haccepts.timing_eq]
    · rw [htiming]
      exact State.timingAfter_stays (by rw [haccepts.timing_eq]; exact hst)
        (by rw [haccepts.scan_eq]; exact hmode)

/-! ### CANCEL (R57, R58) -/

theorem exec_cancel (s : State) :
    exec .cancel s = .next (s.decideIfHeadChanged (s.serve 0x41 handleCancel)) := rfl

/-- The state that an accepted CANCEL leaves ahead of any application. -/
def State.cancelled (s : State) (f : Request) (i : Nat) (c : Commit) : State :=
  (s.takeRequest.removeCommit i c).queueReply f
    (replyTo f ⟨.ok, bytesOf 1 i ++ bytesOf 1 (s.commits.queue.length - 1)⟩)

section
variable {s : State} {f : Request} {tag : Half} {i : Nat} {c : Commit}

theorem State.cancelled_removes : Removes s (s.cancelled f i c) f i c := by
  refine ⟨?_, fun id hid => ?_⟩
  · unfold State.cancelled
    rw [State.removeCommit_eq, State.setTags_eq]
    rfl
  · have h : (s.cancelled f i c).surf id = (s.takeRequest.removeCommit i c).surf id := rfl
    rw [h, State.removeCommit_eq, State.setTags_surf, if_congr (and_iff_left hid) rfl rfl]
    rfl

theorem State.cancelled_queue :
    (s.cancelled f i c).commits.queue = s.commits.queue.eraseIdx i := by
  rw [State.cancelled_removes.1]

/-- The head stays when another item is taken out. -/
theorem head?_eraseIdx_of_pos {α : Type} {xs : List α} {i : Nat} (h : 0 < i) :
    (xs.eraseIdx i).head? = xs.head? := by
  obtain ⟨j, rfl⟩ : ∃ j, i = j + 1 := ⟨i - 1, by omega⟩
  cases xs <;> rfl

/-- The head taken out, another commit stands first. -/
theorem FreezeLaw.head?_eraseIdx_ne (h : FreezeLaw s) (hc : s.commits.queue[0]? = some c) :
    (s.commits.queue.eraseIdx 0).head? ≠ s.commits.queue.head? := by
  obtain ⟨htags, -⟩ := h
  cases hq : s.commits.queue with
  | nil => rw [hq] at hc; cases hc
  | cons d q =>
    rw [hq, List.map_cons] at htags
    intro he
    have hmem : d ∈ q := List.mem_of_mem_head? he
    exact (List.nodup_cons.1 htags).1 (List.mem_map.2 ⟨d, hmem, rfl⟩)

/-- The commits left in the queue may still be applied. -/
theorem State.cancelled_applicable (h : FreezeLaw s) :
    Applicable (s.cancelled f i c) (s.cancelled f i c).commits.queue := by
  obtain ⟨nd, can, cur, ok⟩ := h.applicable
  have hsub : (s.commits.queue.eraseIdx i).Sublist s.commits.queue := List.eraseIdx_sublist _ _
  rw [State.cancelled_queue]
  refine ⟨nd.sublist (List.Sublist.flatMap hsub _), (hsub.countP_le).trans can,
    (hsub.countP_le).trans cur, fun d hd id hid => ?_⟩
  obtain ⟨hlt, hdef⟩ := ok d (hsub.subset hd) id hid
  refine ⟨hlt, ?_⟩
  rw [State.cancelled_removes.2 id hlt]
  split
  · exact hdef
  · exact hdef

theorem lengthOk_cancel (tag : Half) : lengthOk 0x41 (bytesOf 2 tag.toNat) = true := rfl

theorem fieldAt_cancel (tag : Half) :
    BitVec.ofNat 16 (fieldAt (bytesOf 2 tag.toNat) 0 2) = tag := by
  have h : tag.toNat % 256 ^ 2 = tag.toNat := Nat.mod_eq_of_lt tag.isLt
  rw [fieldAt_bytesOf_nil, h, BitVec.ofNat_toNat, BitVec.setWidth_eq]

variable (ha : Asks s f 0x41 (bytesOf 2 tag.toNat))
include ha

theorem exec_cancel_pending (hc : s.commits.queue[i]? = some c) (htag : c.tag = tag)
    (hfirst : ∀ k < i, ∀ d, s.commits.queue[k]? = some d → d.tag ≠ tag) :
    exec .cancel s = .next (s.decideIfHeadChanged (s.cancelled f i c)) := by
  have hfound : firstCommit (fun d => d.tag == tag) s.takeRequest.commits.queue = some (i, c) :=
    firstCommit_eq_some.2
      ⟨hc, beq_iff_eq.2 htag, fun k hk d hd => beq_false_of_ne (hfirst k hk d hd)⟩
  rw [exec_cancel, State.serve_of_asks ha (lengthOk_cancel tag)]
  unfold handleCancel
  dsimp only
  rw [fieldAt_cancel, hfound]
  rfl

theorem exec_cancel_not_pending (hnone : ∀ d ∈ s.commits.queue, d.tag ≠ tag) {st : Status}
    {b : List Byte}
    (h : (match s.commits.applied.reverse.find? (fun e => e.tag == tag) with
      | some e => (⟨.tooLate, bytesOf 4 e.frame.toNat⟩ : Answer)
      | none => ⟨.notFound, []⟩) = ⟨st, b⟩) :
    exec .cancel s = .next (s.answer f st b) := by
  have hnot : firstCommit (fun d => d.tag == tag) s.takeRequest.commits.queue = none :=
    firstCommit_eq_none.2 fun d hd => beq_false_of_ne (hnone d hd)
  rw [exec_cancel, State.serve_answer ha (lengthOk_cancel tag), State.decideIfHeadChanged_answer]
  unfold handleCancel
  dsimp only
  rw [fieldAt_cancel, hnot, State.takeRequest_commits]
  dsimp only
  cases hf : s.commits.applied.reverse.find? (fun e => e.tag == tag) with
  | none => rw [hf] at h; exact congrArg (Prod.mk s.takeRequest) h
  | some e => rw [hf] at h; exact congrArg (Prod.mk s.takeRequest) h

end

/-- Settles O41: the tag found among the pending commits, among the applied ones, or not at all. -/
theorem cancelAnswersByTheTag : Obligations.CancelAnswersByTheTag := by
  intro s f tag ha
  refine ⟨fun i c hc htag hfirst => ?_, fun hnone => ⟨fun older newer e happ htag hnewer => ?_,
    fun hall => ?_⟩⟩
  · have hexec := exec_cancel_pending ha hc htag hfirst
    have hqueue : (s.cancelled f i c).commits.queue = s.commits.queue.eraseIdx i :=
      State.cancelled_queue
    refine ⟨_, _, hexec, State.cancelled_removes, fun h => ?_, ?_⟩
    · unfold State.decideIfHeadChanged
      split
      · rfl
      rename_i hhead
      rcases h with hpos | hnot
      · refine absurd ?_ hhead
        rw [hqueue, head?_eraseIdx_of_pos hpos]
      · exact State.decideStopped_of_not_due _ [] hnot
    · rintro rfl hfreeze hdue
      have hhead : ¬ (s.cancelled f 0 c).commits.queue.head? = s.commits.queue.head? := by
        rw [hqueue]
        exact hfreeze.head?_eraseIdx_ne hc
      rw [show s.decideIfHeadChanged (s.cancelled f 0 c) = (s.cancelled f 0 c).decideStopped [] from
        if_neg hhead]
      exact State.decideStopped_applies _ [] (State.cancelled_applicable hfreeze) hdue
  · refine exec_cancel_not_pending ha hnone ?_
    rw [happ, List.reverse_append, List.reverse_cons, List.append_assoc, List.singleton_append,
      find?_of_split (fun d hd => beq_false_of_ne (hnewer d (List.mem_reverse.1 hd)))
        (beq_iff_eq.2 htag)]
  · refine exec_cancel_not_pending ha hnone ?_
    rw [List.find?_eq_none.2 fun e he => by
      rw [beq_false_of_ne (hall e (List.mem_reverse.1 he))]; decide]

end Sys2Proof.Machine
end

section
/-! PROOFS. Composition and scan-out (O47, O48): the stacking order, a pixel composed over it, and a
line on the pixel output bus, moment by moment. -/

namespace Sys2Proof.Machine

/-! ### The stacking order (R115) -/

/-- One id stands below another: by z, and by number at one z. -/
def standsBelow (z : Nat → Nat) (i j : Nat) : Prop := z i < z j ∨ z i = z j ∧ i < j

section
variable {z : Nat → Nat} {id : Nat}

theorem mem_insertByZ {acc : List Nat} {j : Nat} :
    j ∈ insertByZ z id acc ↔ j = id ∨ j ∈ acc := by
  induction acc with
  | nil => simp [insertByZ]
  | cons k acc ih =>
    unfold insertByZ
    split
    · simp
    · rw [List.mem_cons, ih, List.mem_cons]
      tauto

/-- An id above all others takes its place behind those of the same z. -/
theorem pairwise_insertByZ {acc : List Nat} (h : acc.Pairwise (standsBelow z))
    (hlt : ∀ j ∈ acc, j < id) : (insertByZ z id acc).Pairwise (standsBelow z) := by
  induction acc with
  | nil => exact List.pairwise_singleton _ _
  | cons j acc ih =>
    obtain ⟨hj, hacc⟩ := List.pairwise_cons.1 h
    unfold insertByZ
    split
    · rename_i hz
      refine List.pairwise_cons.2 ⟨fun k hk => .inl ?_, h⟩
      rcases List.mem_cons.1 hk with rfl | hk
      · exact hz
      · rcases hj k hk with h | ⟨h, -⟩ <;> omega
    · rename_i hz
      refine List.pairwise_cons.2 ⟨fun k hk => ?_, ih hacc fun k hk => hlt k (List.mem_cons_of_mem _ hk)⟩
      rcases mem_insertByZ.1 hk with rfl | hk
      · have := hlt j List.mem_cons_self
        unfold standsBelow
        omega
      · exact hj k hk

/-- Ids offered in ascending order all take their places. -/
theorem foldl_insertByZ {ids acc : List Nat} (hids : ids.Pairwise (· < ·))
    (hbehind : ∀ j ∈ acc, ∀ i ∈ ids, j < i) (hacc : acc.Pairwise (standsBelow z)) :
    (ids.foldl (fun acc id => insertByZ z id acc) acc).Pairwise (standsBelow z) ∧
      ∀ j, j ∈ ids.foldl (fun acc id => insertByZ z id acc) acc ↔ j ∈ ids ∨ j ∈ acc := by
  induction ids generalizing acc with
  | nil => exact ⟨hacc, by simp⟩
  | cons i ids ih =>
    obtain ⟨hi, hids⟩ := List.pairwise_cons.1 hids
    have hnext : ∀ j ∈ insertByZ z i acc, ∀ k ∈ ids, j < k := by
      intro j hj k hk
      rcases mem_insertByZ.1 hj with rfl | hj
      · exact hi k hk
      · exact hbehind j hj k (List.mem_cons_of_mem _ hk)
    obtain ⟨hsorted, hmem⟩ := ih hids hnext
      (pairwise_insertByZ hacc fun j hj => hbehind j hj i List.mem_cons_self)
    refine ⟨hsorted, fun j => (hmem j).trans ?_⟩
    rw [mem_insertByZ, List.mem_cons]
    tauto

end

/-- The stack: each composed surface once, in ascending order of (z, id). -/
theorem State.stackingOrder_spec (s : State) :
    s.stackingOrder.Pairwise (standsBelow fun i => (s.surf i).live.z.toNat) ∧
      ∀ id, id ∈ s.stackingOrder ↔ id < 32 ∧ (s.surf id).composed = true := by
  have hids : (surfaceIds.filter fun id => (s.surf id).composed).Pairwise (· < ·) :=
    List.pairwise_lt_range.sublist List.filter_sublist
  obtain ⟨hsorted, hmem⟩ := foldl_insertByZ (z := fun i => (s.surf i).live.z.toNat) (acc := []) hids
    (fun j hj => absurd hj List.not_mem_nil) List.Pairwise.nil
  refine ⟨hsorted, fun id => (hmem id).trans ?_⟩
  rw [List.mem_filter, surfaceIds, List.mem_range, or_iff_left List.not_mem_nil]

/-! ### A pixel over the stack (R116 to R118) -/

theorem sourceCoordinate_spec (p : Nat) (position : Int) (view : Nat) {size : Nat} (h : 1 ≤ size) :
    sourceCoordinate p position view size < size ∧
      (sourceCoordinate p position view size : Int) = ((p : Int) - position + view) % size := by
  have hpos : (0 : Int) < size := by omega
  have hnonneg := Int.emod_nonneg ((p : Int) - position + view) (ne_of_gt hpos)
  have hlt := Int.emod_lt_of_pos ((p : Int) - position + view) hpos
  unfold sourceCoordinate
  omega

section
variable {s : State} {f : Surface} {x y : Nat} (below : Rgb)

theorem State.composeOver_uncovered (h : f.coversPixel x y = false) :
    s.composeOver f x y below = below := by
  unfold State.composeOver
  rw [h]
  rfl

variable (h : f.coversPixel x y = true)
include h

theorem State.composeOver_key (hk : f.live.key = some (s.sourcePixel f x y)) :
    s.composeOver f x y below = below := by
  unfold State.composeOver
  rw [if_pos h]
  exact if_pos hk

theorem State.composeOver_blend (hk : f.live.key ≠ some (s.sourcePixel f x y)) :
    s.composeOver f x y below = blend f.live.opacity (s.sourcePixel f x y) below := by
  unfold State.composeOver
  rw [if_pos h]
  exact if_neg hk

end

/-- Settles O48: the order of the stack, and what one surface of it does to a pixel. -/
theorem stackingOrderIsByZThenId : Obligations.StackingOrderIsByZThenId := by
  intro s
  obtain ⟨hsorted, hmem⟩ := s.stackingOrder_spec
  refine ⟨fun id => (hmem id).trans ?_, hsorted.imp fun {i j} h => ?_, fun _ _ _ => rfl,
    fun f x y below => ⟨fun h => ?_, fun h hw hh => ?_⟩⟩
  · simp only [Surface.composed, Bool.and_eq_true, Bool.or_eq_true, beq_iff_eq]
    tauto
  · exact h.imp id fun ⟨hz, hij⟩ => ⟨BitVec.eq_of_toNat_eq hz, hij⟩
  · exact State.composeOver_uncovered below (decide_eq_false h)
  · obtain ⟨hx, hx'⟩ := sourceCoordinate_spec x f.live.x f.live.vx hw
    obtain ⟨hy, hy'⟩ := sourceCoordinate_spec y f.live.y f.live.vy hh
    exact ⟨_, _, hx, hy, hx', hy', State.composeOver_key below (decide_eq_true h),
      State.composeOver_blend below (decide_eq_true h)⟩

/-! ### A line driven (R112, R113) -/

theorem State.dueLine_of {s : State} {c : Canvas} {l : LineSlot} {b k : Nat}
    (hscan : s.scan.scanning = true) (hk : s.scan.nextLine = some k) (hc : s.scan.live = some c)
    (hl : s.scan.slot = some l) (hb : s.timing.lastBoundary = some b) (hlt : k < c.height)
    (hslot : slotBegun l b s.now k = true) : s.dueLine = some (k, c) := by
  unfold State.dueLine
  rw [hscan, hk, hc, hl, hb]
  exact if_pos ⟨hlt, hslot⟩

theorem exec_lineSlotStart {s : State} {k : Nat} {c : Canvas} (h : s.dueLine = some (k, c)) :
    exec .lineSlotStart s = .next (s.driveLine k c) := by
  change Host.Outcome.next (match s.dueLine with
    | none => s
    | some (k, c) => s.driveLine k c) = _
  rw [h]

theorem State.driveLine_eq (s : State) (k : Nat) (c : Canvas) : s.driveLine k c = { s with
    scan := { s.scan with
      nextLine := some (k + 1), driven := some ⟨k, decide (k = 0), s.composeLine c k, s.now⟩ } } := by
  unfold State.driveLine
  rw [show (k == 0) = decide (k = 0) from Bool.eq_iff_iff.2 (by simp)]
  rfl

theorem State.composeLine_getElem? (s : State) (c : Canvas) (k : Nat) {x : Nat} (hx : x < c.width) :
    (s.composeLine c k)[x]? = some (s.colours.codes (s.composePixel c.background x k)) := by
  unfold State.composeLine
  rw [List.getElem?_map, List.getElem?_range hx]
  rfl

/-! ### The bus in a slot (R120, R121) -/

/-- The moment of the clock of pixel `n` of a line by its gaps alone, the mark being at 0. -/
def DrivenLine.clock (d : DrivenLine) (n : Nat) : Time :=
  d.since + ((List.range n).map fun i =>
    Config.clockGap d.since i + (if i = 0 ∨ i = d.codes.length then 1 else 0)).sum

section
variable {d : DrivenLine} {ends : Time → Bool} {now : Time}

theorem DrivenLine.clock_eq (d : DrivenLine) (n : Nat) :
    d.clock n = d.since + ((List.range n).map fun k => d.gap (0 + k)).sum := by
  simp only [Nat.zero_add]
  rfl

/-- While the slot is open, as many events are given as clocks have come. -/
theorem DrivenLine.given_iff (h1 : ends (now + 1) = false) (h2 : ends (now + 2) = false)
    (hs : d.since ≤ now) {n : Nat} (hn : n ≤ d.codes.length + 1) : d.given ends now = n ↔
      d.clock n ≤ now ∧ (n ≤ d.codes.length → now < d.clock (n + 1)) := by
  rw [DrivenLine.given_of_open h1 h2, gapsOver_eq_iff d.gap _ 0 _ n hn, d.clock_eq, d.clock_eq]
  generalize ((List.range n).map fun k => d.gap (0 + k)).sum = a
  generalize ((List.range (n + 1)).map fun k => d.gap (0 + k)).sum = b
  have e1 : a ≤ now - d.since ↔ d.since + a ≤ now := by
    rw [Nat.le_sub_iff_add_le hs, Nat.add_comm]
  have e2 : now - d.since < b ↔ now < d.since + b := Nat.sub_lt_iff_lt_add' hs
  rw [e1, e2, Nat.lt_succ_iff]

/-- The mark shows for a moment. -/
theorem DrivenLine.given_zero (h1 : ends (now + 1) = false) (h2 : ends (now + 2) = false)
    (hs : now = d.since) : d.given ends now = 0 := by
  have hgap : ¬ d.gap 0 ≤ now - d.since := by
    rw [hs, Nat.sub_self]
    unfold DrivenLine.gap
    rw [if_pos (.inl rfl)]
    exact Nat.not_succ_le_zero _
  rw [DrivenLine.given_of_open h1 h2, gapsOver, if_neg hgap]

end

/-- At the moment of a clock the bus gives an event more than a unit of time ago. -/
theorem DrivenLine.given_lt_at_clock {d : DrivenLine} {ends : Time → Bool} {now : Time}
    (h2 : ends (now + 2) = false)
    (hmono : ∀ {m n : Time}, m ≤ n → ends n = false → ends m = false) (hs : d.since < now)
    (hle : d.given ends now ≤ d.codes.length + 1) (hclock : d.clock (d.given ends now) = now) :
    d.given ends (now - 1) < d.given ends now := by
  obtain ⟨past, rfl⟩ : ∃ past, now = past + 1 := ⟨now - 1, (Nat.sub_add_cancel (Nat.one_le_of_lt hs)).symm⟩
  rw [Nat.add_sub_cancel]
  have h1 : ends (past + 2) = false := hmono (Nat.le_succ _) h2
  have h0 : ends (past + 1) = false := hmono (Nat.le_succ _) h1
  have hmoves : d.given ends past ≤ d.given ends (past + 1) := by
    rw [DrivenLine.given_of_open h0 h1, DrivenLine.given_of_open h1 h2]
    exact gapsOver_mono _ _ _ (Nat.sub_le_sub_right (Nat.le_succ past) _)
  refine lt_of_le_of_ne hmoves fun heq => ?_
  obtain ⟨hpast, -⟩ := (DrivenLine.given_iff h0 h1 (Nat.lt_succ_iff.1 hs) hle).1 heq
  rw [hclock] at hpast
  exact Nat.not_succ_le_self past hpast

section
variable {d : DrivenLine} {now : Time} {before : Nat}

theorem DrivenLine.levels_mark : d.levels now before 0 = ⟨false, d.frameStart, true, lanesBetween now⟩ :=
  if_pos rfl

theorem DrivenLine.levels_rest {n : Nat} (h : d.codes.length < n) :
    d.levels now before n = busAtRest :=
  (if_neg (by omega)).trans (if_pos h)

theorem DrivenLine.levels_pixel {x : Nat} {codes : Codes} (h : d.codes[x]? = some codes) :
    d.levels now before (x + 1) =
      if before < x + 1 then ⟨true, false, false, codes⟩ else ⟨false, false, false, lanesBetween now⟩ := by
  obtain ⟨hx, rfl⟩ := List.getElem?_eq_some_iff.1 h
  refine (if_neg (Nat.succ_ne_zero x)).trans ((if_neg (by omega)).trans ?_)
  rw [Nat.add_sub_cancel, List.getD_eq_getElem _ _ hx]

end

/-- Settles O47: the line composed at the start of its slot, and the bus through the slot. -/
theorem lineSlotDrivesItsLine : Obligations.LineSlotDrivesItsLine := by
  refine ⟨fun s c b k hscan hk hc hlt hslot hb hmoment => ?_, fun s => ⟨State.busLevels_of_none,
    fun d l b hd hl hb => ?_⟩⟩
  · have hdue := State.dueLine_of hscan hk hc hslot hb hlt (decide_eq_true hmoment)
    exact ⟨s.composeLine c k, (exec_lineSlotStart hdue).trans (by rw [State.driveLine_eq]),
      by simp [State.composeLine], fun x hx => s.composeLine_getElem? c k hx⟩
  dsimp only
  have hends : ∀ m, s.slotEnds d m = true ↔
      24 * (d.line + 1) * l.numerator + l.denominator * b ≤ l.denominator * m := by
    intro m
    rw [State.slotEnds_eq hl hb]
    exact decide_eq_true_iff
  have hmono : ∀ {m n : Time}, m ≤ n → s.slotEnds d n = false → s.slotEnds d m = false := by
    intro m n hmn hn
    rw [State.slotEnds_eq hl hb] at hn ⊢
    rw [Bool.eq_false_iff] at hn ⊢
    exact mt (slotBegun_mono hmn) hn
  have hevents : s.busEvents = d.events.take (d.given (s.slotEnds d) s.now + 1) := by
    unfold State.busEvents
    rw [hd]
  have hlevels : s.busLevels = d.levels s.now
      (if s.now ≤ d.since then 0 else d.given (s.slotEnds d) (s.now - 1))
      (d.given (s.slotEnds d) s.now) := by
    unfold State.busLevels
    rw [hd]
  have hle : d.given (s.slotEnds d) s.now ≤ d.codes.length + 1 := d.given_le _ _
  simp only [← hends]
  refine ⟨_, hle, hevents, DrivenLine.given_of_ends, DrivenLine.length_le_given, fun hopen hs => ?_,
    fun hn => ?_, fun x codes hn hx => ?_, fun hn => ?_⟩
  · have h2 : s.slotEnds d (s.now + 2) = false := Bool.eq_false_iff.2 hopen
    have h1 := hmono (Nat.le_succ (s.now + 1)) h2
    obtain ⟨hfrom, hto⟩ := (DrivenLine.given_iff h1 h2 hs hle).1 rfl
    exact ⟨hfrom, hto, fun hmark => DrivenLine.given_zero h1 h2 hmark⟩
  · rw [hlevels, hn, DrivenLine.levels_mark]
    exact ⟨rfl, rfl, rfl⟩
  · rw [hlevels, hn]
    generalize hbefore : (if s.now ≤ d.since then 0 else d.given (s.slotEnds d) (s.now - 1)) = before
    rw [DrivenLine.levels_pixel hx]
    refine ⟨by split <;> rfl, by split <;> rfl, ?_, fun hopen hs hclock => ?_⟩
    · split
      · exact fun _ => rfl
      · exact fun h => absurd h Bool.false_ne_true
    · rw [if_neg (Nat.not_le.2 hs)] at hbefore
      have h2 : s.slotEnds d (s.now + 2) = false := Bool.eq_false_iff.2 hopen
      have hlt := DrivenLine.given_lt_at_clock h2 hmono hs hle (hn ▸ hclock)
      rw [hbefore, hn] at hlt
      rw [if_pos hlt]
  · rw [hlevels, DrivenLine.levels_rest (by omega)]
    rfl

end Sys2Proof.Machine
end

section
/-! PROOFS. READ (O34): the rectangle in row-major order, and a pixel by the content state of its
tile. -/

namespace Sys2Proof.Machine

/-! ### A pixel read (R26, R27) -/

section
variable {s : State} {r : Surface} {bank : List Tile} {x y : Nat} {t : Tile}
  (ht : bank[positionOfPixel r.width x y]? = some t)
include ht

theorem State.readPixel_blank (h : s.pool.contentOf t = .blank) :
    s.readPixel r bank x y = black := by
  unfold State.readPixel State.readTileCell
  rw [ht]
  dsimp only
  rw [h]

theorem State.readPixel_data (h : s.pool.contentOf t = .data) :
    s.readPixel r bank x y = readCell s.pool.pixels t (cellOfPixel x y) := by
  unfold State.readPixel State.readTileCell
  rw [ht]
  dsimp only
  rw [h]

/-- A STALE tile reads as the front tile at its position. -/
theorem State.readPixel_stale {u : Tile} (h : s.pool.contentOf t = .stale)
    (hu : r.front[positionOfPixel r.width x y]? = some u) (hus : s.pool.contentOf u ≠ .stale) :
    s.readPixel r bank x y = s.readPixel r r.front x y := by
  unfold State.readPixel State.readTileCell
  rw [ht, hu]
  dsimp only
  rw [h]
  dsimp only
  cases hc : s.pool.contentOf u with
  | data => rfl
  | blank => rfl
  | stale => exact absurd hc hus

end

/-! ### Rows laid end to end -/

theorem length_rows {α : Type} (w h : Nat) (g : Nat → Nat → α) :
    ((List.range h).flatMap fun a => (List.range w).map (g a)).length = h * w := by
  simp [List.length_flatMap]

/-- Item `i` of rows of `w` items stands in row `i / w`. -/
theorem getElem?_rows {α : Type} {w h i : Nat} (g : Nat → Nat → α) (hi : i < h * w) :
    ((List.range h).flatMap fun a => (List.range w).map (g a))[i]? = some (g (i / w) (i % w)) := by
  induction h with
  | zero => omega
  | succ h ih =>
    have hlen := length_rows w h g
    rw [List.range_succ, List.flatMap_append, List.flatMap_singleton]
    by_cases hlt : i < h * w
    · rw [List.getElem?_append_left (by omega), ih hlt]
    · rw [Nat.succ_mul] at hi
      obtain ⟨j, rfl⟩ : ∃ j, i = w * h + j := ⟨i - w * h, by rw [Nat.mul_comm]; omega⟩
      rw [Nat.mul_comm h w] at *
      have hj : j < w := by omega
      rw [List.getElem?_append_right (by omega), hlen, Nat.add_sub_cancel_left, List.getElem?_map,
        List.getElem?_range hj, Nat.mul_add_div (by omega), Nat.div_eq_of_lt hj, Nat.mul_add_mod,
        Nat.mod_eq_of_lt hj]
      rfl

theorem State.length_readRect (s : State) (f : Surface) (bank : List Tile) (r : Rect) :
    (s.readRect f bank r).length = r.width * r.height :=
  (length_rows _ _ _).trans (Nat.mul_comm _ _)

theorem State.readRect_getElem? (s : State) (f : Surface) (bank : List Tile) (r : Rect) {i : Nat}
    (hi : i < r.width * r.height) : (s.readRect f bank r)[i]? =
      some (s.readPixel f bank (r.x + i % r.width) (r.y + i / r.width)) :=
  getElem?_rows (fun dy dx => s.readPixel f bank (r.x + dx) (r.y + dy)) (Nat.mul_comm _ _ ▸ hi)

/-- A colour of a list, found among their bytes. -/
theorem colourOf_colours {cs : List Rgb} {i : Nat} {c : Rgb} (h : cs[i]? = some c) :
    colourOf (((cs.flatMap colourBytes).drop (3 * i)).take 3) = c := by
  have hi : i < cs.length := (List.getElem?_eq_some_iff.1 h).1
  have hget := groupsOf_getElem? (k := 3) (bs := cs.flatMap colourBytes) hi
  rw [groupsOf_flatMap 3 cs colourBytes fun c _ => length_colourBytes c, List.getElem?_map, h] at hget
  rw [← Option.some.inj hget]
  rfl

/-! ### READ -/

/-- The body of a READ request. -/
def readBody (id bank : Nat) (r : Rect) : List Byte :=
  bytesOf 1 id ++ bytesOf 1 bank ++ bytesOf 2 r.x ++ bytesOf 2 r.y ++ bytesOf 2 r.width ++
    bytesOf 2 r.height

theorem readBody_eq (id bank : Nat) (r : Rect) : readBody id bank r =
    bytesOf 1 id ++ (bytesOf 1 bank ++ (bytesOf 2 r.x ++ (bytesOf 2 r.y ++ (bytesOf 2 r.width ++
      bytesOf 2 r.height)))) := by
  simp only [readBody, List.append_assoc]

theorem lengthOk_read (body : List Byte) : lengthOk 0x33 body = decide (body.length = 10) := rfl

theorem lengthOk_readBody (id bank : Nat) (r : Rect) : lengthOk 0x33 (readBody id bank r) = true := by
  rw [lengthOk_read, readBody_eq]
  simp

/-- The rectangle of a READ request. -/
def readRectOf (body : List Byte) : Rect :=
  ⟨fieldAt body 2 2, fieldAt body 4 2, fieldAt body 6 2, fieldAt body 8 2⟩

theorem readBody_fields {id bank : Nat} {r : Rect} (hid : id < 32) (hb : bank < 256)
    (hx : r.x < 65536) (hy : r.y < 65536) (hw : r.width < 65536) (hh : r.height < 65536) :
    fieldAt (readBody id bank r) 0 1 = id ∧ fieldAt (readBody id bank r) 1 1 = bank ∧
      readRectOf (readBody id bank r) = r := by
  rw [readBody_eq]
  refine ⟨?_, ?_, ?_⟩
  · rw [fieldAt_bytesOf]; exact Nat.mod_eq_of_lt (by omega)
  · rw [fieldAt_append (by simp), length_bytesOf, Nat.sub_self, fieldAt_bytesOf]
    exact Nat.mod_eq_of_lt (by omega)
  · unfold readRectOf
    simp only [fieldAt_append, length_bytesOf, Nat.reduceLeDiff, Nat.reduceSub, fieldAt_bytesOf,
      fieldAt_bytesOf_nil, Nat.reducePow, Nat.mod_eq_of_lt hx, Nat.mod_eq_of_lt hy,
      Nat.mod_eq_of_lt hw, Nat.mod_eq_of_lt hh]

section
variable {s : State} {body : List Byte} {id bank : Nat} {r : Rect}
  (hf : fieldAt body 0 1 = id ∧ fieldAt body 1 1 = bank ∧ readRectOf body = r) (hid : id < 32)
  (hdef : (s.surf id).defined)
include hf hid hdef

/-- The checks of READ behind those of the surface. -/
theorem handleRead_defined : handleRead body s =
    if 1 < bank ∨ (bank = 1 ∧ ¬ (s.surf id).double) then (s, ⟨.badField, []⟩)
    else if r.width = 0 ∨ r.height = 0 ∨ (s.surf id).width < r.x + r.width ∨
        (s.surf id).height < r.y + r.height then (s, ⟨.badField, []⟩)
    else if 340 < r.width * r.height then (s, ⟨.tooLarge, []⟩)
    else (s, ⟨.ok,
      bytesOf 2 (s.readRect (s.surf id)
        (if bank = 1 then (s.surf id).back else (s.surf id).front) r).length ++
      (s.readRect (s.surf id)
        (if bank = 1 then (s.surf id).back else (s.surf id).front) r).flatMap colourBytes⟩) := by
  obtain ⟨rfl, rfl, rfl⟩ := hf
  have hcheck : surfaceCheck s (fieldAt body 0 1) = none :=
    surfaceCheck_eq_none.2 ⟨by omega, hdef⟩
  unfold handleRead
  dsimp only
  rw [hcheck]
  rfl

theorem handleRead_bad (h : (1 < bank ∨ (bank = 1 ∧ ¬ (s.surf id).double)) ∨
    ¬ r.fits (s.surf id).width (s.surf id).height) : handleRead body s = (s, ⟨.badField, []⟩) := by
  rw [handleRead_defined hf hid hdef]
  split
  · rfl
  · rename_i hbank
    exact if_pos (not_not.1 (h.resolve_left hbank))

variable (hbank : ¬ (1 < bank ∨ (bank = 1 ∧ ¬ (s.surf id).double)))
  (hfits : r.fits (s.surf id).width (s.surf id).height)
include hbank hfits

theorem handleRead_large (h : 340 < r.width * r.height) :
    handleRead body s = (s, ⟨.tooLarge, []⟩) :=
  (handleRead_defined hf hid hdef).trans ((if_neg hbank).trans ((if_neg hfits).trans (if_pos h)))

theorem handleRead_ok (h : r.width * r.height ≤ 340) : handleRead body s = (s, ⟨.ok,
    bytesOf 2 (r.width * r.height) ++
      (s.readRect (s.surf id)
        (if bank = 1 then (s.surf id).back else (s.surf id).front) r).flatMap colourBytes⟩) := by
  refine (handleRead_defined hf hid hdef).trans ((if_neg hbank).trans ((if_neg hfits).trans
    ((if_neg (Nat.not_lt.2 h)).trans ?_)))
  rw [State.length_readRect]

end

theorem exec_read (s : State) : exec .read s = .next (s.serve 0x33 handleRead) := rfl

theorem double_iff {r : Surface} : r.double = true ↔ r.banks = 2 := beq_iff_eq

/-- The reply to an accepted READ, its pixels found by their places. -/
theorem readReply_spec {cs : List Rgb} {n : Nat} (hlen : cs.length = n) (hn : n ≤ 340) :
    (bytesOf 2 n ++ cs.flatMap colourBytes).length = 2 + 3 * n ∧
      fieldAt (bytesOf 2 n ++ cs.flatMap colourBytes) 0 2 = n ∧
      ∀ i c, cs[i]? = some c →
        colourOf (((bytesOf 2 n ++ cs.flatMap colourBytes).drop (2 + 3 * i)).take 3) = c := by
  refine ⟨?_, ?_, fun i c hc => ?_⟩
  · simp [List.length_flatMap, hlen, Nat.mul_comm]
  · rw [fieldAt_bytesOf]
    exact Nat.mod_eq_of_lt (by omega)
  · rw [← List.drop_drop, List.drop_left' (length_bytesOf 2 n)]
    exact colourOf_colours hc

/-- Settles O34: the checks, the rectangle, and the reading rules of a pixel. -/
theorem readReturnsTheRectangle : Obligations.ReadReturnsTheRectangle := by
  refine ⟨?_, fun s r bank x y t ht => ⟨State.readPixel_blank ht, State.readPixel_data ht,
    fun h u hu hus => State.readPixel_stale ht h hu hus⟩⟩
  rintro s f id bank x y w h r hid rfl hdef hb hx hy hw hh ha
  have hf := readBody_fields (r := ⟨x, y, w, h⟩) hid hb hx hy hw hh
  have hl := lengthOk_readBody id bank ⟨x, y, w, h⟩
  have hdouble : (1 < bank ∨ bank = 1 ∧ (s.surf id).banks ≠ 2) ↔
      (1 < bank ∨ (bank = 1 ∧ ¬ (s.surf id).double = true)) := by rw [double_iff]
  refine ⟨fun hbad => ?_, fun hbank h1 h2 h3 h4 => ?_⟩
  · refine exec_answer (exec_read s) ha hl (handleRead_bad (s := s.takeRequest) hf hid hdef ?_)
    rw [State.takeRequest_surf, ← hdouble]
    unfold Rect.fits
    dsimp only
    omega
  have hbank' : ¬ (1 < bank ∨ (bank = 1 ∧ ¬ (s.surf id).double = true)) := by
    rw [← hdouble]; omega
  have hfits : Rect.fits ⟨x, y, w, h⟩ (s.surf id).width (s.surf id).height := by
    unfold Rect.fits; dsimp only; omega
  refine ⟨fun hlarge => ?_, fun hsmall => ?_⟩
  · exact exec_answer (exec_read s) ha hl
      (handleRead_large (s := s.takeRequest) hf hid hdef hbank' hfits hlarge)
  · obtain ⟨hlength, hcount, hpixels⟩ := readReply_spec (n := w * h)
      (s.length_readRect (s.surf id) (if bank = 1 then (s.surf id).back else (s.surf id).front)
        ⟨x, y, w, h⟩) hsmall
    exact ⟨_, exec_answer (exec_read s) ha hl
      (handleRead_ok (s := s.takeRequest) hf hid hdef hbank' hfits hsmall), hlength, hcount,
      fun i hi => hpixels i _ (s.readRect_getElem? _ _ ⟨x, y, w, h⟩ hi)⟩

end Sys2Proof.Machine
end

section
/-! PROOFS. OPEN (O28): the checks of Table 4-3 in order, and the lowest slot then free. -/

namespace Sys2Proof.Machine

/-! ### The request -/

/-- What an OPEN request carries: the window, and the codes as bytes. -/
structure OpenFields where
  id : Nat
  wx : Nat
  wy : Nat
  ww : Nat
  wh : Nat
  format : Byte
  palette : Byte
  mode : Byte
  order : Byte

/-- The body of an OPEN request. -/
def OpenFields.body (o : OpenFields) : List Byte :=
  bytesOf 1 o.id ++ bytesOf 2 o.wx ++ bytesOf 2 o.wy ++ bytesOf 2 o.ww ++ bytesOf 2 o.wh ++
    [o.format, o.palette, o.mode, o.order]

/-- The window's numbers fit their bytes. -/
def OpenFields.fits (o : OpenFields) : Prop :=
  o.id < 32 ∧ o.wx < 65536 ∧ o.wy < 65536 ∧ o.ww < 65536 ∧ o.wh < 65536

section
variable (o : OpenFields)

theorem OpenFields.body_eq : o.body = bytesOf 1 o.id ++ (bytesOf 2 o.wx ++ (bytesOf 2 o.wy ++
    (bytesOf 2 o.ww ++ (bytesOf 2 o.wh ++ ([o.format] ++ ([o.palette] ++ ([o.mode] ++
      [o.order]))))))) := by
  simp only [OpenFields.body, List.append_assoc, List.singleton_append]

theorem lengthOk_open (body : List Byte) : lengthOk 0x30 body = decide (body.length = 13) := rfl

theorem lengthOk_openBody : lengthOk 0x30 o.body = true := by
  rw [lengthOk_open, OpenFields.body_eq]
  simp

theorem OpenFields.window_of_body (h : o.fits) : fieldAt o.body 0 1 = o.id ∧
    fieldAt o.body 1 2 = o.wx ∧ fieldAt o.body 3 2 = o.wy ∧ fieldAt o.body 5 2 = o.ww ∧
    fieldAt o.body 7 2 = o.wh := by
  obtain ⟨hid, hx, hy, hw, hh⟩ := h
  have hid' : o.id < 256 := by omega
  rw [OpenFields.body_eq]
  simp only [fieldAt_append, length_bytesOf, Nat.reduceLeDiff, Nat.reduceSub, fieldAt_bytesOf,
    Nat.reducePow, Nat.mod_eq_of_lt hid', Nat.mod_eq_of_lt hx, Nat.mod_eq_of_lt hy,
    Nat.mod_eq_of_lt hw, Nat.mod_eq_of_lt hh, and_self]

theorem OpenFields.codes_of_body : fieldAt o.body 9 1 = o.format.toNat ∧
    fieldAt o.body 10 1 = o.palette.toNat ∧ fieldAt o.body 11 1 = o.mode.toNat ∧
    fieldAt o.body 12 1 = o.order.toNat := by
  rw [OpenFields.body_eq]
  simp only [fieldAt_one, byteAt_append, length_bytesOf, List.length_singleton, Nat.reduceLeDiff,
    Nat.reduceSub, byteAt_singleton_append, byteAt_singleton, and_self]

end

/-! ### The codes -/

theorem formatOf_eq_none_iff {n : Nat} : formatOf n = none ↔ 4 < n := by
  match n with
  | 0 | 1 | 2 | 3 | 4 => simp [formatOf]
  | n + 5 => simp [formatOf]

theorem modeOf_eq_none_iff {n : Nat} : modeOf n = none ↔ 1 < n := by
  match n with
  | 0 | 1 => simp [modeOf]
  | n + 2 => simp [modeOf]

theorem orderOf_eq_none_iff {n : Nat} : orderOf n = none ↔ 1 < n := by
  match n with
  | 0 | 1 => simp [orderOf]
  | n + 2 => simp [orderOf]

theorem formatOf_eq_i8_iff {n : Nat} : formatOf n = some .i8 ↔ n = 4 := by
  match n with
  | 0 | 1 | 2 | 3 | 4 => simp [formatOf]
  | n + 5 => simp [formatOf]

theorem formatOf_code (fmt : Format) : formatOf fmt.code.toNat = some fmt := by cases fmt <;> rfl
theorem modeOf_code (mode : StreamMode) : modeOf mode.code.toNat = some mode := by cases mode <;> rfl
theorem orderOf_code (order : StreamOrder) : orderOf order.code.toNat = some order := by
  cases order <;> rfl

/-! ### The checks -/

/-- The window has pixels, and all of them in the content. -/
def OpenFields.inContent (o : OpenFields) (r : Surface) : Prop :=
  ¬ (o.ww = 0 ∨ o.wh = 0 ∨ r.width < o.wx + o.ww ∨ r.height < o.wy + o.wh)

/-- What OPEN does once its codes are known. -/
def State.openCoded (s : State) (o : OpenFields) (fmt : Format) (mode : StreamMode)
    (order : StreamOrder) : State × Answer :=
  if fmt = .i8 ∧ 3 < o.palette.toNat then (s, ⟨.badField, []⟩)
  else if (s.surf o.id).double && (s.surf o.id).frozen then (s, ⟨.frozen, []⟩)
  else match (s.closeStreamOf o.id).freeSlots with
    | [] => (s, ⟨.noSlot, []⟩)
    | slot :: _ =>
      (((s.closeStreamOf o.id).setSlot slot (some (openedStream o.id o.wx o.wy o.ww o.wh fmt
          o.palette.toNat mode order))).setSurf o.id
        { (s.closeStreamOf o.id).surf o.id with stream := some slot },
        ⟨.ok, openBody slot (s.openStreamOf o.id)⟩)

section
variable {s : State} {o : OpenFields} (hfit : o.fits) (hdef : (s.surf o.id).defined)
include hfit hdef

theorem handleOpen_outside (h : ¬ o.inContent (s.surf o.id)) :
    handleOpen o.body s = (s, ⟨.badField, []⟩) := by
  obtain ⟨hid, hx, hy, hw, hh⟩ := o.window_of_body hfit
  have hcheck : surfaceCheck s o.id = none :=
    surfaceCheck_eq_none.2 ⟨Nat.lt_succ_iff.1 hfit.1, hdef⟩
  unfold handleOpen
  dsimp only
  rw [hid, hx, hy, hw, hh, hcheck]
  exact if_pos (not_not.1 h)

theorem handleOpen_badCode (h : formatOf o.format.toNat = none ∨ modeOf o.mode.toNat = none ∨
    orderOf o.order.toNat = none) : handleOpen o.body s = (s, ⟨.badField, []⟩) := by
  by_cases hin : o.inContent (s.surf o.id)
  swap
  · exact handleOpen_outside hfit hdef hin
  obtain ⟨hid, hx, hy, hw, hh⟩ := o.window_of_body hfit
  obtain ⟨hf, hp, hm, ho⟩ := o.codes_of_body
  have hcheck : surfaceCheck s o.id = none :=
    surfaceCheck_eq_none.2 ⟨Nat.lt_succ_iff.1 hfit.1, hdef⟩
  unfold handleOpen
  dsimp only
  rw [hid, hx, hy, hw, hh, hcheck, hf, hm, ho]
  refine (if_neg hin).trans ?_
  rcases h with h | h | h
  · rw [h]; rfl
  · rw [h]; cases formatOf o.format.toNat <;> rfl
  · rw [h]; cases formatOf o.format.toNat <;> cases modeOf o.mode.toNat <;> rfl

theorem handleOpen_coded {fmt : Format} {mode : StreamMode} {order : StreamOrder}
    (hin : o.inContent (s.surf o.id)) (hfmt : formatOf o.format.toNat = some fmt)
    (hmode : modeOf o.mode.toNat = some mode) (horder : orderOf o.order.toNat = some order) :
    handleOpen o.body s = s.openCoded o fmt mode order := by
  obtain ⟨hid, hx, hy, hw, hh⟩ := o.window_of_body hfit
  obtain ⟨hf, hp, hm, ho⟩ := o.codes_of_body
  have hcheck : surfaceCheck s o.id = none :=
    surfaceCheck_eq_none.2 ⟨Nat.lt_succ_iff.1 hfit.1, hdef⟩
  unfold handleOpen
  dsimp only
  rw [hid, hx, hy, hw, hh, hcheck, hf, hm, ho, hp, hfmt, hmode, horder]
  exact if_neg hin

end

section
variable {s : State} {o : OpenFields} {fmt : Format} {mode : StreamMode} {order : StreamOrder}

theorem State.openCoded_badPalette (h : fmt = .i8 ∧ 3 < o.palette.toNat) :
    s.openCoded o fmt mode order = (s, ⟨.badField, []⟩) := if_pos h

variable (hp : ¬ (fmt = .i8 ∧ 3 < o.palette.toNat))
include hp

theorem State.openCoded_frozen (h : ((s.surf o.id).double && (s.surf o.id).frozen) = true) :
    s.openCoded o fmt mode order = (s, ⟨.frozen, []⟩) := (if_neg hp).trans (if_pos h)

variable (hopen : ¬ ((s.surf o.id).double && (s.surf o.id).frozen) = true)
include hopen

theorem State.openCoded_noSlot (h : (s.closeStreamOf o.id).freeSlots = []) :
    s.openCoded o fmt mode order = (s, ⟨.noSlot, []⟩) := by
  refine (if_neg hp).trans ((if_neg hopen).trans ?_)
  rw [h]

theorem State.openCoded_ok {slot : Nat} {rest : List Nat}
    (h : (s.closeStreamOf o.id).freeSlots = slot :: rest) : s.openCoded o fmt mode order =
      (((s.closeStreamOf o.id).setSlot slot (some (openedStream o.id o.wx o.wy o.ww o.wh fmt
          o.palette.toNat mode order))).setSurf o.id
        { (s.closeStreamOf o.id).surf o.id with stream := some slot },
        ⟨.ok, openBody slot (s.openStreamOf o.id)⟩) := by
  refine (if_neg hp).trans ((if_neg hopen).trans ?_)
  rw [h]

end

/-! ### The lowest slot then free -/

theorem State.freeSlots_eq_nil {s : State} (h : ∀ i < 8, s.slotAt i ≠ none) : s.freeSlots = [] := by
  rw [List.eq_nil_iff_forall_not_mem]
  intro i hi
  obtain ⟨hlt, hnone⟩ := State.mem_freeSlots.1 hi
  exact h i hlt hnone

theorem State.freeSlots_eq_cons {s : State} {slot : Nat} (hlt : slot < 8)
    (hfree : s.slotAt slot = none) (hlow : ∀ i < slot, s.slotAt i ≠ none) :
    ∃ rest, s.freeSlots = slot :: rest := by
  have hhead : s.freeSlots.head? = some slot := by
    rw [State.freeSlots, List.head?_filter, slotNumbers, List.find?_range_eq_some]
    refine ⟨by rw [hfree]; rfl, List.mem_range.2 hlt, fun i hi => ?_⟩
    cases hs : s.slotAt i with
    | none => exact absurd hs (hlow i hi)
    | some _ => rfl
  cases hs : s.freeSlots with
  | nil => rw [hs] at hhead; cases hhead
  | cons i rest => rw [hs] at hhead; exact ⟨rest, by rw [Option.some.inj hhead]⟩

/-- The streams once the earlier stream of a surface is closed. -/
theorem State.closeStreamOf_streams (s : State) (id : Nat) : (s.closeStreamOf id).streams =
    match (s.surf id).stream with
      | none => s.streams
      | some i => s.streams.setIfInBounds i none := by
  unfold State.closeStreamOf
  cases (s.surf id).stream <;> rfl

/-- A stream opened behind the closing of the surface's earlier one, block by block. -/
theorem State.opened_eq (s : State) {id : Nat} (hid : id < 32) (slot : Nat) (st : Stream) :
    ((s.closeStreamOf id).setSlot slot (some st)).setSurf id
      { (s.closeStreamOf id).surf id with stream := some slot } = { s with
        surfaces := s.surfaces.setIfInBounds id { s.surf id with stream := some slot }
        streams := (s.closeStreamOf id).streams.setIfInBounds slot (some st) } := by
  have hsurfaces : (((s.closeStreamOf id).setSlot slot (some st)).setSurf id
      { (s.closeStreamOf id).surf id with stream := some slot }).surfaces =
        s.surfaces.setIfInBounds id { s.surf id with stream := some slot } := by
    refine State.surfaces_eq_of_surf fun j => ?_
    rw [State.surf_setSurf_of_lt hid, State.setSlot_surf, State.closeStreamOf_surf,
      State.closeStreamOf_surf, if_pos rfl]
    by_cases h : j = id <;> simp [h]
  rw [← hsurfaces]
  generalize (s.closeStreamOf id).surf id = r
  rw [State.closeStreamOf_eq]
  rfl

theorem exec_openStream (s : State) : exec .openStream s = .next (s.serve 0x30 handleOpen) := rfl

/-- A window outside the content, an unknown code or a palette above 3 for I8. -/
def OpenFields.bad (o : OpenFields) (r : Surface) : Prop :=
  ¬ o.inContent r ∨ formatOf o.format.toNat = none ∨ modeOf o.mode.toNat = none ∨
    orderOf o.order.toNat = none ∨
      (formatOf o.format.toNat = some .i8 ∧ 3 < o.palette.toNat)

theorem OpenFields.bad_iff (o : OpenFields) (r : Surface) : o.bad r ↔
    o.ww = 0 ∨ o.wh = 0 ∨ r.width < o.wx + o.ww ∨ r.height < o.wy + o.wh ∨
      4 < o.format.toNat ∨ 1 < o.mode.toNat ∨ 1 < o.order.toNat ∨
        (o.format = 4 ∧ 3 < o.palette.toNat) := by
  have hfour : o.format = 4 ↔ o.format.toNat = 4 := by rw [BitVec.toNat_eq]; rfl
  rw [OpenFields.bad, OpenFields.inContent, formatOf_eq_none_iff, modeOf_eq_none_iff,
    orderOf_eq_none_iff, formatOf_eq_i8_iff, hfour, not_not]
  simp only [or_assoc]

section
variable {s : State} {o : OpenFields} (hfit : o.fits) (hdef : (s.surf o.id).defined)
include hfit hdef

theorem handleOpen_bad (h : o.bad (s.surf o.id)) :
    handleOpen o.body s = (s, ⟨.badField, []⟩) := by
  by_cases hin : o.inContent (s.surf o.id)
  swap
  · exact handleOpen_outside hfit hdef hin
  by_cases hcode : formatOf o.format.toNat = none ∨ modeOf o.mode.toNat = none ∨
      orderOf o.order.toNat = none
  · exact handleOpen_badCode hfit hdef hcode
  obtain ⟨hf, hm, ho⟩ := not_or.1 hcode |>.imp_right not_or.1
  obtain ⟨fmt, hfmt⟩ := Option.ne_none_iff_exists'.1 hf
  obtain ⟨mode, hmode⟩ := Option.ne_none_iff_exists'.1 hm
  obtain ⟨order, horder⟩ := Option.ne_none_iff_exists'.1 ho
  rw [handleOpen_coded hfit hdef hin hfmt hmode horder]
  refine State.openCoded_badPalette ?_
  rcases h with h | h | h | h | ⟨h, hp⟩
  · exact absurd hin h
  · exact absurd h hf
  · exact absurd h hm
  · exact absurd h ho
  · exact ⟨Option.some.inj (hfmt.symm.trans h), hp⟩

/-- An OPEN whose values are good has its codes. -/
theorem handleOpen_good (h : ¬ o.bad (s.surf o.id)) : ∃ fmt mode order,
    ¬ (fmt = .i8 ∧ 3 < o.palette.toNat) ∧ handleOpen o.body s = s.openCoded o fmt mode order := by
  simp only [OpenFields.bad, not_or] at h
  obtain ⟨hin, hf, hm, ho, hp⟩ := h
  obtain ⟨fmt, hfmt⟩ := Option.ne_none_iff_exists'.1 hf
  obtain ⟨mode, hmode⟩ := Option.ne_none_iff_exists'.1 hm
  obtain ⟨order, horder⟩ := Option.ne_none_iff_exists'.1 ho
  refine ⟨fmt, mode, order, fun hi => hp ⟨hi.1 ▸ hfmt, hi.2⟩, ?_⟩
  exact handleOpen_coded hfit hdef (not_not.1 hin) hfmt hmode horder

end

/-- With no stream on the surface the closing does nothing. -/
theorem State.closeStreamOf_of_none {s : State} {id : Nat} (h : (s.surf id).stream = none) :
    s.closeStreamOf id = s := by
  unfold State.closeStreamOf
  rw [h]

/-- Settles O28: the window, the codes, the palette and the freeze, and then the lowest free slot. -/
theorem openTakesTheLowestFreeSlot : Obligations.OpenTakesTheLowestFreeSlot := by
  intro s f id wx wy ww wh hid hdef hx hy hw hh
  refine ⟨fun fmt palette mode order ha => ?_, fun slot fmt palette mode order h1 h2 h3 h4 hp hopen
    hslot hfree hlow ha => ?_⟩
  · let o : OpenFields := ⟨id, wx, wy, ww, wh, fmt, palette, mode, order⟩
    have hfit : o.fits := ⟨hid, hx, hy, hw, hh⟩
    have hl := lengthOk_openBody o
    intro bad
    have hbad : o.bad (s.surf id) ↔ bad := o.bad_iff _
    refine ⟨fun hb => ?_, fun hgood h2 hfz => ?_, fun hgood hopen hnone hfull => ?_⟩
    · exact exec_answer (exec_openStream s) ha hl
        (handleOpen_bad (s := s.takeRequest) hfit hdef (hbad.2 hb))
    · obtain ⟨_, _, _, hp, he⟩ :=
        handleOpen_good (s := s.takeRequest) hfit hdef (mt hbad.1 hgood)
      exact exec_answer (exec_openStream s) ha hl
        (he.trans (State.openCoded_frozen hp (double_and_frozen.2 ⟨h2, hfz⟩)))
    · obtain ⟨_, _, _, hp, he⟩ :=
        handleOpen_good (s := s.takeRequest) hfit hdef (mt hbad.1 hgood)
      refine exec_answer (exec_openStream s) ha hl
        (he.trans (State.openCoded_noSlot hp (mt double_and_frozen.1 hopen) ?_))
      rw [State.closeStreamOf_of_none (s := s.takeRequest) hnone]
      exact State.freeSlots_eq_nil hfull
  · let o : OpenFields := ⟨id, wx, wy, ww, wh, fmt.code, palette, mode.code, order.code⟩
    have hfit : o.fits := ⟨hid, hx, hy, hw, hh⟩
    have hin : o.inContent (s.surf id) := by
      unfold OpenFields.inContent; dsimp only [o]; omega
    have hpal : ¬ (fmt = .i8 ∧ 3 < o.palette.toNat) := fun h => Nat.not_le.2 h.2 (hp h.1)
    have hclosed (i : Nat) : (s.takeRequest.closeStreamOf id).slotAt i =
        if (s.surf id).stream = some i then none else s.slotAt i :=
      State.closeStreamOf_slotAt _ _ _
    obtain ⟨rest, hrest⟩ := State.freeSlots_eq_cons (s := s.takeRequest.closeStreamOf id) hslot
      (by rw [hclosed]; rcases hfree with h | h <;> simp [h])
      (fun i hi => by rw [hclosed, if_neg (hlow i hi).2]; exact (hlow i hi).1)
    rw [exec_effect_of_handle (exec_openStream s) ha (lengthOk_openBody o)
      ((handleOpen_coded (s := s.takeRequest) (o := o) hfit hdef hin (formatOf_code fmt)
        (modeOf_code mode) (orderOf_code order)).trans
        (State.openCoded_ok (s := s.takeRequest) hpal (mt double_and_frozen.1 hopen) hrest)),
      State.opened_eq _ hid, State.closeStreamOf_streams]
    cases order <;> rfl

end Sys2Proof.Machine
end

section
/-! PROOFS. WRITE (O29): how a stream's cursor moves, how many pixels a WRITE takes, and its reply. -/

namespace Sys2Proof.Machine

/-! ### The cursor (R68, R69) -/

/-- What OPEN fixed of a stream. -/
def Stream.setup (st : Stream) :
    Nat × Nat × Nat × Nat × Nat × Format × Option Nat × StreamMode × StreamOrder :=
  (st.surface, st.wx, st.wy, st.ww, st.wh, st.format, st.palette, st.mode, st.order)

theorem Stream.setup_inj {st u : Stream} (h : u.setup = st.setup) :
    u.surface = st.surface ∧ u.wx = st.wx ∧ u.wy = st.wy ∧ u.ww = st.ww ∧ u.wh = st.wh ∧
      u.format = st.format ∧ u.palette = st.palette ∧ u.mode = st.mode ∧ u.order = st.order := by
  simpa only [Stream.setup, Prod.mk.injEq] using h

/-- The cursor stands on a pixel of the window. -/
def Stream.inside (st : Stream) : Prop := st.cx < st.ww ∧ st.cy < st.wh

/-- The places from the cursor to the end of the window. -/
def Stream.left (st : Stream) : Nat := st.ww * st.wh - st.place

theorem Stream.row_lt {st : Stream} (h : st.inside) : st.row < st.wh := by
  obtain ⟨-, hy⟩ := h
  unfold Stream.row
  split <;> omega

/-- A place before the row's end lies in the window. -/
theorem place_lt_of_row_lt {row wh ww cx : Nat} (hr : row < wh) (hc : cx < ww) :
    row * ww + cx < ww * wh := by
  obtain ⟨w, rfl⟩ : ∃ w, wh = row + 1 + w := ⟨wh - row - 1, by omega⟩
  calc row * ww + cx < row * ww + ww := by omega
    _ = ww * (row + 1) := by ring
    _ ≤ ww * (row + 1 + w) := Nat.mul_le_mul_left _ (Nat.le_add_right _ _)

theorem Stream.place_lt {st : Stream} (h : st.inside) : st.place < st.ww * st.wh := by
  rw [Stream.place_eq]
  exact place_lt_of_row_lt (Stream.row_lt h) h.1

theorem Stream.left_pos {st : Stream} (h : st.inside) : 0 < st.left :=
  Nat.sub_pos_of_lt (Stream.place_lt h)

theorem Stream.atLast_iff_row {st : Stream} (h : st.inside) :
    st.atLast = true ↔ st.cx + 1 = st.ww ∧ st.row + 1 = st.wh := by
  obtain ⟨-, hy⟩ := h
  unfold Stream.atLast Stream.row
  rw [Bool.and_eq_true, beq_iff_eq]
  refine and_congr_right fun _ => ?_
  cases st.order with
  | down => exact beq_iff_eq
  | up => simp only [beq_iff_eq]; omega

theorem Stream.atLast_iff {st : Stream} (h : st.inside) : st.atLast = true ↔ st.left = 1 := by
  have hlt := Stream.place_lt h
  refine ⟨fun ha => ?_, fun hl => ?_⟩
  · have := Stream.place_of_atLast h.2 ha
    unfold Stream.left; omega
  · have hp : st.place + 1 = st.ww * st.wh := by unfold Stream.left at hl; omega
    rw [Stream.place_eq] at hp
    have hrow := Stream.row_lt h
    have hcx : st.cx + 1 = st.ww := by
      by_contra hne
      have := place_lt_of_row_lt (cx := st.cx + 1) (ww := st.ww) hrow (by have := h.1; omega)
      omega
    refine (Stream.atLast_iff_row h).2 ⟨hcx, ?_⟩
    by_contra hne
    have := place_lt_of_row_lt (row := st.row + 1) (wh := st.wh) (cx := 0) (ww := st.ww)
      (by omega) (by omega)
    rw [Nat.add_mul] at this
    omega

@[simp] theorem Stream.advance_setup (st : Stream) : st.advance.setup = st.setup := by
  unfold Stream.advance; split <;> [rfl; (split <;> rfl)]
@[simp] theorem Stream.advance_expected (st : Stream) : st.advance.expected = st.expected := by
  unfold Stream.advance; split <;> [rfl; (split <;> rfl)]
@[simp] theorem Stream.advance_written (st : Stream) : st.advance.written = st.written := by
  unfold Stream.advance; split <;> [rfl; (split <;> rfl)]

theorem Stream.advance_inside {st : Stream} (h : st.inside) (hf : st.full = false) :
    st.advance.inside := by
  obtain ⟨hx, hy, -⟩ := Stream.advance_inWindow ⟨h.1, h.2, by rw [hf]; nofun⟩ hf
  exact ⟨hx, hy⟩

/-- R68: the cursor moves one place on, round the window. -/
theorem Stream.advance_place {st : Stream} (h : st.inside) :
    st.advance.place = (st.place + 1) % (st.ww * st.wh) := by
  have hrow := Stream.row_lt h
  unfold Stream.advance
  by_cases hx : st.cx + 1 < st.ww
  · rw [if_pos hx]
    have hlt := place_lt_of_row_lt hrow hx
    rw [Stream.place_eq st, Nat.add_assoc, Nat.mod_eq_of_lt hlt]
    rfl
  · have hcx : st.cx + 1 = st.ww := by have := h.1; omega
    rw [if_neg hx]
    by_cases hl : st.atLast
    · rw [if_pos hl, Stream.place_of_atLast h.2 hl, Nat.mod_self]
      unfold Stream.place
      cases st.order <;> simp
    · rw [if_neg hl]
      have hnext : st.row + 1 < st.wh := by
        have := mt (Stream.atLast_iff_row h).2 hl
        omega
      have hplace : st.place + 1 = (st.row + 1) * st.ww := by
        rw [Stream.place_eq, Nat.add_mul]; omega
      have hlt := place_lt_of_row_lt (cx := 0) hnext (Nat.zero_lt_of_lt h.1)
      rw [Nat.add_zero] at hlt
      rw [hplace, Nat.mod_eq_of_lt hlt]
      obtain ⟨-, hy⟩ := h
      unfold Stream.row at hnext ⊢
      unfold Stream.place
      cases ho : st.order <;> simp only [ho, Nat.add_zero] at hnext ⊢
      congr 1
      omega

/-! ### A pixel written (R68 to R71) -/

section
variable (st : Stream)

theorem Stream.wrotePixel_last (h : st.mode = .stop ∧ st.atLast = true) :
    st.wrotePixel = { st with written := saturate32 st.written, full := true } := if_pos h

theorem Stream.wrotePixel_on (h : ¬ (st.mode = .stop ∧ st.atLast = true)) :
    st.wrotePixel = Stream.advance { st with written := saturate32 st.written } := if_neg h

@[simp] theorem Stream.wrotePixel_setup : st.wrotePixel.setup = st.setup := by
  by_cases h : st.mode = .stop ∧ st.atLast = true
  · rw [st.wrotePixel_last h]; rfl
  · rw [st.wrotePixel_on h, Stream.advance_setup]; rfl

@[simp] theorem Stream.wrotePixel_expected : st.wrotePixel.expected = st.expected := by
  by_cases h : st.mode = .stop ∧ st.atLast = true
  · rw [st.wrotePixel_last h]
  · rw [st.wrotePixel_on h, Stream.advance_expected]

@[simp] theorem Stream.wrotePixel_written :
    st.wrotePixel.written = saturate32 st.written := by
  by_cases h : st.mode = .stop ∧ st.atLast = true
  · rw [st.wrotePixel_last h]
  · rw [st.wrotePixel_on h, Stream.advance_written]

end

theorem Stream.iterate_setup (st : Stream) (m : Nat) :
    (Stream.wrotePixel^[m] st).setup = st.setup := by
  induction m with
  | zero => rfl
  | succ m ih => rw [Function.iterate_succ_apply', Stream.wrotePixel_setup, ih]

theorem saturate32_toNat (n : Word) : (saturate32 n).toNat = min (n.toNat + 1) (2 ^ 32 - 1) := by
  unfold saturate32
  have hlt := n.isLt
  split
  · rename_i h; subst h; rfl
  · rename_i h
    have : n.toNat ≠ 2 ^ 32 - 1 := fun e => h (BitVec.eq_of_toNat_eq e)
    rw [BitVec.toNat_add_of_lt (by rw [show (1 : Word).toNat = 1 from rfl]; omega)]
    rw [show (1 : Word).toNat = 1 from rfl]
    omega

/-- `u` is the stream `st` once `m` pixels have been written, no more than a STOP window takes. -/
structure Stream.Wrote (st u : Stream) (m : Nat) : Prop where
  setup : u.setup = st.setup
  expected : u.expected = st.expected
  written : u.written.toNat = min (st.written.toNat + m) (2 ^ 32 - 1)
  inside : u.inside
  full : u.full = true ↔ st.mode = .stop ∧ st.left ≤ m
  place_full : u.full = true → u.place = st.ww * st.wh - 1
  place : u.full = false → u.place = (st.place + m) % (st.ww * st.wh)

theorem Stream.Wrote.refl {st : Stream} (h : st.inside) (hf : st.full = false) :
    st.Wrote st 0 where
  setup := rfl
  expected := rfl
  written := by have := st.written.isLt; omega
  inside := h
  full := by
    have := Stream.left_pos h
    rw [hf]
    exact ⟨nofun, fun hl => by omega⟩
  place_full := by rw [hf]; nofun
  place _ := by rw [Nat.add_zero, Nat.mod_eq_of_lt (Stream.place_lt h)]

/-- One pixel more, into a stream that is not FULL. -/
theorem Stream.Wrote.step {st u : Stream} {m : Nat} (h : st.Wrote u m) (hst : st.inside)
    (hf : u.full = false) : st.Wrote u.wrotePixel (m + 1) := by
  obtain ⟨-, -, -, hww, hwh, -, -, hmode, -⟩ := Stream.setup_inj h.setup
  have hplace := h.place hf
  have hleft : 0 < st.left := Stream.left_pos hst
  have hopen : st.mode = .stop → m < st.left := fun hm => by
    have := mt h.full.2 (by rw [hf]; nofun)
    exact Nat.lt_of_not_le fun hle => this ⟨hm, hle⟩
  have huleft : st.mode = .stop → u.left = st.left - m := fun hm => by
    have := hopen hm
    unfold Stream.left at this hleft ⊢
    rw [hplace, hww, hwh, Nat.mod_eq_of_lt (by omega)]
    omega
  have hwritten : u.wrotePixel.written.toNat =
      min (st.written.toNat + (m + 1)) (2 ^ 32 - 1) := by
    rw [Stream.wrotePixel_written, saturate32_toNat, h.written]
    omega
  have hsetup := u.wrotePixel_setup.trans h.setup
  have hexpected := u.wrotePixel_expected.trans h.expected
  by_cases hl : u.mode = .stop ∧ u.atLast = true
  · have hone := huleft (hmode ▸ hl.1)
    rw [(Stream.atLast_iff h.inside).1 hl.2] at hone
    refine ⟨hsetup, hexpected, hwritten, ?_, ?_, fun _ => ?_, ?_⟩ <;> rw [u.wrotePixel_last hl]
    · exact h.inside
    · exact iff_of_true rfl ⟨hmode ▸ hl.1, by omega⟩
    · have := Stream.place_of_atLast h.inside.2 hl.2
      rw [hww, hwh] at this
      exact (Nat.sub_eq_of_eq_add this.symm).symm
    · nofun
  · have hadv : ({ u with written := saturate32 u.written } : Stream).advance.full = false := by
      rw [Stream.advance_full]; exact hf
    refine ⟨hsetup, hexpected, hwritten, ?_, ?_, ?_, fun _ => ?_⟩ <;> rw [u.wrotePixel_on hl]
    · exact Stream.advance_inside (st := { u with written := saturate32 u.written }) h.inside hf
    · rw [hadv]
      refine iff_of_false nofun fun hs => hl ⟨hmode.trans hs.1, (Stream.atLast_iff h.inside).2 ?_⟩
      have := huleft hs.1
      have := hopen hs.1
      omega
    · rw [hadv]; nofun
    · rw [Stream.advance_place (st := { u with written := saturate32 u.written }) h.inside]
      change (u.place + 1) % (u.ww * u.wh) = _
      rw [hplace, hww, hwh, Nat.mod_add_mod, Nat.add_assoc]

/-- The stream behind `m` pixels, `m` being no more than a STOP window takes. -/
theorem Stream.wrote_iterate {st : Stream} (h : st.inside) (hf : st.full = false) (m : Nat)
    (hm : st.mode = .stop → m ≤ st.left) : st.Wrote (Stream.wrotePixel^[m] st) m := by
  induction m with
  | zero => exact Stream.Wrote.refl h hf
  | succ m ih =>
    have hw := ih fun hs => Nat.le_of_succ_le (hm hs)
    rw [Function.iterate_succ_apply']
    refine hw.step h ?_
    rw [Bool.eq_false_iff]
    intro hfull
    obtain ⟨hs, hle⟩ := hw.full.1 hfull
    exact absurd (hm hs) (by omega)

/-! ### The pixels of one WRITE -/

/-- How many of `k` pixels the stream takes: in STOP mode no more than the window still has. -/
def Stream.takes (st : Stream) (k : Nat) : Nat :=
  if st.full then 0 else if st.mode = .stop ∧ st.left ≤ k then st.left else k

theorem Stream.takes_le_left {st : Stream} (k : Nat) (hm : st.mode = .stop) :
    st.takes k ≤ st.left := by
  unfold Stream.takes
  split
  · exact Nat.zero_le _
  · split
    · exact le_rfl
    · rename_i h
      exact Nat.le_of_not_le fun hle => h ⟨hm, hle⟩

theorem Stream.takes_le (st : Stream) (k : Nat) : st.takes k ≤ k := by
  unfold Stream.takes
  split
  · exact Nat.zero_le _
  · split
    · rename_i h; exact h.2
    · exact le_rfl

theorem Stream.takes_zero (st : Stream) : st.takes 0 = 0 := Nat.le_zero.1 (st.takes_le 0)

/-- A pixel written leaves room for one fewer. -/
theorem Stream.takes_succ {st : Stream} (h : st.inside) (hf : st.full = false) (k : Nat) :
    st.takes (k + 1) = st.wrotePixel.takes k + 1 := by
  have hw := (Stream.Wrote.refl h hf).step h hf
  obtain ⟨-, -, -, hww, hwh, -, -, hmode, -⟩ := Stream.setup_inj hw.setup
  have hpos := Stream.left_pos h
  unfold Stream.takes
  rw [hf, hmode]
  by_cases hs : st.mode = .stop
  · cases hfull : st.wrotePixel.full with
    | true =>
      obtain ⟨-, hle⟩ := hw.full.1 hfull
      have hone : st.left = 1 := by omega
      simp [hs, hone]
    | false =>
      have hmore : ¬ st.left ≤ 0 + 1 := fun hle => by
        rw [hw.full.2 ⟨hs, hle⟩] at hfull; cases hfull
      have hleft : st.wrotePixel.left = st.left - 1 := by
        have hp := hw.place hfull
        unfold Stream.left at hmore ⊢
        rw [hp, hww, hwh, Nat.mod_eq_of_lt (by omega)]
        omega
      rw [hleft]
      simp only [hs, true_and, Bool.false_eq_true, if_false]
      split_ifs <;> omega
  · have hopen : st.wrotePixel.full = false := by
      rw [Bool.eq_false_iff]
      exact fun hfull => hs (hw.full.1 hfull).1
    simp [hs, hopen]

/-- The state once the first `m` of the pixels have been written. -/
def State.drawn (s : State) (st : Stream) (ps : List (List Byte)) (m : Nat) : State :=
  (List.range m).foldl (fun t i => t.ingestPixel (Stream.wrotePixel^[i] st) (ps.getD i [])) s

theorem State.drawn_succ (s : State) (st : Stream) (ps : List (List Byte)) (m : Nat) :
    s.drawn st ps (m + 1) =
      (s.drawn st ps m).ingestPixel (Stream.wrotePixel^[m] st) (ps.getD m []) := by
  simp [State.drawn, List.range_succ]

theorem State.drawn_cons (s : State) (st : Stream) (p : List Byte) (ps : List (List Byte))
    (m : Nat) :
    s.drawn st (p :: ps) (m + 1) = (s.ingestPixel st p).drawn st.wrotePixel ps m := by
  simp [State.drawn, List.range_succ_eq_map, List.foldl_map]

/-- The pixels of one WRITE, counted: those that the stream takes, and the groups left over. -/
theorem State.ingest_eq (ps : List (List Byte)) (s : State) {st : Stream} (h : st.inside) (n : Nat) :
    s.ingest ps st n = (s.drawn st ps (st.takes ps.length),
      Stream.wrotePixel^[st.takes ps.length] st, n + st.takes ps.length,
      ps.drop (st.takes ps.length)) := by
  induction ps generalizing s st n with
  | nil => rw [List.length_nil, Stream.takes_zero]; rfl
  | cons p ps ih =>
    unfold State.ingest
    cases hf : st.full with
    | true =>
      rw [show st.takes (p :: ps).length = 0 from if_pos hf]
      rfl
    | false =>
      have hin := ((Stream.Wrote.refl h hf).step h hf).inside
      rw [if_neg Bool.false_ne_true, ih (s.ingestPixel st p) hin, List.length_cons,
        Stream.takes_succ h hf, State.drawn_cons, Function.iterate_succ_apply,
        List.drop_succ_cons, Nat.add_assoc, Nat.add_comm 1]

/-! ### What a WRITE changes -/

/-- `t` differs from `s` in the content states, the cells and the records of surfaces alone. -/
def State.drawnFrom (t s : State) : Prop :=
  t = { s with pool := t.pool, surfaces := t.surfaces } ∧ t.pool.free = s.pool.free

theorem State.drawnFrom.refl (s : State) : s.drawnFrom s := ⟨rfl, rfl⟩

theorem State.drawnFrom.trans {s t u : State} (h : t.drawnFrom s) (g : u.drawnFrom t) :
    u.drawnFrom s := by
  refine ⟨?_, g.2.trans h.2⟩
  rw [g.1, h.1]

theorem State.makeData_drawnFrom (s : State) (id : Nat) (x : Tile) (m : Memory) :
    (s.makeData id x m).drawnFrom s := by
  refine ⟨?_, State.makeData_free s id x m⟩
  unfold State.makeData
  dsimp only
  split <;> rfl

theorem State.resolveTile_drawnFrom (s : State) (id pos : Nat) (x : Tile) :
    (s.resolveTile id pos x).drawnFrom s := by
  unfold State.resolveTile
  cases s.pool.contentOf x with
  | data => exact .refl s
  | blank => exact s.makeData_drawnFrom _ _ _
  | stale => exact s.makeData_drawnFrom _ _ _

theorem State.writePixel_drawnFrom (s : State) (id x y : Nat) (c : Rgb) :
    (s.writePixel id x y c).drawnFrom s := by
  unfold State.writePixel
  dsimp only
  cases (s.surf id).drawBank[positionOfPixel (s.surf id).width x y]? with
  | none => exact .refl s
  | some t => exact (s.resolveTile_drawnFrom _ _ t).trans ⟨rfl, rfl⟩

theorem State.ingestPixel_drawnFrom (s : State) (st : Stream) (bs : List Byte) :
    (s.ingestPixel st bs).drawnFrom s := by
  have hw := s.writePixel_drawnFrom st.surface (st.wx + st.cx) (st.wy + st.cy)
    (convertPixel s.colours st.format st.palette bs)
  unfold State.ingestPixel
  dsimp only
  split
  · exact hw.trans ⟨rfl, rfl⟩
  · exact hw

theorem State.drawn_drawnFrom (s : State) (st : Stream) (ps : List (List Byte)) (m : Nat) :
    (s.drawn st ps m).drawnFrom s := by
  induction m with
  | zero => exact .refl s
  | succ m ih =>
    rw [State.drawn_succ]
    exact ih.trans (State.ingestPixel_drawnFrom _ _ _)

theorem State.writePixel_surf (s : State) (id x y : Nat) (c : Rgb) :
    ∃ stale ≤ (s.surf id).stale, ∀ j, (s.writePixel id x y c).surf j =
      if j = id then { s.surf id with stale := stale } else s.surf j := by
  have hsame : ∀ j, s.surf j = if j = id then { s.surf id with stale := (s.surf id).stale }
      else s.surf j := fun j => by split <;> [(rename_i h; rw [h]); rfl]
  unfold State.writePixel
  dsimp only
  cases (s.surf id).drawBank[positionOfPixel (s.surf id).width x y]? with
  | none => exact ⟨_, le_rfl, hsame⟩
  | some t =>
    have hsurf : ∀ j, (s.resolveTile id (positionOfPixel (s.surf id).width x y) t).surf j = _ :=
      State.resolveTile_surf s id _ t
    by_cases hst : s.pool.contentOf t = .stale ∧ id < 32
    · refine ⟨(s.surf id).stale - 1, Nat.sub_le _ _, fun j => (hsurf j).trans ?_⟩
      by_cases hj : j = id <;> simp [hst, hj]
    · refine ⟨_, le_rfl, fun j => (hsurf j).trans ((if_neg ?_).trans (hsame j))⟩
      exact fun h => hst ⟨h.1, h.2.2⟩

/-- R13, R73: the record of the surface drawn on, once a pixel has been written. -/
theorem State.ingestPixel_surf (s : State) (st : Stream) (bs : List Byte) :
    ∃ stale ≤ (s.surf st.surface).stale, ∀ j, (s.ingestPixel st bs).surf j =
      if j = st.surface then { s.surf st.surface with
        stale := stale
        dirty := (s.surf st.surface).dirty || decide ((s.surf st.surface).banks = 2) }
      else s.surf j := by
  obtain ⟨stale, hle, hsurf⟩ := s.writePixel_surf st.surface (st.wx + st.cx) (st.wy + st.cy)
    (convertPixel s.colours st.format st.palette bs)
  refine ⟨stale, hle, fun j => ?_⟩
  unfold State.ingestPixel
  dsimp only
  have hself := hsurf st.surface
  rw [if_pos rfl] at hself
  by_cases hd : (s.surf st.surface).banks = 2
  · have hid : st.surface < 32 := by
      by_contra hge
      rw [State.surf_of_le _ (Nat.le_of_not_lt hge)] at hd
      cases hd
    rw [if_pos (by rw [hself]; exact beq_iff_eq.2 hd), State.surf_setSurf_of_lt hid, hself, hsurf]
    split <;> simp [hd]
  · rw [if_neg (by rw [hself]; exact mt beq_iff_eq.1 hd), hsurf]
    split <;> simp [hd]

theorem State.drawn_surf (s : State) {st : Stream} (ps : List (List Byte)) (m : Nat) :
    ∃ stale ≤ (s.surf st.surface).stale, ∀ j, (s.drawn st ps m).surf j =
      if j = st.surface then { s.surf st.surface with
        stale := stale
        dirty := (s.surf st.surface).dirty ||
          decide ((s.surf st.surface).banks = 2 ∧ 0 < m) }
      else s.surf j := by
  induction m with
  | zero =>
    refine ⟨_, le_rfl, fun j => ?_⟩
    split
    · rename_i h; subst h; simp [State.drawn]
    · rfl
  | succ m ih =>
    obtain ⟨stale, hle, hsurf⟩ := ih
    have hid := (Stream.setup_inj (st.iterate_setup m)).1
    obtain ⟨stale', hle', hsurf'⟩ :=
      (s.drawn st ps m).ingestPixel_surf (Stream.wrotePixel^[m] st) (ps.getD m [])
    rw [hid, hsurf, if_pos rfl] at hle' hsurf'
    refine ⟨stale', hle'.trans hle, fun j => ?_⟩
    rw [State.drawn_succ, hsurf']
    by_cases hj : j = st.surface
    · rw [if_pos hj, if_pos hj]
      by_cases hb : (s.surf st.surface).banks = 2 <;> simp [hb]
    · rw [if_neg hj, if_neg hj, hsurf, if_neg hj]

/-! ### An accepted WRITE -/

theorem length_of_mem_groupsOf {k n : Nat} {bs g : List Byte} (h : n * k ≤ bs.length)
    (hg : g ∈ groupsOf k n bs) : g.length = k := by
  obtain ⟨i, hi, rfl⟩ := List.getElem_of_mem hg
  rw [length_groupsOf] at hi
  have hget := groupsOf_getElem? (k := k) (bs := bs) hi
  rw [List.getElem?_eq_getElem (by rwa [length_groupsOf]), Option.some_inj] at hget
  rw [hget, List.length_take, List.length_drop]
  have hle : (i + 1) * k ≤ n * k := Nat.mul_le_mul_right _ hi
  rw [Nat.add_mul, Nat.mul_comm i] at hle
  omega

/-- The bytes of the groups left over. -/
theorem sum_length_drop_groupsOf {k n m : Nat} {bs : List Byte} (h : n * k ≤ bs.length) :
    (((groupsOf k n bs).drop m).map List.length).sum = (n - m) * k := by
  rw [List.eq_replicate_of_mem (l := ((groupsOf k n bs).drop m).map List.length) (a := k) ?_,
    List.sum_replicate, List.length_map, List.length_drop, length_groupsOf, smul_eq_mul]
  intro l hl
  obtain ⟨g, hg, rfl⟩ := List.mem_map.1 hl
  exact length_of_mem_groupsOf h (List.mem_of_mem_drop hg)

/-- The stream that a WRITE leaves, `u` being its stream behind the pixels, and `rest` the bytes
behind the last whole pixel. -/
def Stream.settled (u : Stream) (rest : List Byte) : Stream :=
  { u with residue := if u.full then [] else rest, expected := u.expected + 1 }

/-- The reply to a WRITE of `n` pixels that leaves the stream `u`. -/
def writeBody (n truncated : Nat) (u : Stream) : List Byte :=
  bytesOf 2 n ++ bytesOf 2 truncated ++ bytesOf 2 u.cx ++ bytesOf 2 u.cy ++
    [if u.full then 2 else 1] ++ bytesOf 1 u.residue.length ++ bytesOf 2 u.expected.toNat

/-- The groups of one pixel in what a WRITE brings. -/
def Stream.pixels (st : Stream) (payload : List Byte) : List (List Byte) :=
  groupsOf st.format.bytesPerPixel
    ((st.residue.length + payload.length) / st.format.bytesPerPixel) (st.residue ++ payload)

theorem Stream.length_pixels (st : Stream) (payload : List Byte) : (st.pixels payload).length =
    (st.residue.length + payload.length) / st.format.bytesPerPixel := length_groupsOf _ _ _

/-- R67 to R71: what a WRITE takes, counted in pixels and bytes. -/
theorem State.takeWrite_eq (s : State) (slot : Nat) {st : Stream} (h : st.inside)
    (payload : List Byte) {k total n : Nat} {u : Stream} (hk : k = st.format.bytesPerPixel)
    (htotal : total = st.residue.length + payload.length) (hn : n = st.takes (total / k))
    (hu : u = Stream.settled (Stream.wrotePixel^[n] st)
      ((st.residue ++ payload).drop (total / k * k))) :
    s.takeWrite slot st payload = ((s.drawn st (st.pixels payload) n).setSlot slot (some u),
      ⟨.ok, writeBody n (if u.full then total - n * k else 0) u⟩) := by
  have hpos : 0 < k := hk ▸ st.format.bytesPerPixel_pos
  have hsplit : splitPixels st.format.bytesPerPixel (st.residue ++ payload) =
      (st.pixels payload, (st.residue ++ payload).drop (total / k * k)) := by
    subst hk htotal
    unfold splitPixels Stream.pixels
    rw [List.length_append]
  have hlen : (st.pixels payload).length = total / k := by
    rw [Stream.length_pixels, hk, htotal]
  have hfull : u.full = (Stream.wrotePixel^[n] st).full := by rw [hu]; rfl
  have htrunc : (((st.pixels payload).drop n).map List.length).sum +
      ((st.residue ++ payload).drop (total / k * k)).length = total - n * k := by
    have hle : n ≤ total / k := hn ▸ st.takes_le _
    have hmul : total / k * k ≤ total := Nat.div_mul_le_self _ _
    have hnk : n * k ≤ total / k * k := Nat.mul_le_mul_right _ hle
    have hsum := sum_length_drop_groupsOf (k := k) (n := total / k) (m := n)
      (bs := st.residue ++ payload) (by rw [List.length_append, ← htotal]; exact hmul)
    rw [Nat.sub_mul] at hsum
    rw [Stream.pixels, ← hk, ← htotal, hsum, List.length_drop, List.length_append, ← htotal]
    omega
  unfold State.takeWrite
  dsimp only
  rw [hsplit, State.ingest_eq _ _ h, hlen, ← hn, Nat.zero_add]
  dsimp only
  rw [htrunc, ← hfull]
  subst hu
  rfl

/-! ### The request -/

/-- The body of a WRITE request. -/
def writeRequest (slot : Nat) (seq : Half) (payload : List Byte) : List Byte :=
  bytesOf 1 slot ++ bytesOf 2 seq.toNat ++ payload

section
variable {slot : Nat} {seq : Half} {payload : List Byte}

theorem writeRequest_slot (h : slot < 256) : fieldAt (writeRequest slot seq payload) 0 1 = slot := by
  rw [writeRequest, List.append_assoc]
  simp only [fieldAt_bytesOf, Nat.reducePow, Nat.mod_eq_of_lt h]

theorem writeRequest_seq : BitVec.ofNat 16 (fieldAt (writeRequest slot seq payload) 1 2) = seq := by
  have hlt : seq.toNat < 65536 := seq.isLt
  rw [writeRequest, List.append_assoc]
  simp only [fieldAt_append, length_bytesOf, Nat.reduceLeDiff, Nat.reduceSub, fieldAt_bytesOf,
    Nat.reducePow, Nat.mod_eq_of_lt hlt, BitVec.ofNat_toNat, BitVec.setWidth_eq]

theorem writeRequest_payload : (writeRequest slot seq payload).drop 3 = payload :=
  List.drop_left' (by simp)

theorem lengthOk_writeRequest (h1 : 1 ≤ payload.length) (h2 : payload.length ≤ 1021) :
    lengthOk 0x31 (writeRequest slot seq payload) = true := by
  rw [lengthOk_write]
  refine decide_eq_true ?_
  simp only [writeRequest, List.length_append, length_bytesOf]
  omega

theorem holdsWrite_writeRequest {s : State} (h : slot < 256)
    (hf : ∀ st, s.slotAt slot = some st → (s.surf st.surface).fills = 0) :
    s.holdsWrite (writeRequest slot seq payload) = false := by
  refine State.holdsWrite_eq_false fun st hst => hf st ?_
  rwa [← fieldAt_one, writeRequest_slot h] at hst

/-- The checks of Table 4-4. -/
theorem handleWrite_writeRequest (h : slot < 256) (s : State) :
    handleWrite (writeRequest slot seq payload) s =
      if 7 < slot then (s, ⟨.badField, []⟩)
      else match s.slotAt slot with
        | none => (s, ⟨.noStream, []⟩)
        | some st =>
          if st.full then (s, ⟨.streamFull, bytesOf 2 st.expected.toNat⟩)
          else if seq ≠ st.expected then
            (s, ⟨.outOfOrder, bytesOf 2 st.expected.toNat ++ bytesOf 2 st.cx ++ bytesOf 2 st.cy⟩)
          else s.takeWrite slot st payload := by
  unfold handleWrite
  dsimp only
  rw [writeRequest_slot h, writeRequest_seq, writeRequest_payload]
  rfl

end

/-- An accepted WRITE. -/
theorem exec_write_taken {s : State} {f : Request} {slot : Nat} {st : Stream} {payload : List Byte}
    (hslot : slot < 8) (hst : s.slotAt slot = some st) (hopen : st.full = false)
    (hfills : (s.surf st.surface).fills = 0) (h1 : 1 ≤ payload.length)
    (h2 : payload.length ≤ 1021) (ha : Asks s f 0x31 (writeRequest slot st.expected payload)) :
    exec .write s = .next ((s.takeRequest.takeWrite slot st payload).1.queueReply f
      (replyTo f (s.takeRequest.takeWrite slot st payload).2)) := by
  have hslot' : slot < 256 := by omega
  have hfree : s.holdsWrite (writeRequest slot st.expected payload) = false :=
    holdsWrite_writeRequest hslot' fun v hv => by
      rw [hst] at hv; rw [← Option.some.inj hv]; exact hfills
  refine exec_effect_of_handle (exec_write_of_asks ha hfree) ha (lengthOk_writeRequest h1 h2) ?_
  rw [handleWrite_writeRequest hslot', if_neg (by omega), State.takeRequest_slotAt, hst]
  dsimp only
  rw [hopen, if_neg Bool.false_ne_true, if_neg (not_not.2 rfl)]

/-- The refusals of WRITE, in the order of Table 4-4. -/
theorem exec_write_refused {s : State} {f : Request} {slot : Nat} {seq : Half} {payload : List Byte}
    (hslot : slot < 256) (h1 : 1 ≤ payload.length) (h2 : payload.length ≤ 1021)
    (ha : Asks s f 0x31 (writeRequest slot seq payload)) :
    (7 < slot → exec .write s = .next (s.answer f .badField [])) ∧
    (slot ≤ 7 → s.slotAt slot = none → exec .write s = .next (s.answer f .noStream [])) ∧
    ∀ st, slot ≤ 7 → s.slotAt slot = some st → (s.surf st.surface).fills = 0 →
      (st.full = true →
        exec .write s = .next (s.answer f .streamFull (bytesOf 2 st.expected.toNat))) ∧
      (st.full = false → seq ≠ st.expected →
        exec .write s = .next (s.answer f .outOfOrder
          (bytesOf 2 st.expected.toNat ++ bytesOf 2 st.cx ++ bytesOf 2 st.cy))) := by
  have hl : lengthOk 0x31 (writeRequest slot seq payload) = true := lengthOk_writeRequest h1 h2
  have hanswer {st : Status} {b : List Byte}
      (hf : ∀ st, s.slotAt slot = some st → (s.surf st.surface).fills = 0)
      (hh : handleWrite (writeRequest slot seq payload) s.takeRequest =
        (s.takeRequest, ⟨st, b⟩)) : exec .write s = .next (s.answer f st b) :=
    exec_answer (exec_write_of_asks ha (holdsWrite_writeRequest hslot hf)) ha hl hh
  refine ⟨fun h7 => ?_, fun h7 hnone => ?_, fun st h7 hst hfills => ⟨fun hfull => ?_,
    fun hopen hseq => ?_⟩⟩
  · refine hanswer (fun st hst => ?_) ?_
    · rw [State.slotAt_of_le _ h7] at hst; cases hst
    · rw [handleWrite_writeRequest hslot, if_pos h7]
  · refine hanswer (fun st hst => ?_) ?_
    · rw [hnone] at hst; cases hst
    · rw [handleWrite_writeRequest hslot, if_neg (Nat.not_lt.2 h7), State.takeRequest_slotAt,
        hnone]
  · refine hanswer (fun v hv => ?_) ?_
    · rw [hst] at hv; rw [← Option.some.inj hv]; exact hfills
    · rw [handleWrite_writeRequest hslot, if_neg (Nat.not_lt.2 h7), State.takeRequest_slotAt, hst]
      exact if_pos hfull
  · refine hanswer (fun v hv => ?_) ?_
    · rw [hst] at hv; rw [← Option.some.inj hv]; exact hfills
    · rw [handleWrite_writeRequest hslot, if_neg (Nat.not_lt.2 h7), State.takeRequest_slotAt, hst]
      dsimp only
      rw [hopen, if_neg Bool.false_ne_true, if_pos hseq]

/-- Settles O29: the checks in order, and what the stream takes, told from its cursor's place. -/
theorem writeMovesTheCursor : Obligations.WriteMovesTheCursor := by
  refine ⟨fun s f slot seq payload hslot h1 h2 ha => exec_write_refused hslot h1 h2 ha,
    fun s f slot st payload hslot hst hopen hcx hcy _ _ _ hfills h1 h2 ha => ?_⟩
  have hin : st.inside := ⟨hcx, hcy⟩
  refine ⟨_, exec_write_taken hslot hst hopen hfills h1 h2 ha, ?_⟩
  intro k total left n
  have hn : n = st.takes (total / k) := by
    unfold Stream.takes; rw [hopen]; rfl
  have hw : st.Wrote (Stream.wrotePixel^[n] st) n :=
    Stream.wrote_iterate hin hopen n fun hs => hn ▸ st.takes_le_left _ hs
  have hend : (Stream.wrotePixel^[n] st).full = true ↔ st.mode = .stop ∧ left ≤ total / k := by
    rw [hw.full]
    refine and_congr_right fun hs => ?_
    change left ≤ n ↔ _
    by_cases hle : left ≤ total / k <;> simp [n, hs, hle]
  generalize hu : Stream.settled (Stream.wrotePixel^[n] st)
    ((st.residue ++ payload).drop (total / k * k)) = u
  have hfull : u.full = true ↔ st.mode = .stop ∧ left ≤ total / k := by rw [← hu]; exact hend
  have hplace : u.place = (Stream.wrotePixel^[n] st).place := by rw [← hu]; rfl
  have hresidue : u.residue = if u.full then [] else
      (st.residue ++ payload).drop (total / k * k) := by rw [← hu]; rfl
  obtain ⟨-, -, -, hww, hwh, -⟩ := Stream.setup_inj hw.setup
  obtain ⟨hux, huy⟩ := hw.inside
  rw [hww] at hux
  rw [hwh] at huy
  rw [State.takeWrite_eq s.takeRequest slot hin payload rfl rfl hn hu.symm]
  have hd := s.takeRequest.drawn_drawnFrom st (st.pixels payload) n
  obtain ⟨stale, hle, hsurf⟩ := s.takeRequest.drawn_surf (st := st) (st.pixels payload) n
  generalize s.takeRequest.drawn st (st.pixels payload) n = t at hd hsurf
  obtain ⟨ht, hfree⟩ := hd
  refine ⟨⟨u, ?_, ?_, ?_, ?_, ?_, ?_, fun he => ⟨hfull.2 he, ?_, ?_⟩, fun he => ?_, ?_⟩,
    fun i hi => ?_, fun id hid => ?_, ⟨stale, hle, ?_⟩, hfree, ?_⟩
  · exact (State.slotAt_setSlot t slot slot (some u)).trans (if_pos ⟨rfl, hslot⟩)
  · rw [← hu]; exact hw.setup
  · rw [← hu]; exact congrArg (· + 1) hw.expected
  · rw [← hu]; exact hw.written
  · rw [← hu]; exact hux
  · rw [← hu]; exact huy
  · exact hplace.trans (hw.place_full (hend.2 he))
  · rw [hresidue, if_pos (hfull.2 he)]
  · have hopen' : u.full = false := Bool.eq_false_iff.2 (mt hfull.1 he)
    have hall : n = total / k := if_neg he
    refine ⟨hopen', hplace.trans (hw.place (Bool.eq_false_iff.2 (mt hend.1 he))), ?_⟩
    rw [hresidue, hopen', hall]
    rfl
  · rw [ht]
    have htrunc : (if u.full = true then total - n * k else 0) =
        if st.mode = .stop ∧ left ≤ total / k then total - n * k else 0 :=
      if_congr hfull rfl rfl
    rw [← htrunc]
    rfl
  · rw [ht]
    exact (State.slotAt_setSlot _ slot i (some u)).trans (if_neg fun h => hi h.1.symm)
  · exact (hsurf id).trans (if_neg hid)
  · exact (hsurf st.surface).trans (if_pos rfl)
  · rw [ht]
    exact ⟨rfl, rfl, rfl, rfl, rfl, rfl, rfl, rfl, rfl⟩

end Sys2Proof.Machine
end

section
/-! PROOFS. The pixels of a WRITE (O30): each at its place, the last one written there to be read, and
every other pixel as before. -/

namespace Sys2Proof.Machine

/-! ### Positions and cells (R26) -/

theorem positionOfPixel_lt {w h x y : Nat} (hx : x < w) (hy : y < h) :
    positionOfPixel w x y < tileCount w h := by
  unfold positionOfPixel tileCount
  exact place_lt_of_row_lt (by unfold tilesAcross; omega) (by unfold tilesAcross; omega)

/-- A content pixel is told by its position and its cell. -/
theorem eq_of_position_of_cell {w x y a b : Nat} (hx : x < w) (ha : a < w)
    (hp : positionOfPixel w x y = positionOfPixel w a b)
    (hc : cellOfPixel x y = cellOfPixel a b) : (x, y) = (a, b) := by
  have hxa : x / 8 < tilesAcross w := by unfold tilesAcross; omega
  have haa : a / 8 < tilesAcross w := by unfold tilesAcross; omega
  have hpos : 0 < tilesAcross w := Nat.zero_lt_of_lt hxa
  unfold positionOfPixel at hp
  have hcol : x / 8 = a / 8 := by
    have := congrArg (· % tilesAcross w) hp
    simpa only [Nat.mul_add_mod_self_right, Nat.mod_eq_of_lt hxa, Nat.mod_eq_of_lt haa] using this
  have hrow : y / 8 = b / 8 :=
    Nat.eq_of_mul_eq_mul_right hpos (by rw [hcol] at hp; exact Nat.add_right_cancel hp)
  unfold cellOfPixel at hc
  rw [Prod.mk.injEq]
  omega

/-! ### A tile read (R27) -/

/-- What a tile position reads depends on the tile there and the front tile there. -/
theorem State.readTileCell_congr {s t : State} {f : Surface} {bank : List Tile} {pos cell : Nat}
    (h : ∀ z, bank[pos]? = some z ∨ f.front[pos]? = some z →
      t.pool.contentOf z = s.pool.contentOf z ∧
        readCell t.pool.pixels z cell = readCell s.pool.pixels z cell) :
    t.readTileCell f bank pos cell = s.readTileCell f bank pos cell := by
  unfold State.readTileCell
  cases hx : bank[pos]? with
  | none => rfl
  | some x =>
    obtain ⟨hc, hr⟩ := h x (.inl hx)
    dsimp only
    rw [hc, hr]
    cases hu : f.front[pos]? with
    | none => rfl
    | some u =>
      obtain ⟨hc', hr'⟩ := h u (.inr hu)
      dsimp only
      rw [hc', hr']

/-- A resolved tile's own cells are what its position read before. -/
theorem State.resolveTile_reads (s : State) (id : Nat) {pos d : Nat} {x : Tile} {bank : List Tile}
    (hx : bank[pos]? = some x) (hd : d < 64) :
    readCell (s.resolveTile id pos x).pool.pixels x d =
      s.readTileCell (s.surf id) bank pos d := by
  rw [State.resolveTile_readCell s id pos x x d hd, if_pos rfl]
  unfold State.readTileCell
  rw [hx]
  dsimp only
  cases s.pool.contentOf x with
  | data => rfl
  | blank => rfl
  | stale =>
    dsimp only
    cases (s.surf id).front[pos]? with
    | none => rfl
    | some u => dsimp only; cases s.pool.contentOf u <;> rfl

/-! ### One pixel written (R30, R73) -/

/-- The banks of a record hold one tile for each position, and no tile twice. -/
structure Surface.Banked (r : Surface) : Prop where
  front : r.front.length = tileCount r.width r.height
  back : r.banks = 2 → r.back.length = tileCount r.width r.height
  nodup : (r.front ++ r.back).Nodup

theorem Surface.drawBank_of_double {r : Surface} (h : r.banks = 2) : r.drawBank = r.back :=
  if_pos (beq_iff_eq.2 h)

theorem Surface.drawBank_of_single {r : Surface} (h : r.banks ≠ 2) : r.drawBank = r.front :=
  if_neg (mt beq_iff_eq.1 h)

theorem Surface.Banked.length_drawBank {r : Surface} (h : r.Banked) :
    r.drawBank.length = tileCount r.width r.height := by
  by_cases hb : r.banks = 2
  · rw [Surface.drawBank_of_double hb, h.back hb]
  · rw [Surface.drawBank_of_single hb, h.front]

theorem Surface.Banked.nodup_drawBank {r : Surface} (h : r.Banked) : r.drawBank.Nodup := by
  by_cases hb : r.banks = 2
  · rw [Surface.drawBank_of_double hb]; exact h.nodup.of_append_right
  · rw [Surface.drawBank_of_single hb]; exact h.nodup.of_append_left

/-- No tile of the bank that streams draw in is the front bank's tile at another position. -/
theorem Surface.Banked.position_of_front {r : Surface} (h : r.Banked) {p q : Nat} {x : Tile}
    (hp : r.drawBank[p]? = some x) (hq : r.front[q]? = some x) : r.banks ≠ 2 ∧ p = q := by
  have hb : r.banks ≠ 2 := fun hb => by
    rw [Surface.drawBank_of_double hb] at hp
    exact List.disjoint_of_nodup_append h.nodup (List.mem_of_getElem? hq) (List.mem_of_getElem? hp)
  rw [Surface.drawBank_of_single hb] at hp
  exact ⟨hb, (List.getElem?_inj (List.getElem?_eq_some_iff.1 hp).1 h.nodup.of_append_left).1
    (hp.trans hq.symm)⟩

/-- The tile of a content pixel. -/
theorem Surface.Banked.tile_at {r : Surface} (hr : r.Banked) {a b : Nat} (ha : a < r.width)
    (hb : b < r.height) : ∃ x, r.drawBank[positionOfPixel r.width a b]? = some x := by
  have hlt : positionOfPixel r.width a b < r.drawBank.length := by
    rw [hr.length_drawBank]; exact positionOfPixel_lt ha hb
  exact ⟨_, List.getElem?_eq_getElem hlt⟩

section
variable {s : State} {id : Nat} {r : Surface} {stale : Nat} {dirty : Bool}
  (hs : s.surf id = { r with stale := stale, dirty := dirty })
include hs

section
variable {a b : Nat} {x : Tile} (hx : r.drawBank[positionOfPixel r.width a b]? = some x)
include hx

theorem State.writePixel_pool (c : Rgb) : (s.writePixel id a b c).pool =
    { (s.resolveTile id (positionOfPixel r.width a b) x).pool with
      pixels := writeCell (s.resolveTile id (positionOfPixel r.width a b) x).pool.pixels x
        (cellOfPixel a b) c } := by
  have hdraw : (s.surf id).drawBank[positionOfPixel (s.surf id).width a b]? = some x := by
    rw [hs]; exact hx
  have hw : (s.surf id).width = r.width := by rw [hs]
  unfold State.writePixel
  dsimp only
  rw [hdraw, hw]
  rfl

theorem State.writePixel_contentOf (c : Rgb) (z : Tile) :
    (s.writePixel id a b c).pool.contentOf z = if z = x then .data else s.pool.contentOf z := by
  rw [State.writePixel_pool hs hx]
  exact State.resolveTile_contentOf s id _ x z

theorem State.writePixel_readCell (c : Rgb) (z : Tile) {d : Nat} (hd : d < 64) :
    readCell (s.writePixel id a b c).pool.pixels z d =
      if z = x then
        if d = cellOfPixel a b then c
        else s.readTileCell r r.drawBank (positionOfPixel r.width a b) d
      else readCell s.pool.pixels z d := by
  rw [State.writePixel_pool hs hx]
  dsimp only
  rw [readCell_writeCell _ _ _ _ _ _ (cellOfPixel_lt a b) hd]
  by_cases hz : z = x
  · subst hz
    rw [State.resolveTile_reads s id hx hd, hs]
    simp only [true_and, if_true]
    rfl
  · rw [if_neg fun h => hz h.1, if_neg hz, State.resolveTile_readCell s id _ x z d hd, if_neg hz]

end

variable (hr : r.Banked) {a b : Nat} (ha : a < r.width) (hb : b < r.height) (c : Rgb)
include hr ha hb

/-- A pixel written reads as its colour, and every other pixel of the bank as before. -/
theorem State.writePixel_readPixel {x y : Nat} (hx : x < r.width) :
    (s.writePixel id a b c).readPixel r r.drawBank x y =
      if (x, y) = (a, b) then c else s.readPixel r r.drawBank x y := by
  obtain ⟨u, hu⟩ := hr.tile_at ha hb
  by_cases hp : positionOfPixel r.width x y = positionOfPixel r.width a b
  · have hux := hu
    rw [← hp] at hux
    rw [State.readPixel_data hux (by rw [State.writePixel_contentOf hs hu, if_pos rfl]),
      State.writePixel_readCell hs hu c u (cellOfPixel_lt x y), if_pos rfl, ← hp]
    by_cases hc : cellOfPixel x y = cellOfPixel a b
    · rw [if_pos hc, if_pos (eq_of_position_of_cell hx ha hp hc)]
    · rw [if_neg hc, if_neg fun h => hc (by rw [Prod.mk.injEq] at h; rw [h.1, h.2])]
      rfl
  · rw [if_neg fun h => hp (by rw [Prod.mk.injEq] at h; rw [h.1, h.2])]
    refine State.readTileCell_congr fun z hz => ?_
    have hne : z ≠ u := by
      rintro rfl
      rcases hz with hz | hz
      · exact hp ((List.getElem?_inj (List.getElem?_eq_some_iff.1 hz).1 hr.nodup_drawBank).1
          (hz.trans hu.symm))
      · exact hp (hr.position_of_front hu hz).2.symm
    exact ⟨by rw [State.writePixel_contentOf hs hu, if_neg hne],
      by rw [State.writePixel_readCell hs hu c z (cellOfPixel_lt x y), if_neg hne]⟩

/-- No tile outside the bank changes its state or a cell. -/
theorem State.writePixel_outside {z : Tile} (hz : z ∉ r.drawBank) :
    (s.writePixel id a b c).pool.contentOf z = s.pool.contentOf z ∧ ∀ cell < 64,
      readCell (s.writePixel id a b c).pool.pixels z cell = readCell s.pool.pixels z cell := by
  obtain ⟨u, hu⟩ := hr.tile_at ha hb
  have hne : z ≠ u := fun h => hz (h ▸ List.mem_of_getElem? hu)
  exact ⟨by rw [State.writePixel_contentOf hs hu, if_neg hne],
    fun cell hc => by rw [State.writePixel_readCell hs hu c z hc, if_neg hne]⟩

end

/-! ### The pixels in order (R67, R68) -/

/-- The content pixel of the `i`-th pixel written from the cursor on. -/
def Stream.spot (st : Stream) (i : Nat) : Nat × Nat :=
  st.pixelAt ((st.place + i) % (st.ww * st.wh))

theorem Stream.pixelAt_place {st : Stream} (h : st.inside) :
    st.pixelAt st.place = (st.wx + st.cx, st.wy + st.cy) := by
  have hrow := Stream.row_lt h
  obtain ⟨hcx, hcy⟩ := h
  have hpos : 0 < st.ww := Nat.zero_lt_of_lt hcx
  have hmod : st.place % st.ww = st.cx := by
    rw [Stream.place_eq, Nat.mul_add_mod_self_right, Nat.mod_eq_of_lt hcx]
  have hdiv : st.place / st.ww = st.row := by
    rw [Stream.place_eq, Nat.add_comm, Nat.add_mul_div_right _ _ hpos, Nat.div_eq_of_lt hcx,
      Nat.zero_add]
  unfold Stream.pixelAt
  rw [hmod, hdiv]
  unfold Stream.row
  cases st.order with
  | down => rfl
  | up => dsimp only; rw [Nat.sub_sub_self (by omega)]

theorem Stream.pixelAt_of_setup {st u : Stream} (h : u.setup = st.setup) (place : Nat) :
    u.pixelAt place = st.pixelAt place := by
  obtain ⟨-, hwx, hwy, hww, hwh, -, -, -, horder⟩ := Stream.setup_inj h
  unfold Stream.pixelAt
  rw [hwx, hwy, hww, hwh, horder]

section
variable {st : Stream} (hin : st.inside) (hf : st.full = false) {i k : Nat} (hi : i < st.takes k)
include hin hf hi

/-- The stream behind `i` pixels, one more being taken. -/
theorem Stream.wrote_of_lt_takes : st.Wrote (Stream.wrotePixel^[i] st) i ∧
    (Stream.wrotePixel^[i] st).full = false := by
  have hlt : st.mode = .stop → i < st.left :=
    fun hm => Nat.lt_of_lt_of_le hi (st.takes_le_left k hm)
  have hw := Stream.wrote_iterate hin hf i fun hm => Nat.le_of_lt (hlt hm)
  refine ⟨hw, Bool.eq_false_iff.2 fun hfull => ?_⟩
  obtain ⟨hm, hle⟩ := hw.full.1 hfull
  exact Nat.not_le.2 (hlt hm) hle

theorem Stream.cursor_eq_spot : ((Stream.wrotePixel^[i] st).wx + (Stream.wrotePixel^[i] st).cx,
    (Stream.wrotePixel^[i] st).wy + (Stream.wrotePixel^[i] st).cy) = st.spot i := by
  obtain ⟨hw, hopen⟩ := Stream.wrote_of_lt_takes hin hf hi
  rw [← Stream.pixelAt_place hw.inside, Stream.pixelAt_of_setup hw.setup, hw.place hopen]
  rfl

end

theorem State.readPixel_of_pool {s t : State} (h : t.pool = s.pool) (r : Surface)
    (bank : List Tile) (x y : Nat) : t.readPixel r bank x y = s.readPixel r bank x y := by
  unfold State.readPixel State.readTileCell
  rw [h]

theorem State.ingestPixel_pool (s : State) (st : Stream) (bs : List Byte) :
    (s.ingestPixel st bs).pool = (s.writePixel st.surface (st.wx + st.cx) (st.wy + st.cy)
      (convertPixel s.colours st.format st.palette bs)).pool := by
  unfold State.ingestPixel
  dsimp only
  split <;> rfl

/-- A stream whose window lies in the content of a surface that the record `r` describes. -/
structure Stream.On (st : Stream) (r : Surface) : Prop where
  inside : st.inside
  opened : st.full = false
  width : st.wx + st.ww ≤ r.width
  height : st.wy + st.wh ≤ r.height
  banked : r.Banked

section
variable {s : State} {st : Stream} {r : Surface} (h : st.On r) (hs : s.surf st.surface = r)
  (ps : List (List Byte)) {i k : Nat} (hi : i < st.takes k)
include h hi

theorem Stream.On.spot_lt : (st.spot i).1 < r.width ∧ (st.spot i).2 < r.height := by
  obtain ⟨hw, -⟩ := Stream.wrote_of_lt_takes h.inside h.opened hi
  obtain ⟨-, hwx, hwy, hww, hwh, -⟩ := Stream.setup_inj hw.setup
  obtain ⟨hx, hy⟩ := hw.inside
  rw [hww] at hx
  rw [hwh] at hy
  rw [← Stream.cursor_eq_spot h.inside h.opened hi, hwx, hwy]
  exact ⟨Nat.lt_of_lt_of_le (Nat.add_lt_add_left hx _) h.width,
    Nat.lt_of_lt_of_le (Nat.add_lt_add_left hy _) h.height⟩

include hs

/-- One pixel more, written at its spot. -/
theorem State.drawn_succ_pool : ∃ stale dirty, (s.drawn st ps i).surf st.surface =
    { r with stale := stale, dirty := dirty } ∧ (s.drawn st ps (i + 1)).pool =
      ((s.drawn st ps i).writePixel st.surface (st.spot i).1 (st.spot i).2
        (convertPixel s.colours st.format st.palette (ps.getD i []))).pool := by
  obtain ⟨stale, -, hsurf⟩ := s.drawn_surf (st := st) ps i
  obtain ⟨hw, -⟩ := Stream.wrote_of_lt_takes h.inside h.opened hi
  obtain ⟨hid, -, -, -, -, hformat, hpalette, -⟩ := Stream.setup_inj hw.setup
  have hcursor := Stream.cursor_eq_spot h.inside h.opened hi
  have hcolours : (s.drawn st ps i).colours = s.colours := by
    rw [(s.drawn_drawnFrom st ps i).1]
  refine ⟨stale, _, by rw [hsurf, if_pos rfl, hs], ?_⟩
  rw [State.drawn_succ, State.ingestPixel_pool, hid, hformat, hpalette, hcolours, ← hcursor]

theorem State.drawn_succ_readPixel {x y : Nat} (hx : x < r.width) :
    (s.drawn st ps (i + 1)).readPixel r r.drawBank x y =
      if (x, y) = st.spot i then convertPixel s.colours st.format st.palette (ps.getD i [])
      else (s.drawn st ps i).readPixel r r.drawBank x y := by
  obtain ⟨_, _, hsurf, hpool⟩ := State.drawn_succ_pool h hs ps hi
  obtain ⟨ha, hb⟩ := h.spot_lt hi
  rw [State.readPixel_of_pool hpool, State.writePixel_readPixel hsurf h.banked ha hb _ hx]

theorem State.drawn_succ_outside {z : Tile} (hz : z ∉ r.drawBank) :
    (s.drawn st ps (i + 1)).pool.contentOf z = (s.drawn st ps i).pool.contentOf z ∧
      ∀ cell < 64, readCell (s.drawn st ps (i + 1)).pool.pixels z cell =
        readCell (s.drawn st ps i).pool.pixels z cell := by
  obtain ⟨_, _, hsurf, hpool⟩ := State.drawn_succ_pool h hs ps hi
  obtain ⟨ha, hb⟩ := h.spot_lt hi
  rw [hpool]
  exact State.writePixel_outside hsurf h.banked ha hb _ hz

end

section
variable {s : State} {st : Stream} {r : Surface} (h : st.On r) (hs : s.surf st.surface = r)
  (ps : List (List Byte)) {m k : Nat} (hm : m ≤ st.takes k)
include h hs hm

/-- The pixels that no pixel of the WRITE meets. -/
theorem State.drawn_readPixel_untouched {x y : Nat} (hx : x < r.width)
    (hxy : ∀ i < m, st.spot i ≠ (x, y)) :
    (s.drawn st ps m).readPixel r r.drawBank x y = s.readPixel r r.drawBank x y := by
  induction m with
  | zero => rfl
  | succ m ih =>
    rw [State.drawn_succ_readPixel h hs ps hm hx, if_neg (hxy m (Nat.lt_succ_self m)).symm]
    exact ih (Nat.le_of_succ_le hm) fun i hi => hxy i (Nat.lt_succ_of_lt hi)

/-- The last pixel written at a spot is the one read there. -/
theorem State.drawn_readPixel_last {i : Nat} (hi : i < m)
    (hlast : ∀ j, i < j → j < m → st.spot j ≠ st.spot i) :
    (s.drawn st ps m).readPixel r r.drawBank (st.spot i).1 (st.spot i).2 =
      convertPixel s.colours st.format st.palette (ps.getD i []) := by
  induction m with
  | zero => cases hi
  | succ m ih =>
    have hx := (h.spot_lt (Nat.lt_of_lt_of_le hi hm)).1
    rw [State.drawn_succ_readPixel h hs ps hm hx]
    rcases Nat.lt_succ_iff_lt_or_eq.1 hi with hlt | rfl
    · rw [if_neg fun e => hlast m hlt (Nat.lt_succ_self m) e.symm]
      exact ih (Nat.le_of_succ_le hm) hlt fun j h1 h2 => hlast j h1 (Nat.lt_succ_of_lt h2)
    · exact if_pos rfl

theorem State.drawn_outside {z : Tile} (hz : z ∉ r.drawBank) :
    (s.drawn st ps m).pool.contentOf z = s.pool.contentOf z ∧
      ∀ cell < 64, readCell (s.drawn st ps m).pool.pixels z cell = readCell s.pool.pixels z cell := by
  induction m with
  | zero => exact ⟨rfl, fun _ _ => rfl⟩
  | succ m ih =>
    obtain ⟨hc, hr⟩ := State.drawn_succ_outside h hs ps hm hz
    obtain ⟨hc', hr'⟩ := ih (Nat.le_of_succ_le hm)
    exact ⟨hc.trans hc', fun cell hcell => (hr cell hcell).trans (hr' cell hcell)⟩

/-- The front bank of a double-banked surface reads as before. -/
theorem State.drawn_readPixel_front (hb : r.banks = 2) (x y : Nat) :
    (s.drawn st ps m).readPixel r r.front x y = s.readPixel r r.front x y := by
  refine State.readTileCell_congr fun z hz => ?_
  have hfront : z ∈ r.front := List.mem_of_getElem? (hz.elim id id)
  obtain ⟨hc, hr⟩ := State.drawn_outside h hs ps hm (z := z) (by
    rw [Surface.drawBank_of_double hb]
    exact fun hback => List.disjoint_of_nodup_append h.banked.nodup hfront hback)
  exact ⟨hc, hr _ (cellOfPixel_lt x y)⟩

end

theorem Stream.pixelsOf_eq_takes {st : Stream} (hf : st.full = false) (payload : List Byte) :
    st.pixelsOf payload.length = st.takes (st.pixels payload).length := by
  rw [Stream.length_pixels]
  unfold Stream.pixelsOf Stream.takes
  rw [hf]
  cases st.mode with
  | wrap => rfl
  | stop =>
    simp only [true_and, Bool.false_eq_true, if_false]
    rw [Nat.min_comm]
    rfl

/-- Settles O30: the pixels one after another, each writing its own cell and no other. -/
theorem writtenPixelReadsBack : Obligations.WrittenPixelReadsBack := by
  intro s f slot st payload r hslot hst hopen hid hr hcx hcy hw hh hfront hback hnodup hfills _ h1 h2 ha
  have hon : st.On r := ⟨⟨hcx, hcy⟩, hopen, hw, hh, ⟨hfront, hback, hnodup⟩⟩
  refine ⟨_, exec_write_taken hslot hst hopen (by rw [← hr]; exact hfills) h1 h2 ha, ?_⟩
  intro n spot bytes
  have hn : n = st.takes (st.pixels payload).length := Stream.pixelsOf_eq_takes hopen payload
  have hgroup : ∀ i < n, (st.pixels payload).getD i [] = bytes i := fun i hi => by
    have hlt : i < (st.pixels payload).length :=
      Nat.lt_of_lt_of_le hi (hn ▸ st.takes_le _)
    rw [Stream.length_pixels] at hlt
    rw [List.getD_eq_getElem?_getD, Stream.pixels, groupsOf_getElem? hlt, Nat.mul_comm]
    rfl
  rw [State.takeWrite_eq s.takeRequest slot hon.inside payload (n := n) rfl rfl
    (by rw [hn, Stream.length_pixels]) rfl]
  have hs : s.takeRequest.surf st.surface = r := hr.symm
  obtain ⟨stale, -, hsurf⟩ := s.takeRequest.drawn_surf (st := st) (st.pixels payload) n
  have hlast {i : Nat} := State.drawn_readPixel_last hon hs (st.pixels payload) hn.le (i := i)
  have hrest {x y : Nat} := State.drawn_readPixel_untouched hon hs (st.pixels payload) hn.le
    (x := x) (y := y)
  have hshown := State.drawn_readPixel_front hon hs (st.pixels payload) hn.le
  have houtside {z : Tile} := State.drawn_outside hon hs (st.pixels payload) hn.le (z := z)
  generalize s.takeRequest.drawn st (st.pixels payload) n = t at hsurf hlast hrest hshown houtside ⊢
  have hself := (hsurf st.surface).trans (if_pos rfl)
  rw [hs] at hself
  simp only [show ∀ u a, ((t.setSlot slot (some u)).queueReply f a).surf st.surface =
    t.surf st.surface from fun _ _ => rfl, hself]
  refine ⟨fun i hi hj => ?_, fun x y hx _ hxy => hrest hx hxy, fun hb x y _ _ => hshown hb x y,
    fun x hx => houtside hx⟩
  rw [← hgroup i hi]
  exact hlast hi hj

end Sys2Proof.Machine
end
